-- ==== Sys2Proof/Word.lean ====
section
/-! DEFINITION. The word types of the Z41 and the plain containers its state is made of. -/

namespace Sys2Proof

/-- A byte of memory (R2). -/
abbrev Byte := BitVec 8

/-- A 32-bit lane or scalar word. -/
abbrev Word := BitVec 32

/-- A 64-bit register pair, address or format definition register. -/
abbrev DWord := BitVec 64

/-- A mask of the 64 lanes of a flock: bit l is lane l (R21). -/
abbrev LaneMask := BitVec 64

/-- A row: one vector register across the flock, ROWBITS = 2,048 bits (R1, R68). -/
abbrev Row := BitVec 2048

/-- A line of 128 bytes (R252). -/
abbrev Line := BitVec 1024

/-- Sparse contents by key. The canonical form (keys strictly rising, no entry equal to the default) is
kept by the operations of Machine/Cells.lean, so equal contents are equal lists. -/
abbrev Cells (α : Type) := List (Nat × α)

/-- Lanes per flock, FLOCKW (R1). -/
abbrev flockW : Nat := 64

/-- Bits in a row, ROWBITS (R1). -/
abbrev rowBits : Nat := 2048

end Sys2Proof
end

