-- ==== Sys2Proof/Syntax.lean ====
section
/-! DEFINITION. The instructions and events of the Z41: one constructor for each row of the opcode table.
The first 140 constructors are the instructions of the Ontex opcode map (R106); the rest are the steps that
the device's units, the host and the board make (95_what_each_step_holds.md). -/

namespace Sys2Proof

/-- A register number field (R80, R81). The file is named by the instruction. -/
abbrev Reg := BitVec 8

/-- A routing modifier (R99): [11:9] CLASS, [8:6] SEG, [5:0] DIST. -/
abbrev Route := BitVec 12

/-- The guard predicate of an instruction (R80, R85). -/
inductive Guard where
  | always
  | pred (p : Reg) (neg : Bool)
  deriving DecidableEq, Repr

/-- A source operand (R81 to R83). -/
inductive Src where
  /-- KIND 00: a vector register, with its routing modifier. -/
  | v (r : Reg) (rt : Route)
  /-- KIND 01: a scalar register. -/
  | s (r : Reg)
  /-- The 32-bit immediate of the full form (R82). -/
  | imm (w : BitVec 32)
  /-- The 16-bit immediate of a restricted half (R83). -/
  | imm16 (w : BitVec 16)
  deriving DecidableEq, Repr

/-- A source of a format-slot instruction, with NEG and ABS (R102). -/
structure FSrc where
  src : Src
  neg : Bool
  abs : Bool
  deriving DecidableEq, Repr

/-- The set-flag an instruction names in FLG (R80, R93). -/
inductive FlagSel where
  | none
  | a
  | b
  deriving DecidableEq, Repr

/-! ### Operand shapes of the instructions -/

/-- Guard only: NOP, EXIT. -/
structure GOp where
  g : Guard
  deriving DecidableEq, Repr

/-- BRA (R129): an optional uniform predicate, its negation, and the target displacement. -/
structure BraOp where
  g : Guard
  cond : Option (Reg × Bool)
  disp : BitVec 32
  deriving DecidableEq, Repr

/-- BRX (R130). -/
structure BrxOp where
  g : Guard
  p : Reg
  neg : Bool
  disp : BitVec 32
  deriving DecidableEq, Repr

/-- One source register: BRI (a scalar pair), RET (a vector pair). -/
structure AOp where
  g : Guard
  a : Reg
  deriving DecidableEq, Repr

/-- One destination register and a target displacement: CALL (link pair), LOOP (counter). -/
structure DDispOp where
  g : Guard
  d : Reg
  disp : BitVec 32
  deriving DecidableEq, Repr

/-- YIELD (R135). -/
structure YieldOp where
  g : Guard
  swap : Bool
  deriving DecidableEq, Repr

/-- WAITF (R136). -/
structure WaitfOp where
  g : Guard
  mask : BitVec 12
  n : BitVec 6
  deriving DecidableEq, Repr

/-- PLTAB and QLTAB (R138). -/
structure Tab3Op where
  g : Guard
  d : Reg
  a : Reg
  b : Reg
  c : Reg
  lut : BitVec 8
  deriving DecidableEq, Repr

/-- One destination register: PMOV.TOV (R138). -/
structure DOp where
  g : Guard
  d : Reg
  deriving DecidableEq, Repr

/-- One routed vector source: PMOV.FROMV (R138). -/
structure VOp where
  g : Guard
  a : Reg
  rt : Route
  deriving DecidableEq, Repr

/-- The modes of POLL (R139). -/
inductive PollMode where
  | every
  | some
  | same
  | mask
  | count
  deriving DecidableEq, Repr

/-- POLL (R139). -/
structure PollOp where
  g : Guard
  mode : PollMode
  neg : Bool
  d : Reg
  a : Reg
  deriving DecidableEq, Repr

/-- Destination and one source: QSET, scalar SPOPC and SCLZ, SMOV. -/
structure D1Op where
  g : Guard
  d : Reg
  a : Src
  deriving DecidableEq, Repr

/-- Scalar two-source operation (R140). -/
structure S2Op where
  g : Guard
  d : Reg
  a : Reg
  b : Src
  deriving DecidableEq, Repr

/-- Scalar two-source operation with a signedness bit: `u` is SUB[0] (R140). -/
structure S2UOp where
  g : Guard
  u : Bool
  d : Reg
  a : Reg
  b : Src
  deriving DecidableEq, Repr

/-- Scalar three-source operation (R140). -/
structure S3Op where
  g : Guard
  d : Reg
  a : Reg
  b : Reg
  c : Src
  deriving DecidableEq, Repr

/-- SLTAB (R140). -/
structure S3LOp where
  g : Guard
  lut : BitVec 8
  d : Reg
  a : Reg
  b : Reg
  c : Src
  deriving DecidableEq, Repr

/-- Destination and a 32-bit immediate: SMOVI (R140). -/
structure DImmOp where
  g : Guard
  d : Reg
  imm : BitVec 32
  deriving DecidableEq, Repr

/-- The integer conditions of R143. -/
inductive ICond where
  | eq | ne | lt | le | gt | ge | ltu | leu | gtu | geu
  deriving DecidableEq, Repr

/-- SCMP (R143): the destination is a uniform predicate. -/
structure ScmpOp where
  g : Guard
  cond : ICond
  d : Reg
  a : Reg
  b : Src
  deriving DecidableEq, Repr

/-- SSEL (R140): SA names a uniform predicate. -/
structure SselOp where
  g : Guard
  neg : Bool
  d : Reg
  c : Reg
  a : Reg
  b : Src
  deriving DecidableEq, Repr

/-- Vector one-source operation (R158). -/
structure V1Op where
  g : Guard
  d : Reg
  a : Src
  deriving DecidableEq, Repr

/-- Vector two-source operation (R158). -/
structure V2Op where
  g : Guard
  d : Reg
  a : Src
  b : Src
  deriving DecidableEq, Repr

/-- Vector two-source operation with a signedness bit `u` = SUB[0] (R158). -/
structure V2UOp where
  g : Guard
  u : Bool
  d : Reg
  a : Src
  b : Src
  deriving DecidableEq, Repr

/-- Vector three-source operation (R158). -/
structure V3Op where
  g : Guard
  d : Reg
  a : Src
  b : Src
  c : Src
  deriving DecidableEq, Repr

/-- IMADW (R160). -/
structure V3UOp where
  g : Guard
  u : Bool
  d : Reg
  a : Src
  b : Src
  c : Src
  deriving DecidableEq, Repr

/-- LTAB (R158). -/
structure V3LOp where
  g : Guard
  lut : BitVec 8
  d : Reg
  a : Src
  b : Src
  c : Src
  deriving DecidableEq, Repr

/-- IADDC and ISUBB (R159): `po` and `pi` name p0 to p23, or none. -/
structure VCarryOp where
  g : Guard
  d : Reg
  po : Option Reg
  a : Src
  b : Src
  pi : Option Reg
  deriving DecidableEq, Repr

/-- ICMP (R162). -/
structure IcmpOp where
  g : Guard
  cond : ICond
  d : Reg
  a : Src
  b : Src
  deriving DecidableEq, Repr

/-- SEL (R162): `c` names the predicate. -/
structure SelOp where
  g : Guard
  neg : Bool
  d : Reg
  c : Reg
  a : Src
  b : Src
  deriving DecidableEq, Repr

/-- MOVS (R162). -/
structure MovsOp where
  g : Guard
  pair : Bool
  d : Reg
  a : Reg
  deriving DecidableEq, Repr

/-- Destination and one routed vector register: MOV, MOVX.TOX. -/
structure DVOp where
  g : Guard
  d : Reg
  a : Reg
  rt : Route
  deriving DecidableEq, Repr

/-- Destination and one register: MOVX.FROMX. -/
structure DAOp where
  g : Guard
  d : Reg
  a : Reg
  deriving DecidableEq, Repr

/-- Format-slot one-source operation (R163, R175). `tid` is AUX[4:0] when AUX[5] = 1 (R156). -/
structure F1Op where
  g : Guard
  fs : BitVec 4
  row : Bool
  tid : Option (BitVec 5)
  d : Reg
  a : FSrc
  deriving DecidableEq, Repr

/-- Format-slot two-source operation (R163). -/
structure F2Op where
  g : Guard
  fs : BitVec 4
  row : Bool
  tid : Option (BitVec 5)
  d : Reg
  a : FSrc
  b : FSrc
  deriving DecidableEq, Repr

/-- FMA (R163). -/
structure F3Op where
  g : Guard
  fs : BitVec 4
  row : Bool
  tid : Option (BitVec 5)
  d : Reg
  a : FSrc
  b : FSrc
  c : FSrc
  deriving DecidableEq, Repr

/-- The float conditions of R165. -/
inductive FCond where
  | eq | ne | lt | le | gt | ge | ord | un
  deriving DecidableEq, Repr

/-- FCMP (R165). -/
structure FcmpOp where
  g : Guard
  fs : BitVec 4
  cond : FCond
  d : Reg
  a : FSrc
  b : FSrc
  deriving DecidableEq, Repr

/-- FCLASS (R166). -/
structure FclassOp where
  g : Guard
  fs : BitVec 4
  d : Reg
  a : FSrc
  deriving DecidableEq, Repr

/-- FRINT (R167): `mode` is SUB[2:0] when SUB[3] = 1. -/
structure FrintOp where
  g : Guard
  fs : BitVec 4
  row : Bool
  tid : Option (BitVec 5)
  mode : Option (BitVec 3)
  d : Reg
  a : FSrc
  deriving DecidableEq, Repr

/-- FSCALE (R168): B is an integer source. -/
structure FscaleOp where
  g : Guard
  fs : BitVec 4
  row : Bool
  tid : Option (BitVec 5)
  d : Reg
  a : FSrc
  b : Src
  deriving DecidableEq, Repr

/-- CVT (R170): `short` marks the restricted form, which may name no scaled slot (R171). -/
structure CvtOp where
  g : Guard
  fs : BitVec 4
  row : Bool
  cs : BitVec 4
  part : BitVec 4
  d : Reg
  a : Src
  sc : Reg
  scrt : Route
  tid : Option Src
  short : Bool
  deriving DecidableEq, Repr

/-- CVTEF (R172): `res` is the residue slot. -/
structure CvtefOp where
  g : Guard
  fs : BitVec 4
  row : Bool
  cs : BitVec 4
  part : BitVec 4
  res : BitVec 4
  d : Reg
  a : Src
  sc : Reg
  scrt : Route
  tid : Option Src
  deriving DecidableEq, Repr

/-- PACK (R173). -/
structure PackOp where
  g : Guard
  fs : BitVec 4
  k : BitVec 4
  d : Reg
  a : Reg
  rt : Route
  deriving DecidableEq, Repr

/-- UNPACK (R173). -/
structure UnpackOp where
  g : Guard
  fs : BitVec 4
  k : BitVec 4
  sext : Bool
  d : Reg
  a : Reg
  rt : Route
  deriving DecidableEq, Repr

/-- FDRW (R174). -/
structure FdrwOp where
  g : Guard
  fs : BitVec 4
  a : Src
  deriving DecidableEq, Repr

/-- FDRR (R174). -/
structure FdrrOp where
  g : Guard
  fs : BitVec 4
  d : Reg
  deriving DecidableEq, Repr

/-- The operations of REDL and SCANL (R176). -/
inductive RedOp where
  | iadd | iminS | iminU | imaxS | imaxU | and | or | xor | fadd | fmin | fmax
  deriving DecidableEq, Repr

/-- REDL (R176): `seg` is SUB[6:4]. -/
structure RedlOp where
  g : Guard
  fs : BitVec 4
  op : RedOp
  seg : BitVec 3
  d : Reg
  a : Src
  deriving DecidableEq, Repr

/-- SCANL (R177). -/
structure ScanlOp where
  g : Guard
  fs : BitVec 4
  op : RedOp
  seg : BitVec 3
  excl : Bool
  d : Reg
  a : Src
  deriving DecidableEq, Repr

/-- MATCH (R178). -/
structure MatchOp where
  g : Guard
  pair : Bool
  pe : Option Reg
  d : Reg
  a : Reg
  rt : Route
  deriving DecidableEq, Repr

/-- BDEC (R179): the width is a routed vector source or an immediate. -/
structure BdecOp where
  g : Guard
  flg : FlagSel
  sext : Bool
  d : Reg
  a : Reg
  width : Src
  deriving DecidableEq, Repr

/-- LD and ST (R190): base pair `a`, index `idx`, optional offset. -/
structure MemOp where
  g : Guard
  flg : FlagSel
  size : BitVec 3
  ord : BitVec 2
  scope : BitVec 4
  hint : BitVec 2
  d : Reg
  a : Reg
  idx : Src
  off : Option Src
  deriving DecidableEq, Repr

/-- SLD and SST (R190). -/
structure SMemOp where
  g : Guard
  flg : FlagSel
  size : BitVec 3
  ord : BitVec 2
  scope : BitVec 4
  hint : BitVec 2
  d : Reg
  a : Reg
  off : Option Src
  deriving DecidableEq, Repr

/-- LDP and STP (R191). -/
structure PMemOp where
  g : Guard
  flg : FlagSel
  fs : BitVec 4
  ord : BitVec 2
  scope : BitVec 4
  hint : BitVec 2
  d : Reg
  a : Reg
  b : Reg
  count : Option Src
  deriving DecidableEq, Repr

/-- STM (R192). -/
structure StmOp where
  g : Guard
  flg : FlagSel
  ord : BitVec 2
  scope : BitVec 4
  hint : BitVec 2
  d : Reg
  a : Reg
  b : Src
  m : Src
  deriving DecidableEq, Repr

/-- LDL and STL (R193). -/
structure LMemOp where
  g : Guard
  flg : FlagSel
  size : BitVec 3
  ord : BitVec 2
  scope : BitVec 4
  d : Reg
  a : Src
  off : Option Src
  deriving DecidableEq, Repr

/-- LDX and STX (R194): `k` is the rank. -/
structure XMemOp where
  g : Guard
  flg : FlagSel
  size : BitVec 3
  ord : BitVec 2
  scope : BitVec 4
  d : Reg
  k : Src
  a : Src
  off : Option Src
  deriving DecidableEq, Repr

/-- The operations of ATOM, RED and RED.D (R196). -/
inductive AtomFn where
  | swap | cas | add | minS | minU | maxS | maxU | and | or | xor | fadd | fmin | fmax
  deriving DecidableEq, Repr

/-- ATOM (R196). -/
structure AtomOp where
  g : Guard
  flg : FlagSel
  fs : BitVec 4
  fn : AtomFn
  wide : Bool
  ord : BitVec 2
  scope : BitVec 4
  hint : BitVec 2
  d : Reg
  a : Reg
  idx : Src
  c : Src
  deriving DecidableEq, Repr

/-- RED (R196). -/
structure RedMemOp where
  g : Guard
  flg : FlagSel
  fs : BitVec 4
  fn : AtomFn
  wide : Bool
  ord : BitVec 2
  scope : BitVec 4
  hint : BitVec 2
  a : Reg
  idx : Src
  c : Src
  deriving DecidableEq, Repr

/-- RED.D (R199). -/
structure RedDOp where
  g : Guard
  flg : FlagSel
  fs : BitVec 4
  fn : AtomFn
  wide : Bool
  hint : BitVec 2
  a : Reg
  idx : Src
  c : Src
  deriving DecidableEq, Repr

/-- DFLUSH (R203). -/
structure DflushOp where
  g : Guard
  flg : FlagSel
  scope : BitVec 4
  deriving DecidableEq, Repr

/-- FENCE (R205): `ord` is SUB[3:2]. -/
structure FenceOp where
  g : Guard
  flg : FlagSel
  ord : BitVec 2
  scope : BitVec 4
  deriving DecidableEq, Repr

/-- MWAIT (R206). -/
structure MwaitOp where
  g : Guard
  scope : BitVec 4
  d : Option Reg
  a : Reg
  e : Src
  deriving DecidableEq, Repr

/-- PREF (R207): `level` is SUB[1:0]. -/
structure PrefOp where
  g : Guard
  level : BitVec 2
  a : Reg
  idx : Src
  off : Option Src
  deriving DecidableEq, Repr

/-- CCTL (R208): `addr` is absent in the l1inv form. -/
structure CctlOp where
  g : Guard
  flg : FlagSel
  op : BitVec 3
  addr : Option (Reg × Src × Option Src)
  deriving DecidableEq, Repr

/-- The modes of MMA and MTREE (R217, R224). -/
inductive TreeMode where
  | zero | acc | node
  deriving DecidableEq, Repr

/-- MMA (R217). -/
structure MmaOp where
  g : Guard
  flg : FlagSel
  fs : BitVec 4
  mode : TreeMode
  msk : Bool
  mv : Bool
  tfua : Bool
  tfub : Bool
  bs : Bool
  d : Reg
  c : Reg
  p : Reg
  fb : Reg
  deriving DecidableEq, Repr

/-- MTREE (R224): `n1` is AUX, n - 1. -/
structure MtreeOp where
  g : Guard
  flg : FlagSel
  mode : TreeMode
  n1 : BitVec 6
  d : Reg
  w : Reg
  c : Reg
  deriving DecidableEq, Repr

/-- AMLD (R225). -/
structure AmldOp where
  g : Guard
  flg : FlagSel
  d : Reg
  a : Reg
  t : Option Reg
  deriving DecidableEq, Repr

/-- AMST (R225). -/
structure AmstOp where
  g : Guard
  flg : FlagSel
  a : Reg
  s : Reg
  deriving DecidableEq, Repr

/-- AMZ (R225). -/
structure AmzOp where
  g : Guard
  flg : FlagSel
  d : Reg
  deriving DecidableEq, Repr

/-- AMCVT (R226): `rs` is AUX[4:0] when AUX[5] = 1. -/
structure AmcvtOp where
  g : Guard
  flg : FlagSel
  fs : BitVec 4
  rs : Option (BitVec 5)
  a : Reg
  s : Reg
  t : Option Src
  deriving DecidableEq, Repr

/-- COPY (R228). -/
structure CopyOp where
  g : Guard
  flg : FlagSel
  scope : BitVec 4
  mode : BitVec 2
  cvt : Bool
  tr : Bool
  ef : Bool
  sel : BitVec 2
  stamp : Bool
  crcd : Bool
  crcs : Bool
  p : Reg
  bar : Option Reg
  deriving DecidableEq, Repr

/-- CPYB (R236). -/
structure CpybOp where
  g : Guard
  flg : FlagSel
  d : Option Reg
  deriving DecidableEq, Repr

/-- WAITB (R237). -/
structure WaitbOp where
  g : Guard
  le : Bool
  a : Src
  deriving DecidableEq, Repr

/-- BARI (R239). -/
structure BariOp where
  g : Guard
  flg : FlagSel
  drove : Bool
  trap : Bool
  a : Reg
  n : Src
  deriving DecidableEq, Repr

/-- BARA (R239). -/
structure BaraOp where
  g : Guard
  flg : FlagSel
  drove : Bool
  d : Reg
  a : Reg
  b : Option Src
  deriving DecidableEq, Repr

/-- BARW and BART (R239). -/
structure BarwOp where
  g : Guard
  flg : FlagSel
  drove : Bool
  d : Reg
  a : Reg
  p : Reg
  deriving DecidableEq, Repr

/-- LAUNCH (R243). -/
structure LaunchOp where
  g : Guard
  flg : FlagSel
  d : Reg
  a : Reg
  deriving DecidableEq, Repr

/-- LWAIT (R244): no register in the `.all` form. -/
structure LwaitOp where
  g : Guard
  a : Option Reg
  deriving DecidableEq, Repr

/-- TRAP, TKILL, BRK (R148). -/
structure NOp where
  g : Guard
  n : BitVec 8
  deriving DecidableEq, Repr

/-- TRET (R149). -/
structure TretOp where
  g : Guard
  next : Bool
  deriving DecidableEq, Repr

/-- SRD (R144): `vec` is AUX[0]. -/
structure SrdOp where
  g : Guard
  n : BitVec 8
  vec : Bool
  d : Reg
  deriving DecidableEq, Repr

/-- SWR (R146). -/
structure SwrOp where
  g : Guard
  n : BitVec 8
  a : Src
  deriving DecidableEq, Repr

/-- SGETL (R152). -/
structure SgetlOp where
  g : Guard
  d : Reg
  a : Src
  l : Src
  deriving DecidableEq, Repr

/-- SPUTL (R152): `own` is AUX[0]. -/
structure SputlOp where
  g : Guard
  own : Bool
  d : Reg
  a : Reg
  l : Src
  deriving DecidableEq, Repr

/-- The images of SGETP and SPUTP (R153). -/
inductive PImage where
  | preds | index | uniform
  deriving DecidableEq, Repr

/-- SGETP (R152): no lane operand need be given for the uniform image. -/
structure SgetpOp where
  g : Guard
  which : PImage
  d : Reg
  l : Option Src
  deriving DecidableEq, Repr

/-- SPUTP (R152). -/
structure SputpOp where
  g : Guard
  which : PImage
  a : Reg
  l : Option Src
  deriving DecidableEq, Repr

/-! ### Operands of the events -/

/-- A flock, by its fold's internal number and its FLOCKID. -/
structure FlockRef where
  fold : Nat
  flock : Nat
  deriving DecidableEq, Repr

/-- A live split of a flock, by its place in the flock's list of live splits. -/
structure SplitRef where
  fold : Nat
  flock : Nat
  split : Nat
  deriving DecidableEq, Repr

/-- The kinds of access that translation distinguishes (R268, R324). -/
inductive Access where
  | read | write | rmw | fetch
  deriving DecidableEq, Repr

/-- A Zutix message as it arrives at an endpoint (R356): the bytes of its SEND, and its header. Its payload stands in the
constructor; a TYPE or an OP that is not that of the constructor's row is no message of R357, and is answered so. -/
structure Msg where
  ep : Nat
  bytes : Nat
  type : Nat
  len : Nat
  queue : BitVec 32
  seq : Nat
  tag : DWord
  status : BitVec 32
  /-- The word at 0x1C. -/
  zero : BitVec 32
  deriving DecidableEq, Repr

/-- A host RDMA window (R361). -/
structure Window where
  base : Nat
  len : Nat
  rkey : BitVec 32
  access : BitVec 32
  deriving DecidableEq, Repr

/-- The first words of a MAP payload (R363): OP and the reserved word. -/
structure MapHead where
  op : BitVec 32
  rsv : BitVec 32
  deriving DecidableEq, Repr

/-- BASE and LENGTH of a MAP command with OP 1. -/
structure MapRange where
  base : DWord
  len : DWord
  deriving DecidableEq, Repr

/-- The payload of a MAP command with OP 2: its head and the 16 bytes of its body. -/
structure MapArgs extends MapHead where
  lo : DWord
  hi : DWord
  deriving DecidableEq, Repr

/-- The first words of a DIECTL payload (R373). -/
structure DieHead where
  op : BitVec 32
  die : BitVec 32
  deriving DecidableEq, Repr

/-- The payload of a DIECTL command of OP 1 to 3. -/
structure DieArgs extends DieHead where
  carve : BitVec 32
  deriving DecidableEq, Repr

/-- A walk that a die's walkers make for a context (R270). -/
structure WalkRef where
  die : Nat
  ctx : Nat
  deriving DecidableEq, Repr

/-- The payload of a CONTEXT command (R361). -/
structure CtxArgs where
  op : BitVec 32
  ctx : Nat
  ptroot : DWord
  lsap : DWord
  trapbase : DWord
  sched : BitVec 32
  stage : BitVec 32
  spill : DWord
  saveBase : DWord
  saveSize : DWord
  faultto : BitVec 32
  nwin : BitVec 32
  wins : List Window
  deriving DecidableEq, Repr

/-- The payload of a Zutix COPY (R362): the bytes at 0x03, the word at 0x1C, and the three records of 64 bytes each. -/
structure CopyArgs where
  sub : BitVec 8
  aux : BitVec 8
  host : BitVec 8
  rsv : BitVec 40
  seed : DWord
  opnd : DWord
  rkey : BitVec 32
  zero : BitVec 32
  recs : List Byte
  deriving DecidableEq, Repr

/-- The operation block of a DEBUG command (R342), with the words at 0x24 and 0x38. -/
structure DbgArgs where
  op : BitVec 32
  flags : BitVec 32
  pastid : BitVec 32
  foldid : BitVec 32
  flockid : BitVec 16
  lane : BitVec 8
  space : BitVec 8
  kernid : BitVec 32
  ord : BitVec 32
  index : BitVec 32
  count : BitVec 32
  zero24 : BitVec 32
  buf : DWord
  bufsize : DWord
  zero38 : DWord
  deriving DecidableEq, Repr

/-- The block of a QUERY payload (R379). -/
structure QueryArgs where
  sel : BitVec 32
  unit : BitVec 32
  ctx : BitVec 32
  count : BitVec 32
  deriving DecidableEq, Repr

/-- An access of a peer device over UALink (R291, R372). -/
inductive PeerReq where
  | read (va : Nat) (len : Nat)
  | write (va : Nat) (bytes : List Byte)
  /-- With the image of the requester's format slot, for a float operation. -/
  | atomic (fn : AtomFn) (wide : Bool) (va : Nat) (slot c new : DWord)
  deriving DecidableEq, Repr

/-- What a soft error strikes (R332, R378). -/
inductive ErrSite where
  /-- Corrected by SECDED: counted and nothing else; the class of R378. -/
  | corrected (die : Nat) (cls : Nat)
  | vreg (r : FlockRef) (reg lane : Nat)
  | sreg (r : FlockRef) (reg : Nat)
  | pred (r : FlockRef) (reg lane : Nat)
  | index (r : FlockRef) (reg lane : Nat)
  | uniform (r : FlockRef) (reg : Nat)
  /-- A scalar register of the shadow bank of a flock, or one of its uniform predicates. -/
  | shadow (r : FlockRef) (reg : Nat)
  | shadowQ (r : FlockRef) (reg : Nat)
  | localStore (fold : Nat) (word : Nat)
  | tile (fold : Nat) (word : Nat)
  /-- A line of L1, L2, the Mantle or HBM, by its home line, and the die of that cache; `dirty` when it is held dirty
  there. -/
  | line (cls die : Nat) (line : Nat) (dirty : Bool)
  | fleece (fold : Nat)
  deriving DecidableEq, Repr

/-- An image in a flash slot (R368). -/
structure BootImage where
  key : List Byte
  version : Nat
  digest : List Byte
  body : List Byte
  sig : List Byte
  deriving DecidableEq, Repr

/-- One constructor for each row of the opcode table, in the table's order. -/
inductive Instr where
  -- control, R128 to R137
  | nop (o : GOp)
  | bra (o : BraOp)
  | brx (o : BrxOp)
  | bri (o : AOp)
  | call (o : DDispOp)
  | ret (o : AOp)
  | loop (o : DDispOp)
  | exit (o : GOp)
  | yield (o : YieldOp)
  | waitf (o : WaitfOp)
  -- predicates, R138, R139
  | pltab (o : Tab3Op)
  | pmovTov (o : DOp)
  | pmovFromv (o : VOp)
  | poll (o : PollOp)
  | qltab (o : Tab3Op)
  | qset (o : D1Op)
  -- scalar, R140 to R143
  | sadd (o : S2Op)
  | ssub (o : S2Op)
  | smul (o : S2Op)
  | smulh (o : S2UOp)
  | smad (o : S3Op)
  | sadd64 (o : S2Op)
  | sltab (o : S3LOp)
  | sshl (o : S2Op)
  | sshr (o : S2Op)
  | ssra (o : S2Op)
  | smin (o : S2UOp)
  | smax (o : S2UOp)
  | sbfe (o : S2UOp)
  | sbfi (o : S3Op)
  | spopc (o : D1Op)
  | sclz (o : D1Op)
  | smov (o : D1Op)
  | smovi (o : DImmOp)
  | scmp (o : ScmpOp)
  | ssel (o : SselOp)
  -- integer vector, R158 to R162
  | iadd (o : V2Op)
  | isub (o : V2Op)
  | iaddc (o : VCarryOp)
  | isubb (o : VCarryOp)
  | imul (o : V2Op)
  | imulh (o : V2UOp)
  | imad (o : V3Op)
  | imadw (o : V3UOp)
  | iadd64 (o : V2Op)
  | iabs (o : V1Op)
  | imin (o : V2UOp)
  | imax (o : V2UOp)
  | ltab (o : V3LOp)
  | shl (o : V2Op)
  | shr (o : V2Op)
  | sra (o : V2Op)
  | fshl (o : V3Op)
  | fshr (o : V3Op)
  | bfe (o : V2UOp)
  | bfi (o : V3Op)
  | brev (o : V1Op)
  | popc (o : V1Op)
  | clz (o : V1Op)
  | bmix (o : V3Op)
  | icmp (o : IcmpOp)
  | sel (o : SelOp)
  | mov (o : DVOp)
  | movi (o : V1Op)
  | movs (o : MovsOp)
  | movxTox (o : DVOp)
  | movxFromx (o : DAOp)
  -- format slot, R163 to R169
  | fadd (o : F2Op)
  | fsub (o : F2Op)
  | fmul (o : F2Op)
  | fma (o : F3Op)
  | fmin (o : F2Op)
  | fmax (o : F2Op)
  | fcmp (o : FcmpOp)
  | fclass (o : FclassOp)
  | frint (o : FrintOp)
  | fscale (o : FscaleOp)
  -- conversions and slots, R170 to R174
  | cvt (o : CvtOp)
  | cvtef (o : CvtefOp)
  | pack (o : PackOp)
  | unpack (o : UnpackOp)
  | fdrw (o : FdrwOp)
  | fdrr (o : FdrrOp)
  -- special functions, R175
  | rcp (o : F1Op)
  | rsq (o : F1Op)
  | sqrt (o : F1Op)
  | exp2 (o : F1Op)
  | log2 (o : F1Op)
  | sin (o : F1Op)
  | cos (o : F1Op)
  | tanh (o : F1Op)
  | div (o : F2Op)
  -- across lanes, R176 to R179
  | redl (o : RedlOp)
  | scanl (o : ScanlOp)
  | matchv (o : MatchOp)
  | bdec (o : BdecOp)
  -- memory, R190 to R208
  | ld (o : MemOp)
  | st (o : MemOp)
  | ldp (o : PMemOp)
  | stp (o : PMemOp)
  | stm (o : StmOp)
  | ldl (o : LMemOp)
  | stl (o : LMemOp)
  | ldx (o : XMemOp)
  | stx (o : XMemOp)
  | sld (o : SMemOp)
  | sst (o : SMemOp)
  | atom (o : AtomOp)
  | red (o : RedMemOp)
  | redD (o : RedDOp)
  | dflush (o : DflushOp)
  | fence (o : FenceOp)
  | mwait (o : MwaitOp)
  | pref (o : PrefOp)
  | cctl (o : CctlOp)
  -- engine commands and synchronisation, R217 to R244
  | mma (o : MmaOp)
  | mtree (o : MtreeOp)
  | amld (o : AmldOp)
  | amst (o : AmstOp)
  | amz (o : AmzOp)
  | amcvt (o : AmcvtOp)
  | copy (o : CopyOp)
  | cpyb (o : CpybOp)
  | waitb (o : WaitbOp)
  | bari (o : BariOp)
  | bara (o : BaraOp)
  | barw (o : BarwOp)
  | bart (o : BarwOp)
  | launch (o : LaunchOp)
  | lwait (o : LwaitOp)
  -- traps, system registers, lane patching, R144 to R153
  | trap (o : NOp)
  | tret (o : TretOp)
  | tkill (o : NOp)
  | brk (o : NOp)
  | srd (o : SrdOp)
  | swr (o : SwrOp)
  | sgetl (o : SgetlOp)
  | sputl (o : SputlOp)
  | sgetp (o : SgetpOp)
  | sputp (o : SputpOp)
  -- events of the core
  | clauseStart (r : SplitRef)
  | activeSetSwap (r : FlockRef)
  | pendingReadyTimeout (core quad : Nat)
  | loadLand (r : FlockRef) (op lane : Nat)
  | storePerformed (r : FlockRef) (op : Nat)
  | pageWalkComplete (r : WalkRef) (acc : Access) (va : Nat)
  | faultTimeout (ctx fid : Nat)
  | l1Eviction (core line : Nat)
  | engineCommandStart (core cmd : Nat)
  | mmaStepEnd (core cmd : Nat)
  | mmaComplete (core cmd : Nat)
  | mtreeExecute (core cmd : Nat)
  | amMoveComplete (core cmd : Nat)
  | copyItemEnd (core cmd item : Nat)
  | copyFinish (core cmd : Nat)
  | drbDrain (fold : Nat)
  | redDApply (r : FlockRef) (scope : BitVec 4) (gen : Nat)
  -- events of the Shepherd
  | launchStart (ctx item : Nat)
  | stepStart (launch : Nat)
  | foldDispatch (die : Nat)
  | dispatchStarvationTimeout (die : Nat)
  | foldRetire (fold : Nat)
  | foldSwapOut (fold : Nat)
  | preemptRequest (die : Nat)
  | sliceTimerExpiry (ctx die : Nat)
  | flockPreemptStop (r : FlockRef)
  | fleeceWrite (fold : Nat)
  | foldRestore (die : Nat)
  | watchdog (fold : Nat)
  | sampleTag (core quad : Nat)
  | sampleRecord (core quad : Nat)
  -- power
  | powerAlarmRaise (die : Nat)
  | powerAlarmClear (die : Nat)
  | engineWiden (core : Nat)
  | thermtrip (die : Nat)
  -- boot, connections, RDMA, peers
  | powerOnBoot
  | connectionSetup (ep : Nat)
  | rdmaWrite (ep va : Nat) (rkey : BitVec 32) (bytes : List Byte)
  | rdmaRead (ep va len : Nat) (rkey : BitVec 32)
  | rdmaInvalidRequest (ep : Nat)
  | peerAccess (req : PeerReq)
  | ualinkLinkDrop (port : Nat)
  -- Zutix commands
  | launchMessage (m : Msg) (addr : DWord)
  | copyMessage (m : Msg) (a : CopyArgs)
  | mapInvalidate (m : Msg) (h : MapHead) (r : MapRange)
  | mapUnresolvable (m : Msg) (a : MapArgs)
  | contextCreate (m : Msg) (a : CtxArgs)
  | contextDestroy (m : Msg) (a : CtxArgs)
  | contextModify (m : Msg) (a : CtxArgs)
  | contextPreempt (m : Msg) (a : CtxArgs)
  | queryL2Counters (m : Msg) (q : QueryArgs)
  | queryCoreCounters (m : Msg) (q : QueryArgs)
  | queryTrace (m : Msg) (q : QueryArgs)
  | queryPower (m : Msg) (q : QueryArgs)
  | querySoftErrors (m : Msg) (q : QueryArgs)
  | queryAttestation (m : Msg) (q : QueryArgs) (nonce : List Byte)
  | queryJournalHead (m : Msg) (q : QueryArgs)
  | queryRoutingRead (m : Msg) (q : QueryArgs)
  | queryRoutingWrite (m : Msg) (q : QueryArgs) (masks : List DWord)
  | journal (m : Msg) (first : Nat) (count ring : BitVec 32)
  | dieWithdraw (m : Msg) (a : DieArgs)
  | dieReadmit (m : Msg) (a : DieArgs)
  | dieReset (m : Msg) (a : DieArgs)
  | dieCarve (m : Msg) (h : DieHead) (carve : BitVec 32)
  | diectlStageEnd
  -- DEBUG commands
  | attach (m : Msg) (a : DbgArgs)
  | detach (m : Msg) (a : DbgArgs)
  | halt (m : Msg) (a : DbgArgs)
  | resume (m : Msg) (a : DbgArgs)
  | step (m : Msg) (a : DbgArgs)
  | break (m : Msg) (a : DbgArgs)
  | unbreak (m : Msg) (a : DbgArgs)
  | read (m : Msg) (a : DbgArgs)
  | write (m : Msg) (a : DbgArgs) (data : List Byte)
  | pendchk (m : Msg) (a : DbgArgs)
  | sample (m : Msg) (a : DbgArgs)
  -- the rest of the outside
  | connectionClose (ep : Nat)
  | softError (site : ErrSite)
  | sidebandNewImage (img : BootImage)
  deriving DecidableEq, Repr

end Sys2Proof
end

