-- ==== Sys2Proof/Decode.lean ====
section
/-! DEFINITION. Bundles, clause headers and the decoder (R78 to R84, R90, R106 to R110), and after it the
encoder. Decoding is total: what is not an instruction is rejected by the detail code of R108 or R109. -/

namespace Sys2Proof

/-! ### The bit layouts -/

/-- The fields of an F bundle, R80; `hi` is bits [127:96]. -/
structure FRaw where
  op : BitVec 9
  fs : BitVec 4
  row : BitVec 1
  flg : BitVec 2
  pg : BitVec 5
  pgn : BitVec 1
  dst : BitVec 8
  sub : BitVec 8
  aux : BitVec 6
  imm : BitVec 1
  r47 : BitVec 1
  sa : BitVec 24
  sb : BitVec 24
  hi : BitVec 32
  deriving DecidableEq, Repr

/-- The fields of a source, R81. -/
structure SrcRaw where
  kind : BitVec 2
  neg : BitVec 1
  abs : BitVec 1
  route : BitVec 12
  reg : BitVec 8
  deriving DecidableEq, Repr

/-- The fields of a restricted half, R83; `lo16` is bits [47:32] and `top4` bits [51:48]. -/
structure HRaw where
  hv : BitVec 2
  sop : BitVec 6
  fs : BitVec 4
  row : BitVec 1
  pg : BitVec 5
  pgn : BitVec 1
  dst : BitVec 8
  immf : BitVec 1
  sk : BitVec 1
  neg : BitVec 1
  abs : BitVec 1
  r31 : BitVec 1
  lo16 : BitVec 16
  top4 : BitVec 4
  cs : BitVec 4
  r56 : BitVec 8
  deriving DecidableEq, Repr

/-- The fields of a clause header, R90. -/
structure HdrRaw where
  len : BitVec 4
  wait : BitVec 12
  anum : BitVec 4
  av : BitVec 1
  bnum : BitVec 4
  bv : BitVec 1
  stop : BitVec 1
  yld : BitVec 1
  rcv : BitVec 1
  r31 : BitVec 1
  ord : BitVec 20
  r52 : BitVec 12
  deriving DecidableEq, Repr

/-- A decoded clause header, R90. -/
structure Header where
  len : BitVec 4
  wait : BitVec 12
  setA : Option (BitVec 4)
  setB : Option (BitVec 4)
  stop : Option (BitVec 20)
  yld : Bool
  rcv : Bool
  deriving DecidableEq, Repr

def unpackF (w : BitVec 128) : FRaw where
  op := w.extractLsb' 2 9
  fs := w.extractLsb' 11 4
  row := w.extractLsb' 15 1
  flg := w.extractLsb' 16 2
  pg := w.extractLsb' 18 5
  pgn := w.extractLsb' 23 1
  dst := w.extractLsb' 24 8
  sub := w.extractLsb' 32 8
  aux := w.extractLsb' 40 6
  imm := w.extractLsb' 46 1
  r47 := w.extractLsb' 47 1
  sa := w.extractLsb' 48 24
  sb := w.extractLsb' 72 24
  hi := w.extractLsb' 96 32

def packF (r : FRaw) : BitVec 128 :=
  r.hi ++ r.sb ++ r.sa ++ r.r47 ++ r.imm ++ r.aux ++ r.sub ++ r.dst ++ r.pgn ++ r.pg ++ r.flg ++ r.row
    ++ r.fs ++ r.op ++ 0#2

def unpackSrc (w : BitVec 24) : SrcRaw where
  kind := w.extractLsb' 22 2
  neg := w.extractLsb' 21 1
  abs := w.extractLsb' 20 1
  route := w.extractLsb' 8 12
  reg := w.extractLsb' 0 8

def packSrc (r : SrcRaw) : BitVec 24 := r.kind ++ r.neg ++ r.abs ++ r.route ++ r.reg

def unpackH (w : BitVec 64) : HRaw where
  hv := w.extractLsb' 0 2
  sop := w.extractLsb' 2 6
  fs := w.extractLsb' 8 4
  row := w.extractLsb' 12 1
  pg := w.extractLsb' 13 5
  pgn := w.extractLsb' 18 1
  dst := w.extractLsb' 19 8
  immf := w.extractLsb' 27 1
  sk := w.extractLsb' 28 1
  neg := w.extractLsb' 29 1
  abs := w.extractLsb' 30 1
  r31 := w.extractLsb' 31 1
  lo16 := w.extractLsb' 32 16
  top4 := w.extractLsb' 48 4
  cs := w.extractLsb' 52 4
  r56 := w.extractLsb' 56 8

def packH (r : HRaw) : BitVec 64 :=
  r.r56 ++ r.cs ++ r.top4 ++ r.lo16 ++ r.r31 ++ r.abs ++ r.neg ++ r.sk ++ r.immf ++ r.dst ++ r.pgn ++ r.pg
    ++ r.row ++ r.fs ++ r.sop ++ r.hv

def unpackHdr (w : BitVec 64) : HdrRaw where
  len := w.extractLsb' 2 4
  wait := w.extractLsb' 6 12
  anum := w.extractLsb' 18 4
  av := w.extractLsb' 22 1
  bnum := w.extractLsb' 23 4
  bv := w.extractLsb' 27 1
  stop := w.extractLsb' 28 1
  yld := w.extractLsb' 29 1
  rcv := w.extractLsb' 30 1
  r31 := w.extractLsb' 31 1
  ord := w.extractLsb' 32 20
  r52 := w.extractLsb' 52 12

def packHdr (r : HdrRaw) : BitVec 64 :=
  r.r52 ++ r.ord ++ r.r31 ++ r.rcv ++ r.yld ++ r.stop ++ r.bv ++ r.bnum ++ r.av ++ r.anum ++ r.wait ++ r.len
    ++ 2#2

/-! ### What each field of an instruction may hold -/

/-- A code of R108 where `b` holds. -/
def code (b : Bool) (c : Nat) : List Nat := if b then [c] else []

/-- The first row of R108 among the codes found: the rows are checked in table order (R110). -/
def firstCode : List Nat → Option Nat
  | [] => none
  | c :: r =>
    match firstCode r with
    | none => some c
    | some d => some (min c d)

/-- A register file that an operand names. -/
inductive File where
  | v | s | p | q | x | f | a
  /-- The carry-in of R159: p0 to p23, or 31 for none. -/
  | pn
  deriving DecidableEq, Repr

/-- The checks of a register number: its range (R87, R108) and its alignment, for pairs and groups. -/
def regCodes (f : File) (align : Nat) (r : Reg) : List Nat :=
  (match f with
   | .v => []
   | .s => code (127 < r.toNat) 0x0B
   | .p => if 24 ≤ r.toNat ∧ r.toNat ≤ 30 then [0x09] else code (23 < r.toNat) 0x0B
   | .pn => if 24 ≤ r.toNat ∧ r.toNat ≤ 30 then [0x09] else code (31 < r.toNat) 0x0B
   | .q => code (7 < r.toNat) 0x0B
   | .x => code (3 < r.toNat) 0x0B
   | .f => code (15 < r.toNat) 0x0B
   | .a => code (31 < r.toNat) 0x0B)
    ++ code (r.toNat % align != 0) 0x0B

/-- The reserved values of a routing modifier, R99. -/
def routeReserved (m : Route) : Bool :=
  let cls := m.extractLsb' 9 3
  let seg := m.extractLsb' 6 3
  let dist := m.extractLsb' 0 6
  seg == 7 || (cls == 0 && (seg != 0 || dist != 0)) || (cls == 7 && dist != 0)
    || (cls == 4 && dist.extractLsb' 2 4 != 0)

def routeCodes (ok : Bool) (m : Route) : List Nat :=
  code (m != 0 && !ok) 0x0C ++ code (routeReserved m) 0x0D

/-- What one source field may hold. -/
structure SrcFmt where
  /-- KIND 00 is accepted. -/
  v : Bool := false
  /-- KIND 01 is accepted. -/
  s : Bool := false
  /-- KIND 10 is accepted, for this file. -/
  k : Option File := none
  /-- An all-zero field stands for an absent operand. -/
  absent : Bool := false
  /-- Routing is accepted on KIND 00. -/
  route : Bool := false
  /-- NEG and ABS are accepted (R102). -/
  neg : Bool := false
  align : Nat := 1
  deriving DecidableEq, Repr

/-- The checks of one source field. A field of a source that the instruction does not have must be all
zeros (R81). -/
def srcCodes (f : SrcFmt) (w : BitVec 24) : List Nat :=
  if !f.v && !f.s && f.k.isNone then code (w != 0) 0x07
  else if f.absent && w == 0 then []
  else
    let r := unpackSrc w
    code ((r.neg != 0 || r.abs != 0) && !f.neg) 0x07
      ++ (match r.kind with
          | 0#2 => code (!f.v) 0x0B ++ regCodes .v f.align r.reg
          | 1#2 => code (!f.s) 0x0B ++ regCodes .s f.align r.reg
          | 2#2 => (match f.k with
                    | none => [0x0B]
                    | some k => regCodes k f.align r.reg)
          | _ => [0x0B])
      ++ routeCodes (r.kind == 0 && f.route) r.route

/-- Whether the immediate of R82 is admitted, and which source it replaces. -/
inductive ImmFmt where
  | no
  | opt (pos : Nat)
  | must (pos : Nat)
  deriving DecidableEq, Repr

/-- How the instruction treats FLG (R95, R122, R187, R214). -/
inductive FlgFmt where
  /-- The control, scalar and system chapter: FLG is a field that must be 0 (R122). -/
  | zero
  /-- Not covered by R95. -/
  | none
  | ok
  deriving DecidableEq, Repr

/-- What an instruction accepts in each field of the F form. -/
structure Fmt where
  fs : Bool := false
  row : Bool := false
  flg : FlgFmt := .none
  ctl : Bool := false
  dst : Option (File × Nat) := none
  sub : Bool := false
  aux : Bool := false
  a : SrcFmt := {}
  b : SrcFmt := {}
  c : SrcFmt := {}
  imm : ImmFmt := .no
  /-- The instruction's own violations. -/
  own : List Nat := []
  deriving DecidableEq, Repr

/-- Whether set-flag A and set-flag B of the clause are valid, and whether the bundle is its last. -/
structure Place where
  av : Bool
  bv : Bool
  last : Bool
  deriving DecidableEq, Repr

def guardCodes (pg : BitVec 5) (pgn : BitVec 1) : List Nat :=
  code ((24 ≤ pg.toNat && pg.toNat ≤ 30) || (pg == 31 && pgn != 0)) 0x09

def flgCodes (f : FlgFmt) (p : Place) (flg : BitVec 2) : List Nat :=
  match f with
  | .zero => code (flg != 0) 0x07
  | .none => code (flg != 0) 0x0E
  | .ok => code (flg == 3 || (flg == 1 && !p.av) || (flg == 2 && !p.bv)) 0x0E

/-- The source fields and the immediate, R81 and R82. -/
def operandCodes (f : Fmt) (r : FRaw) : List Nat :=
  let reserved := code (r.hi.extractLsb' 24 8 != 0) 0x07
  let c := r.hi.extractLsb' 0 24
  let plain := reserved ++ srcCodes f.a r.sa ++ srcCodes f.b r.sb ++ srcCodes f.c c
  let withImm (pos : Nat) :=
    match pos with
    | 0 => code (r.sa != 0) 0x07 ++ srcCodes f.b r.sb
    | 1 => srcCodes f.a r.sa ++ code (r.sb != 0) 0x07
    | _ => srcCodes f.a r.sa ++ srcCodes f.b r.sb
  match f.imm with
  | .no => code (r.imm != 0) 0x07 ++ (if r.imm != 0 then srcCodes f.a r.sa ++ srcCodes f.b r.sb else plain)
  | .opt pos => if r.imm != 0 then withImm pos else plain
  | .must pos => if r.imm != 0 then withImm pos else [0x07] ++ plain

/-- Every violation of R108 that an F bundle of a defined opcode shows, apart from the bundle's place. -/
def fmtCodes (f : Fmt) (p : Place) (r : FRaw) : List Nat :=
  code (r.r47 != 0) 0x07
    ++ code (r.fs != 0 && !f.fs) 0x07
    ++ code (r.row != 0 && !f.row) 0x07
    ++ code (r.sub != 0 && !f.sub) 0x07
    ++ code (r.aux != 0 && !f.aux) 0x07
    ++ (match f.dst with
        | none => code (r.dst != 0) 0x07
        | some (k, n) => regCodes k n r.dst)
    ++ operandCodes f r
    ++ guardCodes r.pg r.pgn
    ++ flgCodes f.flg p r.flg
    ++ code (f.ctl && !p.last) 0x0F
    ++ f.own

/-! ### Source shapes -/

/-- A KIND 10 source of the file `k`. -/
def fK (k : File) : SrcFmt := { k := some k }

/-- A scalar source. -/
def fS (align : Nat := 1) : SrcFmt := { s := true, align := align }

/-- An optional scalar source. -/
def fSopt (align : Nat := 1) : SrcFmt := { s := true, absent := true, align := align }

/-- A routed vector source. -/
def fV (align : Nat := 1) : SrcFmt := { v := true, route := true, align := align }

/-- A vector source without routing. -/
def fVplain (align : Nat := 1) : SrcFmt := { v := true, align := align }

/-- The source code `vs` of R154. -/
def fVS (align : Nat := 1) : SrcFmt := { v := true, s := true, route := true, align := align }

/-- The source code `vs` with NEG and ABS. -/
def fVSn : SrcFmt := { v := true, s := true, route := true, neg := true }

/-- An absent source. -/
def fNone : SrcFmt := {}

def bitOf {n : Nat} (w : BitVec n) (i : Nat) : Bool := w.getLsbD i

/-- AUX as a tensor identifier (R156): AUX[4:0] must be 0 unless AUX[5] = 1. -/
def tidCodes (aux : BitVec 6) : List Nat := code (!bitOf aux 5 && aux != 0) 0x07

/-- The system registers (R144): number, words of 32 bits. -/
def sysregWords (n : Nat) : Option Nat :=
  if n ≤ 0x0A ∨ (0x11 ≤ n ∧ n ≤ 0x15) ∨ n = 0x20 ∨ n = 0x21 then some 1
  else if n = 0x0B ∨ n = 0x10 ∨ n = 0x16 ∨ n = 0x22 ∨ n = 0x23 then some 2
  else none

/-- Registers of the data or destination operand of a memory access of SIZE (R181). -/
def sizeRegs (size : BitVec 3) : Nat := if size == 5 then 2 else if size == 6 then 4 else 1

/-- SUB and AUX of a load or store (R180 to R182): `sized` when SIZE is used, `hinted` when HINT is. -/
def memCodes (store sized hinted : Bool) (r : FRaw) : List Nat :=
  let scope := r.sub.extractLsb' 4 4
  let ord := r.sub.extractLsb' 2 2
  let size := r.aux.extractLsb' 0 3
  let hint := r.aux.extractLsb' 3 2
  code (12 ≤ scope.toNat) 0x0A ++ code (ord == 3) 0x08 ++ code (ord == 0 && scope != 0) 0x07
    ++ code (r.sub.extractLsb' 0 2 != 0) 0x07 ++ code (bitOf r.aux 5) 0x07
    ++ (if hinted then code (hint == 3) 0x08 else code (hint != 0) 0x07)
    ++ (if sized then code (size == 7 || (store && (size == 1 || size == 3))) 0x08
        else code (size != 0) 0x07)

/-- The operation of ATOM, RED and RED.D, AUX[3:0] (R196). -/
def atomFnOf (n : BitVec 4) : Option AtomFn :=
  match n.toNat with
  | 0 => some .swap | 1 => some .cas | 2 => some .add | 3 => some .minS | 4 => some .minU
  | 5 => some .maxS | 6 => some .maxU | 7 => some .and | 8 => some .or | 9 => some .xor
  | 10 => some .fadd | 11 => some .fmin | 12 => some .fmax
  | _ => none

def atomFnCode : AtomFn → BitVec 4
  | .swap => 0 | .cas => 1 | .add => 2 | .minS => 3 | .minU => 4 | .maxS => 5 | .maxU => 6
  | .and => 7 | .or => 8 | .xor => 9 | .fadd => 10 | .fmin => 11 | .fmax => 12

/-- AUX, SUB[1:0] and FS of ATOM, RED and RED.D (R196, R199); `red` when no value returns. -/
def atomCodes (red : Bool) (r : FRaw) : List Nat :=
  let fn := r.aux.extractLsb' 0 4
  let width := r.aux.extractLsb' 4 2
  code (2 ≤ width.toNat || 13 ≤ fn.toNat || (10 ≤ fn.toNat && width != 0) || (red && fn.toNat ≤ 1)) 0x08
    ++ code (fn.toNat < 10 && r.fs != 0) 0x07
    ++ code (r.sub.extractLsb' 0 2 == 3) 0x08

/-- The operand C of ATOM, RED and RED.D: CAS takes a vector group only (R196). -/
def atomC (r : FRaw) : SrcFmt :=
  let wide := bitOf r.aux 4
  if r.aux.extractLsb' 0 4 == 1 then fV (if wide then 4 else 2) else fVS (if wide then 2 else 1)

/-- The formats of the control and predicate instructions, R128 to R139. -/
def fmtControl (r : FRaw) : Option Fmt :=
  let low4 := code (r.hi.extractLsb' 0 4 != 0) 0x07
  match r.op.toNat with
  | 0x000 => some { flg := .zero }
  | 0x001 => some { flg := .zero, ctl := true, sub := true, imm := .must 1,
                    a := if bitOf r.sub 1 then fK .q else fNone,
                    own := code (4 ≤ r.sub.toNat) 0x08 ++ code (r.sub == 1) 0x07 ++ low4 }
  | 0x002 => some { flg := .zero, ctl := true, sub := true, imm := .must 1, a := fK .p,
                    own := code (2 ≤ r.sub.toNat) 0x08 ++ low4 }
  | 0x003 => some { flg := .zero, ctl := true, a := fS 2 }
  | 0x004 => some { flg := .zero, ctl := true, dst := some (.v, 2), imm := .must 0, own := low4 }
  | 0x005 => some { flg := .zero, ctl := true, a := fVplain 2 }
  | 0x006 => some { flg := .zero, ctl := true, dst := some (.s, 1), imm := .must 0, own := low4 }
  | 0x007 => some { flg := .zero, ctl := true }
  | 0x008 => some { flg := .zero, sub := true, own := code (2 ≤ r.sub.toNat) 0x08 }
  | 0x009 => some { flg := .zero, sub := true, imm := .must 0,
                    own := code (64 ≤ r.sub.toNat) 0x08 ++ code (r.hi.extractLsb' 12 20 != 0) 0x07 }
  | 0x010 => some { flg := .zero, sub := true, dst := some (.p, 1), a := fK .p, b := fK .p, c := fK .p }
  | 0x011 => some { flg := .zero, sub := true, own := code (2 ≤ r.sub.toNat) 0x08,
                    dst := if r.sub == 0 then some (.v, 1) else none,
                    a := if r.sub == 0 then fNone else fV }
  | 0x012 =>
    let mode := r.sub.extractLsb' 0 3
    some { flg := .zero, sub := true, a := fK .p,
           own := code (5 ≤ mode.toNat || 16 ≤ r.sub.toNat) 0x08,
           dst := some (if mode.toNat ≤ 2 then (.q, 1) else if mode == 3 then (.s, 2) else (.s, 1)) }
  | 0x013 => some { flg := .zero, sub := true, dst := some (.q, 1), a := fK .q, b := fK .q, c := fK .q }
  | 0x014 => some { flg := .zero, dst := some (.q, 1), a := fS, imm := .opt 0 }
  | _ => none

/-- The formats of the scalar and system instructions, R140 to R153. -/
def fmtScalar (r : FRaw) : Option Fmt :=
  let two (sub : Bool) : Fmt :=
    { flg := .zero, dst := some (.s, 1), a := fS, b := fS, imm := .opt 1, sub := sub,
      own := code (sub && 2 ≤ r.sub.toNat) 0x08 }
  let one : Fmt := { flg := .zero, dst := some (.s, 1), a := fS, imm := .opt 0 }
  let three : Fmt := { flg := .zero, dst := some (.s, 1), a := fS, b := fS, c := fS, imm := .opt 2 }
  let known := (sysregWords r.sub.toNat).isSome
  match r.op.toNat with
  | 0x020 => some (two false)
  | 0x021 => some (two false)
  | 0x022 => some (two false)
  | 0x023 => some (two true)
  | 0x024 => some three
  | 0x025 => some { flg := .zero, dst := some (.s, 2), a := fS 2, b := fS 2, imm := .opt 1 }
  | 0x026 => some { three with sub := true }
  | 0x027 => some (two false)
  | 0x028 => some (two false)
  | 0x029 => some (two false)
  | 0x02A => some (two true)
  | 0x02B => some (two true)
  | 0x02C => some (two true)
  | 0x02D => some three
  | 0x02E => some one
  | 0x02F => some one
  | 0x030 => some { flg := .zero, dst := some (.s, 1), a := fVS }
  | 0x031 => some { flg := .zero, dst := some (.s, 1), imm := .must 0 }
  | 0x032 => some { flg := .zero, dst := some (.q, 1), a := fS, b := fS, imm := .opt 1, sub := true,
                    own := code (10 ≤ r.sub.toNat) 0x08 }
  | 0x033 => some { three with a := fK .q, sub := true, own := code (2 ≤ r.sub.toNat) 0x08 }
  | 0x1D0 => some { flg := .zero, sub := true }
  | 0x1D1 => some { flg := .zero, sub := true, ctl := true, own := code (2 ≤ r.sub.toNat) 0x08 }
  | 0x1D2 => some { flg := .zero, sub := true, ctl := true }
  | 0x1D3 => some { flg := .zero, sub := true }
  | 0x1D4 => some { flg := .zero, sub := true, aux := true,
                    own := code (2 ≤ r.aux.toNat) 0x07 ++ code (!known) 0x08,
                    dst := some (if bitOf r.aux 0 then .v else .s, (sysregWords r.sub.toNat).getD 1) }
  | 0x1D5 => some { flg := .zero, sub := true, own := code (!known) 0x08, imm := .opt 0,
                    a := { v := r.sub == 0x11, s := true } }
  | 0x1D6 => some { flg := .zero, dst := some (.s, 1), a := { v := true, s := true }, b := fS, imm := .opt 1 }
  | 0x1D7 => some { flg := .zero, aux := true, own := code (2 ≤ r.aux.toNat) 0x07,
                    dst := some (if bitOf r.aux 0 then .s else .v, 1), a := fS, b := fS, imm := .opt 1 }
  | 0x1D8 => some { flg := .zero, sub := true, own := code (3 ≤ r.sub.toNat) 0x08, dst := some (.s, 1),
                    a := if r.sub == 2 then fSopt else fS, imm := .opt 0 }
  | 0x1D9 => some { flg := .zero, sub := true, own := code (3 ≤ r.sub.toNat) 0x08, a := fS,
                    b := if r.sub == 2 then fSopt else fS, imm := .opt 1 }
  | _ => none

/-- The formats of the vector instructions, R158 to R179. -/
def fmtVector (r : FRaw) : Option Fmt :=
  let bit0 := code (2 ≤ r.sub.toNat) 0x08
  let one : Fmt := { dst := some (.v, 1), a := fVS }
  let two : Fmt := { dst := some (.v, 1), a := fVS, b := fVS, imm := .opt 1 }
  let twoU : Fmt := { two with sub := true, own := bit0 }
  let three : Fmt := { dst := some (.v, 1), a := fVS, b := fVS, c := fVS, imm := .opt 2 }
  let carry : Fmt :=
    { dst := some (.v, 1), a := fVS, b := fVS, c := fK .pn, aux := true,
      own := if 24 ≤ r.aux.toNat ∧ r.aux.toNat ≤ 30 then [0x09] else code (32 ≤ r.aux.toNat) 0x08 }
  let f1 : Fmt := { fs := true, row := true, aux := true, own := tidCodes r.aux, dst := some (.v, 1),
                    a := fVSn, imm := .opt 0 }
  let f2 : Fmt := { fs := true, row := true, aux := true, own := tidCodes r.aux, dst := some (.v, 1),
                    a := fVSn, b := fVSn, imm := .opt 1 }
  let cvt : Fmt := { fs := true, row := true, sub := true, dst := some (.v, 1), a := fVS, b := fV,
                     c := fSopt, imm := .opt 2, own := code (r.row == 0 && 16 ≤ r.sub.toNat) 0x08 }
  let redl (bit7 : Bool) : Fmt :=
    { fs := true, sub := true, dst := some (.v, 1), a := fVS,
      own := code (11 ≤ (r.sub.extractLsb' 0 4).toNat || r.sub.extractLsb' 4 3 == 7
                    || (!bit7 && bitOf r.sub 7)) 0x08
               ++ code ((r.sub.extractLsb' 0 4).toNat < 8 && r.fs != 0) 0x07 }
  match r.op.toNat with
  | 0x040 => some two
  | 0x041 => some two
  | 0x042 => some carry
  | 0x043 => some carry
  | 0x044 => some two
  | 0x045 => some twoU
  | 0x046 => some three
  | 0x047 => some { three with dst := some (.v, 2), c := fVS 2, sub := true, own := bit0 }
  | 0x048 => some { dst := some (.v, 2), a := fVS 2, b := fVS 2, imm := .opt 1 }
  | 0x049 => some one
  | 0x04A => some twoU
  | 0x04B => some twoU
  | 0x050 => some { three with sub := true }
  | 0x051 => some two
  | 0x052 => some two
  | 0x053 => some two
  | 0x054 => some three
  | 0x055 => some three
  | 0x056 => some twoU
  | 0x057 => some three
  | 0x058 => some one
  | 0x059 => some one
  | 0x05A => some one
  | 0x05B => some three
  | 0x060 => some { two with dst := some (.p, 1), sub := true, own := code (10 ≤ r.sub.toNat) 0x08 }
  | 0x061 => some { dst := some (.v, 1), a := fK .p, b := fVS, c := fVS, imm := .opt 2, sub := true,
                    own := bit0 }
  | 0x062 => some { dst := some (.v, 1), a := fV }
  | 0x063 => some { dst := some (.v, 1), imm := .must 0 }
  | 0x064 =>
    let n := if bitOf r.sub 0 then 2 else 1
    some { dst := some (.v, n), a := fS n, sub := true, own := bit0 }
  | 0x065 => some { sub := true, own := bit0, dst := some (if bitOf r.sub 0 then .v else .x, 1),
                    a := if bitOf r.sub 0 then fK .x else fV }
  | 0x0C0 => some f2
  | 0x0C1 => some f2
  | 0x0C2 => some f2
  | 0x0C3 => some { f2 with c := fVSn, imm := .opt 2 }
  | 0x0C4 => some f2
  | 0x0C5 => some f2
  | 0x0C6 => some { fs := true, sub := true, dst := some (.p, 1), a := fVSn, b := fVSn, imm := .opt 1,
                    own := code (8 ≤ r.sub.toNat) 0x08 }
  | 0x0C7 => some { fs := true, dst := some (.v, 1), a := fVSn }
  | 0x0C8 =>
    let m := r.sub.extractLsb' 0 3
    some { f1 with sub := true, imm := .no,
                   own := code (16 ≤ r.sub.toNat || (!bitOf r.sub 3 && m != 0) || 6 ≤ m.toNat) 0x08
                            ++ tidCodes r.aux }
  | 0x0C9 => some { f2 with b := fVS }
  | 0x0E0 => some cvt
  | 0x0E1 => some { cvt with dst := some (.v, 2), aux := true, own := cvt.own ++ code (16 ≤ r.aux.toNat) 0x07 }
  | 0x0E2 => some { fs := true, sub := true, dst := some (.v, 1), a := fV, own := code (16 ≤ r.sub.toNat) 0x08 }
  | 0x0E3 => some { fs := true, sub := true, dst := some (.v, 1), a := fV, own := code (32 ≤ r.sub.toNat) 0x08 }
  | 0x100 => some { fs := true, a := fS 2, imm := .opt 0 }
  | 0x101 => some { fs := true, dst := some (.s, 2) }
  | 0x120 => some f1
  | 0x121 => some f1
  | 0x122 => some f1
  | 0x123 => some f1
  | 0x124 => some f1
  | 0x125 => some f1
  | 0x126 => some f1
  | 0x127 => some f1
  | 0x128 => some f2
  | 0x140 => some (redl false)
  | 0x141 => some (redl true)
  | 0x142 => some { dst := some (.v, 2), a := fV (if bitOf r.sub 0 then 2 else 1), sub := true, aux := true,
                    own := bit0 ++ (if bitOf r.aux 5 then regCodes .p 1 ((r.aux.extractLsb' 0 5).setWidth 8)
                                    else code (r.aux != 0) 0x07) }
  | 0x143 => some { flg := .ok, dst := some (.v, 1), a := fS, b := fV, imm := .opt 1, sub := true, own := bit0 }
  | _ => none

/-- The formats of the memory instructions, R180 to R208. -/
def fmtMemory (r : FRaw) : Option Fmt :=
  let n := sizeRegs (r.aux.extractLsb' 0 3)
  let vec (store : Bool) : Fmt :=
    { flg := .ok, sub := true, aux := true, dst := some (.v, n), a := fS 2, b := fVS, c := fSopt, imm := .opt 2,
      own := memCodes store true true r }
  let sc (store : Bool) : Fmt :=
    { flg := .ok, sub := true, aux := true, dst := some (.s, n), a := fS 2, b := fSopt, imm := .opt 1,
      own := memCodes store true true r }
  let packed (store : Bool) : Fmt :=
    { flg := .ok, fs := true, sub := true, aux := true, dst := some (.v, 1), a := fS 2, b := fS, c := fSopt,
      imm := .opt 2, own := memCodes store false true r }
  let own (store : Bool) : Fmt :=
    { flg := .ok, sub := true, aux := true, dst := some (.v, n), a := fVS, b := fSopt, imm := .opt 1,
      own := memCodes store true false r }
  let peer (store : Bool) : Fmt :=
    { flg := .ok, sub := true, aux := true, dst := some (.v, n), a := fVS, b := fVS, c := fSopt, imm := .opt 2,
      own := memCodes store true false r }
  let cas := r.aux.extractLsb' 0 4 == 1
  let scopeCode := code (12 ≤ (r.sub.extractLsb' 4 4).toNat) 0x0A
  match r.op.toNat with
  | 0x160 => some (vec false)
  | 0x161 => some (vec true)
  | 0x162 => some (packed false)
  | 0x163 => some (packed true)
  | 0x164 => some { flg := .ok, sub := true, aux := true, dst := some (.v, 1), a := fS 2, b := fVS, c := fVS,
                    imm := .opt 2, own := memCodes true false true r }
  | 0x165 => some (own false)
  | 0x166 => some (own true)
  | 0x167 => some (peer false)
  | 0x168 => some (peer true)
  | 0x169 => some (sc false)
  | 0x16A => some (sc true)
  | 0x16B => some { flg := .ok, fs := true, sub := true, aux := true,
                    dst := some (.v, if bitOf r.aux 4 then 2 else 1), a := fS 2, b := fVS, c := atomC r,
                    imm := if cas then .no else .opt 2, own := scopeCode ++ atomCodes false r }
  | 0x16C => some { flg := .ok, fs := true, sub := true, aux := true, a := fS 2, b := fVS, c := atomC r,
                    imm := if cas then .no else .opt 2,
                    own := scopeCode ++ atomCodes true r ++ code (bitOf r.sub 2) 0x08 }
  | 0x16D => some { flg := .ok, fs := true, sub := true, aux := true, a := fS 2, b := fVS, c := atomC r,
                    imm := if cas then .no else .opt 2,
                    own := code (4 ≤ r.sub.toNat) 0x07 ++ atomCodes true r }
  | 0x16E => some { flg := .ok, sub := true,
                    own := scopeCode ++ code (3 ≤ (r.sub.extractLsb' 4 4).toNat && (r.sub.extractLsb' 4 4).toNat ≤ 11) 0x08
                             ++ code (r.sub.extractLsb' 0 4 != 0) 0x07 }
  | 0x16F => some { flg := .ok, sub := true,
                    own := scopeCode ++ code (r.sub.extractLsb' 2 2 == 0) 0x08
                             ++ code (r.sub.extractLsb' 0 2 != 0) 0x07 }
  | 0x170 => some { sub := true, aux := true, dst := if bitOf r.aux 0 then some (.s, 2) else none, a := fS 2,
                    b := fS 2, imm := .opt 1,
                    own := scopeCode ++ code (r.sub.extractLsb' 0 4 != 0) 0x07 ++ code (2 ≤ r.aux.toNat) 0x07 }
  | 0x171 => some { sub := true, a := fS 2, b := fVS, c := fSopt, imm := .opt 2,
                    own := code (4 ≤ r.sub.toNat) 0x07 ++ code (r.sub.extractLsb' 0 2 == 3) 0x08 }
  | 0x172 =>
    let op := r.sub.extractLsb' 0 3
    let own := code (8 ≤ r.sub.toNat) 0x07 ++ code (4 ≤ op.toNat) 0x08
    some (if op == 0 then { flg := .ok, sub := true, own := own }
          else { flg := .ok, sub := true, own := own, a := fS 2, b := fVS, c := fSopt, imm := .opt 2 })
  | _ => none

/-- The formats of the engine, barrier and launch instructions, R217 to R244. -/
def fmtEngine (r : FRaw) : Option Fmt :=
  let mode := r.sub.extractLsb' 0 2
  let bar (max : Nat) (flg : FlgFmt) (dst : Option (File × Nat)) : Fmt :=
    { flg := flg, sub := true, dst := dst, a := fS, b := fS, own := code (max < r.sub.toNat) 0x08 }
  match r.op.toNat with
  | 0x1A0 => some { flg := .ok, fs := true, sub := true, dst := some (.a, 1),
                    a := if mode == 1 then fK .a else fNone, b := fS 16, c := fK .f,
                    own := code (mode == 3 || (bitOf r.sub 2 && mode == 2) || (bitOf r.sub 3 && !bitOf r.sub 2)) 0x08
                             ++ code (bitOf r.sub 7) 0x07 }
  | 0x1A1 => some { flg := .ok, sub := true, aux := true, dst := some (.a, 1), a := fK .a,
                    b := if mode == 1 then fK .a else fNone,
                    own := code (mode == 3) 0x08 ++ code (4 ≤ r.sub.toNat) 0x07 }
  | 0x1A2 => some { flg := .ok, dst := some (.a, 1), a := fS, b := fSopt 2 }
  | 0x1A3 => some { flg := .ok, a := fS, b := fK .a }
  | 0x1A4 => some { flg := .ok, dst := some (.a, 1) }
  | 0x1A5 => some { flg := .ok, fs := true, aux := true, a := fS, b := fK .a, c := fSopt, imm := .opt 2,
                    own := tidCodes r.aux }
  | 0x1B0 =>
    let ef := bitOf r.aux 0
    let sel := r.aux.extractLsb' 1 2
    some { flg := .ok, sub := true, aux := true, a := fS 8, b := fSopt,
           own := code (12 ≤ (r.sub.extractLsb' 4 4).toNat) 0x0A ++ code (sel == 3) 0x08
                    ++ code (mode != 0 && (bitOf r.sub 2 || bitOf r.sub 3 || ef || sel != 0)) 0x07
                    ++ code (ef && !bitOf r.sub 2) 0x08
                    ++ code (ef && 112 < (r.sa.extractLsb' 0 8).toNat) 0x0B }
  | 0x1B1 => some { flg := .ok, aux := true, dst := if bitOf r.aux 0 then some (.s, 1) else none,
                    own := code (2 ≤ r.aux.toNat) 0x08 }
  | 0x1B2 => some { sub := true, a := fS, imm := .opt 0, own := code (2 ≤ r.sub.toNat) 0x07 }
  | 0x1C0 => some { bar 3 .ok none with imm := .opt 1 }
  | 0x1C1 => some { bar 1 .ok (some (.s, 1)) with b := fSopt, imm := .opt 1 }
  | 0x1C2 => some (bar 1 .none (some (.q, 1)))
  | 0x1C3 => some (bar 1 .ok (some (.q, 1)))
  | 0x1C4 => some { flg := .ok, dst := some (.s, 2), a := fS 2 }
  | 0x1C5 => some { sub := true, a := if bitOf r.sub 0 then fNone else fS, own := code (2 ≤ r.sub.toNat) 0x08 }
  | _ => none

/-- What the opcode accepts; none for a reserved code (R106). -/
def fmtOf (r : FRaw) : Option Fmt :=
  if r.op.toNat < 0x020 then fmtControl r
  else if r.op.toNat < 0x040 ∨ 0x1D0 ≤ r.op.toNat then fmtScalar r
  else if r.op.toNat < 0x160 then fmtVector r
  else if r.op.toNat < 0x1A0 then fmtMemory r
  else fmtEngine r

/-! ### From fields to instructions -/

def guardOf (pg : BitVec 5) (pgn : BitVec 1) : Guard :=
  if pg == 31 then .always else .pred (pg.setWidth 8) (pgn != 0)

def flgOf (f : BitVec 2) : FlagSel := if f == 1 then .a else if f == 2 then .b else .none

def srcOf (w : BitVec 24) : Src :=
  let r := unpackSrc w
  if r.kind == 1 then .s r.reg else .v r.reg r.route

def fsrcOf (w : BitVec 24) : FSrc :=
  let r := unpackSrc w
  { src := srcOf w, neg := r.neg != 0, abs := r.abs != 0 }

def optOf (w : BitVec 24) : Option Src := if w == 0 then none else some (srcOf w)

def regOf (w : BitVec 24) : Reg := (unpackSrc w).reg

def optReg (w : BitVec 24) : Option Reg := if w == 0 then none else some (regOf w)

/-- The fields of an F bundle as operands. -/
structure Fields where
  g : Guard
  flg : FlagSel
  row : Bool
  /-- Registers of SA, SB, SC. -/
  ra : Reg
  rb : Reg
  rc : Reg
  /-- Sources without an immediate. -/
  a : Src
  b : Src
  c : Src
  /-- Sources, the immediate standing for the last one. -/
  ia : Src
  ib : Src
  ic : Src
  /-- The same with NEG and ABS. -/
  na : FSrc
  nb : FSrc
  nia : FSrc
  nib : FSrc
  nic : FSrc
  /-- Optional last sources. -/
  oa : Option Src
  ob : Option Src
  oc : Option Src
  /-- The tensor identifier or row factor of AUX (R156, R226). -/
  tid : Option (BitVec 5)
  scope : BitVec 4
  ord : BitVec 2
  size : BitVec 3
  hint : BitVec 2

def fieldsOf (r : FRaw) : Fields :=
  let c := r.hi.extractLsb' 0 24
  let imm := r.imm != 0
  let im : FSrc := { src := .imm r.hi, neg := false, abs := false }
  { g := guardOf r.pg r.pgn, flg := flgOf r.flg, row := r.row != 0,
    ra := regOf r.sa, rb := regOf r.sb, rc := regOf c,
    a := srcOf r.sa, b := srcOf r.sb, c := srcOf c,
    ia := if imm then .imm r.hi else srcOf r.sa,
    ib := if imm then .imm r.hi else srcOf r.sb,
    ic := if imm then .imm r.hi else srcOf c,
    na := fsrcOf r.sa, nb := fsrcOf r.sb,
    nia := if imm then im else fsrcOf r.sa,
    nib := if imm then im else fsrcOf r.sb,
    nic := if imm then im else fsrcOf c,
    oa := if imm then some (.imm r.hi) else optOf r.sa,
    ob := if imm then some (.imm r.hi) else optOf r.sb,
    oc := if imm then some (.imm r.hi) else optOf c,
    tid := if bitOf r.aux 5 then some (r.aux.extractLsb' 0 5) else none,
    scope := r.sub.extractLsb' 4 4, ord := r.sub.extractLsb' 2 2,
    size := r.aux.extractLsb' 0 3, hint := r.aux.extractLsb' 3 2 }

/-- The integer conditions by their code (R143). -/
def icondOf (n : BitVec 8) : ICond :=
  match n.toNat with
  | 0 => .eq | 1 => .ne | 2 => .lt | 3 => .le | 4 => .gt | 5 => .ge | 6 => .ltu | 7 => .leu | 8 => .gtu
  | _ => .geu

def icondCode : ICond → BitVec 8
  | .eq => 0 | .ne => 1 | .lt => 2 | .le => 3 | .gt => 4 | .ge => 5 | .ltu => 6 | .leu => 7 | .gtu => 8
  | .geu => 9

/-- The float conditions by their code (R165). -/
def fcondOf (n : BitVec 8) : FCond :=
  match n.toNat with
  | 0 => .eq | 1 => .ne | 2 => .lt | 3 => .le | 4 => .gt | 5 => .ge | 6 => .ord
  | _ => .un

def fcondCode : FCond → BitVec 8
  | .eq => 0 | .ne => 1 | .lt => 2 | .le => 3 | .gt => 4 | .ge => 5 | .ord => 6 | .un => 7

/-- The modes of POLL (R139). -/
def pollOf (n : BitVec 3) : PollMode :=
  match n.toNat with
  | 0 => .every | 1 => .some | 2 => .same | 3 => .mask
  | _ => .count

def pollCode : PollMode → BitVec 3
  | .every => 0 | .some => 1 | .same => 2 | .mask => 3 | .count => 4

/-- The operations of REDL and SCANL (R176). -/
def redOpOf (n : BitVec 4) : RedOp :=
  match n.toNat with
  | 0 => .iadd | 1 => .iminS | 2 => .iminU | 3 => .imaxS | 4 => .imaxU | 5 => .and | 6 => .or | 7 => .xor
  | 8 => .fadd | 9 => .fmin
  | _ => .fmax

def redOpCode : RedOp → BitVec 4
  | .iadd => 0 | .iminS => 1 | .iminU => 2 | .imaxS => 3 | .imaxU => 4 | .and => 5 | .or => 6 | .xor => 7
  | .fadd => 8 | .fmin => 9 | .fmax => 10

/-- The modes of MMA and MTREE (R217). -/
def treeModeOf (n : BitVec 2) : TreeMode := if n == 0 then .zero else if n == 1 then .acc else .node

def treeModeCode : TreeMode → BitVec 2
  | .zero => 0 | .acc => 1 | .node => 2

/-- The images of SGETP and SPUTP (R153). -/
def pimageOf (n : BitVec 8) : PImage := if n == 0 then .preds else if n == 1 then .index else .uniform

def pimageCode : PImage → BitVec 8
  | .preds => 0 | .index => 1 | .uniform => 2

def buildControl (r : FRaw) : Option Instr :=
  let f := fieldsOf r
  match r.op.toNat with
  | 0x000 => some (.nop ⟨f.g⟩)
  | 0x001 => some (.bra ⟨f.g, if bitOf r.sub 1 then some (f.ra, bitOf r.sub 0) else none, r.hi⟩)
  | 0x002 => some (.brx ⟨f.g, f.ra, bitOf r.sub 0, r.hi⟩)
  | 0x003 => some (.bri ⟨f.g, f.ra⟩)
  | 0x004 => some (.call ⟨f.g, r.dst, r.hi⟩)
  | 0x005 => some (.ret ⟨f.g, f.ra⟩)
  | 0x006 => some (.loop ⟨f.g, r.dst, r.hi⟩)
  | 0x007 => some (.exit ⟨f.g⟩)
  | 0x008 => some (.yield ⟨f.g, bitOf r.sub 0⟩)
  | 0x009 => some (.waitf ⟨f.g, r.hi.extractLsb' 0 12, r.sub.extractLsb' 0 6⟩)
  | 0x010 => some (.pltab ⟨f.g, r.dst, f.ra, f.rb, f.rc, r.sub⟩)
  | 0x011 =>
    if r.sub == 0 then some (.pmovTov ⟨f.g, r.dst⟩)
    else some (.pmovFromv ⟨f.g, f.ra, (unpackSrc r.sa).route⟩)
  | 0x012 => some (.poll ⟨f.g, pollOf (r.sub.extractLsb' 0 3), bitOf r.sub 3, r.dst, f.ra⟩)
  | 0x013 => some (.qltab ⟨f.g, r.dst, f.ra, f.rb, f.rc, r.sub⟩)
  | 0x014 => some (.qset ⟨f.g, r.dst, f.ia⟩)
  | _ => none

def buildScalar (r : FRaw) : Option Instr :=
  let f := fieldsOf r
  let u := bitOf r.sub 0
  match r.op.toNat with
  | 0x020 => some (.sadd ⟨f.g, r.dst, f.ra, f.ib⟩)
  | 0x021 => some (.ssub ⟨f.g, r.dst, f.ra, f.ib⟩)
  | 0x022 => some (.smul ⟨f.g, r.dst, f.ra, f.ib⟩)
  | 0x023 => some (.smulh ⟨f.g, u, r.dst, f.ra, f.ib⟩)
  | 0x024 => some (.smad ⟨f.g, r.dst, f.ra, f.rb, f.ic⟩)
  | 0x025 => some (.sadd64 ⟨f.g, r.dst, f.ra, f.ib⟩)
  | 0x026 => some (.sltab ⟨f.g, r.sub, r.dst, f.ra, f.rb, f.ic⟩)
  | 0x027 => some (.sshl ⟨f.g, r.dst, f.ra, f.ib⟩)
  | 0x028 => some (.sshr ⟨f.g, r.dst, f.ra, f.ib⟩)
  | 0x029 => some (.ssra ⟨f.g, r.dst, f.ra, f.ib⟩)
  | 0x02A => some (.smin ⟨f.g, u, r.dst, f.ra, f.ib⟩)
  | 0x02B => some (.smax ⟨f.g, u, r.dst, f.ra, f.ib⟩)
  | 0x02C => some (.sbfe ⟨f.g, u, r.dst, f.ra, f.ib⟩)
  | 0x02D => some (.sbfi ⟨f.g, r.dst, f.ra, f.rb, f.ic⟩)
  | 0x02E => some (.spopc ⟨f.g, r.dst, f.ia⟩)
  | 0x02F => some (.sclz ⟨f.g, r.dst, f.ia⟩)
  | 0x030 => some (.smov ⟨f.g, r.dst, f.a⟩)
  | 0x031 => some (.smovi ⟨f.g, r.dst, r.hi⟩)
  | 0x032 => some (.scmp ⟨f.g, icondOf r.sub, r.dst, f.ra, f.ib⟩)
  | 0x033 => some (.ssel ⟨f.g, u, r.dst, f.ra, f.rb, f.ic⟩)
  | 0x1D0 => some (.trap ⟨f.g, r.sub⟩)
  | 0x1D1 => some (.tret ⟨f.g, u⟩)
  | 0x1D2 => some (.tkill ⟨f.g, r.sub⟩)
  | 0x1D3 => some (.brk ⟨f.g, r.sub⟩)
  | 0x1D4 => some (.srd ⟨f.g, r.sub, bitOf r.aux 0, r.dst⟩)
  | 0x1D5 => some (.swr ⟨f.g, r.sub, f.ia⟩)
  | 0x1D6 => some (.sgetl ⟨f.g, r.dst, f.a, f.ib⟩)
  | 0x1D7 => some (.sputl ⟨f.g, bitOf r.aux 0, r.dst, f.ra, f.ib⟩)
  | 0x1D8 => some (.sgetp ⟨f.g, pimageOf r.sub, r.dst, f.oa⟩)
  | 0x1D9 => some (.sputp ⟨f.g, pimageOf r.sub, f.ra, f.ob⟩)
  | _ => none

def buildVector (r : FRaw) : Option Instr :=
  let f := fieldsOf r
  let u := bitOf r.sub 0
  let carryOut : Option Reg := if r.aux == 31 then none else some (r.aux.setWidth 8)
  let carryIn : Option Reg := if f.rc == 31 then none else some f.rc
  let cs := r.sub.extractLsb' 0 4
  let part := r.sub.extractLsb' 4 4
  let rt := (unpackSrc r.sa).route
  let rtb := (unpackSrc r.sb).route
  match r.op.toNat with
  | 0x040 => some (.iadd ⟨f.g, r.dst, f.a, f.ib⟩)
  | 0x041 => some (.isub ⟨f.g, r.dst, f.a, f.ib⟩)
  | 0x042 => some (.iaddc ⟨f.g, r.dst, carryOut, f.a, f.b, carryIn⟩)
  | 0x043 => some (.isubb ⟨f.g, r.dst, carryOut, f.a, f.b, carryIn⟩)
  | 0x044 => some (.imul ⟨f.g, r.dst, f.a, f.ib⟩)
  | 0x045 => some (.imulh ⟨f.g, u, r.dst, f.a, f.ib⟩)
  | 0x046 => some (.imad ⟨f.g, r.dst, f.a, f.b, f.ic⟩)
  | 0x047 => some (.imadw ⟨f.g, u, r.dst, f.a, f.b, f.ic⟩)
  | 0x048 => some (.iadd64 ⟨f.g, r.dst, f.a, f.ib⟩)
  | 0x049 => some (.iabs ⟨f.g, r.dst, f.a⟩)
  | 0x04A => some (.imin ⟨f.g, u, r.dst, f.a, f.ib⟩)
  | 0x04B => some (.imax ⟨f.g, u, r.dst, f.a, f.ib⟩)
  | 0x050 => some (.ltab ⟨f.g, r.sub, r.dst, f.a, f.b, f.ic⟩)
  | 0x051 => some (.shl ⟨f.g, r.dst, f.a, f.ib⟩)
  | 0x052 => some (.shr ⟨f.g, r.dst, f.a, f.ib⟩)
  | 0x053 => some (.sra ⟨f.g, r.dst, f.a, f.ib⟩)
  | 0x054 => some (.fshl ⟨f.g, r.dst, f.a, f.b, f.ic⟩)
  | 0x055 => some (.fshr ⟨f.g, r.dst, f.a, f.b, f.ic⟩)
  | 0x056 => some (.bfe ⟨f.g, u, r.dst, f.a, f.ib⟩)
  | 0x057 => some (.bfi ⟨f.g, r.dst, f.a, f.b, f.ic⟩)
  | 0x058 => some (.brev ⟨f.g, r.dst, f.a⟩)
  | 0x059 => some (.popc ⟨f.g, r.dst, f.a⟩)
  | 0x05A => some (.clz ⟨f.g, r.dst, f.a⟩)
  | 0x05B => some (.bmix ⟨f.g, r.dst, f.a, f.b, f.ic⟩)
  | 0x060 => some (.icmp ⟨f.g, icondOf r.sub, r.dst, f.a, f.ib⟩)
  | 0x061 => some (.sel ⟨f.g, u, r.dst, f.ra, f.b, f.ic⟩)
  | 0x062 => some (.mov ⟨f.g, r.dst, f.ra, rt⟩)
  | 0x063 => some (.movi ⟨f.g, r.dst, .imm r.hi⟩)
  | 0x064 => some (.movs ⟨f.g, u, r.dst, f.ra⟩)
  | 0x065 => if u then some (.movxFromx ⟨f.g, r.dst, f.ra⟩) else some (.movxTox ⟨f.g, r.dst, f.ra, rt⟩)
  | 0x0C0 => some (.fadd ⟨f.g, r.fs, f.row, f.tid, r.dst, f.na, f.nib⟩)
  | 0x0C1 => some (.fsub ⟨f.g, r.fs, f.row, f.tid, r.dst, f.na, f.nib⟩)
  | 0x0C2 => some (.fmul ⟨f.g, r.fs, f.row, f.tid, r.dst, f.na, f.nib⟩)
  | 0x0C3 => some (.fma ⟨f.g, r.fs, f.row, f.tid, r.dst, f.na, f.nb, f.nic⟩)
  | 0x0C4 => some (.fmin ⟨f.g, r.fs, f.row, f.tid, r.dst, f.na, f.nib⟩)
  | 0x0C5 => some (.fmax ⟨f.g, r.fs, f.row, f.tid, r.dst, f.na, f.nib⟩)
  | 0x0C6 => some (.fcmp ⟨f.g, r.fs, fcondOf r.sub, r.dst, f.na, f.nib⟩)
  | 0x0C7 => some (.fclass ⟨f.g, r.fs, r.dst, f.na⟩)
  | 0x0C8 => some (.frint ⟨f.g, r.fs, f.row, f.tid,
               if bitOf r.sub 3 then some (r.sub.extractLsb' 0 3) else none, r.dst, f.na⟩)
  | 0x0C9 => some (.fscale ⟨f.g, r.fs, f.row, f.tid, r.dst, f.na, f.ib⟩)
  | 0x0E0 => some (.cvt ⟨f.g, r.fs, f.row, cs, part, r.dst, f.a, f.rb, rtb, f.oc, false⟩)
  | 0x0E1 => some (.cvtef ⟨f.g, r.fs, f.row, cs, part, r.aux.extractLsb' 0 4, r.dst, f.a, f.rb, rtb, f.oc⟩)
  | 0x0E2 => some (.pack ⟨f.g, r.fs, cs, r.dst, f.ra, rt⟩)
  | 0x0E3 => some (.unpack ⟨f.g, r.fs, cs, bitOf r.sub 4, r.dst, f.ra, rt⟩)
  | 0x100 => some (.fdrw ⟨f.g, r.fs, f.ia⟩)
  | 0x101 => some (.fdrr ⟨f.g, r.fs, r.dst⟩)
  | 0x120 => some (.rcp ⟨f.g, r.fs, f.row, f.tid, r.dst, f.nia⟩)
  | 0x121 => some (.rsq ⟨f.g, r.fs, f.row, f.tid, r.dst, f.nia⟩)
  | 0x122 => some (.sqrt ⟨f.g, r.fs, f.row, f.tid, r.dst, f.nia⟩)
  | 0x123 => some (.exp2 ⟨f.g, r.fs, f.row, f.tid, r.dst, f.nia⟩)
  | 0x124 => some (.log2 ⟨f.g, r.fs, f.row, f.tid, r.dst, f.nia⟩)
  | 0x125 => some (.sin ⟨f.g, r.fs, f.row, f.tid, r.dst, f.nia⟩)
  | 0x126 => some (.cos ⟨f.g, r.fs, f.row, f.tid, r.dst, f.nia⟩)
  | 0x127 => some (.tanh ⟨f.g, r.fs, f.row, f.tid, r.dst, f.nia⟩)
  | 0x128 => some (.div ⟨f.g, r.fs, f.row, f.tid, r.dst, f.na, f.nib⟩)
  | 0x140 => some (.redl ⟨f.g, r.fs, redOpOf cs, r.sub.extractLsb' 4 3, r.dst, f.a⟩)
  | 0x141 => some (.scanl ⟨f.g, r.fs, redOpOf cs, r.sub.extractLsb' 4 3, bitOf r.sub 7, r.dst, f.a⟩)
  | 0x142 => some (.matchv ⟨f.g, u, if bitOf r.aux 5 then some ((r.aux.extractLsb' 0 5).setWidth 8) else none,
               r.dst, f.ra, rt⟩)
  | 0x143 => some (.bdec ⟨f.g, f.flg, u, r.dst, f.ra, f.ib⟩)
  | _ => none

def buildMemory (r : FRaw) : Option Instr :=
  let f := fieldsOf r
  let fn := (atomFnOf (r.aux.extractLsb' 0 4)).getD .swap
  let wide := bitOf r.aux 4
  let hintLow := r.sub.extractLsb' 0 2
  match r.op.toNat with
  | 0x160 => some (.ld ⟨f.g, f.flg, f.size, f.ord, f.scope, f.hint, r.dst, f.ra, f.b, f.oc⟩)
  | 0x161 => some (.st ⟨f.g, f.flg, f.size, f.ord, f.scope, f.hint, r.dst, f.ra, f.b, f.oc⟩)
  | 0x162 => some (.ldp ⟨f.g, f.flg, r.fs, f.ord, f.scope, f.hint, r.dst, f.ra, f.rb, f.oc⟩)
  | 0x163 => some (.stp ⟨f.g, f.flg, r.fs, f.ord, f.scope, f.hint, r.dst, f.ra, f.rb, f.oc⟩)
  | 0x164 => some (.stm ⟨f.g, f.flg, f.ord, f.scope, f.hint, r.dst, f.ra, f.b, f.ic⟩)
  | 0x165 => some (.ldl ⟨f.g, f.flg, f.size, f.ord, f.scope, r.dst, f.a, f.ob⟩)
  | 0x166 => some (.stl ⟨f.g, f.flg, f.size, f.ord, f.scope, r.dst, f.a, f.ob⟩)
  | 0x167 => some (.ldx ⟨f.g, f.flg, f.size, f.ord, f.scope, r.dst, f.a, f.b, f.oc⟩)
  | 0x168 => some (.stx ⟨f.g, f.flg, f.size, f.ord, f.scope, r.dst, f.a, f.b, f.oc⟩)
  | 0x169 => some (.sld ⟨f.g, f.flg, f.size, f.ord, f.scope, f.hint, r.dst, f.ra, f.ob⟩)
  | 0x16A => some (.sst ⟨f.g, f.flg, f.size, f.ord, f.scope, f.hint, r.dst, f.ra, f.ob⟩)
  | 0x16B => some (.atom ⟨f.g, f.flg, r.fs, fn, wide, f.ord, f.scope, hintLow, r.dst, f.ra, f.b, f.ic⟩)
  | 0x16C => some (.red ⟨f.g, f.flg, r.fs, fn, wide, f.ord, f.scope, hintLow, f.ra, f.b, f.ic⟩)
  | 0x16D => some (.redD ⟨f.g, f.flg, r.fs, fn, wide, hintLow, f.ra, f.b, f.ic⟩)
  | 0x16E => some (.dflush ⟨f.g, f.flg, f.scope⟩)
  | 0x16F => some (.fence ⟨f.g, f.flg, f.ord, f.scope⟩)
  | 0x170 => some (.mwait ⟨f.g, f.scope, if bitOf r.aux 0 then some r.dst else none, f.ra, f.ib⟩)
  | 0x171 => some (.pref ⟨f.g, r.sub.extractLsb' 0 2, f.ra, f.b, f.oc⟩)
  | 0x172 => some (.cctl ⟨f.g, f.flg, r.sub.extractLsb' 0 3,
               if r.sub.extractLsb' 0 3 == 0 then none else some (f.ra, f.b, f.oc)⟩)
  | _ => none

def buildEngine (r : FRaw) : Option Instr :=
  let f := fieldsOf r
  let mode := treeModeOf (r.sub.extractLsb' 0 2)
  let bit0 := bitOf r.sub 0
  match r.op.toNat with
  | 0x1A0 => some (.mma ⟨f.g, f.flg, r.fs, mode, bitOf r.sub 2, bitOf r.sub 3, bitOf r.sub 4, bitOf r.sub 5,
               bitOf r.sub 6, r.dst, f.ra, f.rb, f.rc⟩)
  | 0x1A1 => some (.mtree ⟨f.g, f.flg, mode, r.aux, r.dst, f.ra, f.rb⟩)
  | 0x1A2 => some (.amld ⟨f.g, f.flg, r.dst, f.ra, optReg r.sb⟩)
  | 0x1A3 => some (.amst ⟨f.g, f.flg, f.ra, f.rb⟩)
  | 0x1A4 => some (.amz ⟨f.g, f.flg, r.dst⟩)
  | 0x1A5 => some (.amcvt ⟨f.g, f.flg, r.fs, f.tid, f.ra, f.rb, f.oc⟩)
  | 0x1B0 => some (.copy ⟨f.g, f.flg, f.scope, r.sub.extractLsb' 0 2, bitOf r.sub 2, bitOf r.sub 3, bitOf r.aux 0,
               r.aux.extractLsb' 1 2, bitOf r.aux 3, bitOf r.aux 4, bitOf r.aux 5, f.ra, optReg r.sb⟩)
  | 0x1B1 => some (.cpyb ⟨f.g, f.flg, if bitOf r.aux 0 then some r.dst else none⟩)
  | 0x1B2 => some (.waitb ⟨f.g, bit0, f.ia⟩)
  | 0x1C0 => some (.bari ⟨f.g, f.flg, bit0, bitOf r.sub 1, f.ra, f.ib⟩)
  | 0x1C1 => some (.bara ⟨f.g, f.flg, bit0, r.dst, f.ra, f.ob⟩)
  | 0x1C2 => some (.barw ⟨f.g, f.flg, bit0, r.dst, f.ra, f.rb⟩)
  | 0x1C3 => some (.bart ⟨f.g, f.flg, bit0, r.dst, f.ra, f.rb⟩)
  | 0x1C4 => some (.launch ⟨f.g, f.flg, r.dst, f.ra⟩)
  | 0x1C5 => some (.lwait ⟨f.g, if bit0 then none else some f.ra⟩)
  | _ => none

/-- The instruction of an F bundle whose fields meet the checks. -/
def buildOf (r : FRaw) : Option Instr :=
  if r.op.toNat < 0x020 then buildControl r
  else if r.op.toNat < 0x040 ∨ 0x1D0 ≤ r.op.toNat then buildScalar r
  else if r.op.toNat < 0x160 then buildVector r
  else if r.op.toNat < 0x1A0 then buildMemory r
  else buildEngine r

/-- An F bundle: the instruction, or the detail code of R108. -/
def decodeF (p : Place) (r : FRaw) : Except Nat Instr :=
  match fmtOf r with
  | none => .error 0x04
  | some f =>
    match firstCode (fmtCodes f p r) with
    | some c => .error c
    | none =>
      match buildOf r with
      | some i => .ok i
      | none => .error 0x04

/-! ### Restricted halves (R83, R84, R107) -/

/-- The shape of a short opcode. -/
inductive Shape where
  | nop
  | unary
  /-- "d op s". -/
  | binary
  deriving DecidableEq, Repr

/-- The classes of R107. -/
inductive SClass where
  | none | i | f | c | x
  deriving DecidableEq, Repr

/-- How a short opcode uses the fields of the half. -/
structure SFmt where
  shape : Shape
  cls : SClass
  /-- FS, ROW and NEG and ABS are accepted. -/
  fs : Bool := false
  row : Bool := false
  neg : Bool := false
  /-- A scalar source is accepted. -/
  sk : Bool := true
  /-- An immediate is accepted, or required. -/
  imm : Bool := false
  must : Bool := false
  deriving DecidableEq, Repr

def sfmtOf (sop : BitVec 6) : Option SFmt :=
  let n := sop.toNat
  if n = 0x00 then some { shape := .nop, cls := .none }
  else if n = 0x01 then some { shape := .unary, cls := .i, sk := false }
  else if n = 0x02 then some { shape := .unary, cls := .i, sk := false, imm := true, must := true }
  else if n ≤ 0x09 then some { shape := .binary, cls := .i, imm := true }
  else if n = 0x0A then some { shape := .unary, cls := .i }
  else if n ≤ 0x0D then some { shape := .binary, cls := .i, imm := true }
  else if n ≤ 0x11 then some { shape := .binary, cls := .i }
  else if n ≤ 0x15 then some { shape := .unary, cls := .i }
  else if n ≤ 0x1A then some { shape := .binary, cls := .f, fs := true, row := true, neg := true, imm := true }
  else if n = 0x1B then some { shape := .unary, cls := .f, fs := true, row := true, neg := true }
  else if n = 0x1C then some { shape := .binary, cls := .f, fs := true, row := true, imm := true }
  else if n = 0x1D then some { shape := .unary, cls := .c, fs := true, row := true }
  else if n ≤ 0x25 then some { shape := .unary, cls := .x, fs := true, row := true, neg := true, imm := true }
  else if n = 0x26 then some { shape := .binary, cls := .x, fs := true, row := true, neg := true, imm := true }
  else if n = 0x27 then some { shape := .unary, cls := .f, fs := true, neg := true }
  else none

/-- Every violation of R108 that a valid half of a defined short opcode shows. -/
def halfCodes (f : SFmt) (r : HRaw) : List Nat :=
  let imm := r.immf != 0
  let route := r.top4 ++ r.lo16.extractLsb' 8 8
  code (r.r56 != 0 || r.r31 != 0 || (r.cs != 0 && f.cls != .c)) 0x07
    ++ code ((r.fs != 0 && !f.fs) || (r.row != 0 && !f.row) || ((r.neg != 0 || r.abs != 0) && !f.neg)) 0x07
    ++ guardCodes r.pg r.pgn
    ++ (if f.shape = .nop then
          code (r.dst != 0 || imm || r.sk != 0 || r.lo16 != 0 || r.top4 != 0) 0x07
        else if imm then
          code (!f.imm || r.sk != 0 || r.top4 != 0) 0x07
        else
          code f.must 0x07
            ++ (if r.sk != 0 then
                  code (!f.sk) 0x0B ++ regCodes .s 1 (r.lo16.extractLsb' 0 8) ++ routeCodes false route
                else routeCodes true route))

/-- The half's source. -/
def halfSrc (r : HRaw) : Src :=
  if r.immf != 0 then .imm16 r.lo16
  else if r.sk != 0 then .s (r.lo16.extractLsb' 0 8)
  else .v (r.lo16.extractLsb' 0 8) (r.top4 ++ r.lo16.extractLsb' 8 8)

/-- The instruction of a half, R107: a binary short opcode uses DST as source A. -/
def buildHalf (r : HRaw) : Option Instr :=
  let g := guardOf r.pg r.pgn
  let d := r.dst
  let s := halfSrc r
  let self : Src := .v d 0
  let zero : Src := .imm16 0
  let fself : FSrc := { src := .v d 0, neg := false, abs := false }
  let fsrc : FSrc := { src := s, neg := r.neg != 0, abs := r.abs != 0 }
  let row := r.row != 0
  let reg := r.lo16.extractLsb' 0 8
  let route := r.top4 ++ r.lo16.extractLsb' 8 8
  match r.sop.toNat with
  | 0x00 => some (.nop ⟨g⟩)
  | 0x01 => some (.mov ⟨g, d, reg, route⟩)
  | 0x02 => some (.movi ⟨g, d, s⟩)
  | 0x03 => some (.iadd ⟨g, d, self, s⟩)
  | 0x04 => some (.isub ⟨g, d, self, s⟩)
  | 0x05 => some (.imul ⟨g, d, self, s⟩)
  | 0x06 => some (.imin ⟨g, false, d, self, s⟩)
  | 0x07 => some (.imin ⟨g, true, d, self, s⟩)
  | 0x08 => some (.imax ⟨g, false, d, self, s⟩)
  | 0x09 => some (.imax ⟨g, true, d, self, s⟩)
  | 0x0A => some (.iabs ⟨g, d, s⟩)
  | 0x0B => some (.shl ⟨g, d, self, s⟩)
  | 0x0C => some (.shr ⟨g, d, self, s⟩)
  | 0x0D => some (.sra ⟨g, d, self, s⟩)
  | 0x0E => some (.ltab ⟨g, 0x88, d, self, s, zero⟩)
  | 0x0F => some (.ltab ⟨g, 0xEE, d, self, s, zero⟩)
  | 0x10 => some (.ltab ⟨g, 0x66, d, self, s, zero⟩)
  | 0x11 => some (.ltab ⟨g, 0x22, d, self, s, zero⟩)
  | 0x12 => some (.ltab ⟨g, 0x33, d, zero, s, zero⟩)
  | 0x13 => some (.popc ⟨g, d, s⟩)
  | 0x14 => some (.clz ⟨g, d, s⟩)
  | 0x15 => some (.brev ⟨g, d, s⟩)
  | 0x16 => some (.fadd ⟨g, r.fs, row, none, d, fself, fsrc⟩)
  | 0x17 => some (.fsub ⟨g, r.fs, row, none, d, fself, fsrc⟩)
  | 0x18 => some (.fmul ⟨g, r.fs, row, none, d, fself, fsrc⟩)
  | 0x19 => some (.fmin ⟨g, r.fs, row, none, d, fself, fsrc⟩)
  | 0x1A => some (.fmax ⟨g, r.fs, row, none, d, fself, fsrc⟩)
  | 0x1B => some (.frint ⟨g, r.fs, row, none, none, d, fsrc⟩)
  | 0x1C => some (.fscale ⟨g, r.fs, row, none, d, fself, s⟩)
  | 0x1D => some (.cvt ⟨g, r.fs, row, r.cs, 0, d, s, 0, 0, none, true⟩)
  | 0x1E => some (.rcp ⟨g, r.fs, row, none, d, fsrc⟩)
  | 0x1F => some (.rsq ⟨g, r.fs, row, none, d, fsrc⟩)
  | 0x20 => some (.sqrt ⟨g, r.fs, row, none, d, fsrc⟩)
  | 0x21 => some (.exp2 ⟨g, r.fs, row, none, d, fsrc⟩)
  | 0x22 => some (.log2 ⟨g, r.fs, row, none, d, fsrc⟩)
  | 0x23 => some (.sin ⟨g, r.fs, row, none, d, fsrc⟩)
  | 0x24 => some (.cos ⟨g, r.fs, row, none, d, fsrc⟩)
  | 0x25 => some (.tanh ⟨g, r.fs, row, none, d, fsrc⟩)
  | 0x26 => some (.div ⟨g, r.fs, row, none, d, fself, fsrc⟩)
  | 0x27 => some (.fclass ⟨g, r.fs, d, fsrc⟩)
  | _ => none

/-- A half that holds an instruction. -/
def decodeHalfValid (r : HRaw) : Except Nat Instr :=
  match sfmtOf r.sop with
  | none => .error 0x05
  | some f =>
    match firstCode (halfCodes f r) with
    | some c => .error c
    | none =>
      match buildHalf r with
      | some i => .ok i
      | none => .error 0x05

/-- A half other than half 0 of a P bundle (R83, R84): HV says whether it holds an instruction. -/
def decodeHalf (w : BitVec 64) : Except Nat (Option Instr) :=
  let r := unpackH w
  match r.hv with
  | 0#2 => if w.extractLsb' 2 62 = 0 then .ok none else .error 0x07
  | 1#2 => (decodeHalfValid r).map some
  | _ => .error (if (sfmtOf r.sop).isNone then 0x05 else 0x06)

/-! ### Bundles and clause headers -/

inductive Bundle where
  | full (i : Instr)
  | pair (h0 : Instr) (h1 : Option Instr)
  | head (h : Header) (i : Option Instr)
  deriving DecidableEq, Repr

/-- Why a bundle is rejected: ILLEGAL with the POS of R325 (0 for an F bundle, the header or the bundle as a whole,
1 for the head half, 2 and 3 for the halves) and the detail of R108, or ILLEGAL_PAIR with the detail of R109. -/
inductive BadBundle where
  | illegal (pos : Nat) (detail : Nat)
  | pair (detail : Nat)
  deriving DecidableEq, Repr

/-- The checks of a clause header, R90. -/
def headerCodes (r : HdrRaw) : List Nat :=
  code (r.r52 != 0 || r.r31 != 0 || (r.av == 0 && r.anum != 0) || (r.bv == 0 && r.bnum != 0)
          || (r.stop == 0 && r.ord != 0)) 0x07
    ++ code ((r.av != 0 && 11 < r.anum.toNat) || (r.bv != 0 && 11 < r.bnum.toNat)) 0x0B

def headerOf (r : HdrRaw) : Header where
  len := r.len
  wait := r.wait
  setA := if r.av != 0 then some r.anum else none
  setB := if r.bv != 0 then some r.bnum else none
  stop := if r.stop != 0 then some r.ord else none
  yld := r.yld != 0
  rcv := r.rcv != 0

/-- The registers that a half reads from the vector file: at most its DST and its source (R104). -/
def halfReads (f : SFmt) (r : HRaw) : List Reg :=
  (if f.shape = .binary then [r.dst] else [])
    ++ (if f.shape ≠ .nop && r.immf == 0 && r.sk == 0 then [r.lo16.extractLsb' 0 8] else [])

/-- The bank of a vector register (R104). -/
def bank (r : Reg) : Nat := r.toNat % 4

/-- The first condition of R104 that two valid halves break, in the order of R109. -/
def pairCode (f0 f1 : SFmt) (r0 r1 : HRaw) : Option Nat :=
  let reads := halfReads f0 r0 ++ halfReads f1 r1
  let routed (f : SFmt) (r : HRaw) :=
    f.shape ≠ .nop && r.immf == 0 && (r.top4 ++ r.lo16.extractLsb' 8 8) != 0
  let special (f : SFmt) := f.cls = .c || f.cls = .x
  if f0.shape ≠ .nop ∧ f1.shape ≠ .nop ∧ bank r0.dst = bank r1.dst then some 0x01
  else if [0, 1, 2, 3].any (fun b => 2 < (reads.filter (fun r => bank r == b)).length) then some 0x02
  else if routed f0 r0 ∧ routed f1 r1 then some 0x03
  else if special f0 ∧ special f1 then some 0x04
  else if f0.fs ∧ f1.fs ∧ r0.fs ≠ r1.fs then some 0x05
  else none

/-- A P bundle (R78, R104, R109): ILLEGAL is checked before ILLEGAL_PAIR (R110). -/
def decodePair (w : BitVec 128) : Except BadBundle Bundle :=
  let r0 := unpackH (w.extractLsb' 0 64)
  let w1 := w.extractLsb' 64 64
  match decodeHalfValid r0 with
  | .error c => .error (.illegal 2 c)
  | .ok i0 =>
    match decodeHalf w1 with
    | .error c => .error (.illegal 3 c)
    | .ok none => .ok (.pair i0 none)
    | .ok (some i1) =>
      let r1 := unpackH w1
      match sfmtOf r0.sop, sfmtOf r1.sop with
      | some f0, some f1 =>
        (match pairCode f0 f1 r0 r1 with
         | some c => .error (.pair c)
         | none => .ok (.pair i0 (some i1)))
      | _, _ => .error (.illegal 0 0x05)

/-- A head bundle (R79, R90): the header is checked before the head half (R110). -/
def decodeHead (w : BitVec 128) : Except BadBundle Bundle :=
  let h := unpackHdr (w.extractLsb' 0 64)
  match firstCode (headerCodes h) with
  | some c => .error (.illegal 0 c)
  | none =>
    match decodeHalf (w.extractLsb' 64 64) with
    | .error c => .error (.illegal 1 c)
    | .ok i => .ok (.head (headerOf h) i)

/-- A bundle at a clause head: only type 10 is one (R108 row NOHEAD). -/
def decodeAtHead (w : BitVec 128) : Except BadBundle Bundle :=
  match w.extractLsb' 0 2 with
  | 2#2 => decodeHead w
  | 3#2 => .error (.illegal 0 0x01)
  | _ => .error (.illegal 0 0x02)

/-- The header of a clause head whose trap was passed by TRET.NEXT: it is applied in full, whatever its check or its
head half says (R330). A set-flag number that names no flag is not held. -/
def passedHead (w : BitVec 128) : Except BadBundle Bundle :=
  match w.extractLsb' 0 2 with
  | 2#2 =>
    let h := headerOf (unpackHdr (w.extractLsb' 0 64))
    .ok (.head { h with setA := h.setA.filter (fun k => k.toNat < 12), setB := h.setB.filter (fun k => k.toNat < 12) }
      none)
  | _ => decodeAtHead w

/-- A bundle in a clause body: type 00 or 01 (R108 row HEADPOS). -/
def decodeInBody (p : Place) (w : BitVec 128) : Except BadBundle Bundle :=
  match w.extractLsb' 0 2 with
  | 0#2 =>
    (match decodeF p (unpackF w) with
     | .ok i => .ok (.full i)
     | .error c => .error (.illegal 0 c))
  | 1#2 => decodePair w
  | 2#2 => .error (.illegal 0 0x03)
  | _ => .error (.illegal 0 0x01)

/-- The first instruction of a bundle that stands where its type may stand, with both set-flags valid. -/
def decodeFirst (w : BitVec 128) : Option Instr :=
  match w.extractLsb' 0 2 with
  | 2#2 =>
    (match decodeHead w with
     | .ok (.head _ i) => i
     | _ => none)
  | _ =>
    match decodeInBody ⟨true, true, true⟩ w with
    | .ok (.full i) => some i
    | .ok (.pair i _) => some i
    | _ => none

/-- The instruction the decoder reads from a bundle whose bits are `w`; bits above `nbits` are 0. -/
def decodeTableWord (nbits w : Nat) : Option Instr := decodeFirst (BitVec.ofNat 128 (w % 2 ^ nbits))

/-! ### The encoder -/

def pgOf : Guard → BitVec 5
  | .always => 31
  | .pred p _ => p.setWidth 5

def pgnOf : Guard → BitVec 1
  | .always => 0
  | .pred _ neg => BitVec.ofBool neg

def flgCode : FlagSel → BitVec 2
  | .none => 0
  | .a => 1
  | .b => 2

/-- An F bundle with this opcode and guard and every other field 0. -/
def rawOf (op : BitVec 9) (g : Guard) : FRaw where
  op := op
  fs := 0
  row := 0
  flg := 0
  pg := pgOf g
  pgn := pgnOf g
  dst := 0
  sub := 0
  aux := 0
  imm := 0
  r47 := 0
  sa := 0
  sb := 0
  hi := 0

def encK (r : Reg) : BitVec 24 := packSrc ⟨2, 0, 0, 0, r⟩
def encS (r : Reg) : BitVec 24 := packSrc ⟨1, 0, 0, 0, r⟩
def encV (r : Reg) (rt : Route) : BitVec 24 := packSrc ⟨0, 0, 0, rt, r⟩

def encSrc : Src → BitVec 24
  | .v r rt => encV r rt
  | .s r => encS r
  | .imm _ => 0
  | .imm16 _ => 0

def encFSrc (f : FSrc) : BitVec 24 :=
  match f.src with
  | .v r rt => packSrc ⟨0, BitVec.ofBool f.neg, BitVec.ofBool f.abs, rt, r⟩
  | .s r => packSrc ⟨1, BitVec.ofBool f.neg, BitVec.ofBool f.abs, 0, r⟩
  | .imm _ => 0
  | .imm16 _ => 0

/-- The last source in SA, SB or SC, or the immediate (R82). -/
def lastA (r : FRaw) : Src → FRaw
  | .imm w => { r with imm := 1, hi := w }
  | s => { r with sa := encSrc s }

def lastB (r : FRaw) : Src → FRaw
  | .imm w => { r with imm := 1, hi := w }
  | s => { r with sb := encSrc s }

def lastC (r : FRaw) : Src → FRaw
  | .imm w => { r with imm := 1, hi := w }
  | s => { r with hi := (encSrc s).setWidth 32 }

def lastFA (r : FRaw) (f : FSrc) : FRaw :=
  match f.src with
  | .imm w => { r with imm := 1, hi := w }
  | _ => { r with sa := encFSrc f }

def lastFB (r : FRaw) (f : FSrc) : FRaw :=
  match f.src with
  | .imm w => { r with imm := 1, hi := w }
  | _ => { r with sb := encFSrc f }

def lastFC (r : FRaw) (f : FSrc) : FRaw :=
  match f.src with
  | .imm w => { r with imm := 1, hi := w }
  | _ => { r with hi := (encFSrc f).setWidth 32 }

def optA (r : FRaw) : Option Src → FRaw
  | none => r
  | some s => lastA r s

def optB (r : FRaw) : Option Src → FRaw
  | none => r
  | some s => lastB r s

def optC (r : FRaw) : Option Src → FRaw
  | none => r
  | some s => lastC r s

/-- SC without an immediate. -/
def setC (r : FRaw) (w : BitVec 24) : FRaw := { r with hi := w.setWidth 32 }

def b8 (b : Bool) : BitVec 8 := (BitVec.ofBool b).setWidth 8

def tidAux : Option (BitVec 5) → BitVec 6
  | none => 0
  | some t => 1#1 ++ t

def encTarget (op : BitVec 9) (g : Guard) (d : Reg) (disp : BitVec 32) : FRaw :=
  { rawOf op g with dst := d, imm := 1, hi := disp }

def encTab3 (op : BitVec 9) (o : Tab3Op) : FRaw :=
  setC { rawOf op o.g with dst := o.d, sub := o.lut, sa := encK o.a, sb := encK o.b } (encK o.c)

def encS2 (op : BitVec 9) (o : S2Op) : FRaw := lastB { rawOf op o.g with dst := o.d, sa := encS o.a } o.b
def encS2U (op : BitVec 9) (o : S2UOp) : FRaw :=
  lastB { rawOf op o.g with dst := o.d, sub := b8 o.u, sa := encS o.a } o.b
def encS3 (op : BitVec 9) (o : S3Op) : FRaw :=
  lastC { rawOf op o.g with dst := o.d, sa := encS o.a, sb := encS o.b } o.c
def encD1 (op : BitVec 9) (o : D1Op) : FRaw := lastA { rawOf op o.g with dst := o.d } o.a
def encV1 (op : BitVec 9) (o : V1Op) : FRaw := lastA { rawOf op o.g with dst := o.d } o.a
def encV2 (op : BitVec 9) (o : V2Op) : FRaw := lastB { rawOf op o.g with dst := o.d, sa := encSrc o.a } o.b
def encV2U (op : BitVec 9) (o : V2UOp) : FRaw :=
  lastB { rawOf op o.g with dst := o.d, sub := b8 o.u, sa := encSrc o.a } o.b
def encV3 (op : BitVec 9) (o : V3Op) : FRaw :=
  lastC { rawOf op o.g with dst := o.d, sa := encSrc o.a, sb := encSrc o.b } o.c
def encCarry (op : BitVec 9) (o : VCarryOp) : FRaw :=
  setC { rawOf op o.g with dst := o.d, aux := (o.po.getD 31).setWidth 6, sa := encSrc o.a, sb := encSrc o.b }
    (encK (o.pi.getD 31))

def encF1 (op : BitVec 9) (o : F1Op) : FRaw :=
  lastFA { rawOf op o.g with dst := o.d, fs := o.fs, row := BitVec.ofBool o.row, aux := tidAux o.tid } o.a
def encF2 (op : BitVec 9) (o : F2Op) : FRaw :=
  lastFB { rawOf op o.g with dst := o.d, fs := o.fs, row := BitVec.ofBool o.row, aux := tidAux o.tid,
                             sa := encFSrc o.a } o.b

/-- SUB and AUX of a load or store. -/
def encMemF (op : BitVec 9) (g : Guard) (flg : FlagSel) (ord : BitVec 2) (scope : BitVec 4) (hint : BitVec 2)
    (size : BitVec 3) (d : Reg) : FRaw :=
  { rawOf op g with flg := flgCode flg, sub := scope ++ ord ++ 0#2, aux := 0#1 ++ hint ++ size, dst := d }

def encMem (op : BitVec 9) (o : MemOp) : FRaw :=
  optC { encMemF op o.g o.flg o.ord o.scope o.hint o.size o.d with sa := encS o.a, sb := encSrc o.idx } o.off
def encSMem (op : BitVec 9) (o : SMemOp) : FRaw :=
  optB { encMemF op o.g o.flg o.ord o.scope o.hint o.size o.d with sa := encS o.a } o.off
def encPMem (op : BitVec 9) (o : PMemOp) : FRaw :=
  optC { encMemF op o.g o.flg o.ord o.scope o.hint 0 o.d with fs := o.fs, sa := encS o.a, sb := encS o.b } o.count
def encLMem (op : BitVec 9) (o : LMemOp) : FRaw :=
  optB { encMemF op o.g o.flg o.ord o.scope 0 o.size o.d with sa := encSrc o.a } o.off
def encXMem (op : BitVec 9) (o : XMemOp) : FRaw :=
  optC { encMemF op o.g o.flg o.ord o.scope 0 o.size o.d with sa := encSrc o.k, sb := encSrc o.a } o.off

def encAtomF (op : BitVec 9) (g : Guard) (flg : FlagSel) (fs : BitVec 4) (fn : AtomFn) (wide : Bool)
    (ord : BitVec 2) (scope : BitVec 4) (hint : BitVec 2) (d a : Reg) (idx c : Src) : FRaw :=
  lastC { rawOf op g with flg := flgCode flg, fs := fs, dst := d, sub := scope ++ ord ++ hint,
                          aux := 0#1 ++ BitVec.ofBool wide ++ atomFnCode fn, sa := encS a, sb := encSrc idx } c

def encBar (op : BitVec 9) (flg : FlagSel) (o : BarwOp) : FRaw :=
  { rawOf op o.g with flg := flgCode flg, sub := b8 o.drove, dst := o.d, sa := encS o.a, sb := encS o.p }

/-- The fields of the F form of an instruction; none for an event. -/
def encF : Instr → Option FRaw
  | .nop o => some (rawOf 0x000 o.g)
  | .bra o =>
    (match o.cond with
     | none => some { rawOf 0x001 o.g with imm := 1, hi := o.disp }
     | some (q, n) => some { rawOf 0x001 o.g with imm := 1, hi := o.disp, sa := encK q, sub := 2 ||| b8 n })
  | .brx o => some { rawOf 0x002 o.g with imm := 1, hi := o.disp, sa := encK o.p, sub := b8 o.neg }
  | .bri o => some { rawOf 0x003 o.g with sa := encS o.a }
  | .call o => some (encTarget 0x004 o.g o.d o.disp)
  | .ret o => some { rawOf 0x005 o.g with sa := encV o.a 0 }
  | .loop o => some (encTarget 0x006 o.g o.d o.disp)
  | .exit o => some (rawOf 0x007 o.g)
  | .yield o => some { rawOf 0x008 o.g with sub := b8 o.swap }
  | .waitf o => some { rawOf 0x009 o.g with sub := o.n.setWidth 8, imm := 1, hi := o.mask.setWidth 32 }
  | .pltab o => some (encTab3 0x010 o)
  | .pmovTov o => some { rawOf 0x011 o.g with dst := o.d }
  | .pmovFromv o => some { rawOf 0x011 o.g with sub := 1, sa := encV o.a o.rt }
  | .poll o =>
    some { rawOf 0x012 o.g with dst := o.d, sa := encK o.a, sub := 0#4 ++ BitVec.ofBool o.neg ++ pollCode o.mode }
  | .qltab o => some (encTab3 0x013 o)
  | .qset o => some (encD1 0x014 o)
  | .sadd o => some (encS2 0x020 o)
  | .ssub o => some (encS2 0x021 o)
  | .smul o => some (encS2 0x022 o)
  | .smulh o => some (encS2U 0x023 o)
  | .smad o => some (encS3 0x024 o)
  | .sadd64 o => some (encS2 0x025 o)
  | .sltab o => some (lastC { rawOf 0x026 o.g with dst := o.d, sub := o.lut, sa := encS o.a, sb := encS o.b } o.c)
  | .sshl o => some (encS2 0x027 o)
  | .sshr o => some (encS2 0x028 o)
  | .ssra o => some (encS2 0x029 o)
  | .smin o => some (encS2U 0x02A o)
  | .smax o => some (encS2U 0x02B o)
  | .sbfe o => some (encS2U 0x02C o)
  | .sbfi o => some (encS3 0x02D o)
  | .spopc o => some (encD1 0x02E o)
  | .sclz o => some (encD1 0x02F o)
  | .smov o => some (encD1 0x030 o)
  | .smovi o => some { rawOf 0x031 o.g with dst := o.d, imm := 1, hi := o.imm }
  | .scmp o => some (lastB { rawOf 0x032 o.g with dst := o.d, sub := icondCode o.cond, sa := encS o.a } o.b)
  | .ssel o =>
    some (lastC { rawOf 0x033 o.g with dst := o.d, sub := b8 o.neg, sa := encK o.c, sb := encS o.a } o.b)
  | .iadd o => some (encV2 0x040 o)
  | .isub o => some (encV2 0x041 o)
  | .iaddc o => some (encCarry 0x042 o)
  | .isubb o => some (encCarry 0x043 o)
  | .imul o => some (encV2 0x044 o)
  | .imulh o => some (encV2U 0x045 o)
  | .imad o => some (encV3 0x046 o)
  | .imadw o =>
    some (lastC { rawOf 0x047 o.g with dst := o.d, sub := b8 o.u, sa := encSrc o.a, sb := encSrc o.b } o.c)
  | .iadd64 o => some (encV2 0x048 o)
  | .iabs o => some (encV1 0x049 o)
  | .imin o => some (encV2U 0x04A o)
  | .imax o => some (encV2U 0x04B o)
  | .ltab o =>
    some (lastC { rawOf 0x050 o.g with dst := o.d, sub := o.lut, sa := encSrc o.a, sb := encSrc o.b } o.c)
  | .shl o => some (encV2 0x051 o)
  | .shr o => some (encV2 0x052 o)
  | .sra o => some (encV2 0x053 o)
  | .fshl o => some (encV3 0x054 o)
  | .fshr o => some (encV3 0x055 o)
  | .bfe o => some (encV2U 0x056 o)
  | .bfi o => some (encV3 0x057 o)
  | .brev o => some (encV1 0x058 o)
  | .popc o => some (encV1 0x059 o)
  | .clz o => some (encV1 0x05A o)
  | .bmix o => some (encV3 0x05B o)
  | .icmp o => some (lastB { rawOf 0x060 o.g with dst := o.d, sub := icondCode o.cond, sa := encSrc o.a } o.b)
  | .sel o =>
    some (lastC { rawOf 0x061 o.g with dst := o.d, sub := b8 o.neg, sa := encK o.c, sb := encSrc o.a } o.b)
  | .mov o => some { rawOf 0x062 o.g with dst := o.d, sa := encV o.a o.rt }
  | .movi o => some (encV1 0x063 o)
  | .movs o => some { rawOf 0x064 o.g with dst := o.d, sub := b8 o.pair, sa := encS o.a }
  | .movxTox o => some { rawOf 0x065 o.g with dst := o.d, sa := encV o.a o.rt }
  | .movxFromx o => some { rawOf 0x065 o.g with dst := o.d, sub := 1, sa := encK o.a }
  | .fadd o => some (encF2 0x0C0 o)
  | .fsub o => some (encF2 0x0C1 o)
  | .fmul o => some (encF2 0x0C2 o)
  | .fma o =>
    some (lastFC { rawOf 0x0C3 o.g with dst := o.d, fs := o.fs, row := BitVec.ofBool o.row, aux := tidAux o.tid,
                                        sa := encFSrc o.a, sb := encFSrc o.b } o.c)
  | .fmin o => some (encF2 0x0C4 o)
  | .fmax o => some (encF2 0x0C5 o)
  | .fcmp o =>
    some (lastFB { rawOf 0x0C6 o.g with dst := o.d, fs := o.fs, sub := fcondCode o.cond, sa := encFSrc o.a } o.b)
  | .fclass o => some { rawOf 0x0C7 o.g with dst := o.d, fs := o.fs, sa := encFSrc o.a }
  | .frint o =>
    some { rawOf 0x0C8 o.g with dst := o.d, fs := o.fs, row := BitVec.ofBool o.row, aux := tidAux o.tid,
                                sub := (match o.mode with
                                        | none => 0
                                        | some m => 0#4 ++ 1#1 ++ m),
                                sa := encFSrc o.a }
  | .fscale o =>
    some (lastB { rawOf 0x0C9 o.g with dst := o.d, fs := o.fs, row := BitVec.ofBool o.row, aux := tidAux o.tid,
                                       sa := encFSrc o.a } o.b)
  | .cvt o =>
    some (optC { rawOf 0x0E0 o.g with dst := o.d, fs := o.fs, row := BitVec.ofBool o.row, sub := o.part ++ o.cs,
                                      sa := encSrc o.a, sb := encV o.sc o.scrt } o.tid)
  | .cvtef o =>
    some (optC { rawOf 0x0E1 o.g with dst := o.d, fs := o.fs, row := BitVec.ofBool o.row, sub := o.part ++ o.cs,
                                      aux := o.res.setWidth 6, sa := encSrc o.a, sb := encV o.sc o.scrt } o.tid)
  | .pack o => some { rawOf 0x0E2 o.g with dst := o.d, fs := o.fs, sub := o.k.setWidth 8, sa := encV o.a o.rt }
  | .unpack o =>
    some { rawOf 0x0E3 o.g with dst := o.d, fs := o.fs, sub := 0#3 ++ BitVec.ofBool o.sext ++ o.k,
                                sa := encV o.a o.rt }
  | .fdrw o => some (lastA { rawOf 0x100 o.g with fs := o.fs } o.a)
  | .fdrr o => some { rawOf 0x101 o.g with fs := o.fs, dst := o.d }
  | .rcp o => some (encF1 0x120 o)
  | .rsq o => some (encF1 0x121 o)
  | .sqrt o => some (encF1 0x122 o)
  | .exp2 o => some (encF1 0x123 o)
  | .log2 o => some (encF1 0x124 o)
  | .sin o => some (encF1 0x125 o)
  | .cos o => some (encF1 0x126 o)
  | .tanh o => some (encF1 0x127 o)
  | .div o => some (encF2 0x128 o)
  | .redl o =>
    some { rawOf 0x140 o.g with dst := o.d, fs := o.fs, sub := 0#1 ++ o.seg ++ redOpCode o.op, sa := encSrc o.a }
  | .scanl o =>
    some { rawOf 0x141 o.g with dst := o.d, fs := o.fs, sub := BitVec.ofBool o.excl ++ o.seg ++ redOpCode o.op,
                                sa := encSrc o.a }
  | .matchv o =>
    some { rawOf 0x142 o.g with dst := o.d, sub := b8 o.pair, sa := encV o.a o.rt,
                                aux := (match o.pe with
                                        | none => 0
                                        | some p => 1#1 ++ p.setWidth 5) }
  | .bdec o =>
    some (lastB { rawOf 0x143 o.g with flg := flgCode o.flg, dst := o.d, sub := b8 o.sext, sa := encS o.a } o.width)
  | .ld o => some (encMem 0x160 o)
  | .st o => some (encMem 0x161 o)
  | .ldp o => some (encPMem 0x162 o)
  | .stp o => some (encPMem 0x163 o)
  | .stm o =>
    some (lastC { encMemF 0x164 o.g o.flg o.ord o.scope o.hint 0 o.d with sa := encS o.a, sb := encSrc o.b } o.m)
  | .ldl o => some (encLMem 0x165 o)
  | .stl o => some (encLMem 0x166 o)
  | .ldx o => some (encXMem 0x167 o)
  | .stx o => some (encXMem 0x168 o)
  | .sld o => some (encSMem 0x169 o)
  | .sst o => some (encSMem 0x16A o)
  | .atom o => some (encAtomF 0x16B o.g o.flg o.fs o.fn o.wide o.ord o.scope o.hint o.d o.a o.idx o.c)
  | .red o => some (encAtomF 0x16C o.g o.flg o.fs o.fn o.wide o.ord o.scope o.hint 0 o.a o.idx o.c)
  | .redD o => some (encAtomF 0x16D o.g o.flg o.fs o.fn o.wide 0 0 o.hint 0 o.a o.idx o.c)
  | .dflush o => some { rawOf 0x16E o.g with flg := flgCode o.flg, sub := o.scope ++ 0#4 }
  | .fence o => some { rawOf 0x16F o.g with flg := flgCode o.flg, sub := o.scope ++ o.ord ++ 0#2 }
  | .mwait o =>
    some (lastB { rawOf 0x170 o.g with sub := o.scope ++ 0#4, dst := o.d.getD 0,
                                       aux := if o.d.isSome then 1 else 0, sa := encS o.a } o.e)
  | .pref o =>
    some (optC { rawOf 0x171 o.g with sub := o.level.setWidth 8, sa := encS o.a, sb := encSrc o.idx } o.off)
  | .cctl o =>
    (match o.addr with
     | none => some { rawOf 0x172 o.g with flg := flgCode o.flg, sub := o.op.setWidth 8 }
     | some (a, idx, off) =>
       some (optC { rawOf 0x172 o.g with flg := flgCode o.flg, sub := o.op.setWidth 8, sa := encS a,
                                         sb := encSrc idx } off))
  | .mma o =>
    some (setC { rawOf 0x1A0 o.g with
                   flg := flgCode o.flg, fs := o.fs, dst := o.d,
                   sub := 0#1 ++ BitVec.ofBool o.bs ++ BitVec.ofBool o.tfub ++ BitVec.ofBool o.tfua
                            ++ BitVec.ofBool o.mv ++ BitVec.ofBool o.msk ++ treeModeCode o.mode,
                   sa := if o.mode = .acc then encK o.c else 0, sb := encS o.p } (encK o.fb))
  | .mtree o =>
    some { rawOf 0x1A1 o.g with flg := flgCode o.flg, dst := o.d, sub := (treeModeCode o.mode).setWidth 8,
                                aux := o.n1, sa := encK o.w, sb := if o.mode = .acc then encK o.c else 0 }
  | .amld o =>
    some { rawOf 0x1A2 o.g with flg := flgCode o.flg, dst := o.d, sa := encS o.a,
                                sb := (match o.t with
                                       | none => 0
                                       | some t => encS t) }
  | .amst o => some { rawOf 0x1A3 o.g with flg := flgCode o.flg, sa := encS o.a, sb := encK o.s }
  | .amz o => some { rawOf 0x1A4 o.g with flg := flgCode o.flg, dst := o.d }
  | .amcvt o =>
    some (optC { rawOf 0x1A5 o.g with flg := flgCode o.flg, fs := o.fs, aux := tidAux o.rs, sa := encS o.a,
                                      sb := encK o.s } o.t)
  | .copy o =>
    some { rawOf 0x1B0 o.g with
             flg := flgCode o.flg,
             sub := o.scope ++ BitVec.ofBool o.tr ++ BitVec.ofBool o.cvt ++ o.mode,
             aux := BitVec.ofBool o.crcs ++ BitVec.ofBool o.crcd ++ BitVec.ofBool o.stamp ++ o.sel
                      ++ BitVec.ofBool o.ef,
             sa := encS o.p,
             sb := (match o.bar with
                    | none => 0
                    | some b => encS b) }
  | .cpyb o =>
    some { rawOf 0x1B1 o.g with flg := flgCode o.flg, aux := if o.d.isSome then 1 else 0, dst := o.d.getD 0 }
  | .waitb o => some (lastA { rawOf 0x1B2 o.g with sub := b8 o.le } o.a)
  | .bari o =>
    some (lastB { rawOf 0x1C0 o.g with flg := flgCode o.flg,
                                       sub := 0#6 ++ BitVec.ofBool o.trap ++ BitVec.ofBool o.drove,
                                       sa := encS o.a } o.n)
  | .bara o =>
    some (optB { rawOf 0x1C1 o.g with flg := flgCode o.flg, sub := b8 o.drove, dst := o.d, sa := encS o.a } o.b)
  | .barw o => some (encBar 0x1C2 o.flg o)
  | .bart o => some (encBar 0x1C3 o.flg o)
  | .launch o => some { rawOf 0x1C4 o.g with flg := flgCode o.flg, dst := o.d, sa := encS o.a }
  | .lwait o =>
    (match o.a with
     | none => some { rawOf 0x1C5 o.g with sub := 1 }
     | some a => some { rawOf 0x1C5 o.g with sa := encS a })
  | .trap o => some { rawOf 0x1D0 o.g with sub := o.n }
  | .tret o => some { rawOf 0x1D1 o.g with sub := b8 o.next }
  | .tkill o => some { rawOf 0x1D2 o.g with sub := o.n }
  | .brk o => some { rawOf 0x1D3 o.g with sub := o.n }
  | .srd o => some { rawOf 0x1D4 o.g with sub := o.n, aux := (BitVec.ofBool o.vec).setWidth 6, dst := o.d }
  | .swr o => some (lastA { rawOf 0x1D5 o.g with sub := o.n } o.a)
  | .sgetl o => some (lastB { rawOf 0x1D6 o.g with dst := o.d, sa := encSrc o.a } o.l)
  | .sputl o =>
    some (lastB { rawOf 0x1D7 o.g with dst := o.d, aux := (BitVec.ofBool o.own).setWidth 6, sa := encS o.a } o.l)
  | .sgetp o => some (optA { rawOf 0x1D8 o.g with dst := o.d, sub := pimageCode o.which } o.l)
  | .sputp o => some (optB { rawOf 0x1D9 o.g with sub := pimageCode o.which, sa := encS o.a } o.l)
  | _ => none

/-- A half with this short opcode, guard and destination, valid, and every other field 0. -/
def halfRaw (sop : BitVec 6) (g : Guard) (d : Reg) : HRaw where
  hv := 1
  sop := sop
  fs := 0
  row := 0
  pg := pgOf g
  pgn := pgnOf g
  dst := d
  immf := 0
  sk := 0
  neg := 0
  abs := 0
  r31 := 0
  lo16 := 0
  top4 := 0
  cs := 0
  r56 := 0

def halfWith (r : HRaw) : Src → HRaw
  | .v n rt => { r with lo16 := rt.extractLsb' 0 8 ++ n, top4 := rt.extractLsb' 8 4 }
  | .s n => { r with sk := 1, lo16 := n.setWidth 16 }
  | .imm16 w => { r with immf := 1, lo16 := w }
  | .imm _ => r

def halfF (sop : BitVec 6) (g : Guard) (fs : BitVec 4) (row : Bool) (d : Reg) (f : FSrc) : HRaw :=
  halfWith { halfRaw sop g d with fs := fs, row := BitVec.ofBool row, neg := BitVec.ofBool f.neg,
                                  abs := BitVec.ofBool f.abs } f.src

/-- The short opcode of LTAB for a LUT (R107). -/
def ltabSop (lut : BitVec 8) : BitVec 6 :=
  if lut = 0x88 then 0x0E else if lut = 0xEE then 0x0F else if lut = 0x66 then 0x10 else if lut = 0x22 then 0x11
  else 0x12

/-- The half of an instruction that only a restricted half encodes: a 16-bit immediate, a fixed zero source
of LTAB, or a short CVT. -/
def encHalf : Instr → Option HRaw
  | .movi o => some (halfWith (halfRaw 0x02 o.g o.d) o.a)
  | .iadd o => some (halfWith (halfRaw 0x03 o.g o.d) o.b)
  | .isub o => some (halfWith (halfRaw 0x04 o.g o.d) o.b)
  | .imul o => some (halfWith (halfRaw 0x05 o.g o.d) o.b)
  | .imin o => some (halfWith (halfRaw (if o.u then 0x07 else 0x06) o.g o.d) o.b)
  | .imax o => some (halfWith (halfRaw (if o.u then 0x09 else 0x08) o.g o.d) o.b)
  | .shl o => some (halfWith (halfRaw 0x0B o.g o.d) o.b)
  | .shr o => some (halfWith (halfRaw 0x0C o.g o.d) o.b)
  | .sra o => some (halfWith (halfRaw 0x0D o.g o.d) o.b)
  | .ltab o => some (halfWith (halfRaw (ltabSop o.lut) o.g o.d) o.b)
  | .fadd o => some (halfF 0x16 o.g o.fs o.row o.d o.b)
  | .fsub o => some (halfF 0x17 o.g o.fs o.row o.d o.b)
  | .fmul o => some (halfF 0x18 o.g o.fs o.row o.d o.b)
  | .fmin o => some (halfF 0x19 o.g o.fs o.row o.d o.b)
  | .fmax o => some (halfF 0x1A o.g o.fs o.row o.d o.b)
  | .fscale o =>
    some (halfWith { halfRaw 0x1C o.g o.d with fs := o.fs, row := BitVec.ofBool o.row } o.b)
  | .cvt o =>
    some (halfWith { halfRaw 0x1D o.g o.d with fs := o.fs, row := BitVec.ofBool o.row, cs := o.cs } o.a)
  | .rcp o => some (halfF 0x1E o.g o.fs o.row o.d o.a)
  | .rsq o => some (halfF 0x1F o.g o.fs o.row o.d o.a)
  | .sqrt o => some (halfF 0x20 o.g o.fs o.row o.d o.a)
  | .exp2 o => some (halfF 0x21 o.g o.fs o.row o.d o.a)
  | .log2 o => some (halfF 0x22 o.g o.fs o.row o.d o.a)
  | .sin o => some (halfF 0x23 o.g o.fs o.row o.d o.a)
  | .cos o => some (halfF 0x24 o.g o.fs o.row o.d o.a)
  | .tanh o => some (halfF 0x25 o.g o.fs o.row o.d o.a)
  | .div o => some (halfF 0x26 o.g o.fs o.row o.d o.b)
  | _ => none

/-- A 16-bit immediate. -/
def isImm16 : Src → Bool
  | .imm16 _ => true
  | _ => false

/-- The instruction is one that only a restricted half encodes. -/
def needsHalf : Instr → Bool
  | .movi o => isImm16 o.a
  | .iadd o => isImm16 o.b
  | .isub o => isImm16 o.b
  | .imul o => isImm16 o.b
  | .imin o => isImm16 o.b
  | .imax o => isImm16 o.b
  | .shl o => isImm16 o.b
  | .shr o => isImm16 o.b
  | .sra o => isImm16 o.b
  | .ltab o => isImm16 o.c
  | .fadd o => isImm16 o.b.src
  | .fsub o => isImm16 o.b.src
  | .fmul o => isImm16 o.b.src
  | .fmin o => isImm16 o.b.src
  | .fmax o => isImm16 o.b.src
  | .fscale o => isImm16 o.b
  | .cvt o => o.short
  | .rcp o => isImm16 o.a.src
  | .rsq o => isImm16 o.a.src
  | .sqrt o => isImm16 o.a.src
  | .exp2 o => isImm16 o.a.src
  | .log2 o => isImm16 o.a.src
  | .sin o => isImm16 o.a.src
  | .cos o => isImm16 o.a.src
  | .tanh o => isImm16 o.a.src
  | .div o => isImm16 o.b.src
  | _ => false

/-- The bundle that holds a well-formed instruction: an F bundle, or half 0 of a P bundle with an empty half 1
where only a restricted half encodes it. None for an event. -/
def encode (i : Instr) : Option (BitVec 128) :=
  if needsHalf i then (encHalf i).map (fun r => 0#64 ++ packH r)
  else (encF i).map packF

end Sys2Proof
end

