-- ==== Sys2Proof/Config.lean ====
section
/-! DEFINITION. What the Z41 fixes for itself, and the free values: constants with no body, which nothing can
evaluate, for the values that the manual leaves open. -/

namespace Sys2Proof.Config

/-! ### Fixed figures of the package -/

/-- HBM per compute die, 192 GiB (R14). -/
def dieBytes : Nat := 0x30_0000_0000
/-- Bytes of HBM in the package; the first NEAR address (R248). -/
def hbmBytes : Nat := 0xC0_0000_0000
/-- The span of one die's NEAR range, 512 MiB (R248). -/
def nearBytes : Nat := 0x2000_0000
/-- The offset of the metadata region on each die (R249). -/
def metaOff : Nat := 0x2F_E800_0000
/-- Cores per die (R9, R12). -/
def coresPerDie : Nat := 40
/-- Bytes of local store per core, 768 KiB (R12). -/
def lsBytes : Nat := 786432
/-- Bytes of the vector register file per core, 1 MiB (R12). -/
def vrfBytes : Nat := 1048576
/-- Accumulator tiles per core (R12). -/
def amTiles : Nat := 32
/-- Flock slots of a quadrant (R31). -/
def quadSlots : Nat := 16
/-- Contributions that a core's deterministic-reduction buffer holds (R200). -/
def drbSize : Nat := 8192
/-- Bytes of the fleece region of a Mantle, 96 MiB (R260). -/
def fleeceRegion : Nat := 100663296
/-- Child launches of a context not yet retired (R313). -/
def childLimit : Nat := 1024
/-- Records of a journal ring (R365). -/
def ringSize : Nat := 65536

/-! ### Free values

Each takes the state's counter `free`, so that each draw is a value of its own, or the operands it depends on. -/

/-- Whether a read of a pending word returns the new value (R96): counter, word. -/
opaque pendSees : Nat → Nat → Bool

/-- Whether a pending value remains where a later write has hit its word (R96, R152): counter, word. -/
opaque pendKeeps : Nat → Nat → Bool

/-- Whether a load in flight takes the value that stands now in place of the one it read at issue (R281): counter,
atomic unit. -/
opaque loadSees : Nat → Nat → Bool

/-- The device's order of the lanes of an atomic (R197): counter, lane. Lanes act by rising key. -/
opaque laneKey : Nat → Nat → Nat

/-- The tag set of a home line: the manual does not say which of the 65,536 sets of R252 a line uses. -/
opaque tagSet : Nat → Nat

/-- The metadata byte of a block whose generic or float-aware form may save sectors (R263, R264): counter, block. -/
opaque storedForm : Nat → Nat → BitVec 8

/-- Whether an ML-DSA-44 signature verifies (R368): public key, digest, signature. -/
opaque mldsaVerify : List Byte → List Byte → List Byte → Bool

/-- The ML-DSA-44 signature by the device's identity key (R369): digest. -/
opaque mldsaSign : List Byte → List Byte

/-- On which side of a rounding boundary a function value lies, where the enclosures of Machine/Transcend.lean do
not settle it (R74): function, and argument as a fraction. -/
opaque aboveBoundary : Nat → Int → Nat → Bool

/-- The byte of a line read while an engine command and a flock meet at it (R195): counter, address. True gives
the new value. -/
opaque raceSees : Nat → Nat → Bool

/-- Whether a read of a changed byte of a parameter block sees what stood there at acceptance (R24): counter, read. -/
opaque paramSees : Nat → Nat → Bool

/-- The digest of stage `i` that the firmware of an image loads, 1 to 3 (R368): body, stage. -/
opaque stageDigest : List Byte → Nat → List Byte

/-- Whether the four Yoke links of a die come up when they retrain (R370): counter, die. -/
opaque linksUp : Nat → Nat → Bool

/-- The version number that an attestation report opens with (R369). -/
opaque reportVersion : Nat

/-- Whether a peer device accepts a float ATOM or RED (R372): counter. -/
opaque peerAccepts : Nat → Bool

/-- The code of R322 that a split without a wait gets in a clk in which it does not issue, among those whose conditions the
core's pipelines decide: counter, split. -/
opaque idleCode : Nat → Nat → Nat

/-- The lane word a reader gets in a lane that the manual leaves open (counter, index). -/
opaque freeWord : Nat → Nat → Word

end Sys2Proof.Config
end

