-- ==== Sys2Proof/Machine/Hash.lean ====
section
/-! DEFINITION. CRC-32C (R233, R253), SHA3-256 (R368, R369) and Philox4x32-10 (R61), on lists of bytes and words. -/

namespace Sys2Proof.Machine

/-! ### CRC-32C: reflected polynomial 0x82F6_3B78, initial value and final XOR all ones -/

/-- One bit of the reflected CRC. -/
def crcBit (c : Nat) : Nat := if c % 2 = 1 then Nat.xor (c / 2) 0x82F63B78 else c / 2

def crcBits : Nat → Nat → Nat
  | 0, c => c
  | n + 1, c => crcBits n (crcBit c)

/-- The running value after more bytes. -/
def crcRun (c : Nat) : List Byte → Nat
  | [] => c
  | b :: r => crcRun (crcBits 8 (Nat.xor c b.toNat)) r

/-- CRC-32C of a list of bytes. -/
def crc32c (l : List Byte) : Word := BitVec.ofNat 32 (Nat.xor (crcRun 0xFFFFFFFF l) 0xFFFFFFFF)

/-! ### SHA3-256 (FIPS 202)

The state is five planes, y from 0 to 4, of five lanes each, x from 0 to 4. -/

abbrev Plane := List DWord

/-- The lane-wise exclusive or of two planes. -/
def planeXor (p q : Plane) : Plane := List.zipWith (fun a b => a ^^^ b) p q

/-- A plane whose lane `x` is lane `x + n` of another. -/
def planeTurn (n : Nat) (p : Plane) : Plane := p.drop n ++ p.take n

/-- θ: each lane takes the parities of the column before it and, one bit on, of the column after it. -/
def thetaStep (a : List Plane) : List Plane :=
  let parity := a.foldl planeXor (List.replicate 5 0)
  let spread := planeXor (planeTurn 4 parity) ((planeTurn 1 parity).map (fun w => w.rotateLeft 1))
  a.map (planeXor spread)

/-- ρ and π along the walk (x, y) ↦ (y, 2x + 3y) that begins at (1, 0): the lane at step `t` of the walk, rotated by the
triangular number of `t + 1`, goes to the next place of the walk. `n` steps remain. -/
def walkLanes (src : List DWord) : Nat → Nat → Nat → Nat → List DWord → List DWord
  | 0, _, _, _, dst => dst
  | n + 1, t, x, y, dst =>
    let y' := (2 * x + 3 * y) % 5
    let w := ((src[5 * y + x]?).getD 0).rotateLeft ((t + 1) * (t + 2) / 2 % 64)
    walkLanes src n (t + 1) y y' (dst.set (5 * y' + y) w)

/-- The planes of 25 lanes. -/
def planesOf (ws : List DWord) : List Plane := (List.range 5).map (fun y => (ws.drop (5 * y)).take 5)

def rhoPiStep (a : List Plane) : List Plane := planesOf (walkLanes a.flatten 24 0 1 0 a.flatten)

/-- χ, plane by plane. -/
def chiStep (a : List Plane) : List Plane :=
  a.map (fun p => planeXor p (List.zipWith (fun b c => ~~~b &&& c) (planeTurn 1 p) (planeTurn 2 p)))

/-- The shift register from which the round constants come. -/
def shiftReg : Nat → Nat → Nat
  | 0, r => r
  | n + 1, r => shiftReg n (if 128 ≤ r then Nat.xor (2 * r) 0x171 else 2 * r)

/-- The constant of round `i`: bit 2^j − 1 is the register's low bit after j + 7i shifts. -/
def roundWord (i : Nat) : DWord :=
  (List.range 7).foldl (fun w j => if shiftReg (j + 7 * i) 1 % 2 = 1 then w ||| BitVec.twoPow 64 (2 ^ j - 1) else w) 0

/-- ι: the constant goes into lane (0, 0). -/
def iotaStep (i : Nat) (a : List Plane) : List Plane :=
  a.modifyHead (fun p => p.modifyHead (fun w => w ^^^ roundWord i))

/-- The 24 rounds. -/
def permute (a : List Plane) : List Plane :=
  (List.range 24).foldl (fun u i => iotaStep i (chiStep (rhoPiStep (thetaStep u)))) a

/-- The lanes of a block: eight bytes each, little-endian; those beyond it are 0. -/
def blockPlanes (blk : List Byte) : List Plane :=
  planesOf ((List.range 25).map (fun i =>
    ((blk.drop (8 * i)).take 8).foldr (fun b w => (w <<< 8) ||| b.setWidth 64) (0 : DWord)))

/-- Take `n` blocks of 136 bytes of a message into the state, one permutation after each. -/
def spongeIn : Nat → List Byte → List Plane → List Plane
  | 0, _, a => a
  | n + 1, m, a => spongeIn n (m.drop 136) (permute (List.zipWith planeXor a (blockPlanes (m.take 136))))

/-- A message with the suffix 01 of SHA3 and the padding 10*1, to whole blocks: bytes of which the first has 06 added and the
last 80. -/
def sha3Padded (m : List Byte) : List Byte :=
  let n := 136 - m.length % 136
  m ++ (List.range n).map (fun i => BitVec.ofNat 8 ((if i = 0 then 6 else 0) + (if i + 1 = n then 128 else 0)))

/-- SHA3-256: the first four lanes of the state. -/
def sha3 (m : List Byte) : List Byte :=
  let a := spongeIn (m.length / 136 + 1) (sha3Padded m) (planesOf (List.replicate 25 0))
  (a.flatten.take 4).flatMap (fun w => (List.range 8).map (fun i => w.extractLsb' (8 * i) 8))

/-! ### Philox4x32-10 -/

/-- One round: counter c0..c3 and key k0, k1. -/
def philoxRound (c : Nat × Nat × Nat × Nat) (k0 k1 : Nat) : Nat × Nat × Nat × Nat :=
  let (c0, c1, c2, c3) := c
  let p0 := 0xD2511F53 * c0
  let p1 := 0xCD9E8D57 * c2
  (Nat.xor (Nat.xor (p1 / 2 ^ 32) c1) k0, p1 % 2 ^ 32, Nat.xor (Nat.xor (p0 / 2 ^ 32) c3) k1, p0 % 2 ^ 32)

def philoxRounds : Nat → (Nat × Nat × Nat × Nat) → Nat → Nat → (Nat × Nat × Nat × Nat)
  | 0, c, _, _ => c
  | n + 1, c, k0, k1 => philoxRounds n (philoxRound c k0 k1) ((k0 + 0x9E3779B9) % 2 ^ 32) ((k1 + 0xBB67AE85) % 2 ^ 32)

end Sys2Proof.Machine
end

