-- ==== Sys2Proof/Machine/Cells.lean ====
section
/-! DEFINITION. Sparse contents by key in one canonical form: keys strictly rising, no entry equal to the default.
Every memory and register file of State is held so, and changed only by `cset`. -/

namespace Sys2Proof.Machine

/-- The value at a key; the default where the key is not listed. -/
def cget {α : Type} (d : α) : Cells α → Nat → α
  | [], _ => d
  | (k, v) :: r, n => if k = n then v else cget d r n

/-- Remove a key. -/
def cdel {α : Type} : Cells α → Nat → Cells α
  | [], _ => []
  | (k, v) :: r, n => if k = n then cdel r n else (k, v) :: cdel r n

/-- Put a value other than the default at a key. -/
def cput {α : Type} : Cells α → Nat → α → Cells α
  | [], n, x => [(n, x)]
  | (k, v) :: r, n, x =>
    if k = n then (n, x) :: r else if n < k then (n, x) :: (k, v) :: r else (k, v) :: cput r n x

/-- Write a value at a key; the default removes the entry. -/
def cset {α : Type} [DecidableEq α] (d : α) (m : Cells α) (n : Nat) (x : α) : Cells α :=
  if x = d then cdel m n else cput m n x

/-- Keys strictly rising and above `lo`, and no entry equal to the default. -/
def cwfFrom {α : Type} [DecidableEq α] (d : α) (lo : Nat) : Cells α → Bool
  | [] => true
  | (k, v) :: r => decide (lo ≤ k) && decide (v ≠ d) && cwfFrom d (k + 1) r

/-- The canonical form. -/
def cwf {α : Type} [DecidableEq α] (d : α) (m : Cells α) : Bool := cwfFrom d 0 m

/-- The canonical form of a memory: what is not listed reads as 0. -/
def Memory.wf (m : Cells Byte) : Bool := cwf 0 m

/-- Write consecutive keys. -/
def csetList {α : Type} [DecidableEq α] (d : α) (m : Cells α) (n : Nat) : List α → Cells α
  | [] => m
  | x :: r => csetList d (cset d m n x) (n + 1) r

/-- Read consecutive keys. -/
def cgetList {α : Type} (d : α) (m : Cells α) (n : Nat) : Nat → List α
  | 0 => []
  | k + 1 => cget d m n :: cgetList d m (n + 1) k

/-! ### Order -/

/-- Put an element before the first one that it does not come after. -/
def insertBy {α : Type} (le : α → α → Bool) (x : α) : List α → List α
  | [] => [x]
  | y :: r => if le x y then x :: y :: r else y :: insertBy le x r

/-- A list in the order `le`; elements that are equal in it keep their order. -/
def sortBy {α : Type} (le : α → α → Bool) : List α → List α
  | [] => []
  | x :: r => insertBy le x (sortBy le r)

end Sys2Proof.Machine
end

