-- ==== Sys2Proof/Machine/State.lean ====
section
/-! DEFINITION. The state of the package, as plain data: every register, memory, queue and mark that the manual
gives it, and the model's own fields, named at State. -/

namespace Sys2Proof.Machine

/-- Why the machine stops. -/
inductive Fault where
  /-- Raised by the meaning of an Ontex instruction when `State.cur` names no live split of a resident fold, so
  that no agent of the manual executes it. Safe: the device never issues a bundle without a split. -/
  | noIssuer
  deriving DecidableEq, Repr

/-- Why an instruction has no meaning. -/
inductive Refusal where
  /-- Raised by the dispatcher for an instruction that the model does not give a meaning. Safe. -/
  | notModelled (mnemonic : String)
  deriving DecidableEq, Repr

/-! ### Flocks -/

/-- Why a split stands still, and until when (R46, R322, R338). -/
inductive Wait where
  | none
  /-- A clause WAIT or WAITF: until every flag of the mask is at most `n`. -/
  | flag (mask : BitVec 12) (n : Nat)
  /-- A completion flag at 63. -/
  | full (c : BitVec 4)
  /-- WAITB: for a batch by its number, or with `le` until at most `n` batches are outstanding. -/
  | batch (le : Bool) (n : Word)
  /-- CPYB with 256 batches outstanding. -/
  | cpyb
  /-- BARW: the object at an offset of a fold's local store has completed a phase. -/
  | barrier (fold off : Nat) (phase : Word)
  /-- MWAIT: the 8 bytes at a place of a fold's local store, or of memory, hold at least `n`; `wide` past the L1. -/
  | mwait (fold : Option Nat) (place : Nat) (wide : Bool) (n : Nat)
  /-- LWAIT (R49): for a child of this PASTID, or for every child. -/
  | lwait (pastid : Option Word)
  /-- The queue of the copy engine (`copy`) or of the matrix engine, or the scoreboard, has no room, or it is another's
  turn (R297). -/
  | engineq (copy : Bool)
  /-- A fixed-latency or buffer condition: a full deterministic-reduction buffer, a fence in force. -/
  | interlock
  /-- A release point, or a bundle that a fence holds, while a weak store before it waits on a fault (R293). -/
  | release
  deriving DecidableEq, Repr

/-- A live split (R38, R91, R336), with the state of its clause. -/
structure Split where
  pc : DWord
  mask : LaneMask
  /-- Inside a started clause (R91). -/
  inside : Bool
  /-- The head half has not issued yet; the program counter still names the head. -/
  headDue : Bool
  setA : Option (BitVec 4)
  setB : Option (BitVec 4)
  /-- Body bundles of the clause still to issue. -/
  left : Nat
  /-- The last safe point started, for R351; 0xFFFFF for none. -/
  ord : BitVec 20
  /-- STOP of the clause it is in: its ordinal, and whether the first body bundle is next (R151). -/
  stop : Option (BitVec 20)
  first : Bool
  wait : Wait
  /-- CLOCK when the present wait began (R46, R338). -/
  since : Nat
  /-- Numbers of the fences in force and of the accesses in flight that lie on the split's path (R205, R273, R288). -/
  path : List Nat
  /-- BRK waits for the next safe point (R151). -/
  brk : Option (BitVec 8)
  /-- Completing a debugger STEP (R343). -/
  stepping : Bool
  halted : Bool
  /-- It has halted at the head where it stands: when it goes on, it starts that clause (R345). -/
  pass : Bool
  /-- CLOCK plus 1 when it last issued a bundle, and the code that it received in the last clk (R322). -/
  issued : Nat
  code : Nat
  deriving DecidableEq, Repr

/-- A byte that a load in flight reads: where it lies, and the value that it read when the load issued. Until the load
lands it may still take a later one (R281). -/
structure SrcByte where
  /-- The fold whose local store holds it; none for a home byte. -/
  fold : Option Nat
  place : Nat
  /-- Bytes of one single-copy atomic unit: they come from one write (R282). -/
  unit : Nat
  val : Byte
  strong : Bool
  wide : Bool
  /-- It may still take a later value. -/
  more : Bool
  deriving DecidableEq, Repr

/-- A word, or bits of a word, of a variable-latency destination that has not landed (R96). -/
structure PendWord where
  lane : Nat
  /-- Register × 64 + lane for vectors, register number for scalars, 1,024 + number for uniform predicates. -/
  key : Nat
  value : Word
  /-- The bytes that a load takes the word from, and how: `take` bits from bit `shift` on, sign-extended if `sext`. -/
  src : List SrcByte
  shift : Nat
  take : Nat
  sext : Bool
  /-- The bits that the writer writes (R191). -/
  bits : Word
  /-- A later fixed-latency write has hit the word: either value remains. -/
  hit : Bool
  deriving DecidableEq, Repr

/-- A load, atomic, BDEC or other variable-latency writer in flight. -/
structure PendLoad where
  id : Nat
  flag : Option (BitVec 4)
  /-- The destination is in the scalar file. -/
  scalar : Bool
  words : List PendWord
  /-- Flags of an ATOM, ORed when its flag would decrement (R196). -/
  flags : BitVec 5
  /-- It is a strong or atomic read, which an acquire half waits for (R288). -/
  strong : Bool
  deriving DecidableEq, Repr

/-- A byte of a store: home location or local store, and value. -/
structure PendByte where
  addr : Nat
  /-- Its virtual address. -/
  va : Nat
  value : Byte
  /-- The bits of the byte that the store writes. -/
  mask : Byte
  lane : Nat
  /-- DOM and COMP of the translation (R258). -/
  dom : BitVec 8
  comp : BitVec 2
  deriving DecidableEq, Repr

/-- A store that has been issued and not yet performed (R187, R279), or a weak store whose translation is still
being resolved (`waitFault`, R331). -/
structure PendStore where
  id : Nat
  flag : Option (BitVec 4)
  scope : BitVec 4
  weak : Bool
  /-- It is the write of a release point: its flock's earlier stores are performed before it. -/
  release : Bool
  /-- The accesses in flight before a release store on its path: it is performed after them (R284, R288). -/
  after : List Nat
  /-- The fault that the bytes of a weak store wait on. -/
  waitFault : Option Nat
  /-- Bytes still to be written: by virtual address while they wait on a fault, by home otherwise. -/
  bytes : List PendByte
  deriving DecidableEq, Repr

/-- A FENCE in force, or an acquire load in flight (R205, R288): the halves that have not completed, and the accesses in
flight that each of them waits on. -/
structure FenceRec where
  id : Nat
  flag : Option (BitVec 4)
  scope : BitVec 4
  acq : Bool
  rel : Bool
  acqOn : List Nat
  relOn : List Nat
  deriving DecidableEq, Repr

/-- An entry of the pending-path stack (R40), with the fences in force and the accesses in flight on its path (R273, R274).
`pass` as in Split: its lanes have halted at the head where they stand. -/
structure PathEntry where
  pc : DWord
  mask : LaneMask
  path : List Nat
  pass : Bool
  deriving DecidableEq, Repr

/-- A contribution of RED.D (R199): container, operation, slot image, operand and key. -/
structure Contribution where
  /-- The home byte address of the container. -/
  home : Nat
  width : Nat
  comp : BitVec 2
  fn : AtomFn
  slot : DWord
  c : DWord
  launch : Nat
  step : Nat
  fold : Nat
  foldId : Nat
  flock : Nat
  lane : Nat
  dseq : Nat
  /-- DFLUSH arrivals that the flock had made when it issued the RED.D. -/
  gen : Nat
  deriving DecidableEq, Repr

/-- An imprecise record (R327). -/
structure ImpRecord where
  cause : Nat
  /-- TRAPDETAIL without MORE. -/
  detail : Word
  more : Nat
  addr : DWord
  age : Nat
  /-- The weak stores that the record is of, where they have waited for their translation: until the trap is taken they
  count as not performed, and a release that covers them waits for it (R293). -/
  stores : List Nat
  deriving DecidableEq, Repr

/-- TRAPCAUSE, TRAPDETAIL, TRAPPC and TRAPSPLIT (R325). -/
structure TrapRegs where
  cause : Word
  detail : Word
  pc : DWord
  split : DWord
  deriving DecidableEq, Repr

/-- The trap handler while it runs (R328): its own control state, and the trapping split's place. -/
structure Handler where
  sp : Split
  index : Nat
  deriving DecidableEq, Repr

/-- An uncorrectable error in a register of the flock (R332); a uniform predicate counts as scalar register 1,024 plus its
number. -/
inductive RegMark where
  | v (reg lane : Nat)
  | s (reg : Nat)
  | p (reg lane : Nat)
  | x (reg lane : Nat)
  /-- A scalar register of the shadow bank, or 1,024 plus the number of one of its uniform predicates (R329). -/
  | sh (reg : Nat)
  deriving DecidableEq, Repr

/-- A closed batch that is outstanding: its number and the commands not yet completed (R236). -/
structure Batch where
  num : BitVec 16
  cmds : List Nat
  flag : Option (BitVec 4)
  deriving DecidableEq, Repr

/-- A sampled bundle that has issued (R350, R351): the code of R322 in the clk before, the levels that its accesses
reached, NARROW, and its routing clk. -/
structure SampleRec where
  ord : BitVec 32
  pc : DWord
  mask : LaneMask
  clock : Nat
  stall : Nat
  levels : List Nat
  narrow : Bool
  route : Nat
  deriving DecidableEq, Repr

/-- What a debugger has asked of a halted flock in its fleece, for the restore (R337): a RESUME, or a STEP with or without a
focus lane. -/
inductive Later where
  | resume
  | step (focus : Option Nat)
  deriving DecidableEq, Repr

structure Flock where
  /-- v registers: register × 64 + lane (R27, R28). -/
  v : Cells Word
  s : Cells Word
  /-- The shadow bank (R329). -/
  sh : Cells Word
  shq : BitVec 8
  /-- p0 to p23, one lane mask each. -/
  p : Cells LaneMask
  q : BitVec 8
  /-- x registers: register × 64 + lane. -/
  x : Cells Byte
  /-- Format slots (R52). -/
  f : Cells DWord
  /-- Completion flags, 0 to 63 (R93). -/
  c : Cells Nat
  fflags : Word
  /-- SRCOUNT and DSEQ per lane (R64, R199). -/
  srcount : Cells Word
  dseq : Cells Word
  batchNext : BitVec 16
  batchDone : BitVec 16
  /-- Commands of the open batch, and the closed batches outstanding (R236). -/
  openCmds : List Nat
  batches : List Batch
  /-- DFLUSH arrivals made (R203, R336), and the flags raised for each arrival, with its scope. -/
  dflush : Nat
  dflags : List (Nat × BitVec 4 × Option (BitVec 4))
  trap : TrapRegs
  records : List ImpRecord
  splits : List Split
  /-- The pending-path stack, top first (R40). -/
  stack : List PathEntry
  /-- Entries of the stack, from the top, that stand in hardware: at most 32 (R40). -/
  hw : Nat
  handler : Option Handler
  loads : List PendLoad
  stores : List PendStore
  fences : List FenceRec
  /-- The fault the whole flock waits on (R331). -/
  stall : Option Nat
  /-- Faults declared unresolvable that a stalled access of the flock takes (R331): page and REASON. -/
  verdicts : List (Nat × Nat)
  /-- A debugger has requested a halt of the flock; a split has halted, so that each other one halts at the next safe point
  that it reaches (R343). -/
  haltReq : Bool
  halting : Bool
  focus : Bool
  later : Option Later
  /-- WATCHDOG is pending (R338). -/
  watchdog : Bool
  /-- Pending-access checking in effect (R349). -/
  pendChk : Bool
  marks : List RegMark
  /-- Stopped for pre-emption (R333). -/
  stopped : Bool
  quad : Nat
  /-- Flock slot of the core (R40). -/
  slot : Nat
  /-- CLOCK from which it may issue: 8 clk after it has been swapped in (R46). -/
  fromClk : Nat
  sample : Option SampleRec
  deriving DecidableEq, Repr

/-! ### Engine commands -/

/-- Who gave an engine command: a flock, or a Zutix COPY by context and journal index. -/
inductive Owner where
  | flock (fold flock : Nat)
  | host (ctx index : Nat)
  deriving DecidableEq, Repr

/-- An accepted engine command (R211, R296, R335): the instruction and its operands as read at issue, and its
progress. -/
structure Cmd where
  id : Nat
  owner : Owner
  instr : Instr
  /-- Active at issue: the rows of R212. -/
  rows : LaneMask
  /-- Scalar operands as read: the operand block, or the values the instruction names. -/
  regs : List Word
  /-- Slot images as they stood at issue (R54): A, scale of A, B, scale of B, or the slot of AMCVT. -/
  slots : List DWord
  vR : Cells Word
  srcount : Cells Word
  flag : Option (BitVec 4)
  seed : DWord
  /-- Records of a Zutix COPY, inline, and its host side (R362). -/
  recs : List Byte
  host : BitVec 8
  started : Bool
  /-- Replayable faults that it waits on, and the pages and reasons declared unresolvable (R331). -/
  faults : List Nat
  dead : List (Nat × Nat)
  /-- The open-batch scope it synchronises at (R237). -/
  scope : BitVec 4
  /-- Matrix progress: step sums, key step × 4096 + 64m + n. -/
  step : Nat
  sums : Cells Word
  /-- The entries that it pins, the lines that it reads there, the lines of which it holds copies in the operand buffer,
  and the steps whose lines it has fetched (R301 to R303). -/
  pins : List Nat
  reads : List (Nat × Nat)
  copies : List (Nat × Line)
  fetched : Nat
  /-- Copy progress (R307): validated; records read at the start; 1 BADREC, 2 SHAPE, 3 BADREC of the destination,
  4 of the residue; the elements to write, as bitmap or index list gave them at the start: destination element, source
  element, and the REASON of a bit or index that could not be read, or 0; items ended; and the bytes written and read
  so far, by address. `step` counts the finished steps of R235. -/
  valid : Bool
  src : List Byte
  dst : List Byte
  res : List Byte
  bad : Nat
  plan : List (Nat × Nat × Nat)
  /-- Items in flight (R306). -/
  flight : List Nat
  ended : List Nat
  failed : List Nat
  fl : BitVec 5
  ovf : Bool
  idxErr : Bool
  wrote : Cells Byte
  got : Cells Byte
  /-- What the bytes that it has written held before, while it runs (R231, R251). -/
  was : Cells Byte
  /-- A write of R235 was lost: REASON. -/
  lostWrite : Option Nat
  deriving DecidableEq, Repr

/-! ### Folds and launches -/

/-- Where a fold is: resident, or in its fleece, in the Mantle region or in the save area (R334). -/
inductive Residence where
  | core
  | fleece (save : Bool)
  deriving DecidableEq, Repr

structure Fold where
  uid : Nat
  launch : Nat
  foldId : Nat
  step : Nat
  die : Nat
  /-- CORENUM. -/
  core : Nat
  place : Residence
  /-- Order of dispatch (R315). -/
  order : Nat
  flocks : List Flock
  ls : Cells Byte
  /-- Tile words: tile × 4096 + 64m + n (R216). -/
  tiles : Cells Word
  ntag : Cells DWord
  /-- Contributions in the core's deterministic-reduction buffer (R200). -/
  drb : List Contribution
  /-- The failure code once the fold has failed (R150). -/
  fail : Option Nat
  wd : Nat
  /-- DIEMASK and WDOG of the context, as they stood at the fold's dispatch (R361). -/
  dieMask : BitVec 4
  wdog : Nat
  /-- Selected for pre-emption; swapped out under R49. -/
  preempt : Bool
  swapped : Bool
  /-- Room held for its fleece (R334): in the save area or the Mantle, and the bytes. -/
  room : Option (Bool × Nat)
  /-- Command images in the fleece (R307). -/
  images : List Cmd
  lsMarks : List Nat
  tileMarks : List Nat
  fleeceMark : Bool
  deriving DecidableEq, Repr

/-- The share of a running step on one die (R34): droves next .. last - 1 are still to be dispatched. -/
structure StepShare where
  die : Nat
  next : Nat
  last : Nat
  deriving DecidableEq, Repr

structure Launch where
  uid : Nat
  ctx : Nat
  /-- Journal INDEX of the LAUNCH command at the root of its tree, whose record counts its folds. -/
  index : Nat
  queue : Nat
  order : Nat
  kernel : DWord
  dims : Nat × Nat × Nat
  det : Bool
  overlap : Bool
  prio : Nat
  dieMin : Nat
  dieMax : Nat
  drove : Nat
  flocks : Nat
  steps : Nat
  param : DWord
  paramBytes : Word
  /-- The homes of the parameter block and the bytes that stood there at acceptance (R24). -/
  paramWas : List (Nat × Byte)
  lsBytes : Nat
  srseed : DWord
  amtiles : Nat
  vregs : Nat
  entry : Nat
  kernid : Word
  safemap : DWord
  fdr : List DWord
  pastid : Word
  depth : Nat
  parent : Option Nat
  started : Bool
  step : Nat
  running : Option (List StepShare)
  /-- FOLDIDs of the folds, of every step, that have retired without failing (R204). -/
  retired : List Nat
  /-- Stopped as a whole (R204). -/
  stopped : Bool
  deriving DecidableEq, Repr

/-! ### Contexts and the host -/

/-- A fault reported to the CPC and not yet settled (R331). -/
structure FaultRec where
  id : Nat
  page : Nat
  reason : Nat
  acc : Access
  since : Nat
  deriving DecidableEq, Repr

/-- A journal record (R366). -/
structure JournalRec where
  index : Nat
  seq : Nat
  tag : DWord
  type : Nat
  state : Nat
  status : Nat
  pastid : Word
  times : Nat × Nat × Nat
  items : Nat
  fails : Nat
  /-- First failures: ITEM, CODE, DEPTH. -/
  first : List (Nat × Nat × Nat)
  deriving DecidableEq, Repr

/-- A command accepted at an endpoint (R358): its SEQ, INDEX, and the payload of its COMPLETE once sent. -/
structure Accepted where
  seq : Nat
  index : Nat
  tag : DWord
  done : Option (List Byte)
  status : Nat
  deriving DecidableEq, Repr

structure Endpoint where
  up : Bool
  h : Nat
  accepted : List Accepted
  /-- The ring, and the dies whose copy of it is whole (R365). -/
  journal : List JournalRec
  copies : List Nat
  nextIndex : Nat
  deriving DecidableEq, Repr

/-- An entry of a launch queue (R310, R311). -/
structure QueueItem where
  queue : Nat
  index : Nat
  /-- A launch by its number, or a COPY with its arguments. -/
  launch : Option Nat
  copy : Option CopyArgs
  prio : Nat
  /-- The core on which the CPC has placed a copy that waits for a queue slot there (R297, R362). -/
  placed : Option Nat
  started : Bool
  done : Bool
  deriving DecidableEq, Repr

/-- Sampling of a context (R350, R352). -/
structure Sampling where
  k : Nat
  buf : Nat
  size : Nat
  stop : Bool
  wp : Nat
  drops : Nat
  deriving DecidableEq, Repr

structure Context where
  id : Nat
  ptroot : DWord
  lsap : DWord
  trapbase : DWord
  dieMask : BitVec 4
  slice : Nat
  wdog : Nat
  stage : Nat
  spill : DWord
  saveBase : DWord
  saveSize : DWord
  faultto : Nat
  wins : List Window
  queue : List QueueItem
  faults : List FaultRec
  nextFault : Nat
  attached : Bool
  breaks : List (Word × BitVec 20)
  pendChk : Bool
  sampling : Sampling
  /-- The slice timers: die, start, and SLICE as it stood at the latest dispatch there (R316, R361). -/
  timers : List (Nat × Nat × Nat)
  nextPast : Word
  /-- Modify commands with PREEMPT that wait for their folds to be saved: journal INDEX, the folds, and the FAULTTO
  that takes effect at the COMPLETE (R361). -/
  preempts : List (Nat × List Nat × Nat)
  deriving DecidableEq, Repr

/-- A message the device has sent (R356). -/
structure OutMsg where
  ep : Nat
  type : Nat
  seq : Nat
  tag : DWord
  status : Nat
  payload : List Byte
  deriving DecidableEq, Repr

/-- What the device answered an RDMA or peer request. -/
inductive OutReply where
  | data (ep : Nat) (bytes : List Byte)
  | nakInvalid (ep : Nat)
  | nakAccess (ep : Nat)
  | ack (ep : Nat)
  | peerData (bytes : List Byte)
  | peerError
  | peerBadFrame
  deriving DecidableEq, Repr

/-- The peer context, which translates the accesses of peers (R372). -/
structure PeerContext where
  ptroot : DWord
  deriving DecidableEq, Repr

/-! ### Dies, cores and caches -/

/-- A leaf translation (R268). -/
structure Leaf where
  dom : BitVec 8
  win : BitVec 2
  comp : BitVec 2
  /-- DPA or peer address of the page. -/
  frame : Nat
  /-- Bytes of the page. -/
  size : Nat
  mt : BitVec 2
  x : Bool
  w : Bool
  deriving DecidableEq, Repr

structure TlbEntry where
  ctx : Nat
  /-- Virtual page base. -/
  page : Nat
  leaf : Leaf
  deriving DecidableEq, Repr

/-- A walk in progress (R270): what it has read of the table. -/
structure Walk where
  ctx : Nat
  va : Nat
  acc : Access
  /-- The leaf that it found, or the reason for which it fails. -/
  found : Leaf ⊕ Nat
  deriving DecidableEq, Repr

/-- The store that a dirty byte of an L1 comes from: fold, flock, lane and virtual address. -/
structure ByteOwner where
  fold : Nat
  flock : Nat
  lane : Nat
  va : Nat
  deriving DecidableEq, Repr

/-- A line of an L1 (R251). -/
structure L1Line where
  line : Nat
  data : Line
  dirty : BitVec 128
  /-- Every byte of the line is present, not the dirty ones alone. -/
  full : Bool
  dom : BitVec 8
  comp : BitVec 2
  /-- Whose stores the dirty bytes are. -/
  own : List (Nat × ByteOwner)
  deriving DecidableEq, Repr

/-- A valid tag of an L2 (R252). `ent` names slice, set and way; none for a ZERO tag. -/
structure L2Tag where
  line : Nat
  dirty : Bool
  zero : Bool
  dom : BitVec 8
  comp : BitVec 2
  ent : Option (Nat × Nat × Nat)
  used : Nat
  peer : Bool
  /-- While the line is dirty, what its home still holds. -/
  old : Option Line
  deriving DecidableEq, Repr

/-- An allocated data entry of an L2 (R252). -/
structure L2Entry where
  pos : Nat × Nat × Nat
  data : Line
  dom : BitVec 8
  ref : Nat
  pins : Nat
  used : Nat
  deriving DecidableEq, Repr

structure L2 where
  tags : List L2Tag
  entries : List L2Entry
  satref : Nat
  unshr : Nat
  deriving DecidableEq, Repr

/-- A quadrant: its active set in order of entry, pending flocks with the clk since which each is ready, the next
place in the round-robin (slot of the quadrant × 4 + split), and the clk at which a flock last left the active set (R44
to R46). -/
structure Quadrant where
  active : List (Nat × Nat)
  pending : List (Nat × Nat × Nat)
  turn : Nat
  lastLeft : Nat
  /-- The contexts for which the next bundle is to be tagged (R350). -/
  tag : List Nat
  /-- The last interval of a context's sampling in which a clk was drawn, plus 1, by context (R350). -/
  drawn : Cells Nat
  deriving DecidableEq, Repr

structure Core where
  l1 : List L1Line
  /-- The core's L1 TLB (R270). -/
  tlb : List TlbEntry
  /-- Accepted commands in acceptance order, and the requester accepted last: a quadrant, or 4 for the CPC (R297). -/
  cmds : List Cmd
  turn : Nat
  narrow : Bool
  quads : List Quadrant
  /-- Counters of R353: context × 16 + code for split-clk; engine and pin counts at the end. -/
  stallClk : Cells Nat
  meBusy : Nat
  ceBusy : Nat
  narrowClk : Nat
  tfuPins : Nat
  tfuCopies : Nat
  deriving DecidableEq, Repr

/-- The states of die control (R373). -/
inductive DieState where
  | admitted | withdrawing | quiesced | flushed | refresh | reset | retrain
  deriving DecidableEq, Repr

structure Die where
  state : DieState
  /-- CARVE(d), in units of 64 MiB (R262). -/
  carve : Nat
  alarm : Bool
  /-- CLOCK when the alarm last cleared (R304). -/
  clearedAt : Nat
  /-- CLOCK when a condition for the alarm last held (R377). -/
  lastHot : Nat
  temp : BitVec 8
  vrail : BitVec 8
  mV : Nat
  deciA : Nat
  mJ : Nat
  thermtrip : Bool
  l2 : L2
  /-- The die's L2 TLB, and the walks of its walkers in progress (R270). -/
  tlb : List TlbEntry
  walks : List Walk
  /-- Blocks of 512 bytes that the memory-side cache of the Mantle holds, and whether each is dirty (R260). -/
  mantle : List (Nat × Bool)
  staging : List (Nat × Contribution)
  /-- Soft errors: class × 2 for corrected, + 1 for uncorrected (R378). -/
  soft : Cells Nat
  /-- The launch whose candidate stands first without fitting, and since when; the launches whose candidates have stood
  so for 200,000 clk and have not been placed since (R320). -/
  starve : Option (Nat × Nat)
  starved : List Nat
  /-- CLOCK from which the die's Shepherd may place again. -/
  nextPlace : Nat
  /-- The die-control record that counts HOME_OFFLINE replies (R374), its INDEX. -/
  record : Option Nat
  deriving DecidableEq, Repr

/-- Device boot (R368). -/
inductive BootState where
  | off | recovery | running
  deriving DecidableEq, Repr

/-- A die-control command in progress (R373). -/
structure DieCtl where
  op : Nat
  die : Nat
  stage : Nat
  index : Nat
  seq : Nat
  tag : DWord
  deriving DecidableEq, Repr

/-- Which part of a bundle an instruction stands in (R88, R325). -/
inductive Pos where
  | full | head | half0 | half1
  deriving DecidableEq, Repr

/-- The split that issues, and whether the instruction is the last of its bundle: the model's own. -/
structure Issue where
  fold : Nat
  flock : Nat
  split : Nat
  pos : Pos
  last : Bool
  /-- The levels of memory that the accesses of the bundle have reached, for R351. -/
  levels : List Nat
  deriving DecidableEq, Repr

/-- What happens next, of the device or of the outside: the model's own input. -/
inductive Move where
  /-- A split issues its next bundle, or the head half of a clause it has started. -/
  | issue (r : SplitRef)
  | event (i : Instr)
  /-- Time passes. -/
  | tick (n : Nat)
  /-- A load in flight takes, for a lane, the values that stand now of some of its units (R281). -/
  | loadSample (r : FlockRef) (op lane : Nat)
  /-- The outside changes what this device can see: host and peer memory, sensors, boot flash. -/
  | hostByte (addr : Nat) (b : Byte)
  | hostDeny (block : Nat) (on : Bool)
  | peerByte (addr : Nat) (b : Byte)
  | sensor (die : Nat) (temp vrail : BitVec 8) (mV deciA mJ : Nat)
  /-- A walker of a die reads a table for an address; a core's L1 TLB takes an entry of its die's L2 TLB; an entry of
  an L2 TLB or of an L1 TLB is replaced (R270). -/
  | walkStart (die ctx : Nat) (acc : Access) (va : Nat)
  | tlbFill (core ctx va : Nat)
  | tlbDrop (die ctx va : Nat)
  | coreTlbDrop (core ctx va : Nat)
  | packagePower (mW other : Nat)
  | board (die : Nat) (alarm : Bool)
  | flash (slot : Nat) (img : Option BootImage)
  deriving DecidableEq, Repr

/-- The whole package. `agenda`, `cur`, `free`, `nextUid` and `rrQuad` are the model's own. -/
structure State where
  clock : Nat
  /-- Selects free values: advanced by each issued bundle and each draw. -/
  free : Nat
  cur : Issue
  agenda : List Move
  /-- The quadrant of the package that comes next when the device chooses by itself. -/
  rrQuad : Nat
  nextUid : Nat
  boot : BootState
  flash : List (Option BootImage)
  fuseHash : List Byte
  fuseVersion : Nat
  /-- MEAS0 to MEAS3, 32 bytes each, and the security version that booted. -/
  meas : List (List Byte)
  version : Nat
  serial : List Byte
  idKey : List Byte
  routing : Cells DWord
  portDown : List Nat
  mgmt : Endpoint
  eps : List (Nat × Endpoint)
  ctxs : List Context
  peer : Option PeerContext
  launches : List Launch
  folds : List Fold
  dies : List Die
  cores : List Core
  /-- Home bytes: HBM at die × 192 GiB + offset, NEAR at its DPA (R248, R249). -/
  mem : Cells Byte
  /-- Compression metadata bytes by block (R263). -/
  cmeta : Cells Byte
  /-- Lines marked lost, and lines whose next fill finds an uncorrectable error (R332). -/
  lost : List Nat
  badFill : List Nat
  peerMem : Cells Byte
  hostMem : Cells Byte
  /-- 4 KiB blocks of host memory that the host refuses (R362). -/
  hostDeny : List Nat
  sent : List OutMsg
  replies : List OutReply
  dieCtl : Option DieCtl
  packPower : Nat
  /-- Combined HBM, SerDes and Mantle power in mW (R378). -/
  otherPower : Nat
  boardAlarm : List Bool
  deriving DecidableEq, Repr

/-! ### Reset -/

/-- An empty L2: nothing valid, every entry free. -/
def L2.empty : L2 := { tags := [], entries := [], satref := 0, unshr := 0 }

/-- A compute die at reset: admitted, no carve-out (R262), caches empty. -/
def Die.reset : Die where
  state := .admitted
  carve := 0
  alarm := false
  clearedAt := 0
  lastHot := 0
  temp := 0
  vrail := 0
  mV := 0
  deciA := 0
  mJ := 0
  thermtrip := false
  l2 := L2.empty
  tlb := []
  walks := []
  mantle := []
  staging := []
  soft := []
  starve := none
  starved := []
  nextPlace := 0
  record := none

def Quadrant.empty : Quadrant := { active := [], pending := [], turn := 0, lastLeft := 0, tag := [], drawn := [] }

/-- A core at reset: nothing cached, nothing queued, nothing resident. -/
def Core.reset : Core where
  l1 := []
  tlb := []
  cmds := []
  turn := 4
  narrow := false
  quads := List.replicate 4 Quadrant.empty
  stallClk := []
  meBusy := 0
  ceBusy := 0
  narrowClk := 0
  tfuPins := 0
  tfuCopies := 0

/-- An endpoint with no connection and nothing accepted (R358). -/
def Endpoint.empty : Endpoint := { up := false, h := 0, accepted := [], journal := [], copies := [], nextIndex := 0 }

/-- The package as it leaves reset, before it has booted (R147, R368). Values the manual does not give are named
in the assumption log. -/
def State.reset : State where
  clock := 0
  free := 0
  cur := { fold := 0, flock := 0, split := 0, pos := .full, last := true, levels := [] }
  agenda := []
  rrQuad := 0
  nextUid := 0
  boot := .off
  flash := [none, none]
  fuseHash := List.replicate 32 0
  fuseVersion := 0
  meas := List.replicate 4 (List.replicate 32 0)
  version := 0
  serial := List.replicate 16 0
  idKey := List.replicate 1312 0
  routing := []
  portDown := []
  mgmt := Endpoint.empty
  eps := []
  ctxs := []
  peer := none
  launches := []
  folds := []
  dies := List.replicate 4 Die.reset
  cores := List.replicate 160 Core.reset
  mem := []
  cmeta := []
  lost := []
  badFill := []
  peerMem := []
  hostMem := []
  hostDeny := []
  sent := []
  replies := []
  dieCtl := none
  packPower := 0
  otherPower := 0
  boardAlarm := List.replicate 4 false

end Sys2Proof.Machine
end

