-- ==== Sys2Proof/Machine/Ops.lean ====
section
/-! DEFINITION. The named operations over State that every meaning uses: finding and replacing folds, flocks and
splits, registers, completion flags, retiring an instruction, taking a trap, returning from one, failing a fold. -/

namespace Sys2Proof.Machine

/-! ### Words and masks -/

/-- Two words as a pair, low word first (R87). -/
def pair (lo hi : Word) : DWord := hi ++ lo
def loWord (d : DWord) : Word := d.extractLsb' 0 32
def hiWord (d : DWord) : Word := d.extractLsb' 32 32

/-- The 64 lane numbers. -/
def lanes : List Nat := List.range 64

/-- Lane `l` is in the mask. -/
def inMask (m : LaneMask) (l : Nat) : Bool := m.getLsbD l

/-- The mask of the lanes that meet `f`. -/
def maskOf (f : Nat → Bool) : LaneMask :=
  lanes.foldr (fun l m => if f l then m ||| BitVec.twoPow 64 l else m) 0

/-- The lowest-numbered lane of a mask (R8, R123); 0 for the empty mask. -/
def lowestLane (m : LaneMask) : Nat := (lanes.find? (inMask m)).getD 0

/-- How many lanes the mask holds. -/
def laneCount (m : LaneMask) : Nat := (lanes.filter (inMask m)).length

/-- The low `n` bits of a word. -/
def lowBits (n : Nat) (w : Word) : Word := if 32 ≤ n then w else w &&& BitVec.ofNat 32 (2 ^ n - 1)

/-! ### Finding and replacing parts of the state -/

def foldAt (s : State) (uid : Nat) : Option Fold := s.folds.find? (fun f => f.uid == uid)

def putFold (s : State) (f : Fold) : State :=
  { s with folds := s.folds.map (fun g => if g.uid == f.uid then f else g) }

def flockAt (f : Fold) (i : Nat) : Option Flock := f.flocks[i]?

def putFlock (f : Fold) (i : Nat) (fl : Flock) : Fold := { f with flocks := f.flocks.set i fl }

/-- Apply `g` to one flock. -/
def onFlock (s : State) (uid i : Nat) (g : Flock → Flock) : State :=
  match foldAt s uid with
  | none => s
  | some f =>
    match flockAt f i with
    | none => s
    | some fl => putFold s (putFlock f i (g fl))

def launchAt (s : State) (uid : Nat) : Option Launch := s.launches.find? (fun l => l.uid == uid)

def putLaunch (s : State) (l : Launch) : State :=
  { s with launches := s.launches.map (fun m => if m.uid == l.uid then l else m) }

def ctxAt (s : State) (id : Nat) : Option Context := s.ctxs.find? (fun c => c.id == id)

def putCtx (s : State) (c : Context) : State :=
  { s with ctxs := s.ctxs.map (fun d => if d.id == c.id then c else d) }

def coreAt (s : State) (n : Nat) : Core := (s.cores[n]?).getD Core.reset

def putCore (s : State) (n : Nat) (c : Core) : State := { s with cores := s.cores.set n c }

def dieAt (s : State) (n : Nat) : Die := (s.dies[n]?).getD Die.reset

def putDie (s : State) (n : Nat) (d : Die) : State := { s with dies := s.dies.set n d }

/-- The endpoint `n`: 0 for management, 1 + c for context c (R355). -/
def endpointAt (s : State) (n : Nat) : Endpoint :=
  if n = 0 then s.mgmt
  else match s.eps.find? (fun e => e.1 == n) with
    | some e => e.2
    | none => Endpoint.empty

def putEndpoint (s : State) (n : Nat) (e : Endpoint) : State :=
  if n = 0 then { s with mgmt := e }
  else if s.eps.any (fun p => p.1 == n) then
    { s with eps := s.eps.map (fun p => if p.1 == n then (n, e) else p) }
  else { s with eps := s.eps ++ [(n, e)] }

/-- A number not used before. -/
def fresh (s : State) : Nat × State := (s.nextUid, { s with nextUid := s.nextUid + 1 })

/-! ### The launch's shape -/

/-- G, the vector registers of each lane (R27). -/
def gRegs (l : Launch) : Nat := 8 * ((l.vregs + 7) / 8)

/-- The fold's rank within its drove, and its drove (R22). -/
def rankOf (l : Launch) (f : Fold) : Nat := f.foldId % l.drove
def droveOf (l : Launch) (f : Fold) : Nat := f.foldId / l.drove

/-- The folds of the drove of `f` that are in the machine, `f` among them (R32). -/
def droveFolds (s : State) (f : Fold) : List Fold :=
  match launchAt s f.launch with
  | none => [f]
  | some l =>
    s.folds.filter (fun g => g.launch == f.launch && g.step == f.step && g.foldId / l.drove == f.foldId / l.drove)

/-- The fold at a rank of the drove of `f` (R194). -/
def rankFold (s : State) (f : Fold) (k : Nat) : Option Fold :=
  match launchAt s f.launch with
  | none => none
  | some l => (droveFolds s f).find? (fun g => g.foldId % l.drove == k)

/-! ### The issuing split -/

/-- What an instruction sees of the split that issues it (R85, R329). -/
structure Env where
  fold : Fold
  fi : Nat
  fl : Flock
  launch : Launch
  ctx : Context
  /-- The split whose clause issues: in a handler, the handler's own. -/
  sp : Split
  /-- The split's place among the live splits; in a handler, the trapping split's. -/
  idx : Nat
  hand : Bool
  /-- SplitMask: in a handler, TRAPSPLIT. -/
  mask : LaneMask
  /-- Active. -/
  act : LaneMask
  free : Nat
  pos : Pos
  last : Bool

/-- Active of a guard (R85). -/
def activeOf (fl : Flock) (mask : LaneMask) : Guard → LaneMask
  | .always => mask
  | .pred p neg =>
    let m := cget 0 fl.p p.toNat
    mask &&& (if neg then ~~~m else m)

/-- The issuing split of `cur`, with Active under the guard; none when `cur` names no live split. -/
def envOf (s : State) (g : Guard) : Option Env := do
  let f ← foldAt s s.cur.fold
  let fl ← flockAt f s.cur.flock
  let l ← launchAt s f.launch
  let c ← ctxAt s l.ctx
  match fl.handler with
  | some h =>
    some { fold := f, fi := s.cur.flock, fl := fl, launch := l, ctx := c, sp := h.sp, idx := h.index, hand := true,
           mask := fl.trap.split, act := fl.trap.split, free := s.free, pos := s.cur.pos, last := s.cur.last }
  | none => do
    let sp ← fl.splits[s.cur.split]?
    some { fold := f, fi := s.cur.flock, fl := fl, launch := l, ctx := c, sp := sp, idx := s.cur.split, hand := false,
           mask := sp.mask, act := activeOf fl sp.mask g, free := s.free, pos := s.cur.pos, last := s.cur.last }

/-- Put a changed flock back. -/
def storeFlock (s : State) (e : Env) (fl : Flock) : State := putFold s (putFlock e.fold e.fi fl)

/-! ### Registers -/

def rdS (e : Env) (r : Nat) : Word := if e.hand then cget 0 e.fl.sh r else cget 0 e.fl.s r

/-- No byte of the word may still take a later value: the value is the one that lands. -/
def PendWord.settled (w : PendWord) : Bool := w.src.all (fun b => !b.more)

/-- Whether a pending value is the one that a read sees (R96): the word's old value, or the one that lands, once it is
settled. -/
def pendPick (free k : Nat) (scalar : Bool) (key : Nat) (old : Word) (ls : List PendLoad) : Word :=
  ls.foldl (fun v p =>
    if p.scalar == scalar then
      p.words.foldl (fun u w =>
        if w.key == key && w.settled && Config.pendSees free ((k * 65536 + key) * 4096 + p.id)
        then (u &&& ~~~w.bits) ||| (w.value &&& w.bits) else u) v
    else v) old

def posCode : Pos → Nat
  | .full => 0
  | .head => 1
  | .half0 => 2
  | .half1 => 3

/-- A scalar register as operand `k` of the instruction reads it. -/
def readS (e : Env) (k r : Nat) : Word :=
  if e.hand then cget 0 e.fl.sh r else pendPick e.free (k + 16 * posCode e.pos) true r (cget 0 e.fl.s r) e.fl.loads

def readS2 (e : Env) (k r : Nat) : DWord := pair (readS e k r) (readS e k (r + 1))

/-- The place of an operand among the reads that a reading lane makes: each lane draws for itself which value of a pending
word it reads (R96). -/
def laneOpnd (k l : Nat) : Nat := k + 64 * l

/-- A lane's word of a vector register as operand `k` reads it. -/
def readV (e : Env) (k r l : Nat) : Word :=
  pendPick e.free (k + 16 * posCode e.pos) false (r * 64 + l) (cget 0 e.fl.v (r * 64 + l)) e.fl.loads

/-- The lane that lane `l` reads through a routing modifier; its own where the source lane is not in SplitMask
(R99, R100). -/
def routeLane (e : Env) (rt : BitVec 12) (l : Nat) : Nat :=
  let cls := (rt.extractLsb' 9 3).toNat
  let k := (rt.extractLsb' 6 3).toNat
  let d := (rt.extractLsb' 0 6).toNat
  let n := if k = 0 then 64 else 2 ^ k
  let u := max 1 (n / 64)
  let base := l - l % n
  let o := l - base
  let x := d * u
  let j : Option Nat :=
    match cls with
    | 0 => some l
    | 1 => some (base + (o + x) % n)
    | 2 => some (base + Nat.xor o (x % n))
    | 3 => some (base + x % n)
    | 4 => some (base + (cget 0 e.fl.x (d % 4 * 64 + l)).toNat % n)
    | 5 => if x ≤ o then some (l - x) else none
    | 6 => if o + x < n then some (l + x) else none
    | _ => some (base + (n - 1 - o))
  match j with
  | none => l
  | some j => if inMask e.mask j then j else l

/-- A later fixed-latency write hits the words of the key (R96). -/
def hitLoads (scalar : Bool) (key : Nat) (ls : List PendLoad) : List PendLoad :=
  ls.map (fun p =>
    if p.scalar == scalar then
      { p with words := p.words.map (fun w => if w.key == key then { w with hit := true } else w) }
    else p)

/-- A full write of a word clears its error mark (R332). -/
def unmark (m : RegMark) (ms : List RegMark) : List RegMark := ms.filter (fun x => x != m)

/-- Full writes of words clear their error marks. -/
def unmarkAll (p : RegMark → Bool) (fl : Flock) : Flock := { fl with marks := fl.marks.filter (fun x => !p x) }

def setV (fl : Flock) (r l : Nat) (w : Word) : Flock :=
  { fl with v := cset 0 fl.v (r * 64 + l) w, loads := hitLoads false (r * 64 + l) fl.loads,
            marks := unmark (.v r l) fl.marks }

/-- Write a word in every lane of the mask. -/
def setLanes (fl : Flock) (r : Nat) (m : LaneMask) (f : Nat → Word) : Flock :=
  lanes.foldl (fun u l => if inMask m l then setV u r l (f l) else u) fl

/-- Write a pair in every lane of the mask. -/
def setLanes2 (fl : Flock) (r : Nat) (m : LaneMask) (f : Nat → DWord) : Flock :=
  setLanes (setLanes fl r m (fun l => loWord (f l))) (r + 1) m (fun l => hiWord (f l))

/-- Write a scalar register: in a handler, of the shadow bank (R329). -/
def setS (e : Env) (fl : Flock) (r : Nat) (w : Word) : Flock :=
  if e.hand then { fl with sh := cset 0 fl.sh r w, marks := unmark (.sh r) fl.marks }
  else { fl with s := cset 0 fl.s r w, loads := hitLoads true r fl.loads, marks := unmark (.s r) fl.marks }

def setS2 (e : Env) (fl : Flock) (r : Nat) (d : DWord) : Flock :=
  setS e (setS e fl r (loWord d)) (r + 1) (hiWord d)

/-- The key of a uniform predicate among the pending scalar words: BARW and BART write one (R95, R240). -/
def qKey (r : Nat) : Nat := 1024 + r

def rdQ (e : Env) (r : Nat) : Bool :=
  if e.hand then e.fl.shq.getLsbD r
  else (pendPick e.free (8 + 16 * posCode e.pos) true (qKey r) (if e.fl.q.getLsbD r then 1 else 0) e.fl.loads).getLsbD 0

/-- One bit of a small register. -/
def setBit8 (w : BitVec 8) (i : Nat) (b : Bool) : BitVec 8 :=
  if b then w ||| BitVec.twoPow 8 i else w &&& ~~~(BitVec.twoPow 8 i)

def setQ (e : Env) (fl : Flock) (r : Nat) (b : Bool) : Flock :=
  if e.hand then { fl with shq := setBit8 fl.shq r b, marks := unmark (.sh (qKey r)) fl.marks }
  else { fl with q := setBit8 fl.q r b, loads := hitLoads true (qKey r) fl.loads, marks := unmark (.s (qKey r)) fl.marks }

/-- p[r] in the lanes of the mask. -/
def setP (fl : Flock) (r : Nat) (m : LaneMask) (f : LaneMask) : Flock :=
  { fl with p := cset 0 fl.p r ((cget 0 fl.p r &&& ~~~m) ||| (f &&& m)),
            marks := fl.marks.filter (fun x => !(lanes.any (fun l => inMask m l && x == .p r l))) }

def rdP (fl : Flock) (r l : Nat) : Bool := inMask (cget 0 fl.p r) l

/-- The FDR image of a slot (R52). -/
def slotOf (fl : Flock) (n : Nat) : DWord := cget 0 fl.f n

/-- OR flags into FFLAGS (R76). -/
def orFlags (fl : Flock) (n : BitVec 5) : Flock := { fl with fflags := fl.fflags ||| n.setWidth 32 }

/-- SRCOUNT of the lanes of the mask advances (R64). -/
def bumpSrcount (fl : Flock) (m : LaneMask) : Flock :=
  { fl with srcount := lanes.foldl (fun c l => if inMask m l then cset 0 c l (cget 0 c l + 1) else c) fl.srcount }

/-! ### Completion flags (R93) -/

/-- The completion flag that FLG selects. -/
def flagOf (e : Env) : FlagSel → Option (BitVec 4)
  | .none => none
  | .a => e.sp.setA
  | .b => e.sp.setB

/-- The increment would take the counter above 63. -/
def flagFull (fl : Flock) : Option (BitVec 4) → Bool
  | none => false
  | some c => 63 ≤ cget 0 fl.c c.toNat

def flagUp (fl : Flock) : Option (BitVec 4) → Flock
  | none => fl
  | some c => { fl with c := cset 0 fl.c c.toNat (cget 0 fl.c c.toNat + 1) }

def flagDown (fl : Flock) : Option (BitVec 4) → Flock
  | none => fl
  | some c => { fl with c := cset 0 fl.c c.toNat (cget 0 fl.c c.toNat - 1) }

/-! ### Splits and clauses -/

/-- A split that has left its clause and stands at an address. -/
def outside (sp : Split) (pc : DWord) : Split :=
  { sp with pc := pc, inside := false, headDue := false, setA := none, setB := none, left := 0, stop := none,
            first := false, wait := .none }

/-- The split after its bundle: the next bundle of its clause, or the next clause head (R79, R91). -/
def advance (sp : Split) : Split :=
  if sp.headDue then
    if sp.left = 0 then outside sp (sp.pc + 16)
    else { sp with pc := sp.pc + 16, headDue := false, first := true, wait := .none }
  else if sp.left ≤ 1 then outside sp (sp.pc + 16)
  else { sp with pc := sp.pc + 16, left := sp.left - 1, first := false, wait := .none }

/-- A split at an address, outside every clause, with a path. -/
def freshSplit (pc : DWord) (m : LaneMask) (path : List Nat) : Split where
  pc := pc
  mask := m
  inside := false
  headDue := false
  setA := none
  setB := none
  left := 0
  ord := 0xFFFFF
  stop := none
  first := false
  wait := .none
  since := 0
  path := path
  brk := none
  stepping := false
  halted := false
  pass := false
  issued := 0
  code := 0

/-- A new split of the flock with the path of the one that divides (R273). -/
def childSplit (sp : Split) (pc : DWord) (m : LaneMask) : Split :=
  { outside sp pc with mask := m, halted := false, brk := none, pass := false, issued := 0 }

/-- Replace the issuing split, or the handler's clause state. -/
def putSplit (e : Env) (fl : Flock) (sp : Split) : Flock :=
  if e.hand then { fl with handler := some { sp := sp, index := e.idx } }
  else { fl with splits := fl.splits.set e.idx sp }

/-- Entries of the pending-path stack become live splits while fewer than four live (R42), with the path that was pushed
with them (R274). A flock under a focused STEP pops none, also where its focused split has ended
(log entry 45). -/
def popPaths : Nat → Flock → Flock
  | 0, fl => fl
  | n + 1, fl =>
    if fl.focus then fl
    else match fl.stack with
      | [] => fl
      | x :: r =>
        if fl.splits.length < 4 && 0 < fl.hw then
          popPaths n
            { fl with
              stack := r,
              hw := fl.hw - 1,
              splits := fl.splits ++ [{ freshSplit x.pc x.mask x.path with pass := x.pass }] }
        else fl

/-- Splits with an empty mask end, and R42 applies. -/
def tidySplits (fl : Flock) : Flock :=
  popPaths 4 { fl with splits := fl.splits.filter (fun sp => sp.mask != 0) }

/-! ### What a wait waits for -/

/-- Every flag of the mask is at most `n`. -/
def flagsAtMost (fl : Flock) (m : BitVec 12) (n : Nat) : Bool :=
  (List.range 12).all (fun k => !m.getLsbD k || cget 0 fl.c k ≤ n)

/-- Closed batches outstanding (R236). -/
def batchesOut (fl : Flock) : Nat := (fl.batchNext - fl.batchDone).toNat

/-- WAITB still waits (R237). -/
def batchWaits (fl : Flock) (le : Bool) (n : Word) : Bool :=
  if le then decide (n.toNat < batchesOut fl) else decide ((n.setWidth 16 - fl.batchDone).toNat < batchesOut fl)

/-- LWAIT still waits: a child of the fold is live, under the PASTID or at all (R244). -/
def lwaitHolds (s : State) (fold : Nat) (p : Option Word) : Bool :=
  s.launches.any (fun l => l.parent == some fold && (match p with
                                                     | some q => l.pastid == q
                                                     | none => true))

/-- The flock's own latest store to a byte that is not yet performed is what it reads (R189). -/
def ownByte (fl : Flock) (h : Nat) (b : Byte) : Byte :=
  fl.stores.foldl (fun b p =>
    if p.waitFault.isSome then b
    else p.bytes.foldl (fun b x => if x.addr = h then x.value else b) b) b

/-! ### Failing a fold (R150) -/

/-- The flock stops for good: no split, no path, no handler. -/
def stopFlock (fl : Flock) : Flock :=
  { fl with splits := [], stack := [], hw := 0, handler := none, stall := none, fences := [], haltReq := false, halting := false,
            focus := false, later := none, watchdog := false }

/-- Stop every flock of a fold and note its code; the first code stands. -/
def stopFold (f : Fold) (code : Nat) : Fold :=
  match f.fail with
  | some _ => f
  | none => { f with fail := some code, flocks := f.flocks.map stopFlock, preempt := false }

/-- Fail a fold as TKILL fails it: it takes `code`, and each other fold of its drove takes 0x301 (R150, R367). -/
def failFold (s : State) (uid : Nat) (code : Nat) : State :=
  match foldAt s uid with
  | none => s
  | some f =>
    let peers := (droveFolds s f).map (fun g => g.uid)
    { s with folds := s.folds.map (fun g =>
        if g.uid == uid then stopFold g code
        else if peers.contains g.uid then stopFold g 0x301
        else g) }

/-! ### Taking a trap (R325, R328) -/

/-- The page that a fault names: its 64 KiB page. -/
def pageBase (va : Nat) : Nat := va / 0x10000 * 0x10000

structure TrapInfo where
  cause : Nat
  detail : Nat
  addr : DWord
  deriving DecidableEq, Repr

/-- A trap whose shadow pair is 0. -/
def plainTrap (cause detail : Nat) : TrapInfo := { cause := cause, detail := detail, addr := 0 }

/-- TRAPCAUSE (R325). -/
def trapCause (async : Bool) (pos : Pos) (cause : Nat) : Word :=
  BitVec.ofNat 32 ((if async then 32768 else 0) + (if async then 0 else posCode pos * 8192) + cause)

/-- The flock enters handler state: the trap registers are set, shadow s1:s0 takes the address, and the handler
begins at TRAPBASE (R325, R328). -/
def enterHandler (fl : Flock) (idx : Nat) (sp : Split) (async : Bool) (pos : Pos) (base : DWord) (t : TrapInfo) :
    Flock :=
  { fl with
    trap := { cause := trapCause async pos t.cause, detail := BitVec.ofNat 32 t.detail, pc := sp.pc, split := sp.mask },
    sh := cset 0 (cset 0 fl.sh 0 (loWord t.addr)) 1 (hiWord t.addr),
    marks := unmark (.sh 0) (unmark (.sh 1) fl.marks),
    handler := some { sp := freshSplit base sp.mask [], index := idx },
    splits := fl.splits.set idx { sp with wait := .none } }

/-- Take a trap of the split `idx` of a flock. With TRAPBASE = 0 the fold fails with 0x100 + CAUSE (R328); a trap
that a handler's bundle would take fails it with 0x200 + CAUSE (R329). -/
def takeTrap (s : State) (uid fi idx : Nat) (async : Bool) (pos : Pos) (t : TrapInfo) : State :=
  match foldAt s uid with
  | none => s
  | some f =>
    match flockAt f fi, (launchAt s f.launch).bind (fun l => ctxAt s l.ctx) with
    | some fl, some c =>
      if fl.handler.isSome then failFold s uid (0x200 + t.cause)
      else match fl.splits[idx]? with
        | none => s
        | some sp =>
          let gone := (pageBase t.addr.toNat, t.detail % 16)
          let fl' := { fl with verdicts := fl.verdicts.filter (fun v => !(t.cause == 0x1E && v == gone)) }
          let taken := putFold s (putFlock f fi (enterHandler fl' idx sp async pos c.trapbase t))
          if c.trapbase = 0 then failFold taken uid (0x100 + t.cause) else taken
    | _, _ => s

/-- The trap came from a bundle at a clause head that is no H bundle, or that could not be fetched: there is no header
to apply, and the bundle alone is passed (R330). -/
def noHeader (r : TrapRegs) : Bool :=
  let cause := r.cause.toNat % 256
  decide (r.cause.toNat < 32768) && (cause != 0x10 || decide (r.detail.toNat ≤ 2))

/-- TRET: the handler ends and the trapping split resumes (R149, R330). `next` continues after the bundle; a
control-class bundle is passed without its branch. -/
def returnFromHandler (fl : Flock) (next : Bool) : Flock :=
  match fl.handler with
  | none => fl
  | some h =>
    match fl.splits[h.index]? with
    | none => { fl with handler := none }
    | some sp =>
      let sp' :=
        if !next then sp
        else if sp.inside then advance sp
        else if noHeader fl.trap then outside sp (sp.pc + 16)
        else { sp with first := true }   -- at an unstarted head: the header is applied, the head half skipped
      { fl with handler := none, splits := fl.splits.set h.index sp' }

/-! ### Results of a meaning -/

/-- A fault that stalls the flock until the CPC has settled it (R331): page, REASON and kind of access. -/
structure PageFault where
  page : Nat
  reason : Nat
  acc : Access
  deriving DecidableEq, Repr

/-- What a meaning answers: its effect, a precise trap, a stall of the split (the bundle issues again), or a
replayable fault. -/
inductive Res (α : Type) where
  | ok (a : α)
  | trap (t : TrapInfo)
  | stall (w : Wait)
  | page (p : PageFault)

def Res.bind {α β : Type} (r : Res α) (f : α → Res β) : Res β :=
  match r with
  | .ok a => f a
  | .trap t => .trap t
  | .stall w => .stall w
  | .page p => .page p

/-- A trap unless the condition holds. -/
def need (b : Bool) (t : TrapInfo) : Res Unit := if b then .ok () else .trap t

/-! ### Reporting a replayable fault (R270, R331) -/

/-- Little-endian bytes of a number. -/
def leBytes : Nat → Nat → List Byte
  | 0, _ => []
  | k + 1, n => BitVec.ofNat 8 n :: leBytes k (n / 256)

/-- The number of little-endian bytes. -/
def leNat : List Byte → Nat
  | [] => 0
  | b :: r => b.toNat + 256 * leNat r

/-- Send a message, if the endpoint's connection is up (R359). -/
def sendMsg (s : State) (m : OutMsg) : State :=
  if (endpointAt s m.ep).up then { s with sent := s.sent ++ [m] } else s

/-- The fault event of R359. -/
def faultEvent (s : State) (c : Context) (r : FaultRec) : State :=
  sendMsg s { ep := c.id + 1, type := 0x83, seq := 0, tag := 0, status := 0,
              payload := leBytes 4 1 ++ leBytes 4 c.id ++ leBytes 4 r.id ++ leBytes 8 r.page ++ leBytes 4 r.reason
                           ++ leBytes 8 0 }

/-- Report a fault once per (context, page, reason) while it is unresolved; answers its number. -/
def reportFault (s : State) (ctx : Nat) (p : PageFault) : Nat × State :=
  match ctxAt s ctx with
  | none => (0, s)
  | some c =>
    match c.faults.find? (fun r => r.page == p.page && r.reason == p.reason) with
    | some r => (r.id, s)
    | none =>
      let r : FaultRec := { id := c.nextFault, page := p.page, reason := p.reason, acc := p.acc, since := s.clock }
      let c' := { c with faults := c.faults ++ [r], nextFault := c.nextFault + 1 }
      (r.id, faultEvent (putCtx s c') c' r)

/-! ### Ending an instruction -/

/-- The bundle retires: when the instruction is its last, the split moves on (R91). -/
def retire (s : State) (e : Env) : State :=
  if e.last then
    onFlock s e.fold.uid e.fi (fun fl =>
      match fl.handler with
      | some h => { fl with handler := some { h with sp := advance h.sp } }
      | none =>
        match fl.splits[e.idx]? with
        | none => fl
        | some sp => { fl with splits := fl.splits.set e.idx (advance sp) })
  else s

/-- A stalled bundle stays where it is; its split notes why, and since when (R322, R338). -/
def markWait (s : State) (e : Env) (w : Wait) : State :=
  onFlock s e.fold.uid e.fi (fun fl =>
    let mark (sp : Split) : Split :=
      if sp.wait = w then sp else { sp with wait := w, since := s.clock }
    match fl.handler with
    | some h => { fl with handler := some { h with sp := mark h.sp } }
    | none =>
      match fl.splits[e.idx]? with
      | none => fl
      | some sp => { fl with splits := fl.splits.set e.idx (mark sp) })

/-- The whole flock stalls on a replayable fault (R331). -/
def stallFlock (s : State) (e : Env) (p : PageFault) : State :=
  let (id, s1) := reportFault s e.ctx.id p
  onFlock s1 e.fold.uid e.fi (fun fl => { fl with stall := some id })

/-- End an instruction with its result: the state it leaves, or the trap, stall or fault it takes. -/
def finish (s : State) (e : Env) : Res State → State
  | .ok t => retire t e
  | .trap t => takeTrap s e.fold.uid e.fi e.idx false e.pos t
  | .stall w => markWait s e w
  | .page p => stallFlock s e p

/-- The same for an instruction that moves the split itself (R92). -/
def finishControl (s : State) (e : Env) : Res State → State
  | .ok t => t
  | .trap t => takeTrap s e.fold.uid e.fi e.idx false e.pos t
  | .stall w => markWait s e w
  | .page p => stallFlock s e p

/-- What an instruction names. `vw`, `vr`: vector registers written, and read with their routing, in every lane of
Active. `vx`, `wx`: single words read and written, as acting lane, register and lane; `vn` their registers. `s`, `sw`: scalar
registers read and written, which in a handler are the shadow bank's; `os`, `osw`: the flock's own, in a handler too. `pr`,
`xr`: predicates and index registers read in every lane of Active; `pl`, `xl`: those of single lanes. -/
structure Names where
  vw : List Nat := []
  vr : List (Nat × BitVec 12) := []
  vx : List (Nat × Nat × Nat) := []
  wx : List (Nat × Nat × Nat) := []
  vn : List Nat := []
  s : List Nat := []
  sw : List Nat := []
  os : List Nat := []
  osw : List Nat := []
  pr : List Nat := []
  pl : List (Nat × Nat) := []
  xr : List Nat := []
  xl : List (Nat × Nat) := []
  deriving DecidableEq, Repr

/-- The names of two groups of operands together. -/
def Names.also (a b : Names) : Names where
  vw := a.vw ++ b.vw
  vr := a.vr ++ b.vr
  vx := a.vx ++ b.vx
  wx := a.wx ++ b.wx
  vn := a.vn ++ b.vn
  s := a.s ++ b.s
  sw := a.sw ++ b.sw
  os := a.os ++ b.os
  osw := a.osw ++ b.osw
  pr := a.pr ++ b.pr
  pl := a.pl ++ b.pl
  xr := a.xr ++ b.xr
  xl := a.xl ++ b.xl

/-- The vector registers named, the destination first. -/
def Names.regs (n : Names) : List Nat := n.vw ++ n.vn ++ n.vr.map (fun x => x.1)

/-- The lanes of Active. -/
def actLanes (e : Env) : List Nat := lanes.filter (inMask e.act)

/-- The words of vector registers that the instruction reads: acting lane, register and lane. -/
def wordsRead (e : Env) (n : Names) : List (Nat × Nat × Nat) :=
  n.vr.flatMap (fun x => (actLanes e).map (fun l => (l, x.1, routeLane e x.2 l))) ++ n.vx

/-- The words that it accesses. -/
def wordsUsed (e : Env) (n : Names) : List (Nat × Nat × Nat) :=
  n.vw.flatMap (fun r => (actLanes e).map (fun l => (l, r, l))) ++ n.wx ++ wordsRead e n

/-- The scalar registers of the flock itself that it reads. -/
def ownRead (e : Env) (n : Names) : List Nat := n.os ++ (if e.hand then [] else n.s)

/-- The first register named that the lanes do not have: REGRANGE (R27). -/
def regRange (e : Env) (n : Names) : Option TrapInfo :=
  (n.regs.find? (fun r => gRegs e.launch ≤ r)).map (fun r => plainTrap 0x13 (r % 256))

/-- A word accessed that is pending, while pending-access checking is in effect: PENDREG (R96, R349). -/
def pendReg (e : Env) (n : Names) : Option TrapInfo :=
  if !e.fl.pendChk || e.act = 0 then none
  else
    let pend (scalar : Bool) (key : Nat) : Bool :=
      e.fl.loads.any (fun p => p.scalar == scalar && p.words.any (fun w => w.key == key))
    let bad := (wordsUsed e n).filter (fun x => pend false (x.2.1 * 64 + x.2.2))
    match bad with
    | x :: _ =>
      let ls := (bad.filter (fun y => y.2.1 == x.2.1)).map (fun y => y.2.2)
      some (plainTrap 0x14 (x.2.1 % 256 + 256 * (ls.foldl min x.2.2)))
    | [] =>
      ((ownRead e n ++ n.osw ++ (if e.hand then [] else n.sw)).find? (pend true)).map (fun r => plainTrap 0x14 (r % 256))

/-- The guard predicate, read in every lane of SplitMask (R85), the lanes of Active apart from the others: acting lane,
register and lane. -/
def guardRead (e : Env) (g : Guard) (active : Bool) : List (Nat × Nat × Nat) :=
  match g with
  | .always => []
  | .pred p _ => (lanes.filter (fun l => inMask e.mask l && inMask e.act l == active)).map (fun l => (l, p.toNat, l))

/-- The predicates that it reads in lanes of Active, and those that it names by lane. -/
def predsRead (e : Env) (g : Guard) (n : Names) : List (Nat × Nat × Nat) :=
  guardRead e g true ++ n.pr.flatMap (fun r => (actLanes e).map (fun l => (l, r, l))) ++ n.pl.map (fun x => (x.2, x.1, x.2))

/-- The index registers that it reads. -/
def idxRead (e : Env) (n : Names) : List (Nat × Nat × Nat) :=
  n.xr.flatMap (fun r => (actLanes e).map (fun l => (l, r, l))) ++ n.xl.map (fun x => (x.2, x.1, x.2))

/-- The registers of the shadow bank that it reads: in a handler, its scalar sources. -/
def shadowRead (e : Env) (n : Names) : List Nat := if e.hand then n.s else []

/-- Of accesses that fail, the one of the lowest acting lane. -/
def lowestActing : List (Nat × Nat × Nat) → Option (Nat × Nat × Nat)
  | [] => none
  | x :: r => some (r.foldl (fun b y => if y.1 < b.1 then y else b) x)

/-- A word read holds an uncorrectable error: SRAMERR (R332, R324). Among several it names a vector register before a
scalar one, a predicate and an index register; a guard marked only in lanes outside Active, which is read all the same where
Active is empty, comes last (log entry 48). -/
def sramErr (e : Env) (g : Guard) (n : Names) : Option TrapInfo :=
  if e.fl.marks.isEmpty then none
  else
    let err (reason : Nat) (x : Nat × Nat × Nat) : TrapInfo :=
      plainTrap 0x1F (x.2.1 % 256 * 65536 + x.1 % 256 * 256 + reason)
    let hit (xs : List (Nat × Nat × Nat)) (m : Nat → Nat → RegMark) : Option (Nat × Nat × Nat) :=
      lowestActing (xs.filter (fun x => e.fl.marks.contains (m x.2.1 x.2.2)))
    let single (rs : List Nat) (m : Nat → RegMark) : Option TrapInfo :=
      (rs.find? (fun r => e.fl.marks.contains (m r))).map (fun r =>
        if r < 1024 then err 2 (255, r, 0) else err 3 (255, r - 1024, 0))
    let operands : Option TrapInfo :=
      ((hit (wordsRead e n) RegMark.v).map (err 1)).or
        (((single (ownRead e n) RegMark.s).or (single (shadowRead e n) RegMark.sh)).or
          (((hit (predsRead e g n) RegMark.p).map (err 3)).or ((hit (idxRead e n) RegMark.x).map (err 3))))
    (if e.act = 0 then none else operands).or ((hit (guardRead e g false) RegMark.p).map (err 3))

/-- The causes that come before an instruction's own (R326). -/
def precheck (e : Env) (n : Names) : Option TrapInfo :=
  match regRange e n with
  | some t => some t
  | none => pendReg e n

/-- SRAMERR comes after the causes of lower code (R326), and before the effect, a wait on what was read, or a fault that is
still to be resolved. -/
def sramFirst {α : Type} : Res α → Bool
  | .ok _ => true
  | .trap t => 0x1F < t.cause
  | .page _ => true
  | .stall w =>
    match w with
    | .batch _ _ => true
    | .barrier _ _ _ => true
    | .mwait _ _ _ _ => true
    | .lwait _ => true
    | _ => false

/-- The result of a body with SRAMERR in its place. -/
def withSram (e : Env) (g : Guard) (n : Names) (r : Res State) : Res State :=
  match (if sramFirst r then sramErr e g n else none) with
  | some u => .trap u
  | none => r

/-- Run the body of an instruction that the handler may use when `inHandler` (R329): an instruction or a guard
outside those rules is a breach, code 0x210. -/
def run (s : State) (g : Guard) (inHandler : Bool) (n : Names) (body : Env → Res State) :
    Host.Outcome State Fault Refusal :=
  match envOf s g with
  | none => .fault .noIssuer
  | some e =>
    if e.hand && (!inHandler || g != .always) then .next (failFold s e.fold.uid 0x210)
    else match precheck e n with
      | some t => .next (finish s e (.trap t))
      | none => .next (finish s e (withSram e g n (body e)))

/-- The body changes the flock alone. -/
def runFlock (s : State) (g : Guard) (inHandler : Bool) (n : Names) (body : Env → Res Flock) :
    Host.Outcome State Fault Refusal :=
  run s g inHandler n (fun e => (body e).bind (fun fl => .ok (storeFlock s e fl)))

/-- A control-class instruction: it leaves its clause by itself (R92, R127). -/
def runControl (s : State) (g : Guard) (inHandler : Bool) (n : Names) (body : Env → Res State) :
    Host.Outcome State Fault Refusal :=
  match envOf s g with
  | none => .fault .noIssuer
  | some e =>
    if e.hand && (!inHandler || g != .always) then .next (failFold s e.fold.uid 0x210)
    else match precheck e n with
      | some t => .next (finishControl s e (.trap t))
      | none => .next (finishControl s e (withSram e g n (body e)))

end Sys2Proof.Machine
end

