-- ==== Sys2Proof/Machine/Hier.lean ====
section
/-! DEFINITION. Homes, translation, L1, the shared-content L2 and its counters, lost lines and offline homes
(R245 to R271, R332, R374, R381). One coherent memory `mem` holds the bytes of L2, Mantle and HBM together (R261);
only an L1 can hold other bytes. -/

namespace Sys2Proof.Machine

/-! ### Journal records (R365 to R367) -/

/-- The die answers HOME_OFFLINE: from the start of stage 3 to the end of stage 7 (R374). -/
def dieOffline (s : State) (d : Nat) : Bool :=
  let st := (dieAt s d).state
  st == .flushed || st == .refresh || st == .reset || st == .retrain
    || (match s.dieCtl with
        | some c => c.die == d && 3 ≤ c.stage
        | none => false)

/-- The two dies in whose reserved HBM the copies of an endpoint's ring stand (R365, log entry 47). -/
def ringDies (ep : Nat) : List Nat := [ep % 4, (ep + 1) % 4]

/-- The ring of an endpoint with other records: a copy on a die that cannot be reached is whole no more (R365). -/
def putRing (s : State) (ep : Nat) (e : Endpoint) (js : List JournalRec) : State :=
  putEndpoint s ep { e with journal := js, copies := (if e.journal = [] then ringDies ep else e.copies).filter (fun d => !dieOffline s d) }

/-- Change one record of a journal. -/
def updRecord (s : State) (ep index : Nat) (g : JournalRec → JournalRec) : State :=
  let e := endpointAt s ep
  putRing s ep e (e.journal.map (fun r => if r.index == index then g r else r))

/-- Count a failure in a record: FAILS, and FIRST while fewer than 16 are held. -/
def addFailure (s : State) (ep index item code depth : Nat) : State :=
  updRecord s ep index (fun r =>
    { r with fails := r.fails + 1,
             first := if r.first.length < 16 then r.first ++ [(item, code, depth)] else r.first })

/-! ### Homes (R248, R249, R262) -/

/-- Homes at and above this key are bytes of peer devices. -/
def peerKey : Nat := 2 ^ 53

/-- The home of a NORMAL DPA under a window code; none in the metadata region or where there is no memory. -/
def homeNormal (win : BitVec 2) (a : Nat) : Option Nat :=
  if Config.hbmBytes ≤ a then none
  else
    let (die, off) :=
      if win = 0 then (a / Config.dieBytes, a % Config.dieBytes)
      else if win = 1 then
        let p := a / (2 * Config.dieBytes)
        let b := a % (2 * Config.dieBytes)
        let g := b / 4096
        (2 * p + g % 2, g / 2 * 4096 + b % 4096)
      else
        let g := a / 4096
        (g % 4, g / 4 * 4096 + a % 4096)
    if Config.metaOff ≤ off then none else some (die * Config.dieBytes + off)

/-- The home of a NEAR DPA: the carve-out's first CARVE(d) bytes exist. A NEAR leaf with a frame of HBM has none (log entry
35). -/
def homeNear (s : State) (a : Nat) : Option Nat :=
  if a < Config.hbmBytes then none
  else
    let d := (a - Config.hbmBytes) / Config.nearBytes
    if 4 ≤ d then none
    else if (dieAt s d).carve * 0x4000000 ≤ (a - Config.hbmBytes) % Config.nearBytes then none
    else some a

/-- The home that an address of a leaf's page reaches. -/
def homeOf (s : State) (lf : Leaf) (a : Nat) : Option Nat :=
  if lf.mt = 0 then homeNormal lf.win a else if lf.mt = 1 then homeNear s a else some (peerKey + a)

/-- The die that homes a byte of this package. -/
def dieOfHome (h : Nat) : Nat :=
  if h < Config.hbmBytes then h / Config.dieBytes else (h - Config.hbmBytes) / Config.nearBytes

/-- A route to the peer of an address exists: its routing entry names a port that is up (R371, R372). -/
def peerUp (s : State) (h : Nat) : Bool :=
  let m := cget 0 s.routing ((h - peerKey) / 2 ^ 42)
  lanes.any (fun p => inMask m p && !s.portDown.contains p)

/-- A request to the byte's home is answered with HOME_OFFLINE. -/
def homeOffline (s : State) (h : Nat) : Bool :=
  if peerKey ≤ h then !peerUp s h else dieOffline s (dieOfHome h)

/-- Count a HOME_OFFLINE reply of a die in the record of the die-control command (R374); `item` is the requesting
CORENUM, or all ones. -/
def countOffline (s : State) (h item : Nat) : State :=
  if peerKey ≤ h then s
  else match (dieAt s (dieOfHome h)).record with
    | some i => addFailure s 0 i item 0x405 0
    | none => s

/-! ### Reasons, and what a fault leaves behind -/

/-- Why a translation or an access fails: REASON of R324. -/
abbrev Reason := Nat
def rNotValid : Reason := 1
def rPerm : Reason := 2
def rBadPte : Reason := 3
def rBadFrame : Reason := 4
def rOffline : Reason := 5
def rAddress : Reason := 6
def rUncorr : Reason := 7
def rType : Reason := 8
def rAperture : Reason := 9

/-- ACCESS of R324. -/
def accCode : Access → Nat
  | .read => 0
  | .write => 1
  | .rmw => 2
  | .fetch => 3

/-- TRAPDETAIL of a memory cause (R324); lane 255 for scalar, fetch and engine accesses. -/
def memDetail (lane : Nat) (acc : Access) (r : Reason) : Nat := r + 64 * accCode acc + 256 * lane

/-- The weak stores of a record into which another is merged: it waits for a bundle only where both do (R293, R327). -/
def mergeStores (a b : List Nat) : List Nat := if a.isEmpty || b.isEmpty then [] else a ++ b

/-- Record an imprecise cause against a flock: once per cause, with MORE for further ones (R327). `stores` names the weak
store that has waited and now faults (R293); it is empty for any other cause. -/
def addRecord (fl : Flock) (cause : Nat) (detail : Word) (addr : DWord) (age : Nat) (stores : List Nat) : Flock :=
  if fl.records.any (fun r => r.cause == cause) then
    { fl with records := fl.records.map (fun r =>
        if r.cause == cause then { r with more := min 255 (r.more + 1), stores := mergeStores r.stores stores } else r) }
  else
    { fl with records := fl.records ++
        [{ cause := cause, detail := detail, more := 0, addr := addr, age := age, stores := stores }] }

/-- A store of a flock that has retired does not take place: STOREFAULT is recorded (R292). -/
def recordStore (s : State) (uid fi lane va : Nat) (r : Reason) (stores : List Nat) : State :=
  onFlock s uid fi (fun fl =>
    addRecord fl 0x01 (BitVec.ofNat 32 (memDetail lane .write r)) (BitVec.ofNat 64 va) s.clock stores)

/-! ### Lines -/

def lineByte (d : Line) (i : Nat) : Byte := d.extractLsb' (8 * i) 8

/-- A line with one byte replaced. -/
def setLineByte (d : Line) (i : Nat) (b : Byte) : Line :=
  (d &&& ~~~((0xFF#1024) <<< (8 * i))) ||| ((b.setWidth 1024) <<< (8 * i))

/-- A line from its 128 bytes. -/
def lineOf (f : Nat → Byte) : Line :=
  (List.range 128).foldr (fun i d => (d <<< 8) ||| (f i).setWidth 1024) 0

/-- The line's bytes as they stand in the coherent memory, or at the peer. -/
def homeByte (s : State) (h : Nat) : Byte :=
  if peerKey ≤ h then cget 0 s.peerMem (h - peerKey) else cget 0 s.mem h

def homeLine (s : State) (l : Nat) : Line := lineOf (fun i => homeByte s (128 * l + i))

/-- Write the bytes of a line that the mask names. -/
def putLineBytes (s : State) (l : Nat) (m : BitVec 128) (d : Line) : State :=
  let put (base : Nat) (c : Cells Byte) : Cells Byte :=
    (List.range 128).foldl
      (fun c i => if m.getLsbD i then cset 0 c (128 * l + i - base) (lineByte d i) else c) c
  if peerKey ≤ 128 * l then { s with peerMem := put peerKey s.peerMem } else { s with mem := put 0 s.mem }

/-- The mark of an uncorrectable error leaves a line once one write covers its 128 bytes (R332). -/
def clearLost (s : State) (l : Nat) (m : BitVec 128) : State :=
  if m = BitVec.allOnes 128 then
    { s with lost := s.lost.filter (· != l), badFill := s.badFill.filter (· != l) }
  else s

/-! ### The stored form of a block (R263, R264) -/

/-- A metadata byte as R263 and R264 allow it for content that is not zero: raw, generic, or with COMP 10 float-aware;
a compressed form saves at least one of the 16 sectors. -/
def legalForm (b : Byte) (comp : BitVec 2) : Byte :=
  let form := b.extractLsb' 6 2
  if (form = 2 ∨ (form = 3 ∧ comp = 2)) ∧ b.extractLsb' 2 4 ≠ 15 then b &&& 0xFC else 0

/-! ### The shared-content L2: tags and entries (R252) -/

def l2At (s : State) (die : Nat) : L2 := (dieAt s die).l2

def putL2 (s : State) (die : Nat) (c : L2) : State := putDie s die { dieAt s die with l2 := c }

def tagOf (c : L2) (l : Nat) : Option L2Tag := c.tags.find? (fun t => t.line == l)

def entryOf (c : L2) (p : Nat × Nat × Nat) : Option L2Entry := c.entries.find? (fun e => e.pos == p)

def putEntry (c : L2) (e : L2Entry) : L2 :=
  { c with entries := c.entries.map (fun f => if f.pos == e.pos then e else f) }

def putTag (c : L2) (t : L2Tag) : L2 :=
  { c with tags := c.tags.map (fun u => if u.line == t.line then t else u) }

/-- What the home of a line still holds: while an L2 holds the line dirty, its content before that. -/
def storedLine (s : State) (l : Nat) : Line :=
  ((s.dies.findSome? (fun d => (tagOf d.l2 l).bind (fun t => if t.dirty then t.old else none))).getD (homeLine s l))

/-! ### The memory-side cache of a Mantle (R260) -/

/-- Bytes of the Mantle of a die that are left for the memory-side cache. -/
def mantleRoom (s : State) (d : Nat) : Nat :=
  0x40000000 - Config.fleeceRegion - (dieAt s d).carve * 0x4000000 - (s.ctxs.map (fun c => c.stage)).sum * 0x100000

/-- Bytes that a block takes in its stored form (R263). -/
def blockBytes (s : State) (b : Nat) : Nat :=
  let m := cget 0 s.cmeta b
  if m.extractLsb' 6 2 = 0 then 512 else if m.extractLsb' 6 2 = 1 then 0 else ((m.extractLsb' 2 4).toNat + 1) * 32

/-- The blocks that stay within a number of bytes, the first of the list first. -/
def keepBlocks (s : State) : Nat → List (Nat × Bool) → List (Nat × Bool)
  | _, [] => []
  | room, x :: r => if room < blockBytes s x.1 then [] else x :: keepBlocks s (room - blockBytes s x.1) r

/-- The cache within its room: the blocks used longest ago leave, a dirty one to HBM. -/
def mantleTrim (s : State) (d : Nat) : State :=
  putDie s d { dieAt s d with mantle := keepBlocks s (mantleRoom s d) (dieAt s d).mantle }

/-- A request to a NORMAL line's home: its block stands in the home die's cache. -/
def mantleTouch (s : State) (l : Nat) (dirty : Bool) : State :=
  if Config.hbmBytes ≤ 128 * l then s
  else
    let d := dieOfHome (128 * l)
    let b := l / 4
    let m := (dieAt s d).mantle
    let was := m.any (fun x => x.1 == b && x.2)
    mantleTrim (putDie s d { dieAt s d with mantle := (b, dirty || was) :: m.filter (fun x => x.1 != b) }) d

/-- A block is written to HBM, and leaves the cache with `drop`. -/
def mantleClean (s : State) (l : Nat) (drop : Bool) : State :=
  if Config.hbmBytes ≤ 128 * l then s
  else
    let d := dieOfHome (128 * l)
    let m := (dieAt s d).mantle
    putDie s d { dieAt s d with mantle := if drop then m.filter (fun x => x.1 != l / 4)
                                          else m.map (fun x => if x.1 == l / 4 then (x.1, false) else x) }

/-- A write-back of a line records its block's form, merged with what the homes of the other lines hold (R264). NEAR
memory and peers are not compressed. -/
def noteForm (s : State) (l : Nat) (comp : BitVec 2) : State :=
  let b := l / 4
  if Config.hbmBytes ≤ 128 * l then s
  else
    let form :=
      if comp = 0 then 0
      else if (List.range 4).all (fun k => (if 4 * b + k = l then homeLine s l else storedLine s (4 * b + k)) == 0)
      then 0x40#8
      else legalForm (Config.storedForm s.free b) comp
    mantleTouch { s with cmeta := cset 0 s.cmeta b form } l true

/-! ### The shared-content L2: contents (R253 to R259) -/

/-- An entry loses a reference; with none left and no pin it is free. -/
def unref (c : L2) (p : Nat × Nat × Nat) : L2 :=
  match entryOf c p with
  | none => c
  | some e =>
    if e.ref ≤ 1 && e.pins = 0 then { c with entries := c.entries.filter (fun f => f.pos != p) }
    else putEntry c { e with ref := e.ref - 1 }

/-- Invalidate a tag. -/
def dropTag (c : L2) (l : Nat) : L2 :=
  match tagOf c l with
  | none => c
  | some t =>
    let c1 := { c with tags := c.tags.filter (fun u => u.line != l) }
    match t.ent with
    | none => c1
    | some p => unref c1 p

/-- A tag leaves a die's L2; a dirty line is written back to its home first. -/
def evictTag (s : State) (die l : Nat) : State :=
  match tagOf (l2At s die) l with
  | none => s
  | some t =>
    let s1 := if t.dirty then noteForm s l t.comp else s
    putL2 s1 die (dropTag (l2At s1 die) l)

/-- The slice and set of a content (R253). -/
def setOf (data : Line) (dom : BitVec 8) : Nat × Nat :=
  let h := Nat.xor (crc32c ((List.range 128).map (lineByte data))).toNat (dom.toNat * 0x01010101)
  (h % 32, h / 32 % 1536)

/-- The victim of a full set: the unpinned entry with the lowest REF, the least recently used among equals (R257). -/
def victimOf (es : List L2Entry) : Option L2Entry :=
  (es.filter (fun e => e.pins = 0)).foldl (fun b e =>
    match b with
    | none => some e
    | some x => if e.ref < x.ref || (e.ref == x.ref && e.used < x.used) then some e else some x) none

/-- A way for a new content: a free one, or a victim's after its tags have left; none when every way is pinned. -/
def allocWay (s : State) (die : Nat) (sl st : Nat) : Option (Nat × State) :=
  let es := (l2At s die).entries.filter (fun e => e.pos.1 == sl && e.pos.2.1 == st)
  match (List.range 16).find? (fun w => es.all (fun e => e.pos.2.2 != w)) with
  | some w => some (w, s)
  | none =>
    match victimOf es with
    | none => none
    | some v =>
      let ls := ((l2At s die).tags.filter (fun t => t.ent == some v.pos)).map (fun t => t.line)
      some (v.pos.2.2, ls.foldl (fun u l => evictTag u die l) s)

/-- Point the tag of a line at an entry for the content: R255 and R253. False when nothing can be allocated; the
line then has no tag. -/
def placeContent (s : State) (die l : Nat) (data : Line) (dom : BitVec 8) : State × Bool :=
  let setEnt (u : State) (z : Bool) (p : Option (Nat × Nat × Nat)) : State :=
    let c := l2At u die
    putL2 u die { c with tags := c.tags.map (fun t => if t.line == l then { t with zero := z, ent := p } else t) }
  if data = 0 then (setEnt s true none, true)
  else
    let (sl, st) := setOf data dom
    let c := l2At s die
    let cand := c.entries.filter (fun e => e.pos.1 == sl && e.pos.2.1 == st && e.dom == dom && e.data == data)
    let open' := if dom = 0 then [] else cand.filter (fun e => e.ref < 255)
    match open' with
    | e :: es =>
      let b := es.foldl (fun b x => if x.pos.2.2 < b.pos.2.2 then x else b) e
      let u := putL2 s die (putEntry c { b with ref := b.ref + 1, used := s.nextUid })
      (setEnt u false (some b.pos), true)
    | [] =>
      match allocWay s die sl st with
      | none => (putL2 s die { c with tags := c.tags.filter (fun t => t.line != l) }, false)
      | some (w, s1) =>
        let c1 := l2At s1 die
        let refused := dom != 0 && !cand.isEmpty
        let e : L2Entry := { pos := (sl, st, w), data := data, dom := dom, ref := 1, pins := 0, used := s1.nextUid }
        let u := putL2 s1 die { c1 with entries := c1.entries ++ [e], satref := c1.satref + (if refused then 1 else 0) }
        (setEnt u false (some e.pos), true)

/-- The tag set of a line, among 32 slices of 2,048 sets (R252). -/
def tagSetOf (l : Nat) : Nat := Config.tagSet l % 65536

/-- Make room in the tag set of a line: 24 ways, the least recently used tag leaves (R257). -/
def tagRoom (s : State) (die l : Nat) : State :=
  let ts := (l2At s die).tags
  if ts.length < 24 then s
  else
    let set := ts.filter (fun t => tagSetOf t.line == tagSetOf l)
    if set.length < 24 then s
    else match set with
      | [] => s
      | t :: r => evictTag s die ((r.foldl (fun b x => if x.used < b.used then x else b) t).line)

/-- Install a line with a content (R381, R253, R255). -/
def l2Install (s : State) (die l : Nat) (data : Line) (dom : BitVec 8) (comp : BitVec 2) : State × Bool :=
  let s1 := tagRoom s die l
  let c := l2At s1 die
  let t : L2Tag := { line := l, dirty := false, zero := false, dom := dom, comp := comp, ent := none,
                     used := s1.nextUid, peer := peerKey ≤ 128 * l, old := none }
  placeContent (putL2 s1 die { c with tags := c.tags ++ [t] }) die l data dom

/-- An entry has been used (R257). -/
def useEntry (c : L2) (p : Option (Nat × Nat × Nat)) (n : Nat) : L2 :=
  match p.bind (entryOf c) with
  | none => c
  | some e => putEntry c { e with used := n }

/-- A dirty line of a die is written back to its home; it stays valid. -/
def l2Clean (s : State) (die l : Nat) : State :=
  match tagOf (l2At s die) l with
  | none => s
  | some t =>
    if t.dirty then noteForm (putL2 s die (putTag (l2At s die) { t with dirty := false, old := none })) l t.comp else s

/-- Another die is to hold the line: it stays dirty in no L2 (R261). -/
def l2Share (s : State) (die l : Nat) : State :=
  (List.range 4).foldl (fun u d => if d == die then u else l2Clean u d l) s

/-- Another die's L2 holds the line (R261). -/
def heldElsewhere (s : State) (die l : Nat) : Bool :=
  (List.range 4).any (fun d => d != die && (tagOf (l2At s d) l).isSome)

/-- The line is obtained through its home directory: from an L2 that holds it, or through the home's Mantle. -/
def fetchLine (s : State) (die l : Nat) : State :=
  if heldElsewhere s die l then l2Share s die l else mantleTouch s l false

/-- A use of the L2: the line is installed when it has no tag. -/
def l2Touch (s : State) (die l : Nat) (dom : BitVec 8) (comp : BitVec 2) : State :=
  let s := { s with nextUid := s.nextUid + 1 }
  match tagOf (l2At s die) l with
  | some t => putL2 s die (useEntry (putTag (l2At s die) { t with used := s.nextUid }) t.ent s.nextUid)
  | none => (l2Install (fetchLine s die l) die l (homeLine s l) dom comp).1

/-- The line leaves the L2s of the other dies (R261). -/
def l2Claim (s : State) (die l : Nat) : State :=
  (List.range 4).foldl (fun u d => if d == die then u else putL2 u d (dropTag (l2At u d) l)) s

/-- A content for a line of a die, whose tag names no entry; where none can be had the line's content goes to its home
(R257). -/
def placeOrSend (s : State) (die l : Nat) (new : Line) (t : L2Tag) : State :=
  let r := placeContent s die l new t.dom
  if r.2 then r.1 else noteForm r.1 l t.comp

/-- The effect on the tag of a line that a write leaves with the content `new` (R254 to R256); `old` is what its home
holds. -/
def l2Change (s : State) (die l : Nat) (new old : Line) : State :=
  match tagOf (l2At s die) l with
  | none => s
  | some t =>
    let t' := { t with dirty := true, used := s.nextUid, old := some old }
    let s := putL2 s die (useEntry (putTag (l2At s die) t') t.ent s.nextUid)
    match t.ent with
    | none => if new = 0 then s else placeOrSend s die l new t
    | some p =>
      match entryOf (l2At s die) p with
      | none => s
      | some e =>
        if e.data = new then s
        else if 1 < e.ref || e.pins != 0 then
          -- the tag leaves the entry before the new content is placed
          let c := putTag (l2At s die) { t' with ent := none }
          let c1 := { putEntry c { e with ref := e.ref - 1 } with unshr := c.unshr + 1 }
          placeOrSend (putL2 s die c1) die l new t
        else if new = 0 then placeOrSend (putL2 s die (unref (l2At s die) p)) die l 0 t
        else putL2 s die (putEntry (l2At s die) { e with data := new })

/-- A write through a die's L2 (R381): the bytes of the mask become the line's bytes. -/
def l2Write (s : State) (die l : Nat) (m : BitVec 128) (d : Line) (dom : BitVec 8) (comp : BitVec 2) : State :=
  if m = 0 then s
  else
    let old := storedLine s l
    let full := m == BitVec.allOnes 128
    let s0 := { s with nextUid := s.nextUid + 1 }
    let held := (tagOf (l2At s0 die) l).isSome
    let s1 := l2Claim (if held || full || heldElsewhere s0 die l then s0 else mantleTouch s0 l false) die l
    let s2 := if held || full then s1 else (l2Install s1 die l (homeLine s1 l) dom comp).1
    let s3 := clearLost (putLineBytes s2 l m d) l m
    match tagOf (l2At s3 die) l with
    | some _ => l2Change s3 die l (homeLine s3 l) old
    | none =>
      if full then
        let (s4, ok) := l2Install s3 die l d dom comp
        if ok then l2Change s4 die l d old else noteForm s4 l comp
      else noteForm s3 l comp

/-- A write performed at the home: atomics, applications, host RDMA, peers (R381). No L2 keeps the line. -/
def homeWrite (s : State) (l : Nat) (m : BitVec 128) (d : Line) (comp : BitVec 2) : State :=
  if m = 0 then s
  else
    let s1 := (List.range 4).foldl (fun u k => putL2 u k (dropTag (l2At u k) l)) s
    noteForm (clearLost (putLineBytes s1 l m d) l m) l comp

/-- One byte written at its home. -/
def homeWriteByte (s : State) (h : Nat) (b : Byte) (comp : BitVec 2) : State :=
  homeWrite s (h / 128) (BitVec.twoPow 128 (h % 128)) ((b.setWidth 1024) <<< (8 * (h % 128))) comp

/-- The counters of R259: TAGV, TAGZ, DATAV, DATASH, REFSH, SATREF, UNSHR. -/
def l2Counters (c : L2) : List Nat :=
  let sh := c.entries.filter (fun e => 2 ≤ e.ref)
  [c.tags.length, (c.tags.filter (fun t => t.zero)).length, c.entries.length, sh.length,
   (sh.map (fun e => e.ref)).sum, c.satref, c.unshr]

/-- All PEER lines of a die's L2 are dropped (R266). -/
def dropPeer (s : State) (die : Nat) : State :=
  let ls := ((l2At s die).tags.filter (fun t => t.peer)).map (fun t => t.line)
  putL2 s die (ls.foldl dropTag (l2At s die))

/-! ### L1 (R251) -/

def dieOfCore (k : Nat) : Nat := k / Config.coresPerDie

def l1Find (s : State) (k l : Nat) : Option L1Line := (coreAt s k).l1.find? (fun x => x.line == l)

def l1Put (s : State) (k : Nat) (x : L1Line) : State :=
  let c := coreAt s k
  putCore s k { c with l1 := if c.l1.any (fun y => y.line == x.line)
                              then c.l1.map (fun y => if y.line == x.line then x else y) else c.l1 ++ [x] }

def l1Del (s : State) (k l : Nat) : State :=
  let c := coreAt s k
  putCore s k { c with l1 := c.l1.filter (fun y => y.line != l) }

/-- The stores whose bytes a line holds dirty, each flock once, lowest lane first. -/
def lineOwners (x : L1Line) : List ByteOwner :=
  (x.own.map (fun y => (y.2.fold, y.2.flock))).dedup.filterMap (fun q =>
    (x.own.filter (fun y => (y.2.fold, y.2.flock) == q)).foldl (fun b y => match b with
      | none => some y.2
      | some z => if y.2.lane < z.lane then some y.2 else some z) none)

/-- The home of a line refuses the write-back of its dirty bytes: the weak stores that they come from fault, and the
line leaves the L1 (R374). -/
def l1Refused (s : State) (k : Nat) (x : L1Line) : State :=
  (lineOwners x).foldl (fun u o => recordStore u o.fold o.flock o.lane o.va rOffline [])
    (l1Del (countOffline s (128 * x.line) k) k x.line)

/-- The dirty bytes of a line go to the L2. -/
def l1Clean (s : State) (k l : Nat) : State :=
  match l1Find s k l with
  | none => s
  | some x =>
    if x.dirty = 0 then s
    else if homeOffline s (128 * l) then l1Refused s k x
    else l2Write (l1Put s k { x with dirty := 0, own := [] }) (dieOfCore k) l x.dirty x.data x.dom x.comp

/-- Write a line back and invalidate it. -/
def l1Evict (s : State) (k l : Nat) : State := l1Del (l1Clean s k l) k l

/-- Every dirty line of a core goes to the L2. -/
def l1CleanAll (s : State) (k : Nat) : State :=
  ((coreAt s k).l1.map (fun x => x.line)).foldl (fun u l => l1Clean u k l) s

/-- Every line is written back and invalidated. -/
def l1Drop (s : State) (k : Nat) : State :=
  ((coreAt s k).l1.map (fun x => x.line)).foldl (fun u l => l1Evict u k l) s

/-- Room for one more line among the 2,048: the first of the list leaves, which is one that HINT names for early
eviction, or else the line filled longest ago (log entry 44). -/
def l1Room (s : State) (k : Nat) : State :=
  match (coreAt s k).l1 with
  | [] => s
  | x :: r => if r.length < 2047 then s else l1Evict s k x.line

/-- A new line of the L1; one that is to leave first stands first. -/
def l1New (s : State) (k : Nat) (early : Bool) (x : L1Line) : State :=
  let s1 := l1Room s k
  let c := coreAt s1 k
  putCore s1 k { c with l1 := if early then x :: c.l1 else c.l1 ++ [x] }

/-- The whole line stands in the L1; dirty bytes keep their values. -/
def l1Fill (s : State) (k l : Nat) (early : Bool) (dom : BitVec 8) (comp : BitVec 2) : State :=
  match l1Find s k l with
  | some x =>
    if x.full then s
    else
      let s1 := l2Touch s (dieOfCore k) l dom comp
      let h := homeLine s1 l
      l1Put s1 k { x with full := true, data := lineOf (fun i => if x.dirty.getLsbD i then lineByte x.data i else lineByte h i) }
  | none =>
    let s1 := l2Touch s (dieOfCore k) l dom comp
    l1New s1 k early { line := l, data := homeLine s1 l, dirty := 0, full := true, dom := dom, comp := comp, own := [] }

/-- A weak store of one byte: it stands dirty in the L1, under its writer's translation (R381). -/
def l1WriteByte (s : State) (k h : Nat) (early : Bool) (b : Byte) (dom : BitVec 8) (comp : BitVec 2) (o : ByteOwner) :
    State :=
  let l := h / 128
  let i := h % 128
  let put (x : L1Line) : L1Line :=
    { x with dirty := x.dirty ||| BitVec.twoPow 128 i, data := setLineByte x.data i b, dom := dom, comp := comp,
             own := x.own.filter (fun y => y.1 != i) ++ [(i, o)] }
  match l1Find s k l with
  | some x => l1Put s k (put x)
  | none =>
    l1New s k early (put { line := l, data := 0, dirty := 0, full := false, dom := dom, comp := comp, own := [] })

/-- The byte as a weak load of the core reads it: its own L1's copy, or the coherent byte. -/
def l1Byte (s : State) (k h : Nat) : Byte :=
  match l1Find s k (h / 128) with
  | some x => if x.full || x.dirty.getLsbD (h % 128) then lineByte x.data (h % 128) else homeByte s h
  | none => homeByte s h

/-- The nearest level of memory that holds a byte for a core, in the code of R351: for an access past the L1 with
`wide`. -/
def levelOf (s : State) (k : Nat) (wide : Bool) (h : Nat) : Nat :=
  let l := h / 128
  let die := dieOfCore k
  if !wide && (l1Find s k l).any (fun x => x.full || x.dirty.getLsbD (h % 128)) then 1
  else if (tagOf (l2At s die) l).isSome then 3
  else if peerKey ≤ h then 7
  else if heldElsewhere s die l then 4
  else if Config.hbmBytes ≤ h || (dieAt s (dieOfHome h)).mantle.any (fun x => x.1 == l / 4) then 5
  else 6

/-- The issuing bundle has reached a level. -/
def noteLevel (s : State) (n : Nat) : State :=
  { s with cur := { s.cur with levels := if s.cur.levels.contains n then s.cur.levels else s.cur.levels ++ [n] } }

/-- The byte of a PEER line as the die's L2 holds it, or the peer's. -/
def peerByteAt (s : State) (die h : Nat) : Byte :=
  match tagOf (l2At s die) (h / 128) with
  | some t =>
    (match t.ent.bind (entryOf (l2At s die)) with
     | some e => lineByte e.data (h % 128)
     | none => 0)
  | none => homeByte s h

/-- A write of the die to bytes of PEER memory, and the drop of its cached line (R266). -/
def peerWrite (s : State) (die h : Nat) (b : Byte) : State :=
  let s1 := putL2 s die (dropTag (l2At s die) (h / 128))
  { s1 with peerMem := cset 0 s1.peerMem (h - peerKey) b }

/-! ### Uncorrectable lines (R332) -/

/-- A read of the line by a core finds an uncorrectable error: the line is lost, or it is filled from where the
error stands. -/
def coreUncorr (s : State) (k l : Nat) : Bool :=
  s.lost.contains l
    || (s.badFill.contains l && (tagOf (l2At s (dieOfCore k)) l).isNone
          && (match l1Find s k l with
              | some x => !x.full
              | none => true))

/-- The same for a reader at the L2 of a die. -/
def dieUncorr (s : State) (die l : Nat) : Bool :=
  s.lost.contains l || (s.badFill.contains l && (tagOf (l2At s die) l).isNone)

/-! ### Translation (R267 to R271) -/

/-- The home of a table's entry: placed by WIN 00, or in a carve-out (R267). -/
def tableHome (s : State) (a : Nat) : Option Nat :=
  if a < Config.hbmBytes then homeNormal 0 a else homeNear s a

/-- An entry of a table, 8 bytes little-endian. -/
def readEntry (s : State) (a : Nat) : Except Reason DWord :=
  match tableHome s a with
  | none => .error rBadFrame
  | some h =>
    if homeOffline s h then .error rOffline
    else if s.lost.contains (h / 128) || s.badFill.contains (h / 128) then .error rUncorr
    else .ok (BitVec.ofNat 64 (leNat (cgetList 0 s.mem h 8)))

/-- The bytes of a page mapped at a level, the index of an entry, and the alignment of the next table (R267). -/
def levelPage (n : Nat) : Nat := if n = 1 then 0x40000000 else if n = 2 then 0x200000 else 0x10000
def levelIndex (n va : Nat) : Nat :=
  if n = 0 then va / 2 ^ 39 % 8192 else if n = 1 then va / 2 ^ 30 % 512 else if n = 2 then va / 2 ^ 21 % 512
  else va / 2 ^ 16 % 32
def nextAlign (n : Nat) : Nat := if n = 2 then 256 else 4096

def bitsOf (e : DWord) (lo n : Nat) : Nat := e.toNat / 2 ^ lo % 2 ^ n

/-- A leaf at a level, or BADPTE. COMP = 11 is reserved in a NEAR leaf too (log entry 35). -/
def leafOf (n : Nat) (e : DWord) : Except Reason Leaf :=
  let mt := bitsOf e 6 2
  let win := bitsOf e 54 2
  let comp := bitsOf e 52 2
  let dom := bitsOf e 56 8
  let size := levelPage n
  let frame := bitsOf e 16 36 * 0x10000
  if n = 0 || bitsOf e 8 8 != 0 || bitsOf e 2 2 != 0 || mt = 3 || win = 3 || comp = 3 || frame % size != 0
      || (mt = 2 && (win != 0 || comp != 0 || dom != 0)) || (mt = 1 && win != 0) then .error rBadPte
  else .ok { dom := BitVec.ofNat 8 dom, win := BitVec.ofNat 2 win, comp := BitVec.ofNat 2 comp, frame := frame,
             size := size, mt := BitVec.ofNat 2 mt, x := bitsOf e 5 1 = 1, w := bitsOf e 4 1 = 1 }

/-- The walk from a level down (R269): `left` levels remain. -/
def walkFrom (s : State) (va : Nat) : Nat → Nat → Nat → Except Reason Leaf
  | 0, _, _ => .error rBadPte
  | left + 1, n, table =>
    match readEntry s (table + 8 * levelIndex n va) with
    | .error r => .error r
    | .ok e =>
      if bitsOf e 0 1 = 0 then .error rNotValid
      else if bitsOf e 1 1 = 1 then leafOf n e
      else
        let next := bitsOf e 8 44 * 256
        if n = 3 || bitsOf e 52 12 != 0 || bitsOf e 2 6 != 0 || next % nextAlign n != 0 then .error rBadPte
        else walkFrom s va left (n + 1) next

/-- The walk of an address. -/
def walk (s : State) (root va : Nat) : Except Reason Leaf := walkFrom s va 4 0 root

/-- The entry of a TLB for an address of a context. -/
def tlbFind (ts : List TlbEntry) (ctx va : Nat) : Option TlbEntry :=
  ts.find? (fun t => t.ctx == ctx && t.page / t.leaf.size == va / t.leaf.size)

/-- The translation that a unit uses (R270, R271): of its core's L1 TLB, of the die's L2 TLB, or of a walk. A unit
outside the cores walks. -/
def leafAt (s : State) (k : Option Nat) (ctx root va : Nat) : Except Reason Leaf :=
  match k.bind (fun k => (tlbFind (coreAt s k).tlb ctx va).or (tlbFind (dieAt s (dieOfCore k)).tlb ctx va)) with
  | some t => .ok t.leaf
  | none => walk s root va

/-- The access has the permission it needs (R268). -/
def permitted (lf : Leaf) : Access → Bool
  | .read => true
  | .write => lf.w
  | .rmw => lf.w
  | .fetch => lf.x

/-- The home of an address for an access, with the leaf; BADFRAME comes before PERM (R269). -/
def translate (s : State) (k : Option Nat) (ctx root : Nat) (acc : Access) (va : Nat) : Except Reason (Nat × Leaf) :=
  if 2 ^ 52 ≤ va then .error rAddress
  else match leafAt s k ctx root va with
    | .error r => .error r
    | .ok lf =>
      match homeOf s lf (lf.frame + va % lf.size) with
      | none => .error rBadFrame
      | some h => if permitted lf acc then .ok (h, lf) else .error rPerm

/-- The CPC may resolve the reason (R269). -/
def resolvable (r : Reason) : Bool := r == rNotValid || r == rPerm

/-! ### The local-store aperture (R246, R247) -/

/-- The offset from LSAP of an address in the aperture. -/
def apertureOff (c : Context) (va : Nat) : Option Nat :=
  let d := (va + 2 ^ 64 - c.lsap.toNat) % 2 ^ 64
  if d < 0x900000 then some d else none

/-- The fold and offset that an aperture offset reaches, for an access of `n` bytes; none beyond the target. -/
def apertureSpot (s : State) (f : Fold) (l : Launch) (d n : Nat) : Option (Nat × Nat) :=
  let k := d / 0x100000
  let off := d % 0x100000
  if l.lsBytes < off + n then none
  else if k = 0 then some (f.uid, off)
  else if l.drove ≤ k - 1 then none
  else (rankFold s f (k - 1)).map (fun g => (g.uid, off))

/-! ### Where a byte of an access lies -/

inductive Spot where
  | ls (fold off : Nat)
  | mem (h : Nat) (leaf : Leaf)
  deriving DecidableEq, Repr

/-- Why an access of a lane cannot be made. -/
inductive Bad where
  | range
  | reason (r : Reason)
  deriving DecidableEq, Repr

/-- Where an access of `n` bytes of a fold's flock lies. -/
def locate (s : State) (f : Fold) (l : Launch) (c : Context) (acc : Access) (va n : Nat) : Except Bad Spot :=
  match apertureOff c va with
  | some d =>
    (match apertureSpot s f l d n with
     | some (u, off) => .ok (.ls u off)
     | none => .error .range)
  | none =>
    match translate s (some f.core) c.id c.ptroot.toNat acc va with
    | .error r => .error (.reason r)
    | .ok (h, lf) => if homeOffline s h then .error (.reason rOffline) else .ok (.mem h lf)

/-- What a flock meets at an access that cannot be made (R186, R331): LSRANGE, a replayable fault, or MEMFAULT. -/
def badRes {α : Type} (fl : Flock) (acc : Access) (va lane : Nat) : Bad → Res α
  | .range => .trap (plainTrap 0x18 lane)
  | .reason r =>
    if resolvable r && !fl.verdicts.contains (pageBase va, r) then
      .page { page := pageBase va, reason := r, acc := acc }
    else .trap { cause := 0x1E, detail := memDetail lane acc r, addr := BitVec.ofNat 64 va }

/-! ### Local stores -/

def lsByte (s : State) (u off : Nat) : Byte :=
  match foldAt s u with
  | none => 0
  | some f => cget 0 f.ls off

/-- A byte written in a local store. -/
def lsWrite (s : State) (u off : Nat) (b : Byte) : State :=
  match foldAt s u with
  | none => s
  | some f => putFold s { f with ls := cset 0 f.ls off b }

def lsBytes (s : State) (u off n : Nat) : List Byte :=
  match foldAt s u with
  | none => List.replicate n 0
  | some f => cgetList 0 f.ls off n

/-- Consecutive bytes written in a local store; a word wholly written loses its error mark (R332). -/
def lsWriteList (s : State) (u off : Nat) (bs : List Byte) : State :=
  match foldAt s u with
  | none => s
  | some f =>
    putFold s { f with ls := csetList 0 f.ls off bs,
                       lsMarks := f.lsMarks.filter (fun w => !(off ≤ 4 * w && 4 * w + 4 ≤ off + bs.length)) }

end Sys2Proof.Machine
end

