-- ==== Sys2Proof/Machine/Paths.lean ====
section
/-! DEFINITION. The pending-path stack with its spill area (R40, R42). -/

namespace Sys2Proof.Machine

/-- The address of entry `i`, counted from the oldest, in the flock's spill area. -/
def spillAddr (c : Context) (f : Fold) (fl : Flock) (i : Nat) : Nat :=
  let j := ((List.range f.die).filter (fun d => f.dieMask.getLsbD d)).length
  (c.spill.toNat + 3584 * (2560 * j + 64 * (f.core % Config.coresPerDie) + fl.slot) + 16 * i) % 2 ^ 64

/-- The context of a fold. -/
def ctxOf (s : State) (f : Fold) : Option Context := (launchAt s f.launch).bind (fun l => ctxAt s l.ctx)

/-- The bytes of a path entry: address, then mask. -/
def entryBytes (x : PathEntry) : List Byte := leBytes 8 x.pc.toNat ++ leBytes 8 x.mask.toNat

/-- The home of the table entry at which a walk meets HOME_OFFLINE. -/
def walkStop (s : State) (va : Nat) : Nat → Nat → Nat → Option Nat
  | 0, _, _ => none
  | left + 1, n, table =>
    let a := table + 8 * levelIndex n va
    match readEntry s a with
    | .error _ => tableHome s a
    | .ok e => if bitsOf e 1 1 = 1 then none else walkStop s va left (n + 1) (bitsOf e 8 44 * 256)

/-- The home at which an access meets HOME_OFFLINE: a table's, or its own. -/
def offlineHome (s : State) (core : Option Nat) (c : Context) (va : Nat) : Option Nat :=
  match leafAt s core c.id c.ptroot.toNat va with
  | .ok lf => homeOf s lf (lf.frame + va % lf.size)
  | .error _ => walkStop s va 4 0 c.ptroot.toNat

/-- An access of a core at an address has met a reason: a HOME_OFFLINE reply is counted (R374). -/
def noteReason (s : State) (c : Context) (core va : Nat) (r : Reason) : State :=
  if r = rOffline then
    match offlineHome s (some core) c va with
    | some h => countOffline s h core
    | none => s
  else s

/-- Count the HOME_OFFLINE reply that a trap reports (R374). -/
def noteOffline (s : State) (c : Context) (core : Nat) (t : TrapInfo) : State :=
  if t.cause = 0x1E then noteReason s c core t.addr.toNat (t.detail % 16) else s

/-- An access of a flock to an entry of its spill area, 16 aligned bytes: where it lies, or the reason for which it
cannot be made. -/
def spillAccess (s : State) (f : Fold) (l : Launch) (c : Context) (acc : Access) (va : Nat) : Except Reason Spot :=
  match locate s f l c acc va 16 with
  | .error .range => .error rAperture
  | .error (.reason r) => .error r
  | .ok (.mem h lf) =>
    if acc = .read && h < peerKey && (s.lost.contains (h / 128) || s.badFill.contains (h / 128)) then .error rUncorr
    else .ok (.mem h lf)
  | .ok (.ls u off) => .ok (.ls u off)

/-- Write bytes of one line through a die's L2; PEER memory takes them at the peer (R266). -/
def l2WriteBytes (s : State) (die h : Nat) (bs : List Byte) (lf : Leaf) : State :=
  if peerKey ≤ h then ((List.range bs.length).zip bs).foldl (fun u x => peerWrite u die (h + x.1) x.2) s
  else
    let o := h % 128
    let m := (List.range bs.length).foldl (fun m i => m ||| BitVec.twoPow 128 (o + i)) (0#128)
    l2Write s die (h / 128) m (BitVec.ofNat 1024 (leNat bs * 2 ^ (8 * o))) lf.dom lf.comp

/-- Write an entry to its place in the spill area. -/
def spillWrite (s : State) (die : Nat) (x : PathEntry) : Spot → State
  | .ls u off => lsWriteList s u off (entryBytes x)
  | .mem h lf => l2WriteBytes s die h (entryBytes x) lf

/-- Push entries, first to last, onto the stack of a flock; where 32 stand in hardware, the oldest of them goes to the
spill area (R40). -/
def pushPaths (s : State) (e : Env) (fl : Flock) : List PathEntry → Res (State × Flock)
  | [] => .ok (s, fl)
  | x :: r =>
    let fl' := { fl with stack := x :: fl.stack }
    if fl.hw < 32 then pushPaths s e { fl' with hw := fl.hw + 1 } r
    else
      let va := spillAddr e.ctx e.fold fl (fl.stack.length - 32)
      match spillAccess s e.fold e.launch e.ctx .write va, fl'.stack[32]? with
      | .error q, _ =>
        if resolvable q && !fl.verdicts.contains (pageBase va, q) then
          .page { page := pageBase va, reason := q, acc := .write }
        else if resolvable q then .trap { cause := 0x1E, detail := memDetail 255 .write q, addr := BitVec.ofNat 64 va }
        else .ok (failFold (noteReason s e.ctx e.fold.core va q) e.fold.uid 0x302, stopFlock fl)
      | .ok _, none => pushPaths s e fl' r
      | .ok sp, some old => pushPaths (spillWrite s e.fold.die old sp) e fl' r

/-- What the reads that refill the hardware entries meet. -/
inductive Refill where
  /-- The hardware holds the top of the stack. -/
  | done (hw : Nat)
  /-- A replayable fault, which stalls the flock. -/
  | page (hw : Nat) (p : PageFault)
  /-- A fault that has been declared unresolvable: the access takes MEMFAULT (R331). -/
  | dead (hw : Nat) (va : Nat) (r : Reason)
  /-- Another fault: the fold fails with code 0x302. -/
  | fail (va : Nat) (r : Reason)

/-- Read entries of the spill area until the top 32 entries, or all, stand in hardware; `n` bounds the reads. -/
def refillReads (s : State) (f : Fold) (l : Launch) (c : Context) (fl : Flock) : Nat → Nat → Refill
  | 0, hw => .done hw
  | n + 1, hw =>
    if 32 ≤ hw || fl.stack.length ≤ hw then .done hw
    else
      let va := spillAddr c f fl (fl.stack.length - 1 - hw)
      match spillAccess s f l c .read va with
      | .ok _ => refillReads s f l c fl n (hw + 1)
      | .error q =>
        if !resolvable q then .fail va q
        else if fl.verdicts.contains (pageBase va, q) then .dead hw va q
        else .page hw { page := pageBase va, reason := q, acc := .read }

/-- Refill the hardware entries of a flock. Answers the address and REASON of a MEMFAULT that its next bundle takes. -/
def refill (s : State) (uid fi : Nat) : State × Option (Nat × Reason) :=
  match foldAt s uid with
  | none => (s, none)
  | some f =>
    match flockAt f fi, launchAt s f.launch, ctxOf s f with
    | some fl, some l, some c =>
      (match refillReads s f l c fl 32 fl.hw with
       | .done hw => (onFlock s uid fi (fun x => { x with hw := hw }), none)
       | .page hw p =>
         let (id, s1) := reportFault s c.id p
         (onFlock s1 uid fi (fun x => { x with hw := hw, stall := some id }), none)
       | .dead hw va r => (onFlock s uid fi (fun x => { x with hw := hw }), some (va, r))
       | .fail va r => (failFold (noteReason s c f.core va r) uid 0x302, none))
    | _, _, _ => (s, none)

/-- Splits with an empty mask end, and entries of the stack become live splits while fewer than four live (R42, R43): those
that stand in hardware, and those that a refill then brings there, since spilling changes nothing that a program sees (R40).
Answers as `refill` does. -/
def refillPop (s : State) (uid fi : Nat) : State × Option (Nat × Reason) :=
  match refill (onFlock s uid fi tidySplits) uid fi with
  | (t, none) => refill (onFlock t uid fi tidySplits) uid fi
  | (t, some x) => (t, some x)

/-- R42 and R43 apply to a flock; a fault of a refill that stands is met at its next bundle. -/
def tidyFlock (s : State) (uid fi : Nat) : State :=
  match (foldAt s uid).bind (fun f => flockAt f fi) with
  | none => s
  | some _ => (refillPop s uid fi).1

end Sys2Proof.Machine
end

