-- ==== Sys2Proof/Machine/Clause.lean ====
section
/-! DEFINITION. The start of a clause: which splits may issue, merging, delivery of imprecise and asynchronous causes,
instruction fetch, safe points and halts, the clause header (R41, R91, R326, R327, R339 to R345). -/

namespace Sys2Proof.Machine

/-! ### Which splits may issue -/

/-- The phases that the barrier object at an offset of a fold's local store has completed since phase `p` (R240). -/
def phasesSince (s : State) (u off : Nat) (p : Word) : Nat := (BitVec.ofNat 32 (leNat (lsBytes s u (off + 8) 4)) - p).toNat

/-- The number that eight bytes hold for a flock that reads them as MWAIT does. -/
def seenNat (s : State) (uid : Nat) (fl : Flock) (u : Option Nat) (a : Nat) (wide : Bool) : Nat :=
  match u, foldAt s uid with
  | some v, _ => leNat (lsBytes s v a 8)
  | none, some f =>
    leNat ((List.range 8).map (fun i =>
      ownByte fl (a + i) (if wide || peerKey ≤ a then homeByte s (a + i) else l1Byte s f.core (a + i))))
  | none, none => 0

/-- A reading of those eight bytes would fail: the location answers with an error, or its line or word holds one (R332,
R374). -/
def seenBad (s : State) (u : Option Nat) (a : Nat) : Bool :=
  match u with
  | some v => (foldAt s v).any (fun f => f.lsMarks.any (fun w => a < 4 * w + 4 && 4 * w < a + 8))
  | none => homeOffline s a || s.lost.contains (a / 128) || s.badFill.contains (a / 128)

/-- The flock stands in the active set of its quadrant (R45). -/
def inActiveSet (s : State) (f : Fold) (fi : Nat) (fl : Flock) : Bool :=
  match (coreAt s f.core).quads[fl.quad]? with
  | none => false
  | some q => q.active.contains (f.uid, fi)

/-- The flock may issue: its fold is resident and has not failed, nothing holds the whole flock, and the 8 clk of its
entry into the active set have passed (R46). -/
def flockRuns (s : State) (f : Fold) (fi : Nat) (fl : Flock) : Bool :=
  f.place == .core && f.fail.isNone && fl.stall.isNone && !fl.stopped && inActiveSet s f fi fl && fl.fromClk ≤ s.clock

/-! ### Faults of weak stores (R292, R293, R327) -/

/-- The record is of a weak store on the path of the split. -/
def onPath (r : ImpRecord) (sp : Split) : Bool := r.stores.any (fun i => sp.path.contains i)

/-- A release half in force that covers a weak store of the record. -/
def covering (fl : Flock) (r : ImpRecord) : List FenceRec :=
  fl.fences.filter (fun f => f.rel && r.stores.any (fun i => f.relOn.contains i))

/-- The split waits at a release point that the record's store comes before, or at a bundle that a fence holds which covers
the store: held itself, or through the fence's flag (log entry 40). -/
def heldFor (fl : Flock) (r : ImpRecord) (sp : Split) : Bool :=
  onPath r sp && (match sp.wait with
    | .release => true
    | .flag m _ => (covering fl r).any (fun f => f.flag.any (fun c => m.getLsbD c.toNat))
    | .full c => (covering fl r).any (fun f => f.flag == some c)
    | _ => false)

/-- The record is delivered at the split's next bundle: at any, unless a release waits for its store; then at the release
bundle, or at the first bundle that the fence holds (R293). -/
def deliverable (fl : Flock) (r : ImpRecord) (sp : Split) : Bool :=
  heldFor fl r sp || (!fl.splits.any (heldFor fl r) && (covering fl r).isEmpty)

/-- The first record that is delivered at the split's next bundle, and those that stay. -/
def takeRecord (fl : Flock) (sp : Split) : List ImpRecord → Option (ImpRecord × List ImpRecord)
  | [] => none
  | r :: rest => if deliverable fl r sp then some (r, rest) else (takeRecord fl sp rest).map (fun x => (x.1, r :: x.2))

/-- A weak store on the split's path waits on a fault (R293). -/
def pathWaits (fl : Flock) (sp : Split) : Bool := fl.stores.any (fun p => p.waitFault.isSome && sp.path.contains p.id)

/-! ### The queues of the engines (R296, R297) -/

/-- The command belongs to the copy engine. -/
def isCopy (c : Cmd) : Bool :=
  match c.instr with
  | .copy _ => true
  | _ => false

/-- Commands that wait in a queue: not yet started. -/
def queued (cs : List Cmd) (copy : Bool) : Nat := (cs.filter (fun c => isCopy c == copy && !c.started)).length

/-- A queue with a free slot, and a free scoreboard entry. -/
def hasRoom (s : State) (k : Nat) (copy : Bool) : Bool :=
  let cs := (coreAt s k).cmds
  queued cs copy < (if copy then 48 else 16) && cs.length < 64

/-- The pair of a flock and its split `i` may be given an issue opportunity. In handler state only the handler may, in the
trapping split's place (R328). -/
def pairDue (fl : Flock) (i : Nat) : Bool :=
  match fl.handler with
  | some h => h.index == i
  | none =>
    match fl.splits[i]? with
    | none => false
    | some sp => !sp.halted

/-- A requester of a core has a command ready for a queue that has room: a quadrant with a split in its active set that
waits for it, or, as requester 4, the CPC with a copy that it has placed there (R297, R362). -/
def wantsEngine (s : State) (k r : Nat) : Bool :=
  if r = 4 then
    hasRoom s k true && s.ctxs.any (fun c => c.queue.any (fun x => x.placed == some k && !x.started))
  else match (coreAt s k).quads[r]? with
  | none => false
  | some x => x.active.any (fun y => match foldAt s y.1 with
      | none => false
      | some f =>
        match flockAt f y.2 with
        | none => false
        | some fl =>
          !f.preempt && flockRuns s f y.2 fl && (List.range 4).any (fun i => pairDue fl i && (match fl.splits[i]? with
            | some sp => sp.wait == .engineq true && hasRoom s k true || sp.wait == .engineq false && hasRoom s k false
            | none => false)))

/-- Acceptance goes round-robin over the quadrants and, as requester 4, the CPC, from the one accepted last (R297). -/
def engineTurn (s : State) (k q : Nat) : Bool :=
  let ahead (r : Nat) : Nat := (r + 9 - (coreAt s k).turn) % 5
  (List.range 5).all (fun r => !(ahead r < ahead q && wantsEngine s k r))

/-! ### Ready pairs (R44) -/

/-- The condition that a split of the flock waits for holds. What INTERLOCK stands for is tested at an issue opportunity. -/
def waitOver (s : State) (uid : Nat) (fl : Flock) (sp : Split) : Bool :=
  match sp.wait with
  | .none => true
  | .flag m n => flagsAtMost fl m n
  | .full c => cget 0 fl.c c.toNat < 63
  | .batch le n => !batchWaits fl le n
  | .cpyb => batchesOut fl < 256
  | .barrier u off p => 0 < phasesSince s u off p && phasesSince s u off p ≤ 2 ^ 31
  | .mwait u a wide n => n ≤ seenNat s uid fl u a wide || seenBad s u a
  | .lwait p => !lwaitHolds s uid p
  | .engineq copy =>
    (foldAt s uid).any (fun f => !f.preempt && hasRoom s f.core copy && engineTurn s f.core fl.quad)
  | .interlock => true
  | .release => !pathWaits fl sp

/-- The split can go on: its wait is over, or a fault is to be delivered at the bundle where it waits. -/
def canGoOn (s : State) (uid : Nat) (fl : Flock) (sp : Split) : Bool :=
  waitOver s uid fl sp || fl.records.any (fun r => heldFor fl r sp)

/-- The pair waits on nothing. -/
def pairReady (s : State) (uid : Nat) (fl : Flock) (i : Nat) : Bool :=
  pairDue fl i && (match fl.handler with
    | some h => waitOver s uid fl h.sp
    | none => (fl.splits[i]?).any (canGoOn s uid fl))

/-- The place of a split of a flock in the round-robin of its quadrant (R44). -/
def rrPlace (fl : Flock) (i : Nat) : Nat := fl.slot % 16 * 4 + i

/-- No ready pair of the quadrant comes before the flock's split `i` in the round-robin (R44). -/
def turnComes (s : State) (f : Fold) (fl : Flock) (i : Nat) : Bool :=
  match (coreAt s f.core).quads[fl.quad]? with
  | none => true
  | some q =>
    let ahead (n : Nat) : Nat := (n + 64 - q.turn % 64) % 64
    q.active.all (fun x => match foldAt s x.1 with
      | none => true
      | some g =>
        match flockAt g x.2 with
        | none => true
        | some gl =>
          !flockRuns s g x.2 gl
            || (List.range 4).all (fun j => !(ahead (rrPlace gl j) < ahead (rrPlace fl i) && pairReady s x.1 gl j)))

/-- The split of a reference may issue, and it is its turn. -/
def mayIssue (s : State) (r : SplitRef) : Bool :=
  match foldAt s r.fold with
  | none => false
  | some f =>
    match flockAt f r.flock with
    | none => false
    | some fl => flockRuns s f r.flock fl && pairDue fl r.split && turnComes s f fl r.split

/-- The split, or the handler in its place, that a reference names. -/
def splitOf (s : State) (r : SplitRef) : Option Split := do
  let f ← foldAt s r.fold
  let fl ← flockAt f r.flock
  match fl.handler with
  | some h => some h.sp
  | none => fl.splits[r.split]?

/-! ### Merging (R41) -/

/-- Two splits that stand at one address without having started a clause there. -/
def mergeable (a b : Split) : Bool := !a.inside && !b.inside && a.pc == b.pc && !a.halted && !b.halted

/-- The merged split carries both paths (R273). Where only one of the two skips the head half, and where both have a BRK
pending, it goes on as the first does. In a STEP, a split that has halted at the head does not halt there again for one that
joins it; otherwise the safe point holds for the one that joins (log entry 45). -/
def mergeSplit (a b : Split) : Split :=
  { a with mask := a.mask ||| b.mask, path := a.path ++ b.path, stepping := a.stepping || b.stepping,
           pass := if a.stepping || b.stepping then a.pass || b.pass else a.pass && b.pass,
           issued := max a.issued b.issued,
           brk := (match a.brk with
                   | some n => some n
                   | none => b.brk) }

/-- Merge every split that stands with split `i`: the place of the merged split, and the flock. -/
def mergeAt (fl : Flock) (i : Nat) : Nat × Flock :=
  match fl.splits[i]? with
  | none => (i, fl)
  | some sp =>
    let js := (List.range fl.splits.length).filter (fun j =>
      j != i && (match fl.splits[j]? with
                 | some x => mergeable sp x
                 | none => false))
    if js.isEmpty then (i, fl)
    else
      let m := js.foldl (fun a j => match fl.splits[j]? with
                                    | some x => mergeSplit a x
                                    | none => a) sp
      let low := js.foldl min i
      let marked := (List.range fl.splits.length).filterMap (fun j =>
        if j == low then some m else if j == i || js.contains j then none else fl.splits[j]?)
      (low, { fl with splits := marked })

/-! ### Delivery (R326, R327, R338) -/

/-- TRAPDETAIL of a record, with MORE. -/
def recordDetail (r : ImpRecord) : Nat := r.detail.toNat + 65536 * (min r.more 255)

/-- The trap of a recorded imprecise cause, the oldest first, or of a pending WATCHDOG, taken at the bundle that the
split `idx` is about to issue. -/
def asyncTrap (s : State) (uid fi idx : Nat) : Option State :=
  match (foldAt s uid).bind (fun f => flockAt f fi) with
  | none => none
  | some fl =>
    if fl.handler.isSome then none
    else match (fl.splits[idx]?).bind (fun sp => takeRecord fl sp fl.records) with
      | some (r, rest) =>
        some (takeTrap (onFlock s uid fi (fun fl => { fl with records := rest })) uid fi idx true .full
          { cause := r.cause, detail := recordDetail r, addr := if r.cause = 3 then 0 else r.addr })
      | none =>
        if fl.watchdog then
          some (takeTrap (onFlock s uid fi (fun fl => { fl with watchdog := false })) uid fi idx true .full
            (plainTrap 0x04 0))
        else none

/-! ### Instruction fetch (R251) -/

/-- The values that a home byte takes or has had while it is being written: those of stores issued and not yet performed,
and what the bytes that a running engine command has written held before. -/
def raceValues (s : State) (h : Nat) : List Byte :=
  s.folds.flatMap (fun f => f.flocks.flatMap (fun fl =>
      (fl.stores.filter (fun p => p.waitFault.isNone)).flatMap (fun p =>
        (p.bytes.filter (fun b => b.addr == h)).map (fun b => b.value))))
    ++ s.cores.flatMap (fun c => c.cmds.flatMap (fun m => (m.was.filter (fun x => x.1 == h)).map (fun x => x.2)))

/-- A read of a byte of the parameter block of a launch in progress: if the byte has been written since acceptance, either
value (R24). `reader` tells apart the reads of one step. -/
def paramByte (s : State) (reader h : Nat) (b : Byte) : Byte :=
  ((List.range s.launches.length).zip s.launches).foldl (fun v x =>
    match x.2.paramWas.find? (fun y => y.1 == h) with
    | some (_, w) => if w != b && Config.paramSees s.free ((h * 512 + reader) * 65536 + x.1) then w else v
    | none => v) b

/-- The value that a byte of code is fetched with (R251): where it is being written, the old or the new one; `b` is what
stands there for the reader. -/
def codeByte (s : State) (h : Nat) (b : Byte) : Byte :=
  paramByte s 256 h (((List.range (raceValues s h).length).zip (raceValues s h)).foldl (fun b x =>
    if Config.raceSees s.free (h * 64 + x.1) then x.2 else b) b)

/-- The bundle at an address, and the state after the fetch has filled its line. -/
def fetchBundle (s : State) (e : Env) (pc : DWord) : Res (BitVec 128 × State) :=
  match locate s e.fold e.launch e.ctx .fetch pc.toNat 16 with
  | .error b => badRes e.fl .fetch pc.toNat 255 b
  | .ok (.ls u off) => .ok (BitVec.ofNat 128 (leNat (lsBytes s u off 16)), s)
  | .ok (.mem h lf) =>
    if peerKey ≤ h then
      .ok (BitVec.ofNat 128 (leNat ((List.range 16).map (fun i => codeByte s (h + i) (homeByte s (h + i))))), s)
    else if coreUncorr s e.fold.core (h / 128) then badRes e.fl .fetch pc.toNat 255 (.reason rUncorr)
    else
      let t := l1Fill s e.fold.core (h / 128) false lf.dom lf.comp
      .ok (BitVec.ofNat 128 (leNat ((List.range 16).map (fun i => codeByte t (h + i) (l1Byte t e.fold.core (h + i))))), t)

/-- The trap of a rejected bundle (R108, R109), and the POS it is taken with (R325). -/
def badBundle : BadBundle → TrapInfo
  | .illegal _ d => plainTrap 0x10 d
  | .pair d => plainTrap 0x11 d

def badPos : BadBundle → Pos
  | .illegal 1 _ => .head
  | .illegal 2 _ => .half0
  | .illegal 3 _ => .half1
  | _ => .full

/-! ### Safe points (R339, R340) -/

/-- A word of device memory as the device itself reads it, through a context's translation; for it no local store lies
in the aperture (R246, R247). -/
def devByte (s : State) (c : Context) (va : Nat) : Option Byte :=
  if (apertureOff c va).isSome then none
  else match translate s none c.id c.ptroot.toNat .read va with
  | .error _ => none
  | .ok (h, _) =>
    if homeOffline s h || s.lost.contains (h / 128) || s.badFill.contains (h / 128) then none else some (homeByte s h)

def devBytes (s : State) (c : Context) (va n : Nat) : Option (List Byte) :=
  (List.range n).mapM (fun i => devByte s c (va + i))

def devNat (s : State) (c : Context) (va n : Nat) : Nat :=
  match devBytes s c va n with
  | some bs => leNat bs
  | none => 0

/-- The first entry of the map with the ordinal, among the first `n`: its OFFSET. -/
def mapEntry (s : State) (c : Context) (base ord : Nat) : Nat → Nat → Option Nat
  | 0, _ => none
  | n + 1, j =>
    if devNat s c (base + 0x10 + 64 * j) 4 % 2 ^ 20 = ord then some (devNat s c (base + 0x14 + 64 * j) 4)
    else mapEntry s c base ord n (j + 1)

/-- The head at `pc` with this ordinal is a safe point of its kernel. -/
def isSafePoint (s : State) (c : Context) (l : Launch) (pc : DWord) (ord : BitVec 20) : Bool :=
  let base := l.safemap.toNat
  if base = 0 then false
  else match mapEntry s c base ord.toNat (min (devNat s c (base + 4) 4) (2 ^ 20)) 0 with
    | none => false
    | some off => pc.toNat == (l.kernel.toNat + off) % 2 ^ 64

/-! ### Halts (R343 to R345) -/

/-- The 32-byte report of a split halt, sent as an event of kind 0x05. -/
def haltReport (s : State) (e : Env) (ord : BitVec 20) (pc : DWord) (reason : Nat) : State :=
  sendMsg s
    { ep := e.ctx.id + 1, type := 0x83, seq := 0, tag := 0, status := 0,
      payload := leBytes 4 5 ++ leBytes 4 e.ctx.id ++ leBytes 4 e.launch.kernid.toNat ++ leBytes 4 ord.toNat
        ++ leBytes 4 ((pc.toNat + 2 ^ 64 - e.launch.kernel.toNat) % 2 ^ 32) ++ leBytes 4 reason
        ++ leBytes 4 e.fold.foldId ++ leBytes 2 e.fi ++ leBytes 2 0 ++ leBytes 8 e.sp.mask.toNat }

/-- REASON of R344 for a split that stands at a safe point, if it halts there. Where it has halted before and goes on,
neither its STEP, nor the breakpoint there, nor the halt of another split halts a stepping one again; a new request does
(R343, R345). -/
def haltReason (e : Env) (ord : BitVec 20) : Option Nat :=
  if e.sp.stepping then (if !e.sp.pass then some 4 else if e.fl.haltReq then some 1 else none)
  else match (if e.ctx.attached then e.sp.brk else none) with
    | some n => some (3 + 256 * n.toNat)
    | none =>
      if e.fl.haltReq || e.fl.halting then some 1
      else if !e.sp.pass && e.ctx.breaks.contains (e.launch.kernid, ord) then some 2
      else none

/-- The split halts; every other split of the flock halts at its next safe point. -/
def haltSplit (s : State) (e : Env) (ord : BitVec 20) (pc : DWord) (reason : Nat) : State :=
  haltReport
    (onFlock s e.fold.uid e.fi (fun fl =>
      { fl with halting := true,
                splits := fl.splits.set e.idx { e.sp with halted := true, stepping := false, brk := none,
                                                                      pass := true } }))
    e ord pc reason

/-! ### The start of a clause (R91) -/

/-- The split inside the clause, its head half due if it holds an instruction; at a safe point its ordinal is noted
(R351). -/
def startClause (sp : Split) (h : Header) (half safe : Bool) : Split :=
  let sp1 := { sp with inside := true, headDue := half, setA := h.setA, setB := h.setB, left := h.len.toNat,
                       stop := h.stop, ord := if safe then h.stop.getD sp.ord else sp.ord, first := false, wait := .none,
                       pass := false }
  if half then sp1
  else if h.len = 0 then outside sp1 (sp1.pc + 16)
  else { sp1 with pc := sp1.pc + 16, first := true }

/-- What comes of the preparation of a bundle. -/
inductive Prep where
  | go (s : State)
  /-- The flock stalls, or its fold has failed. -/
  | stop (s : State)
  /-- The bundle takes a trap, after the causes that are delivered there. -/
  | trap (s : State) (t : TrapInfo)

/-- What comes before a bundle of a flock outside a handler: the hardware entries of its stack are refilled and entries
popped, which may stall the flock or make the bundle take MEMFAULT (R40, R42, R331). -/
def pathsReady (s : State) (u fi : Nat) : Prep :=
  if ((foldAt s u).bind (fun f => flockAt f fi)).any (fun fl => fl.handler.isSome) then .go s
  else match refillPop s u fi with
    | (t, some (va, r)) => .trap t { cause := 0x1E, detail := memDetail 255 .read r, addr := BitVec.ofNat 64 va }
    | (t, none) =>
      if (foldAt t u).any (fun f => f.fail.isSome || (flockAt f fi).any (fun fl => fl.stall.isSome)) then .stop t else .go t

/-- A trap that a bundle takes once the causes that are delivered there have come first (R326). -/
def trapAfter (s : State) (u fi idx : Nat) (t : TrapInfo) : State :=
  (asyncTrap s u fi idx).getD (takeTrap s u fi idx false .full t)

/-- The bundle at which the split stands is a clause head: it can be fetched, and is of type 10. -/
def atHead (s : State) (e : Env) : Bool :=
  match fetchBundle s e e.sp.pc with
  | .ok (w, _) => w.extractLsb' 0 2 == 2#2
  | _ => false

/-- Merge at the place of the issuing split; a merge makes room for entries of the stack, and those that stand there merge
too. `n` bounds the rounds. -/
def mergeRounds : Nat → State → State
  | 0, s => s
  | n + 1, s =>
    match envOf s .always with
    | none => s
    | some e =>
      let m := mergeAt e.fl e.idx
      if m.2.splits.length = e.fl.splits.length then s
      else
        let t := tidyFlock (onFlock s e.fold.uid e.fi (fun _ => m.2)) e.fold.uid e.fi
        mergeRounds n { t with cur := { t.cur with split := m.1 } }

/-- Splits that stand at the clause head of the issuing one merge with it (R41). -/
def mergeHere (s : State) : State :=
  match envOf s .always with
  | none => s
  | some e =>
    if e.hand || e.sp.inside || (mergeAt e.fl e.idx).2.splits.length = e.fl.splits.length || !atHead s e then s
    else mergeRounds (e.fl.stack.length + 4) s

/-- The start of a clause once nothing is delivered there: fetch and check the header, halt, wait, start. -/
def headStart (s : State) (e : Env) : State :=
  let u := e.fold.uid
  let fi := e.fi
  match fetchBundle s e e.sp.pc with
  | .trap t => takeTrap (noteOffline s e.ctx e.fold.core t) u fi e.idx false .full t
  | .stall w => markWait s e w
  | .page p => stallFlock s e p
  | .ok (w, s1) =>
    match (if e.sp.first then passedHead w else decodeAtHead w) with
    | .error b => takeTrap s1 u fi e.idx false (badPos b) (badBundle b)
    | .ok (.head h i) =>
      let safe := match h.stop with
        | none => false
        | some ord => isSafePoint s1 e.ctx e.launch e.sp.pc ord
      let halt : Option Nat := if e.hand || !safe then none else haltReason e (h.stop.getD 0)
      (match halt with
       | some r => haltSplit s1 e (h.stop.getD 0) e.sp.pc r
       | none =>
         if !flagsAtMost e.fl h.wait 0 then markWait s1 e (.flag h.wait 0)
         else
           let sp := startClause e.sp h (i.isSome && !e.sp.first) safe
           onFlock s1 u fi (fun fl => putSplit e { fl with pendChk := e.ctx.pendChk } sp))
    | .ok _ => s1

/-- A split at a clause head: refill, merge, deliver, start. The state's `cur` names the split. -/
def clauseStart (s0 : State) : State :=
  match pathsReady s0 s0.cur.fold s0.cur.flock with
  | .stop t => t
  | .trap t x => trapAfter t s0.cur.fold s0.cur.flock s0.cur.split x
  | .go s1 =>
    let s := mergeHere s1
    match envOf s .always with
    | none => s
    | some e =>
      if e.sp.inside || e.fl.stall.isSome then s
      else match asyncTrap s e.fold.uid e.fi e.idx with
        | some t => t
        | none => headStart s e

/-- CLAUSE_START (R91): nothing happens unless the split may issue and stands at a head it has not started. -/
def execClauseStart (r : SplitRef) (s : State) : Host.Outcome State Fault Refusal :=
  if mayIssue s r then
    .next (clauseStart { s with cur := { fold := r.fold, flock := r.flock, split := r.split, pos := .full, last := true, levels := [] } })
  else .next s

end Sys2Proof.Machine
end

