-- ==== Sys2Proof/Machine/Halts.lean ====
section
/-! DEFINITION. How a halted flock goes on: RESUME and STEP, at once or at the restore of its fold (R337, R341 to R346). -/

namespace Sys2Proof.Machine

/-- Every live split has halted (R343); so has a flock whose focused split has ended and whose other lanes are deferred
(R346, log entry 45). -/
def haltedFlock (fl : Flock) : Bool :=
  fl.handler.isNone
    && (if fl.splits.isEmpty then fl.focus && !fl.stack.isEmpty else fl.splits.all (fun sp => sp.halted))

/-- A flock goes on: every halted split, and R42 applies again. -/
def resumeFlock (s : State) (uid fi : Nat) : State :=
  tidyFlock (onFlock s uid fi (fun fl =>
    { fl with haltReq := false, halting := false, focus := false, later := none,
              splits := fl.splits.map (fun sp => { sp with halted := false, stepping := false }) })) uid fi

/-- The split of a flock that holds a lane. -/
def splitWith (fl : Flock) (lane : Nat) : Option Nat :=
  (List.range fl.splits.length).find? (fun i => (fl.splits[i]?).any (fun sp => inMask sp.mask lane))

/-- STEP with no focus: every live split goes on to its next safe point. -/
def stepFlock (s : State) (uid fi : Nat) : State :=
  onFlock (tidyFlock (onFlock s uid fi (fun fl => { fl with haltReq := false, halting := false, focus := false, later := none })) uid fi) uid fi
    (fun fl => { fl with splits := fl.splits.map (fun sp => { sp with halted := false, stepping := true }) })

/-- STEP with a focus lane: the rest of its split's mask is pushed, and the lane goes on alone. None where it is
refused. -/
def focusFlock (s : State) (f : Fold) (fi : Nat) (lane : Nat) : Option State :=
  match (flockAt f fi).bind (fun fl => splitWith fl lane) with
  | none => none
  | some i =>
    match envOf { s with cur := { fold := f.uid, flock := fi, split := i, pos := .full, last := true, levels := [] } } .always with
    | none => none
    | some e =>
      let one : LaneMask := BitVec.twoPow 64 lane
      let rest := e.sp.mask &&& ~~~one
      let go (fl : Flock) : Flock :=
        { fl with focus := true, later := none,
                  splits := fl.splits.set i { e.sp with mask := one, halted := false, stepping := true } }
      if rest = 0 then some (onFlock s f.uid fi go)
      else if 256 ≤ e.fl.stack.length then none
      else match pushPaths s e e.fl [{ pc := e.sp.pc, mask := rest, path := e.sp.path, pass := e.sp.pass }] with
        | .ok (s1, fl) => some (onFlock s1 f.uid fi (fun _ => go fl))
        | _ => none

/-- What a debugger has asked of a flock takes effect: a STEP that finds no room for the deferred lanes leaves it halted. -/
def goOn (s : State) (uid fi : Nat) (a : Later) : State :=
  match a with
  | .resume => resumeFlock s uid fi
  | .step none => stepFlock s uid fi
  | .step (some lane) => ((foldAt s uid).bind (fun f => focusFlock s f fi lane)).getD s

/-- The same for a flock whose fold may be in its fleece: there it waits for the restore (R337). -/
def goOnOrLater (s : State) (uid fi : Nat) (a : Later) : State :=
  if (foldAt s uid).any (fun f => f.place != .core) then onFlock s uid fi (fun fl => { fl with later := some a })
  else goOn s uid fi a

/-- What has waited for the restore of a fold takes effect. -/
def goOnAll (s : State) (uid : Nat) : State :=
  match foldAt s uid with
  | none => s
  | some f => (List.range f.flocks.length).foldl (fun u i => match (f.flocks[i]?).bind (fun fl => fl.later) with
    | some a => goOn (onFlock u uid i (fun fl => { fl with later := none })) uid i a
    | none => u) s

end Sys2Proof.Machine
end

