-- ==== Sys2Proof/Machine/Settle.lean ====
section
/-! DEFINITION. What completes in the background of a flock: landed loads, performed stores, fences (R187, R205,
R279, R288); the active set (R45, R46). -/

namespace Sys2Proof.Machine

/-! ### Scopes -/

/-- The scope is wider than CORE: it reaches beyond the core's L1 (R276). -/
def wider (sc : BitVec 4) : Bool := !(sc == 0 || sc == 1 || sc == 3)

/-- JOB, POD and SYSTEM, whose acquires drop the PEER lines of the die's L2 (R266). -/
def reachesPeers (sc : BitVec 4) : Bool := 9 ≤ sc.toNat

/-- The effect of an acquire of a scope on what the core and the die hold (R266, R279, R288). -/
def acquireAt (s : State) (k : Nat) (sc : BitVec 4) : State :=
  let s1 := if wider sc then l1Drop s k else s
  if reachesPeers sc then dropPeer s1 (dieOfCore k) else s1

/-- The effect of a release of a scope: what the core has written becomes readable beyond it. -/
def releaseAt (s : State) (k : Nat) (sc : BitVec 4) : State := if wider sc then l1CleanAll s k else s

/-! ### Stores -/

/-- The lines of a list of bytes, each once. -/
def linesOf (bs : List PendByte) : List Nat := (bs.map (fun b => b.addr / 128)).dedup

/-- Perform the bytes of one home line of a flock's store as one write. Where no port to a peer is up, the store that was
in flight is answered with an error and faults (R371). -/
def performLine (s : State) (k uid fi l : Nat) (bs : List PendByte) : State :=
  match bs with
  | [] => s
  | b :: _ =>
    if peerKey ≤ 128 * l then
      if peerUp s (128 * l) then bs.foldl (fun u x => peerWrite u (dieOfCore k) x.addr x.value) s
      else recordStore s uid fi b.lane b.va rOffline []
    else
      let m := bs.foldl (fun m x => m ||| BitVec.twoPow 128 (x.addr % 128)) (0#128)
      let d : Line := bs.foldl (fun d x => setLineByte d (x.addr % 128) x.value) 0
      l2Write (l1Evict s k l) (dieOfCore k) l m d b.dom b.comp

/-- Perform the bytes of a strong store: each line at one instant (R279). -/
def performBytes (s : State) (k uid fi : Nat) (bs : List PendByte) : State :=
  (linesOf bs).foldl (fun u l => performLine u k uid fi l (bs.filter (fun b => b.addr / 128 == l))) s

/-! ### Loads -/

/-- The value that a byte of a load in flight has now; one that can no longer be read keeps its value. -/
def nowByte (s : State) (f : Fold) (fl : Flock) (b : SrcByte) : Byte :=
  match b.fold with
  | some u => lsByte s u b.place
  | none =>
    if homeOffline s b.place || s.lost.contains (b.place / 128) || s.badFill.contains (b.place / 128) then b.val
    else
      ownByte fl b.place
        (if peerKey ≤ b.place then (if b.strong then homeByte s b.place else peerByteAt s f.die b.place)
         else if b.wide then homeByte s b.place else l1Byte s f.core b.place)

/-- The atomic unit of a byte of a load in a lane, as a number. -/
def unitKey (id lane : Nat) (b : SrcByte) : Nat :=
  ((id * 64 + lane) * 2 + (if b.fold.isSome then 1 else 0)) * 2 ^ 64 + b.place / b.unit

/-- The unit of the byte takes the value that stands now (R281). -/
def takesNewer (s : State) (id lane : Nat) (b : SrcByte) : Bool := Config.loadSees s.free (unitKey id lane b)

/-- The byte settles: it takes the value that stands now, or keeps the one that it has read. A byte that is only sampled
stays open where it keeps its value, so that it may still take any value that stands before it lands. -/
def settleByte (s : State) (f : Fold) (fl : Flock) (sample : Bool) (id lane : Nat) (b : SrcByte) : SrcByte :=
  if takesNewer s id lane b then { b with val := nowByte s f fl b, more := false }
  else if sample then b
  else { b with more := false }

/-- The word that bytes give: `take` bits from bit `shift` on. -/
def wordOf (bs : List Byte) (shift take : Nat) (sext : Bool) : Word :=
  let v := leNat bs / 2 ^ shift % 2 ^ take
  if sext && v / 2 ^ (take - 1) % 2 = 1 then BitVec.ofInt 32 ((v : Int) - 2 ^ take) else BitVec.ofNat 32 v

/-- A word that a load takes from bytes. -/
def loadedWord (lane key : Nat) (src : List SrcByte) (shift take : Nat) (sext : Bool) (bits : Word) : PendWord :=
  { lane := lane, key := key, value := wordOf (src.map (fun b => b.val)) shift take sext &&& bits, src := src,
    shift := shift, take := take, sext := sext, bits := bits, hit := false }

/-- A word whose value is settled. -/
def plainWord (lane key : Nat) (v : Word) : PendWord :=
  { lane := lane, key := key, value := v, src := [], shift := 0, take := 0, sext := false, bits := BitVec.allOnes 32,
    hit := false }

/-- The bytes of a word that meet `sel` settle, or are sampled. -/
def settleWord (s : State) (f : Fold) (fl : Flock) (sample : Bool) (id : Nat) (sel : SrcByte → Bool) (w : PendWord) :
    PendWord :=
  if w.src.any (fun b => b.more && sel b) then
    let src := w.src.map (fun b => if b.more && sel b then settleByte s f fl sample id w.lane b else b)
    { w with src := src, value := wordOf (src.map (fun b => b.val)) w.shift w.take w.sext &&& w.bits }
  else w

/-- The home lines, past the L1, that bytes of loads take newer values from. -/
def newerLines (s : State) (fl : Flock) (sel : PendLoad → PendWord → SrcByte → Bool) : List Nat :=
  (fl.loads.flatMap (fun p => p.words.flatMap (fun w =>
    (w.src.filter (fun b => b.more && sel p w b && b.fold.isNone && (b.wide || (b.strong && decide (peerKey ≤ b.place)))
      && takesNewer s p.id w.lane b)).map (fun b => b.place / 128)))).dedup

/-- A read past the L1, or of a peer uncached, takes a value: no older copy stays that a later weak load could return
(R281). -/
def dropOlder (s : State) (f : Fold) (l : Nat) : State :=
  if homeOffline s (128 * l) then s
  else if peerKey ≤ 128 * l then putL2 s f.die (dropTag (l2At s f.die) l)
  else l1Evict s f.core l

/-- Bytes of loads in flight of a flock settle, or with `sample` are sampled: those of load and word that meet `sel`. -/
def settleReads (s : State) (uid fi : Nat) (sample : Bool) (sel : PendLoad → PendWord → SrcByte → Bool) : State :=
  match foldAt s uid, (foldAt s uid).bind (fun f => flockAt f fi) with
  | some f, some fl0 =>
    let s1 := (newerLines s fl0 sel).foldl (fun u l => dropOlder u f l) s
    onFlock s1 uid fi (fun fl =>
      { fl with loads := fl.loads.map (fun p =>
          { p with words := p.words.map (fun w => settleWord s1 f fl sample p.id (sel p w) w) }) })
  | _, _ => s

/-- Loads in flight settle that come before a release or an engine command on its path (R286): all, or those numbered. -/
def settleAll (s : State) (uid fi : Nat) : State := settleReads s uid fi false (fun _ _ _ => true)
def settleThose (s : State) (uid fi : Nat) (ids : List Nat) : State :=
  settleReads s uid fi false (fun p _ _ => ids.contains p.id)

/-- Loads in flight that read such bytes settle: the flock is to access the bytes again (R189, R281). -/
def settlePlaces (s : State) (uid fi : Nat) (xs : List (Option Nat × Nat)) : State :=
  settleReads s uid fi false (fun _ _ b => xs.any (fun x => x.1 == b.fold && x.2 / b.unit == b.place / b.unit))

/-- LOAD_SAMPLE, a step of the model's own: a load in flight takes, for a lane, values that stand now. -/
def loadSample (r : FlockRef) (op lane : Nat) (s : State) : State :=
  settleReads s r.fold r.flock true (fun p w _ => p.id == op && (p.scalar || w.lane == lane))

/-! ### Stores that are performed -/

/-- Perform a store: a release after what comes before it (R284, R288), then its own bytes. -/
def performWhole (s : State) (k uid fi : Nat) (p : PendStore) : State :=
  performBytes (if p.release then releaseAt (settleThose s uid fi p.after) k p.scope else s) k uid fi p.bytes

/-- Perform some of a flock's stores in the order in which they issued; their flags decrement later. -/
def performThose (s : State) (k uid fi : Nat) (ps : List PendStore) : State :=
  onFlock (ps.foldl (fun u p => performWhole u k uid fi p) s) uid fi (fun fl =>
    { fl with stores := fl.stores.map (fun q => if ps.any (fun p => p.id == q.id) then { q with bytes := [] } else q) })

/-- Perform every store of the flock that waits on no fault. -/
def drainStores (s : State) (uid fi : Nat) : State :=
  match foldAt s uid with
  | none => s
  | some f =>
    match flockAt f fi with
    | none => s
    | some fl => performThose s f.core uid fi (fl.stores.filter (fun p => p.waitFault.isNone))

/-! ### Fences (R205, R288) -/

/-- What is in flight in a flock, by number: loads, stores and fences, and weak stores whose fault waits for a release
(R293). -/
def opsInFlight (fl : Flock) : List Nat :=
  fl.loads.map (fun p => p.id) ++ fl.stores.map (fun p => p.id) ++ fl.fences.map (fun p => p.id)
    ++ fl.records.flatMap (fun r => r.stores)

/-- The halves of a fence that wait on nothing more. -/
def acqDone (fl : Flock) (f : FenceRec) : Bool := f.acq && f.acqOn.all (fun i => !(opsInFlight fl).contains i)
def relDone (fl : Flock) (f : FenceRec) : Bool := f.rel && f.relOn.all (fun i => !(opsInFlight fl).contains i)

/-- The effects of halves that complete (R288). -/
def fenceEffect (s : State) (k : Nat) (sc : BitVec 4) (rel acq : Bool) : State :=
  let s1 := if rel then releaseAt s k sc else s
  if acq then acquireAt s1 k sc else s1

/-- Halves of a fence have completed: with both, its flag decrements and it holds its path no longer. -/
def endHalves (fl : Flock) (f : FenceRec) (rel acq : Bool) : Flock :=
  let f1 := { f with rel := f.rel && !rel, acq := f.acq && !acq }
  if f1.rel || f1.acq then { fl with fences := fl.fences.map (fun g => if g.id == f.id then f1 else g) }
  else flagDown { fl with fences := fl.fences.filter (fun g => g.id != f.id) } f.flag

/-- A fence goes as far as it can. -/
def settleFence (s : State) (k uid fi : Nat) (r : FenceRec) : State :=
  match (foldAt s uid).bind (fun f => flockAt f fi) with
  | none => s
  | some fl =>
    let rel := relDone fl r
    let acq := acqDone fl r
    if rel || acq || !(r.rel || r.acq) then onFlock (fenceEffect s k r.scope rel acq) uid fi (fun x => endHalves x r rel acq)
    else s

/-- A path without what has completed. -/
def prunePath (live path : List Nat) : List Nat := (path.filter (fun i => live.contains i)).dedup

/-- The paths of a flock name only what is still in flight. -/
def prunePaths (fl : Flock) : Flock :=
  { fl with splits := fl.splits.map (fun sp => { sp with path := prunePath (opsInFlight fl) sp.path }),
            stack := fl.stack.map (fun x => { x with path := prunePath (opsInFlight fl) x.path }) }

/-- Complete the halves of fences that can complete. -/
def settleFences (s : State) (uid fi : Nat) : State :=
  match foldAt s uid with
  | none => s
  | some f =>
    match flockAt f fi with
    | none => s
    | some fl => onFlock (fl.fences.foldl (fun u r => settleFence u f.core uid fi r) s) uid fi prunePaths

/-- Something of the issuing split is in flight: it joins the split's path (R273). -/
def joinPath (fl : Flock) (i id : Nat) : Flock :=
  { fl with splits := fl.splits.modify i (fun sp => { sp with path := sp.path ++ [id] }) }

/-! ### What has landed -/

/-- Loads with no word left to land have completed: their flags decrement, and the floating-point flags of an ATOM
are ORed (R187, R196). -/
def endLoads (fl : Flock) : Flock :=
  (fl.loads.filter (fun p => p.words.isEmpty)).foldl (fun u p => flagDown (orFlags u p.flags) p.flag)
    { fl with loads := fl.loads.filter (fun p => !p.words.isEmpty) }

/-- FFLAGS is about to be read or written: the flags of every earlier instruction are in it, and none comes later (R76,
R146). -/
def drainFlags (fl : Flock) : Flock :=
  { fl.loads.foldl (fun u p => orFlags u p.flags) fl with loads := fl.loads.map (fun p => { p with flags := 0 }) }

/-- What has completed in a flock takes effect. -/
def settleFlock (s : State) (uid fi : Nat) : State := settleFences (onFlock s uid fi endLoads) uid fi

/-- The value that a landing word leaves: where a later write has hit the word, either remains (R96). -/
def landWord (fl : Flock) (free : Nat) (p : PendLoad) (w : PendWord) : Flock :=
  let fl := if w.bits != BitVec.allOnes 32 then fl   -- a full write of the word clears its error mark (R332)
            else if p.scalar then unmarkAll (· == .s w.key) fl else unmarkAll (· == .v (w.key / 64) (w.key % 64)) fl
  if w.hit && !Config.pendKeeps free (w.key * 4096 + p.id) then fl
  else if p.scalar && 1024 ≤ w.key then { fl with q := setBit8 fl.q (w.key - 1024) (w.value.getLsbD 0) }
  else if p.scalar then
    { fl with s := cset 0 fl.s w.key ((cget 0 fl.s w.key &&& ~~~w.bits) ||| (w.value &&& w.bits)) }
  else { fl with v := cset 0 fl.v w.key ((cget 0 fl.v w.key &&& ~~~w.bits) ||| (w.value &&& w.bits)) }

/-- The values of a load land in a lane; for a scalar destination, at once. -/
def landLane (fl : Flock) (free id lane : Nat) : Flock :=
  match fl.loads.find? (fun p => p.id == id) with
  | none => fl
  | some p =>
    let now := p.words.filter (fun w => p.scalar || w.lane == lane)
    let fl1 := now.foldl (fun u w => landWord u free p w) fl
    { fl1 with loads := fl1.loads.map (fun q =>
        if q.id == id then { q with words := q.words.filter (fun w => !(p.scalar || w.lane == lane)) } else q) }

/-! ### Active and pending sets (R45, R46) -/

/-- A split that could issue if its flock were in the active set. -/
def splitReady (s : State) (uid : Nat) (fl : Flock) (sp : Split) : Bool := !sp.halted && canGoOn s uid fl sp

def flockReady (s : State) (uid : Nat) (fl : Flock) : Bool :=
  fl.stall.isNone && !fl.stopped
    && (match fl.handler with
        | some h => waitOver s uid fl h.sp
        | none => fl.splits.any (splitReady s uid fl))

def flockOf (s : State) (uid fi : Nat) : Option Flock := (foldAt s uid).bind (fun f => flockAt f fi)

/-- The pending flock that has been ready longest. -/
def longestReady (s : State) (q : Quadrant) : Option (Nat × Nat × Nat) :=
  (q.pending.filter (fun x => match flockOf s x.1 x.2.1 with
                              | some fl => flockReady s x.1 fl
                              | none => false)).foldl
    (fun b x => match b with
                | none => some x
                | some y => if x.2.2 < y.2.2 then some x else some y) none

def onQuad (s : State) (k q : Nat) (g : Quadrant → Quadrant) : State :=
  let c := coreAt s k
  putCore s k { c with quads := c.quads.modify q g }

/-- Swap an active flock with the pending flock that has been ready longest; without one, nothing happens. -/
def swapOut (s : State) (k q uid fi : Nat) : State :=
  match (coreAt s k).quads[q]? with
  | none => s
  | some x =>
    if !x.active.contains (uid, fi) then s
    else match longestReady s x with
      | none => s
      | some y =>
        onQuad (onFlock s y.1 y.2.1 (fun fl => { fl with fromClk := s.clock + 8 })) k q (fun x =>
          { x with active := x.active.filter (· != (uid, fi)) ++ [(y.1, y.2.1)],
                   pending := x.pending.filter (· != y) ++ [(uid, fi, s.clock)],
                   lastLeft := s.clock })

end Sys2Proof.Machine
end

