-- ==== Sys2Proof/Machine/Operands.lean ====
section
/-! DEFINITION. The operand forms: registers, routing, immediates (R81 to R83, R99 to R102), and the registers that
an instruction names (R27, R96, R332). -/

namespace Sys2Proof.Machine

/-! ### Registers named -/

/-- The `n` registers from `r`. -/
def regsFrom (r n : Nat) : List Nat := (List.range n).map (fun i => r + i)

/-- Vector registers that a source of `n` words reads, with its routing. -/
def vOf (n : Nat) : Src → List (Nat × BitVec 12)
  | .v r rt => (regsFrom r.toNat n).map (fun x => (x, rt))
  | _ => []

/-- Scalar registers that a source of `n` words reads. -/
def sOf (n : Nat) : Src → List Nat
  | .s r => regsFrom r.toNat n
  | _ => []

/-- The index register that class 100 routing reads (R99). -/
def routeIdx (rt : BitVec 12) : List Nat := if rt.extractLsb' 9 3 = 4 then [(rt.extractLsb' 0 6).toNat % 4] else []

/-- The index register that a source reads. -/
def idxOf : Src → List Nat
  | .v _ rt => routeIdx rt
  | _ => []

/-- The names of sources of `n` words. -/
def srcNames (n : Nat) (l : List Src) : Names :=
  { vr := l.flatMap (vOf n), s := l.flatMap (sOf n), xr := l.flatMap idxOf }

/-- The names of an instruction, where they depend on what the flock holds: on slots, or on the lanes of Active. -/
def named (s : State) (g : Guard) (f : Env → Names) : Names :=
  match envOf s g with
  | some e => f e
  | none => {}

def optSrc : Option Src → List Src
  | none => []
  | some x => [x]

/-! ### Values -/

/-- An integer source as one flock-wide word: operand `k` (R82, R83). A vector source gives the word of lane `l`. -/
def srcV (e : Env) (k : Nat) (x : Src) (l : Nat) : Word :=
  match x with
  | .v r rt => readV e (laneOpnd k l) r.toNat (routeLane e rt l)
  | .s r => readS e k r.toNat
  | .imm w => w
  | .imm16 w => w.signExtend 32

/-- A 64-bit source: both registers of a pair are routed alike (R100); an immediate is sign-extended. -/
def srcV2 (e : Env) (k : Nat) (x : Src) (l : Nat) : DWord :=
  match x with
  | .v r rt => pair (readV e (laneOpnd k l) r.toNat (routeLane e rt l)) (readV e (laneOpnd k l) (r.toNat + 1) (routeLane e rt l))
  | .s r => readS2 e k r.toNat
  | .imm w => w.signExtend 64
  | .imm16 w => w.signExtend 64

/-- A source read once for the flock: a scalar register or an immediate. -/
def srcS (e : Env) (k : Nat) (x : Src) : Word := srcV e k x 0
def srcS2 (e : Env) (k : Nat) (x : Src) : DWord := srcV2 e k x 0

/-- An optional offset; an absent one is 0 (R180). -/
def optS (e : Env) (k : Nat) : Option Src → Word
  | none => 0
  | some x => srcS e k x

end Sys2Proof.Machine
end

