-- ==== Sys2Proof/Machine/Access.lean ====
section
/-! DEFINITION. Accesses of a flock's memory instructions: where each byte lies, what is met there, how it is read
and written (R183 to R189, R276 to R279, R292, R293). -/

namespace Sys2Proof.Machine

/-- One access of a lane: address (or offset), width, and where it lies. Lane 255 stands for a scalar form. -/
structure Piece where
  lane : Nat
  va : Nat
  n : Nat
  spot : Except Bad Spot

/-! ### What holds an access back -/

/-- How an access is made: strong of any scope, past the core's L1, and with which HINT (R180, R182). -/
structure How where
  strong : Bool
  wide : Bool
  hint : BitVec 2
  deriving DecidableEq, Repr

/-- The fences on the path that hold the access: an acquire half every one, a release half stores and atomics (R288). -/
def fencesHolding (e : Env) (write : Bool) : List FenceRec :=
  e.fl.fences.filter (fun f => e.sp.path.contains f.id && (f.acq || (f.rel && write)))

/-- The fence waits for a weak store whose translation is being resolved, or whose fault is to be taken at a bundle that the
fence holds (R293). -/
def fenceFault (fl : Flock) (f : FenceRec) : Bool :=
  f.rel && (fl.stores.any (fun p => p.waitFault.isSome && f.relOn.contains p.id)
    || fl.records.any (fun r => r.stores.any (fun i => f.relOn.contains i)))

/-- The bundle may not issue yet: its flag is at 63, a fence holds it, or it is a release while the translation of a weak
store on its path is being resolved (R205, R288, R293). -/
def holdUp (e : Env) (flg : Option (BitVec 4)) (write release : Bool) : Option Wait :=
  let held := fencesHolding e write
  if flagFull e.fl flg then flg.map Wait.full
  else if (release && pathWaits e.fl e.sp) || held.any (fenceFault e.fl) then some .release
  else if held.isEmpty then none
  else some .interlock

/-! ### Faults -/

/-- The lowest lane with a misaligned address: MISALIGN (R184). -/
def misalign (ps : List Piece) : Option TrapInfo :=
  (ps.find? (fun p => p.va % p.n != 0)).map (fun p =>
    { cause := 0x17, detail := p.lane, addr := BitVec.ofNat 64 p.va })

/-- The accesses that cannot be made: lane, address, why. -/
def badOf (ps : List Piece) : List (Nat × Nat × Bad) :=
  ps.filterMap (fun p => match p.spot with
                         | .error b => some (p.lane, p.va, b)
                         | .ok _ => none)

/-- The reason stands: it cannot be resolved, or has been declared so (R331). -/
def deadReason (fl : Flock) (va : Nat) (r : Reason) : Bool := !resolvable r || fl.verdicts.contains (pageBase va, r)

/-- What the flock meets: LSRANGE, an unresolvable fault, or a replayable one, in that order. -/
def pickBad {α : Type} (fl : Flock) (acc : Access) (xs : List (Nat × Nat × Bad)) : Option (Res α) :=
  let dead (x : Nat × Nat × Bad) : Bool := match x.2.2 with
    | .range => false
    | .reason r => deadReason fl x.2.1 r
  match xs.find? (fun x => x.2.2 == .range), xs.find? dead, xs with
  | some x, _, _ => some (badRes fl acc x.2.1 x.1 .range)
  | none, some x, _ => some (badRes fl acc x.2.1 x.1 x.2.2)
  | none, none, x :: _ => some (badRes fl acc x.2.1 x.1 x.2.2)
  | none, none, [] => none

/-- Run a memory instruction; a HOME_OFFLINE reply that it traps on is counted. -/
def runMem (s : State) (g : Guard) (inHandler : Bool) (n : Names) (body : State → Env → Res State) :
    Host.Outcome State Fault Refusal :=
  match envOf s g with
  | none => .fault .noIssuer
  | some e =>
    match (if (e.hand && (!inHandler || g != .always)) || (precheck e n).isSome then Res.ok s else body s e) with
    | .trap t =>
      let u := noteOffline s e.ctx e.fold.core t
      run u g inHandler n (body u)
    | _ => run s g inHandler n (body s)

/-! ### Where an access lies -/

/-- An access through the context's translation or its aperture. -/
def pieceMem (s : State) (e : Env) (acc : Access) (lane va n : Nat) : Piece :=
  { lane := lane, va := va, n := n, spot := locate s e.fold e.launch e.ctx acc va n }

/-- An access to an offset of the fold's own local store (R193). -/
def pieceLocal (e : Env) (lane off n : Nat) : Piece :=
  { lane := lane, va := off, n := n,
    spot := if e.launch.lsBytes < off + n then .error .range else .ok (.ls e.fold.uid off) }

/-- An access to an offset of a drove rank's local store (R194). -/
def pieceRank (s : State) (e : Env) (lane rank off n : Nat) : Piece :=
  { lane := lane, va := off, n := n,
    spot := if e.launch.drove ≤ rank || e.launch.lsBytes < off + n then .error .range
            else match rankFold s e.fold rank with
              | some g => .ok (.ls g.uid off)
              | none => .error .range }

/-! ### Reading -/

/-- A read that finds an uncorrectable error (R332). -/
def checkRead (s : State) (e : Env) (wide : Bool) (p : Piece) : Piece :=
  match p.spot with
  | .ok (.mem h _) =>
    if peerKey ≤ h then p
    else if (if wide then dieUncorr s e.fold.die (h / 128) else coreUncorr s e.fold.core (h / 128)) then
      { p with spot := .error (.reason rUncorr) }
    else p
  | _ => p

/-- A word of local store with an uncorrectable error: SRAMERR, with its offset in that store (R324, R325). -/
def lsError (s : State) (ps : List Piece) : Option TrapInfo :=
  ps.findSome? (fun p => match p.spot with
    | .ok (.ls u off) =>
      (match (foldAt s u).bind (fun f => f.lsMarks.find? (fun w => off < 4 * w + 4 && 4 * w < off + p.n)) with
       | some _ => some { cause := 0x1F, detail := p.lane * 256 + 4, addr := BitVec.ofNat 64 off }
       | none => none)
    | _ => none)

/-- The bytes of one access, and the caches after it. HINT 10 allocates no line in the L1, HINT 01 one that leaves
first (R251). -/
def readSpot (s : State) (e : Env) (how : How) (lane : Nat) (sp : Spot) (n : Nat) : State × List Byte :=
  match sp with
  | .ls u off => (noteLevel s 2, lsBytes s u off n)
  | .mem h lf =>
    let k := e.fold.core
    let l := h / 128
    let own (t : State) (f : Nat → Byte) : State × List Byte :=
      (noteLevel t (levelOf s k how.wide h),
       (List.range n).map (fun i => ownByte e.fl (h + i) (paramByte s lane (h + i) (f (h + i)))))
    if peerKey ≤ h then
      let t := if how.strong then putL2 s e.fold.die (dropTag (l2At s e.fold.die) l)
               else l2Touch s e.fold.die l lf.dom lf.comp
      own t (peerByteAt t e.fold.die)
    else if how.wide then
      let t := l2Touch (l1Evict s k l) e.fold.die l lf.dom lf.comp
      own t (homeByte t)
    else
      let t := if how.hint = 2 then (if (l1Find s k l).any (fun x => x.full) then s else l2Touch s e.fold.die l lf.dom lf.comp)
               else l1Fill s k l (how.hint = 1) lf.dom lf.comp
      own t (l1Byte t k)

/-- Where the bytes of an access lie: a fold's local store, or a home. -/
def spotPlaces (sp : Except Bad Spot) (n : Nat) : List (Option Nat × Nat) :=
  match sp with
  | .ok (.ls u off) => (List.range n).map (fun i => (some u, off + i))
  | .ok (.mem h _) => (List.range n).map (fun i => (none, h + i))
  | .error _ => []

/-- An access meets bytes of a weak store of the flock that waits on a fault. -/
def meetsWaiting (fl : Flock) (ps : List Piece) : Bool :=
  fl.stores.any (fun q => q.waitFault.isSome
    && q.bytes.any (fun b => ps.any (fun p =>
      (match p.spot with
       | .ok (.ls _ _) => false
       | _ => true) && p.va ≤ b.addr && b.addr < p.va + p.n)))

/-- Read every access of an instruction, in lane order; or what the flock meets. -/
def readPieces (s : State) (e : Env) (how : How) (ps0 : List Piece) : Res (State × List (List Byte)) :=
  let ps := ps0.map (checkRead s e how.wide)
  match pickBad e.fl .read (badOf ps), lsError s ps with
  | some r, _ => r
  | none, some t => .trap t
  | none, none =>
    if meetsWaiting e.fl ps then .stall .interlock
    else
      let s1 := settlePlaces s e.fold.uid e.fi (ps.flatMap (fun p => spotPlaces p.spot p.n))
      let r := ps.foldl (fun (a : State × List (List Byte)) p =>
        match p.spot with
        | .ok sp =>
          let x := readSpot a.1 e how p.lane sp p.n
          (x.1, x.2 :: a.2)
        | .error _ => a) (s1, [])
      .ok (r.1, r.2.reverse)

/-- The bytes of a load that is to land; `more` where a value that stands later may still be taken, `unit` the bytes of
an atomic unit (R282). -/
def srcBytes (how : How) (more : Bool) (unit : Nat) (p : Piece) (bs : List Byte) : List SrcByte :=
  ((spotPlaces p.spot bs.length).zip bs).map (fun x =>
    { fold := x.1.1, place := x.1.2, unit := unit, val := x.2, strong := how.strong, wide := how.wide, more := more })

/-! ### Loads in flight (R95, R96) -/

/-- What a load has beside its words: its flag, whether its destination is scalar, whether it is a strong or atomic read,
and the flags of an ATOM. -/
structure LoadKind where
  flg : Option (BitVec 4)
  scalar : Bool := false
  strong : Bool := false
  fflags : BitVec 5 := 0

/-- Words of a destination that are to land, with the flag raised; a load with no word has completed. -/
def addLoad (s : State) (e : Env) (kind : LoadKind) (ws : List PendWord) : State :=
  let (id, s1) := fresh s
  let p : PendLoad := { id := id, flag := kind.flg, scalar := kind.scalar, words := ws, flags := kind.fflags,
                        strong := kind.strong }
  settleFlock
    (onFlock s1 e.fold.uid e.fi (fun f => flagUp (joinPath { f with loads := f.loads ++ [p] } e.idx id) kind.flg))
    e.fold.uid e.fi

/-- A fence of the issuing split joins its path, and goes as far as it can (R205, R288). -/
def addFence (s : State) (e : Env) (r : FenceRec) : State :=
  let (id, s1) := fresh s
  settleFences
    (onFlock s1 e.fold.uid e.fi (fun f =>
      flagUp (joinPath { f with fences := f.fences ++ [{ r with id := id }] } e.idx id) r.flag)) e.fold.uid e.fi

/-- An acquire load has read: in a handler it has completed; otherwise no later access of its path is performed until the
load `id` has returned (R285, R288). -/
def acquireLoad (s : State) (e : Env) (sc : BitVec 4) (id : Nat) : State :=
  if e.hand then acquireAt s e.fold.core sc
  else addFence s e { id := 0, flag := none, scope := sc, acq := true, rel := false, acqOn := [id], relOn := [] }

/-- Settled words for registers from `r` in a lane. -/
def laneWords (r l : Nat) (ws : List Word) : List PendWord :=
  (List.range ws.length).zip ws |>.map (fun x => plainWord l ((r + x.1) * 64 + l) x.2)

/-- Settled scalar words for registers from `r`. -/
def scalarWords (r : Nat) (ws : List Word) : List PendWord :=
  (List.range ws.length).zip ws |>.map (fun x => plainWord 0 (r + x.1) x.2)

/-- Scalar results of a variable-latency instruction: at once in a handler, to land otherwise. -/
def putScalars (s : State) (e : Env) (flg : Option (BitVec 4)) (strong : Bool) (ws : List PendWord) : State :=
  if e.hand then onFlock s e.fold.uid e.fi (fun fl => ws.foldl (fun u w => setS e u w.key w.value) fl)
  else addLoad s e { flg := flg, scalar := true, strong := strong } ws

/-! ### Stores in flight (R187, R279) -/

/-- A store that is outstanding, with its flag raised. -/
def addStore (s : State) (e : Env) (p : PendStore) : State :=
  let (id, s1) := fresh s
  onFlock s1 e.fold.uid e.fi (fun f =>
    flagUp (joinPath { f with stores := f.stores ++ [{ p with id := id }] } e.idx id) p.flag)

/-- A store with nothing left to be performed, whose flag is still to decrement. -/
def doneStore (flg : Option (BitVec 4)) (scope : BitVec 4) (weak : Bool) : PendStore where
  id := 0
  flag := flg
  scope := scope
  weak := weak
  release := false
  after := []
  waitFault := none
  bytes := []

/-- A byte of a weak store, written under a mask of its bits. With HINT 10 a line that the L1 does not hold is written
in the L2. -/
def weakByte (s : State) (k h : Nat) (hint : BitVec 2) (lf : Leaf) (v m : Byte) (o : ByteOwner) : State :=
  if peerKey ≤ h then
    peerWrite s (dieOfCore k) h ((homeByte s h &&& ~~~m) ||| (v &&& m))
  else
    let b := (l1Byte s k h &&& ~~~m) ||| (v &&& m)
    if hint = 2 && (l1Find s k (h / 128)).isNone then
      l2Write s (dieOfCore k) (h / 128) (BitVec.twoPow 128 (h % 128)) ((b.setWidth 1024) <<< (8 * (h % 128))) lf.dom lf.comp
    else l1WriteByte s k h (hint = 1) b lf.dom lf.comp o

/-- The bytes of a lane's store: address or offset, value, mask. -/
structure Put where
  p : Piece
  v : Byte
  m : Byte

/-- One byte of a store takes effect: in a local store and, for a weak store, in the L1, at once; a strong store of
wide scope is left to be performed. -/
def putByte (s : State) (e : Env) (how : How) (x : Put) : State × List PendByte :=
  match x.p.spot with
  | .error _ => (s, [])
  | .ok (.ls u off) =>
    let old := (match foldAt s u with
                | some f => cget 0 f.ls off
                | none => 0)
    (lsWrite (noteLevel s 2) u off ((old &&& ~~~x.m) ||| (x.v &&& x.m)), [])
  | .ok (.mem h lf) =>
    if how.wide then
      let base := if peerKey ≤ h then homeByte s h else l1Byte s e.fold.core h
      let old := ownByte e.fl h base
      (noteLevel s (levelOf s e.fold.core true h),
        [{ addr := h, va := x.p.va, value := (old &&& ~~~x.m) ||| (x.v &&& x.m), mask := 0xFF, lane := x.p.lane,
           dom := lf.dom, comp := lf.comp }])
    else
      let own : ByteOwner := { fold := e.fold.uid, flock := e.fi, lane := x.p.lane, va := x.p.va }
      (weakByte (noteLevel s (levelOf s e.fold.core false h)) e.fold.core h how.hint lf x.v x.m own, [])

/-- A byte of a store that takes effect at issue: one of a local store, and any of a narrow store. -/
def takesNow (how : How) (x : Put) : Bool :=
  match x.p.spot with
  | .ok (.ls _ _) => true
  | .ok (.mem _ _) => !how.wide
  | .error _ => false

/-- Words of local store of which all four bytes are written lose their error marks (R332). -/
def clearMarks (s : State) (bytes : List (Nat × Nat)) : State :=
  { s with folds := s.folds.map (fun f =>
      { f with lsMarks := f.lsMarks.filter (fun w =>
          !((List.range 4).all (fun i => bytes.contains (f.uid, 4 * w + i)))) }) }

/-- The local-store bytes that a store writes whole. -/
def clearLsMarks (s : State) (xs : List Put) : State :=
  clearMarks s (xs.filterMap (fun x => match x.p.spot with
                                       | .ok (.ls u off) => if x.m = 0xFF then some (u, off) else none
                                       | _ => none))

/-- The first fault of each page and reason among the bytes that wait, reported; the number of the first. -/
def reportAll (s : State) (ctx : Nat) : List (Nat × Reason) → Option Nat × State
  | [] => (none, s)
  | (pg, r) :: rest =>
    let (id, s1) := reportFault s ctx { page := pg, reason := r, acc := .write }
    (some id, (reportAll s1 ctx rest).2)

/-- A weak store's fault that stands is recorded against its flock (R292); a HOME_OFFLINE reply is counted (R374). -/
def storeFault (s : State) (uid fi lane va : Nat) (r : Reason) (stores : List Nat) : State :=
  let s1 := match (foldAt s uid).bind (fun f => (ctxOf s f).map (fun c => (f, c))) with
    | none => s
    | some (f, c) => noteReason s c f.core va r
  recordStore s1 uid fi lane va r stores

/-- A release point that takes effect at issue: every earlier access of the flock is performed, and what the core has
written becomes readable in the scope (R284, R286, R288). -/
def releaseNow (s : State) (e : Env) (sc : BitVec 4) : State :=
  releaseAt (drainStores (settleAll s e.fold.uid e.fi) e.fold.uid e.fi) e.fold.core sc

/-- What a store does before its bytes take effect: loads in flight of the same bytes settle (R189); a release point
that takes effect at issue comes after every earlier access, for the agents of its scope (R284, R288). -/
def beforeStore (s : State) (e : Env) (how : How) (release : Bool) (scope : BitVec 4) (xs : List Put) : State :=
  if release && (e.hand || xs.any (takesNow how)) then releaseNow s e scope
  else settlePlaces s e.fold.uid e.fi (xs.flatMap (fun x => spotPlaces x.p.spot 1))

/-- The bytes of a store, its parts located for a write. `strong` stores and those of a handler fault precisely. -/
def writePieces (s : State) (e : Env) (flg : Option (BitVec 4)) (how : How) (release : Bool) (scope : BitVec 4)
    (xs : List Put) : Res State :=
  let bad := badOf (xs.map (fun x => x.p))
  let precise := how.strong || e.hand
  let now := if precise then bad else bad.filter (fun x => x.2.2 == .range)
  match pickBad e.fl .write now with
  | some r => r
  | none =>
    if meetsWaiting e.fl (xs.map (fun x => x.p)) then .stall .interlock
    else
      let u := e.fold.uid
      -- the flock's earlier stores to these bytes come first (R189); a handler's store completes at once
      let homes := xs.filterMap (fun x => match x.p.spot with
                                          | .ok (.mem h _) => some h
                                          | _ => none)
      let early := e.hand || e.fl.stores.any (fun p => p.waitFault.isNone && p.bytes.any (fun b => homes.contains b.addr))
      let s0 := beforeStore s e how release scope xs
      let s1 := clearLsMarks (if early && (!how.wide || e.hand) then drainStores s0 u e.fi else s0) xs
      let (s2, pend) := xs.foldl (fun (a : State × List PendByte) x =>
        let r := putByte a.1 e how x
        (r.1, a.2 ++ r.2)) (s1, [])
      let reasons := bad.filterMap (fun x => match x.2.2 with
                                             | .reason r => some (x.1, x.2.1, r)
                                             | .range => none)
      let dead := reasons.filter (fun x => deadReason e.fl x.2.1 x.2.2)
      let waits := reasons.filter (fun x => !deadReason e.fl x.2.1 x.2.2)
      let s3 := match dead with
        | [] => s2
        | x :: _ => storeFault s2 u e.fi x.1 x.2.1 x.2.2 []
      let (wait, s4) := reportAll s3 e.ctx.id (waits.map (fun x => (pageBase x.2.1, x.2.2)))
      let left : List PendByte := xs.filterMap (fun x =>
        match x.p.spot with
        | .error (.reason r) =>
          if deadReason e.fl x.p.va r then none
          else some { addr := x.p.va, va := x.p.va, value := x.v, mask := x.m, lane := x.p.lane, dom := 0, comp := 0 }
        | _ => none)
      if e.hand then .ok (performBytes s4 e.fold.core u e.fi pend)
      else
        .ok (addStore s4 e { id := 0, flag := flg, scope := scope, weak := !how.strong, release := release,
                             after := if release then e.sp.path else [], waitFault := wait, bytes := if wait.isSome then left else pend })

end Sys2Proof.Machine
end

