-- ==== Sys2Proof/Machine/Format.lean ====
section
/-! DEFINITION. Software-defined formats: the FDR, decoding, rounding, stochastic rounding, immediates (R52 to R66,
R73). -/

namespace Sys2Proof.Machine

/-! ### The format definition register (R52, R53) -/

/-- An FDR, field by field. -/
structure Fdr where
  s : Nat
  e : Nat
  m : Nat
  bias : Int
  zc : Nat
  ic : Nat
  nc : Nat
  rm : Nat
  sat : Bool
  kind : Nat
  srw : Nat
  scslot : Nat
  blk : Nat
  deriving DecidableEq, Repr

def bitField (w : DWord) (lo n : Nat) : Nat := w.toNat / 2 ^ lo % 2 ^ n

def fdrOf (w : DWord) : Fdr where
  s := bitField w 0 1
  e := bitField w 1 4
  m := bitField w 5 5
  bias := if bitField w 10 9 < 256 then (bitField w 10 9 : Int) else (bitField w 10 9 : Int) - 512
  zc := bitField w 19 2
  ic := bitField w 21 2
  nc := bitField w 23 3
  rm := bitField w 26 3
  sat := bitField w 29 1 == 1
  kind := bitField w 30 2
  srw := bitField w 32 8
  scslot := bitField w 40 4
  blk := bitField w 44 3

/-- The element width w. -/
def Fdr.w (f : Fdr) : Nat := f.s + f.e + f.m

def Fdr.isInt (f : Fdr) : Bool := f.kind != 0

/-- The image is legal (R53). -/
def Fdr.legal (f : Fdr) : Bool :=
  1 ≤ f.w && f.w ≤ 32 && f.e ≤ 8 && f.m ≤ 23 && f.srw ≤ 24
    && f.zc != 3 && f.ic ≤ 1 && f.nc ≤ 3 && f.rm ≤ 5 && f.kind != 3 && f.blk ≤ 3
    && (f.rm != 5 || 1 ≤ f.srw)
    && (f.nc != 3 || f.s == 1)
    && (if f.kind = 0 then
          1 ≤ f.e
            && (f.ic != 1 || (2 ≤ f.e && (if 1 ≤ f.m then f.nc == 1 else f.nc == 0 || f.nc == 3)))
            && (f.nc != 1 || (f.ic == 1 && 1 ≤ f.m))
            && (f.nc != 2 || f.ic == 0)
        else
          f.s == f.kind - 1 && f.e == 0 && f.bias == 0 && f.zc == 0 && f.ic == 0 && f.nc == 0)

/-- Emin. -/
def Fdr.emin (f : Fdr) : Int := if f.zc = 2 then -f.bias else 1 - f.bias

/-! ### Exact values -/

/-- A value: a NaN, an infinity, or a signed fraction n/d with d positive; n = 0 is a signed zero. -/
inductive Num where
  | nan
  | inf (neg : Bool)
  | fin (neg : Bool) (n d : Nat)
  deriving DecidableEq, Repr

/-- n × 2^k as a value. -/
def Num.dyadic (neg : Bool) (n : Nat) (k : Int) : Num :=
  if 0 ≤ k then .fin neg (n * 2 ^ k.toNat) 1 else .fin neg n (2 ^ (-k).toNat)

def Num.ofInt (i : Int) : Num := .fin (i < 0) i.natAbs 1

def Num.zero : Num := .fin false 0 1

def Num.isNan : Num → Bool
  | .nan => true
  | _ => false

def Num.negate : Num → Num
  | .nan => .nan
  | .inf s => .inf (!s)
  | .fin s n d => .fin (!s) n d

def Num.abs : Num → Num
  | .nan => .nan
  | .inf _ => .inf false
  | .fin _ n d => .fin false n d

/-- The signed numerator. -/
def signedNum (neg : Bool) (n : Nat) : Int := if neg then -(n : Int) else n

/-- a < b for values that are not NaN, with −0 equal to +0. -/
def Num.lt : Num → Num → Bool
  | .nan, _ => false
  | _, .nan => false
  | .inf s, .inf t => s && !t
  | .inf s, .fin _ _ _ => s
  | .fin _ _ _, .inf t => !t
  | .fin s n d, .fin t m c => decide (signedNum s n * (c : Int) < signedNum t m * (d : Int))

/-- a = b for values that are not NaN. -/
def Num.eqv (a b : Num) : Bool := !a.isNan && !b.isNan && !a.lt b && !b.lt a

/-! ### Exact operations: value and flags -/

def fNV : BitVec 5 := 1
def fDZ : BitVec 5 := 2
def fOF : BitVec 5 := 4
def fUF : BitVec 5 := 8
def fNX : BitVec 5 := 16

/-- a + b; `down` is RM = 011, under which an exact zero from operands of opposite sign is −0 (R57). -/
def addNum (down : Bool) : Num → Num → Num × BitVec 5
  | .nan, _ => (.nan, 0)
  | _, .nan => (.nan, 0)
  | .inf s, .inf t => if s == t then (.inf s, 0) else (.nan, fNV)
  | .inf s, _ => (.inf s, 0)
  | _, .inf t => (.inf t, 0)
  | .fin s n d, .fin t m c =>
    let x := signedNum s n * (c : Int) + signedNum t m * (d : Int)
    if x = 0 then (.fin (if s == t && n = 0 && m = 0 then s else down) 0 1, 0)
    else (.fin (x < 0) x.natAbs (d * c), 0)

/-- a × b. -/
def mulNum : Num → Num → Num × BitVec 5
  | .nan, _ => (.nan, 0)
  | _, .nan => (.nan, 0)
  | .inf s, .inf t => (.inf (s != t), 0)
  | .inf s, .fin t m _ => if m = 0 then (.nan, fNV) else (.inf (s != t), 0)
  | .fin s n _, .inf t => if n = 0 then (.nan, fNV) else (.inf (s != t), 0)
  | .fin s n d, .fin t m c => (.fin (s != t) (n * m) (d * c), 0)

/-- a × b + c, one exact result; 0 × ∞ is invalid even when c is NaN (R163). -/
def fmaNum (down : Bool) (a b c : Num) : Num × BitVec 5 :=
  let (p, x) := mulNum a b
  let (r, y) := addNum down p c
  (r, x ||| y)

/-- a / b (R74). -/
def divNum : Num → Num → Num × BitVec 5
  | .nan, _ => (.nan, 0)
  | _, .nan => (.nan, 0)
  | .inf _, .inf _ => (.nan, fNV)
  | .inf s, .fin t _ _ => (.inf (s != t), 0)
  | .fin s _ _, .inf t => (.fin (s != t) 0 1, 0)
  | .fin s n d, .fin t m c =>
    if m = 0 then (if n = 0 then (.nan, fNV) else (.inf (s != t), fDZ))
    else (.fin (s != t) (n * c) (d * m), 0)

/-- The lesser, or the greater, of two operands (R164): a NaN gives way, −0 stands below +0. -/
def minNum (max : Bool) (a b : Num) : Num :=
  if a.isNan then b
  else if b.isNan then a
  else
    let less : Bool :=
      if a.eqv b then (match a, b with
                       | .fin true 0 _, .fin false 0 _ => true
                       | _, _ => false)
      else a.lt b
    if less != max then a else if a.eqv b && less == max then b else b

/-! ### Decoding (R56) -/

/-- The classes of R56 and R166. -/
inductive Cls where
  | nan | inf | normal | subnormal | zero
  deriving DecidableEq, Repr

/-- The sign, exponent and mantissa fields of a code. -/
def signBit (f : Fdr) (c : Nat) : Bool := f.s == 1 && c / 2 ^ (f.w - 1) % 2 == 1
def expField (f : Fdr) (c : Nat) : Nat := c / 2 ^ f.m % 2 ^ f.e
def manField (f : Fdr) (c : Nat) : Nat := c % 2 ^ f.m

/-- The class of a code in a float slot. -/
def clsOf (f : Fdr) (c : Nat) : Cls :=
  let e := expField f c
  let m := manField f c
  let top := e == 2 ^ f.e - 1
  if (f.nc = 1 && top && m != 0) || (f.nc = 2 && top && m == 2 ^ f.m - 1)
      || (f.nc = 3 && signBit f c && e = 0 && m = 0) then .nan
  else if f.ic = 1 && top && m = 0 then .inf
  else if e = 0 then
    (if f.zc = 2 then .normal else if m = 0 then .zero else if f.zc = 0 then .subnormal else .zero)
  else .normal

/-- The value of a code in a float slot. -/
def decodeFloat (f : Fdr) (c : Nat) : Num :=
  let s := signBit f c
  let e := expField f c
  let m := manField f c
  match clsOf f c with
  | .nan => .nan
  | .inf => .inf s
  | .zero => .fin s 0 1
  | .subnormal => .dyadic s m (1 - f.bias - f.m)
  | .normal => .dyadic s (2 ^ f.m + m) ((e : Int) - f.bias - f.m)

/-- Decode: the value of the low w bits. -/
def decodeNum (f : Fdr) (bits : Nat) : Num :=
  let c := bits % 2 ^ f.w
  if f.kind = 0 then decodeFloat f c
  else if f.kind = 2 && c / 2 ^ (f.w - 1) = 1 then .fin true (2 ^ f.w - c) 1
  else .fin false c 1

/-- The code, without sign, of the largest finite magnitude. -/
def maxCode (f : Fdr) : Nat :=
  let top := 2 ^ (f.e + f.m) - 1
  if f.ic = 1 then (2 ^ f.e - 1) * 2 ^ f.m - 1
  else if f.nc = 2 then top - 1
  else top

/-- MaxFinite of a float slot. -/
def maxFinite (f : Fdr) : Nat × Nat :=
  match decodeFloat { f with s := 0, nc := if f.nc = 3 then 0 else f.nc } (maxCode f) with
  | .fin _ n d => (n, d)
  | _ => (0, 1)

/-- The code of ±MaxFinite; a zero of that sign where MaxFinite is 0. -/
def codeMax (f : Fdr) (neg : Bool) : Nat :=
  let c := if (maxFinite f).1 = 0 then 0 else maxCode f
  if neg && f.s == 1 && !(c = 0 && f.nc = 3) then 2 ^ (f.w - 1) + c else c

/-- The canonical NaN, or the NaN substitute, of a slot. -/
def codeNan (f : Fdr) : Nat :=
  if f.kind = 1 then 2 ^ f.m - 1
  else if f.kind = 2 then 2 ^ f.m - 1
  else if f.nc = 1 then (2 ^ f.e - 1) * 2 ^ f.m + 2 ^ (f.m - 1)
  else if f.nc = 2 then 2 ^ (f.e + f.m) - 1
  else if f.nc = 3 then 2 ^ (f.w - 1)
  else codeMax f false

/-- The slot has a NaN. -/
def Fdr.hasNan (f : Fdr) : Bool := !f.isInt && f.nc != 0

def codeInf (f : Fdr) (neg : Bool) : Nat :=
  (2 ^ f.e - 1) * 2 ^ f.m + (if neg && f.s == 1 then 2 ^ (f.w - 1) else 0)

/-- A zero: +0 for −0 where the slot has no −0. -/
def codeZero (f : Fdr) (neg : Bool) : Nat := if neg && f.s == 1 && f.nc != 3 then 2 ^ (f.w - 1) else 0

/-! ### Rounding (R58 to R60) -/

/-- n/d ≥ 2^k. -/
def geTwo (n d : Nat) (k : Int) : Bool :=
  if 0 ≤ k then d * 2 ^ k.toNat ≤ n else d ≤ n * 2 ^ (-k).toNat

/-- floor(log2(n/d)) of a positive fraction. -/
def log2Frac (n d : Nat) : Int :=
  let k := (Nat.log2 n : Int) - (Nat.log2 d : Int)
  if geTwo n d k then k else k - 1

/-- floor((n/d) / 2^k), and the remainder as a fraction r/D of 2^k. -/
def quantum (n d : Nat) (k : Int) : Nat × Nat × Nat :=
  let x := if 0 ≤ k then n else n * 2 ^ (-k).toNat
  let y := if 0 ≤ k then d * 2 ^ k.toNat else d
  (x / y, x % y, y)

/-- Which of lo and hi a rounding mode takes (R58, R62): the fraction r/D, the sign, and whether lo is the even
candidate. True is hi. -/
def roundUp (rm srw rnd : Nat) (neg loEven : Bool) (r D : Nat) : Bool :=
  if r = 0 then false
  else match rm with
    | 0 => if 2 * r = D then !loEven else D < 2 * r
    | 4 => D ≤ 2 * r
    | 1 => false
    | 2 => !neg
    | 3 => neg
    | _ => 2 ^ srw ≤ r * 2 ^ srw / D + rnd / 2 ^ (32 - srw)

/-- The overflow policy (R59). -/
def overflowCode (f : Fdr) (rm : Nat) (neg : Bool) : Nat :=
  if f.sat || rm = 1 || (rm = 2 && neg) || (rm = 3 && !neg) then codeMax f neg
  else if f.ic = 1 then codeInf f neg
  else if f.hasNan then codeNan f
  else codeMax f neg

/-- The code of the magnitude i × 2^k, which the slot can represent. -/
def codeMag (f : Fdr) (neg : Bool) (i : Nat) (k : Int) : Nat :=
  if i = 0 then codeZero f neg
  else
    let top := (Nat.log2 i : Int) + k
    let sub := f.zc != 2 && decide (top < f.emin)
    let q := if sub then f.emin - f.m else top - f.m
    let mant := if 0 ≤ k - q then i * 2 ^ (k - q).toNat else i / 2 ^ (q - k).toNat
    let body := if sub then mant else (top + f.bias).toNat * 2 ^ f.m + (mant - 2 ^ f.m)
    body + (if neg && f.s == 1 then 2 ^ (f.w - 1) else 0)

/-- The magnitude i × 2^k exceeds MaxFinite. -/
def overMax (f : Fdr) (i : Nat) (k : Int) : Bool :=
  let (n, d) := maxFinite f
  if 0 ≤ k then n < i * 2 ^ k.toNat * d else n * 2 ^ (-k).toNat < i * d

/-- i × 2^k as a fraction. -/
def fracOf (i : Nat) (k : Int) : Nat × Nat := if 0 ≤ k then (i * 2 ^ k.toNat, 1) else (i, 2 ^ (-k).toNat)

/-- RoundTo for a float slot, under a mode. -/
def roundFloat (f : Fdr) (rm rnd : Nat) : Num → Nat × BitVec 5
  | .nan => (codeNan f, if f.hasNan then 0 else fNV)
  | .inf neg =>
    if f.s = 0 && neg then (codeNan f, fNV)
    else if f.ic = 1 then (codeInf f neg, 0)
    else (overflowCode f rm neg, fOF ||| fNX)
  | .fin neg n d =>
    if n = 0 then
      (if f.zc = 2 then (codeMag f false 1 f.emin, fUF ||| fNX) else (codeZero f neg, 0))
    else if f.s = 0 && neg then (codeNan f, fNV)
    else
      let k := max (log2Frac n d) f.emin - f.m
      let (lo, r, D) := quantum n d k
      let loEven := if f.m = 0 then lo = 0 || (k + f.bias) % 2 = 0 else lo % 2 = 0
      let y0 := if roundUp rm f.srw rnd neg loEven r D then lo + 1 else lo
      let tiny := !geTwo n d f.emin
      let (y, ky, changed) : Nat × Int × Bool :=
        if f.zc = 2 && tiny then (1, f.emin, true)
        else if f.zc = 1 && y0 != 0 && !geTwo (fracOf y0 k).1 (fracOf y0 k).2 f.emin then (0, k, true)
        else (y0, k, r != 0)
      let big := overMax f y ky
      let inexact := changed || big
      let code := if big then overflowCode f rm neg else codeMag f neg y ky
      (code, (if big then fOF else 0) ||| (if inexact then fNX else 0) ||| (if tiny && inexact then fUF else 0))

/-- The integer nearest a fraction under a mode, as R58 with q = 1, and whether it differs. -/
def roundInt (rm srw rnd : Nat) (neg : Bool) (n d : Nat) : Nat × Bool :=
  let i := n / d
  let r := n % d
  (if roundUp rm srw rnd neg (i % 2 = 0) r d then i + 1 else i, r != 0)

/-- The bounds of an integer slot. -/
def intMax (f : Fdr) : Int := 2 ^ f.m - 1
def intMin (f : Fdr) : Int := if f.kind = 1 then 0 else -(2 ^ f.m)

/-- The low w bits of an integer. -/
def intCode (f : Fdr) (i : Int) : Nat := (i % (2 ^ f.w : Int)).toNat

/-- RoundTo for an integer slot (R60). -/
def roundIntSlot (f : Fdr) (rm rnd : Nat) : Num → Nat × BitVec 5
  | .nan => (codeNan f, fNV)
  | .inf neg => (intCode f (if neg then intMin f else intMax f), fOF)
  | .fin neg n d =>
    let (i, nx) := roundInt rm f.srw rnd neg n d
    let x := signedNum neg i
    let fl : BitVec 5 := if nx then fNX else 0
    if x < intMin f then (intCode f (if f.sat then intMin f else x), fl ||| fOF)
    else if intMax f < x then (intCode f (if f.sat then intMax f else x), fl ||| fOF)
    else (intCode f x, fl)

/-- RoundTo(x, slot) under a mode, with word 0 of the random bits. -/
def roundTo (f : Fdr) (rm rnd : Nat) (x : Num) : Nat × BitVec 5 :=
  if f.kind = 0 then roundFloat f rm rnd x else roundIntSlot f rm rnd x

/-! ### Stochastic rounding (R61, R63) -/

/-- Word 0 of PhiloxBits. -/
def philox0 (key : DWord) (x0 x1 x2 x3 : Nat) : Nat :=
  (philoxRounds 10 (x0, x1, x2, x3) (key.toNat % 2 ^ 32) (key.toNat / 2 ^ 32)).1

/-! ### Immediates (R73) -/

/-- IEEE binary16 and binary32. -/
def fdrHalf : Fdr :=
  { s := 1, e := 5, m := 10, bias := 15, zc := 0, ic := 1, nc := 1, rm := 0, sat := false, kind := 0, srw := 0,
    scslot := 0, blk := 0 }
def fdrSingle : Fdr :=
  { s := 1, e := 8, m := 23, bias := 127, zc := 0, ic := 1, nc := 1, rm := 0, sat := false, kind := 0, srw := 0,
    scslot := 0, blk := 0 }

/-- The code of a float immediate's value in a float slot. -/
def immCode (f : Fdr) (x : Num) : Nat :=
  let negative : Bool := match x with
    | .inf s => s
    | .fin s _ _ => s
    | .nan => false
  if x.isNan then codeNan f
  else if f.s = 0 && negative then (if f.zc = 2 then codeMag f false 1 f.emin else 0)
  else match x with
    | .inf s => if f.ic = 1 then codeInf f s else codeMax f s
    | _ => (roundFloat f 0 0 x).1

end Sys2Proof.Machine
end

