-- ==== Sys2Proof/Machine/Elements.lean ====
section
/-! DEFINITION. Elements in registers: lane mode and row mode (R67, R68, R155), and the sources and results of
format-slot instructions (R57, R63, R64, R102, R156). -/

namespace Sys2Proof.Machine

/-! ### Rows -/

/-- A row, from the word of each lane. -/
def rowNat (f : Nat → Word) : Nat := lanes.foldr (fun l r => (f l).toNat + 2 ^ 32 * r) 0

/-- Element `i` of a row. -/
def rowElem (row w i : Nat) : Nat := row / 2 ^ (i * w) % 2 ^ w

/-- Every lane that holds one of the element's bits is in the mask. -/
def elemActive (act : LaneMask) (w i : Nat) : Bool :=
  (List.range ((i * w + w - 1) / 32 - i * w / 32 + 1)).all (fun j => inMask act (i * w / 32 + j))

/-- Replace elements of width `w` in a register's row: other bits keep their values. -/
def setElems (fl : Flock) (r w : Nat) (xs : List (Nat × Nat)) : Flock :=
  let val := xs.foldl (fun v x => v + (x.2 % 2 ^ w) * 2 ^ (x.1 * w)) 0
  let msk := xs.foldl (fun v x => v + (2 ^ w - 1) * 2 ^ (x.1 * w)) 0
  lanes.foldl (fun u l =>
    let m : Word := BitVec.ofNat 32 (msk / 2 ^ (32 * l) % 2 ^ 32)
    if m = 0 then u
    else setV u r l ((cget 0 fl.v (r * 64 + l) &&& ~~~m) ||| BitVec.ofNat 32 (val / 2 ^ (32 * l) % 2 ^ 32))) fl

/-- Indices of the elements in which the instruction acts. -/
def elemIdx (e : Env) (row : Bool) (w : Nat) : List Nat :=
  if row then (List.range (2048 / w)).filter (elemActive e.act w) else lanes.filter (inMask e.act)

/-- The lane that holds an element's bit 0. -/
def laneOfElem (row : Bool) (w i : Nat) : Nat := if row then i * w / 32 else i

/-! ### Words that rows name (R96) -/

/-- The lanes that hold a bit of one of the elements. -/
def rowLanes (w : Nat) (els : List Nat) : List Nat :=
  lanes.filter (fun l => els.any (fun i => i * w / 32 ≤ l && l ≤ (i * w + w - 1) / 32))

/-- A routed register is read in lanes: acting lane, and the lane whose routed word it reads. -/
def routedReads (e : Env) (r : Reg) (rt : BitVec 12) (xs : List (Nat × Nat)) : Names :=
  { vx := xs.map (fun x => (x.1, r.toNat, routeLane e rt x.2)), vn := [r.toNat],
    xl := (routeIdx rt).flatMap (fun i => xs.map (fun x => (i, x.2))) }

/-- A source of a row-mode instruction, read in the words that hold elements. -/
def rowReads (e : Env) (w : Nat) (els : List Nat) (x : Src) : Names :=
  match x with
  | .v r rt => routedReads e r rt ((rowLanes w els).map (fun l => (l, l)))
  | _ => srcNames 1 [x]

/-- A destination register of which elements are written. -/
def rowWrites (w d : Nat) (els : List Nat) : Names := { wx := (rowLanes w els).map (fun l => (l, d, l)), vn := [d] }

/-- The sources and the destination of an instruction that works in lane mode or in row mode. -/
def elemNames (e : Env) (row : Bool) (w d : Nat) (xs : List Src) : Names :=
  if row then
    let els := elemIdx e true w
    xs.foldl (fun n x => n.also (rowReads e w els x)) (rowWrites w d els)
  else { srcNames 1 xs with vw := [d] }

/-! ### Sources -/

/-- The routed row of a vector register. -/
def routedRow (e : Env) (k : Nat) (r : Reg) (rt : BitVec 12) : Nat :=
  rowNat (fun l => readV e (laneOpnd k l) r.toNat (routeLane e rt l))

/-- The code that a source supplies to each element. -/
def srcCode (e : Env) (f : Fdr) (row : Bool) (k : Nat) (x : Src) : Nat → Nat :=
  match x with
  | .v r rt =>
    if row then
      let rw := routedRow e k r rt
      fun i => rowElem rw f.w i
    else fun l => (readV e (laneOpnd k l) r.toNat (routeLane e rt l)).toNat % 2 ^ f.w
  | .s r =>
    let c := (readS e k r.toNat).toNat % 2 ^ f.w
    fun _ => c
  | .imm v =>
    let c := if f.isInt then v.toNat % 2 ^ f.w else immCode f (decodeFloat fdrSingle v.toNat)
    fun _ => c
  | .imm16 v =>
    let c := if f.isInt then (v.signExtend 32).toNat % 2 ^ f.w else immCode f (decodeFloat fdrHalf v.toNat)
    fun _ => c

/-- ABS, then NEG, on a decoded value (R102). -/
def signMod (neg abs : Bool) (x : Num) : Num :=
  let y := if abs then x.abs else x
  if neg then y.negate else y

/-- The value that a source supplies to each element. -/
def srcNum (e : Env) (f : Fdr) (row : Bool) (k : Nat) (x : FSrc) : Nat → Num :=
  let c := srcCode e f row k x.src
  fun i => signMod x.neg x.abs (decodeNum f (c i))

/-! ### Random bits (R61 to R64, R156) -/

/-- The random word of an element. -/
def rndWord (e : Env) (x2 : Word) (row : Bool) (w i : Nat) : Nat :=
  let idx := e.fold.foldId * 2 ^ 16 + e.fi * 2 ^ 12 + i
  philox0 e.launch.srseed (idx % 2 ^ 32) (idx / 2 ^ 32 % 2 ^ 32) x2.toNat (cget 0 e.fl.srcount (laneOfElem row w i)).toNat

/-- The tensor identifier named in AUX. -/
def tidWord (e : Env) : Option (BitVec 5) → Word
  | none => 0
  | some r => readS e 7 r.toNat

/-! ### Results -/

/-- Write the codes of elements, OR their flags, and advance SRCOUNT where the rounding is stochastic. -/
def putElems (e : Env) (fl : Flock) (row stoch : Bool) (w d : Nat) (xs : List (Nat × Nat × BitVec 5)) : Flock :=
  let fl1 := if row then setElems fl d w (xs.map (fun x => (x.1, x.2.1)))
             else xs.foldl (fun u x => setV u d x.1 (BitVec.ofNat 32 x.2.1)) fl
  let fl2 := orFlags fl1 (xs.foldl (fun a x => a ||| x.2.2) 0)
  if stoch then bumpSrcount fl2 e.act else fl2

/-- The slot that an instruction names, as it stands at issue (R54). -/
def slotFdr (e : Env) (fs : BitVec 4) : Fdr := fdrOf (slotOf e.fl fs.toNat)

/-- The names of a format-slot instruction; the identifier's register counts when it is used. -/
def fmtNames (s : State) (g : Guard) (fs : BitVec 4) (row : Bool) (tid : Option (BitVec 5)) (d : Reg) (xs : List Src) : Names :=
  named s g (fun e =>
    let f := slotFdr e fs
    let n := elemNames e row f.w d.toNat xs
    { n with s := n.s ++ (if f.rm = 5 then (tid.map (fun r => r.toNat)).toList else []) })

/-- A format-slot instruction: for each active element, the code and flags from the source values and the random
word (R155, R156, R163). `draws` is false for the instructions that never round stochastically. -/
def fmtOp (s : State) (g : Guard) (fs : BitVec 4) (row : Bool) (tid : Option (BitVec 5)) (draws : Bool) (d : Reg)
    (xs : List FSrc) (op : Fdr → Nat → List Num → Nat × BitVec 5) : Host.Outcome State Fault Refusal :=
  runFlock s g false (fmtNames s g fs row (if draws then tid else none) d (xs.map (fun x => x.src))) (fun e =>
    let f := slotFdr e fs
    let stoch := draws && f.rm == 5
    let src := (List.range xs.length).zip xs |>.map (fun x => srcNum e f row x.1 x.2)
    let x2 := if stoch then tidWord e tid else 0
    let rs := (elemIdx e row f.w).map (fun i =>
      let rnd := if stoch then rndWord e x2 row f.w i else 0
      let r := op f rnd (src.map (fun h => h i))
      (i, r.1, r.2))
    .ok (putElems e e.fl row stoch f.w d.toNat rs))

/-- The rounded result of an exact operation, with its flags. -/
def rounded (f : Fdr) (rnd : Nat) (x : Num × BitVec 5) : Nat × BitVec 5 :=
  let r := roundTo f f.rm rnd x.1
  (r.1, x.2 ||| r.2)

end Sys2Proof.Machine
end

