-- ==== Sys2Proof/Machine/Journal.lean ====
section
/-! DEFINITION. Journal records, acceptance and completion of Zutix commands (R356 to R360, R365, R366). -/

namespace Sys2Proof.Machine

/-! ### Statuses (R360) -/

def stOk : Nat := 0
def stAlready : Nat := 0x10
def stGap : Nat := 0x11
def stBusy : Nat := 0x12
def stBadMsg : Nat := 0x13
def stDenied : Nat := 0x14
def stGone : Nat := 0x15
def stLinkFail : Nat := 0x16
def stFailed : Nat := 0x20

/-! ### Records -/

def recordAt (s : State) (ep index : Nat) : Option JournalRec :=
  (endpointAt s ep).journal.find? (fun r => r.index == index)

/-- STATE 2, and CLOCK at the start. -/
def startRecord (s : State) (ep index : Nat) : State :=
  updRecord s ep index (fun r =>
    if r.state = 1 then { r with state := 2, times := (r.times.1, s.clock, r.times.2.2) } else r)

/-- Count ended items. -/
def addItems (s : State) (ep index n : Nat) : State := updRecord s ep index (fun r => { r with items := r.items + n })

/-- The ring keeps 65,536 records; an older one goes once its command has completed (R365). -/
def trimRing (js : List JournalRec) : List JournalRec :=
  js.filter (fun r => !(3 ≤ r.state && js.any (fun q => r.index + Config.ringSize ≤ q.index)))

/-- A new record. -/
def newRecord (s : State) (ep seq : Nat) (tag : DWord) (type : Nat) (state status pastid : Nat) : Nat × State :=
  let e := endpointAt s ep
  let r : JournalRec :=
    { index := e.nextIndex, seq := seq, tag := tag, type := type, state := state, status := status,
      pastid := BitVec.ofNat 32 pastid, times := (s.clock, 0, if 3 ≤ state then s.clock else 0), items := 0, fails := 0,
      first := [] }
  (e.nextIndex,
   putRing s ep { e with nextIndex := e.nextIndex + 1 } (trimRing (e.journal ++ [r])))

/-! ### Replies -/

def sendAccept (s : State) (m : Msg) (status : Nat) (index : Nat) : State :=
  sendMsg s { ep := m.ep, type := 0x81, seq := m.seq, tag := m.tag, status := status, payload := leBytes 8 index }

/-- An outright refusal (R358). -/
def refuseMsg (s : State) (m : Msg) (status : Nat) : State := sendAccept s m status (2 ^ 64 - 1)

/-- The COMPLETE of a command: its record is written first, and a repeated SEND is answered with it again. -/
def complete (s : State) (ep index state status : Nat) (extra : List Byte) : State :=
  let s1 := updRecord s ep index (fun r =>
    if r.state < 3 then { r with state := state, status := status, times := (r.times.1, r.times.2.1, s.clock) } else r)
  let e := endpointAt s1 ep
  let payload := leBytes 8 index ++ extra
  let s2 := putEndpoint s1 ep { e with accepted := e.accepted.map (fun a =>
    if a.index == index then { a with done := some payload, status := status } else a) }
  match e.accepted.find? (fun a => a.index == index) with
  | none => s2
  | some a => sendMsg s2 { ep := ep, type := 0x82, seq := a.seq, tag := a.tag, status := status, payload := payload }

/-- The records of a ring as a JOURNAL reads them: a whole copy on a die that can be reached (R365). -/
def ringOf (s : State) (ep : Nat) : List JournalRec :=
  let e := endpointAt s ep
  if e.copies.any (fun d => !dieOffline s d) then e.journal else []

/-- What an endpoint keeps of accepted commands: those of the last 8,192 SEQs, and those not completed (R358). -/
def keepAccepted (e : Endpoint) (seq : Nat) : List Accepted :=
  e.accepted.filter (fun a => seq ≤ a.seq + 8192 || e.journal.any (fun r => r.index == a.index && r.state < 3))

/-- Commands of an endpoint accepted and not completed. -/
def outstanding (e : Endpoint) : Nat :=
  (e.journal.filter (fun r => r.state < 3 && e.accepted.any (fun a => a.index == r.index))).length

/-- What R358 answers to a SEQ: the refusal that is sent, or none when the command is taken. -/
def seqCheck (s : State) (m : Msg) : Option State :=
  let e := endpointAt s m.ep
  if m.seq = e.h + 1 then (if 4096 ≤ outstanding e then some (refuseMsg s m stBusy) else none)
  else if 1 ≤ m.seq && m.seq ≤ e.h && e.h ≤ m.seq + 8191 then
    match e.accepted.find? (fun a => a.seq == m.seq) with
    | none => some (refuseMsg s m stGap)
    | some a =>
      let s1 := sendAccept s m stAlready a.index
      (match a.done with
       | none => some s1
       | some p => some (sendMsg s1 { ep := m.ep, type := 0x82, seq := m.seq, tag := m.tag, status := a.status, payload := p }))
  else some (refuseMsg s m stGap)

/-- Take a command: H advances, the record is written, ACCEPT is sent. Answers its INDEX. -/
def takeCommand (s : State) (m : Msg) (type status pastid : Nat) : Nat × State :=
  let (i, s1) := newRecord s m.ep m.seq m.tag type (if status = 0 then 1 else 4) status pastid
  let e := endpointAt s1 m.ep
  let s2 := putEndpoint s1 m.ep
    { e with h := m.seq,
             accepted := keepAccepted e m.seq
               ++ [{ seq := m.seq, index := i, tag := m.tag, done := none, status := status }] }
  (i, sendAccept s2 m status i)

/-- The header is not that of a message of this type with a payload of `n` bytes, or QUEUE has a bit that must be 0; a COPY
has its priority in [10:8] (R356, R357). -/
def headBad (m : Msg) (type n : Nat) : Bool :=
  let w := m.queue.toNat
  m.type != type || m.len != n || m.bytes != 32 + n || 4096 < m.bytes || m.status != 0 || m.zero != 0
    || (if type = 2 then w / 2 ^ 6 % 4 != 0 || w / 2 ^ 11 != 0 else w / 2 ^ 6 != 0)

/-- A command with an outcome of its own at acceptance: refusals, then `act` with its INDEX. `n` is the size of its
payload, `bad` BADMSG for another cause than the header's, `reject` a rejection status. -/
def withCommand (s : State) (m : Msg) (type n : Nat) (bad : Bool) (reject : Nat) (pastid : Nat)
    (act : Nat → State → State) : State :=
  if s.boot != .running then s
  else if !(endpointAt s m.ep).up then { s with replies := s.replies ++ [.nakInvalid m.ep] }
  else if headBad m type n || bad then refuseMsg s m stBadMsg
  else match seqCheck s m with
    | some t => t
    | none =>
      let (i, t) := takeCommand s m type reject pastid
      if reject = 0 then act i t else t

/-- The bytes of a message that the device sends: the header of R356, then the payload. -/
def msgBytes (m : OutMsg) : List Byte :=
  leBytes 2 m.type ++ leBytes 2 m.payload.length ++ leBytes 4 0 ++ leBytes 8 m.seq ++ leBytes 8 m.tag.toNat
    ++ leBytes 4 m.status ++ leBytes 4 0 ++ m.payload

/-- QUERY and JOURNAL: one DATA in place of ACCEPT and COMPLETE. -/
def sendData (s : State) (m : Msg) (status : Nat) (bytes : List Byte) : State :=
  sendMsg s { ep := m.ep, type := 0x84, seq := m.seq, tag := m.tag, status := status, payload := bytes }

end Sys2Proof.Machine
end

