-- ==== Sys2Proof/Machine/EngineBase.lean ====
section
/-! DEFINITION. Engine commands: acceptance, the range scoreboard, completion and batches, and the accesses that an
engine makes (R211, R214, R236, R296 to R300, R308). -/

namespace Sys2Proof.Machine

/-! ### Commands of a core -/

def cmdAt (s : State) (k id : Nat) : Option Cmd := (coreAt s k).cmds.find? (fun c => c.id == id)

def putCmd (s : State) (k : Nat) (c : Cmd) : State :=
  let x := coreAt s k
  putCore s k { x with cmds := x.cmds.map (fun d => if d.id == c.id then c else d) }

/-- A scalar operand as read at issue. -/
def regAt (c : Cmd) (i : Nat) : Word := (c.regs[i]?).getD 0
def regPair (c : Cmd) (i : Nat) : Nat := (pair (regAt c i) (regAt c (i + 1))).toNat

/-- The fold that issued a command. -/
def cmdFold (s : State) (c : Cmd) : Option Fold :=
  match c.owner with
  | .flock u _ => foldAt s u
  | .host _ _ => none

def cmdCtx (s : State) (c : Cmd) : Option Context :=
  match c.owner with
  | .flock u _ => (foldAt s u).bind (ctxOf s)
  | .host x _ => ctxAt s x

/-- The context of an engine command, by number. -/
def ownerCtx (s : State) (c : Cmd) : Option Nat := (cmdCtx s c).map (fun x => x.id)

/-! ### Acceptance (R211, R296, R297) -/

/-- A command with its operands as read. -/
def newCmd (owner : Owner) (i : Instr) (rows : LaneMask) (regs : List Word) (slots : List DWord) (flag : Option (BitVec 4))
    (scope : BitVec 4) (seed : DWord) : Cmd where
  id := 0
  owner := owner
  instr := i
  rows := rows
  regs := regs
  slots := slots
  vR := []
  srcount := []
  flag := flag
  seed := seed
  recs := []
  host := 0
  started := false
  faults := []
  dead := []
  scope := scope
  step := 0
  sums := []
  pins := []
  copies := []
  reads := []
  fetched := 0
  valid := false
  src := []
  dst := []
  res := []
  bad := 0
  plan := []
  flight := []
  ended := []
  failed := []
  fl := 0
  ovf := false
  idxErr := false
  wrote := []
  got := []
  was := []
  lostWrite := none

/-- A command joins its core's queues. -/
def enqueueCmd (s : State) (k q : Nat) (c : Cmd) : State :=
  let x := coreAt s k
  putCore s k { x with cmds := x.cmds ++ [c], turn := q }

/-- The core accepts a command of a flock: it joins the queue and the open batch, and its flag rises. Issue is a
release for the command's sources (R211, R286): the accesses before it on the path are performed first. -/
def acceptCmd (s : State) (e : Env) (c : Cmd) : Res State :=
  if !e.fold.preempt && hasRoom s e.fold.core (isCopy c) && engineTurn s e.fold.core e.fl.quad then
    let (id, s1) := fresh (releaseNow s e c.scope)
    .ok (onFlock (enqueueCmd s1 e.fold.core e.fl.quad { c with id := id }) e.fold.uid e.fi (fun fl =>
      flagUp { fl with openCmds := fl.openCmds ++ [id] } c.flag))
  else .stall (.engineq (isCopy c))

/-- The issue of an engine command: what holds it back, its traps in order, then acceptance. -/
def issueCmd (s : State) (e : Env) (traps : List (Option TrapInfo)) (c : Cmd) : Res State :=
  if e.act = 0 then .ok s
  else match holdUp e c.flag true true with
    | some w => .stall w
    | none =>
      match traps.findSome? id with
      | some t => .trap t
      | none => acceptCmd s e c

/-- A trap when the condition holds. -/
def trapIf (b : Bool) (cause detail : Nat) : Option TrapInfo := if b then some (plainTrap cause detail) else none

/-- AMRANGE: the lowest tile at or above AMTILES among ranges of tiles (R323). -/
def amRange (e : Env) (rs : List (Nat × Nat)) : Option TrapInfo :=
  let beyond := rs.filterMap (fun r => if e.launch.amtiles < r.1 + r.2 then some (max e.launch.amtiles r.1) else none)
  match beyond with
  | [] => none
  | x :: r => some (plainTrap 0x19 (r.foldl min x % 256))

/-! ### Completion and batches (R214, R236) -/

/-- BATCHDONE advances over completed batches in number order. -/
def advanceDone : Nat → Flock → Flock
  | 0, fl => fl
  | n + 1, fl =>
    match fl.batches with
    | [] => fl
    | b :: r =>
      if b.cmds.isEmpty && b.num == fl.batchDone then
        advanceDone n { fl with batches := r, batchDone := fl.batchDone + 1 }
      else fl

/-- A batch with no command left has completed: the flag of its CPYB decrements. -/
def settleBatches (fl : Flock) : Flock :=
  let fl1 := (fl.batches.filter (fun b => b.cmds.isEmpty)).foldl (fun u b => flagDown u b.flag)
    { fl with batches := fl.batches.map (fun b => if b.cmds.isEmpty then { b with flag := none } else b) }
  advanceDone 256 fl1

/-- A command completes: it leaves the scoreboard, its flag decrements and its batch goes on. -/
def completeCmd (s : State) (k : Nat) (c : Cmd) : State :=
  let x := coreAt s k
  let s1 := putCore s k { x with cmds := x.cmds.filter (fun d => d.id != c.id) }
  match c.owner with
  | .host _ _ => s1
  | .flock u fi =>
    onFlock s1 u fi (fun fl =>
      settleBatches (flagDown
        { fl with openCmds := fl.openCmds.filter (· != c.id),
                  batches := fl.batches.map (fun b => { b with cmds := b.cmds.filter (· != c.id) }) } c.flag))

/-- Record ENGFAULT against the issuing flock (R215). -/
def engFault (s : State) (c : Cmd) (acc : Access) (reason addr : Nat) : State :=
  match c.owner with
  | .host _ _ => s
  | .flock u fi =>
    onFlock s u fi (fun fl => addRecord fl 0x02 (BitVec.ofNat 32 (memDetail 255 acc reason)) (BitVec.ofNat 64 addr) s.clock [])

/-- An engine that meets an uncorrectable error in local store or a tile fails the fold (R332). -/
def engSram (s : State) (c : Cmd) : State :=
  match c.owner with
  | .flock u _ => failFold s u 0x11F
  | .host _ _ => s

/-! ### The range scoreboard (R298, R299) -/

/-- The physical places of a command: tiles, and byte ranges of a fold's local store, first and last byte. -/
structure Places where
  tiles : List (Nat × Nat) := []
  ls : List (Nat × Nat × Nat) := []
  deriving DecidableEq, Repr

/-- Two ranges of one fold share a 64-byte granule. -/
def granMeet (a b : Nat × Nat × Nat) : Bool :=
  a.1 == b.1 && a.2.1 / 64 ≤ b.2.2 / 64 && b.2.1 / 64 ≤ a.2.2 / 64

def Places.meets (a b : Places) : Bool :=
  a.tiles.any (fun t => b.tiles.contains t) || a.ls.any (fun x => b.ls.any (granMeet x))

/-! ### Accesses of an engine (R219, R232, R247) -/

/-- Where an engine's access at a virtual address lies: the aperture of the issuing fold, or memory. Addresses do not wrap
(R218). -/
def engSpot (s : State) (k : Nat) (c : Cmd) (acc : Access) (va n : Nat) : Except Reason Spot :=
  match cmdCtx s c with
  | none => .error rNotValid
  | some x =>
    if 2 ^ 64 ≤ va then .error rAddress
    else
    let inside : Option (Except Reason Spot) := match apertureOff x va with
      | none => none
      | some d =>
        match cmdFold s c with
        | none => some (.error rAperture)
        | some f =>
          match launchAt s f.launch with
          | none => some (.error rAperture)
          | some l =>
            match apertureSpot s f l d n with
            | none => some (.error rAperture)
            | some (u, off) => some (.ok (.ls u off))
    match inside with
    | some r => r
    | none =>
      match translate s (some k) x.id x.ptroot.toNat acc va with
      | .error r => .error r
      | .ok (h, lf) => if homeOffline s h then .error rOffline else .ok (.mem h lf)

/-- What an engine's access met: a value, a replayable fault to wait on, or a fault that stands. -/
inductive Got (α : Type) where
  | ok (a : α)
  | wait (p : PageFault)
  | bad (reason : Reason) (addr : Nat)

/-- The fault of an engine's access at an address. -/
def engBad {α : Type} (c : Cmd) (acc : Access) (va : Nat) (r : Reason) : Got α :=
  if resolvable r && !c.dead.contains (pageBase va, r) then .wait { page := pageBase va, reason := r, acc := acc }
  else .bad r va

/-- The byte that an engine of a die reads at a spot: through the L2, after what its own core has written; from a peer uncached
(R266). -/
def engByte (s : State) (k : Nat) (sp : Spot) : Byte :=
  match sp with
  | .ls u off => lsByte s u off
  | .mem h _ =>
    if peerKey ≤ h then homeByte s h
    else match l1Find s k (h / 128) with
      | some x => if x.dirty.getLsbD (h % 128) then lineByte x.data (h % 128) else homeByte s h
      | none => homeByte s h

/-- Read one byte at a virtual address, or a fault. A local-store error is UNCORR for a copy. -/
def engRead (s : State) (k : Nat) (c : Cmd) (va : Nat) : Got Byte :=
  match engSpot s k c .read va 1 with
  | .error r => engBad c .read va r
  | .ok (.ls u off) =>
    if (foldAt s u).any (fun f => f.lsMarks.contains (off / 4)) then .bad rUncorr va else .ok (lsByte s u off)
  | .ok (.mem h lf) =>
    if h < peerKey && dieUncorr s (dieOfCore k) (h / 128) then .bad rUncorr va
    else
      .ok (paramByte s 257 h (engByte s k (.mem h lf)))

/-- The L2 lines that an engine's read touches are installed (R381), but for those of peers (R266). -/
def engTouch (s : State) (k : Nat) (c : Cmd) (va : Nat) : State :=
  match engSpot s k c .read va 1 with
  | .ok (.mem h lf) => if peerKey ≤ h then s else l2Touch s (dieOfCore k) (h / 128) lf.dom lf.comp
  | _ => s

/-- Read consecutive bytes; the first fault ends the reading. -/
def engReads (s : State) (k : Nat) (c : Cmd) : Nat → Nat → Got (List Byte)
  | _, 0 => .ok []
  | va, n + 1 =>
    match engRead s k c va with
    | .wait p => .wait p
    | .bad r a => .bad r a
    | .ok b =>
      match engReads s k c (va + 1) n with
      | .ok bs => .ok (b :: bs)
      | .wait p => .wait p
      | .bad r a => .bad r a

/-- Where one byte may be written, or a fault. -/
def engWritable (s : State) (k : Nat) (c : Cmd) (va : Nat) : Got Spot :=
  match engSpot s k c .write va 1 with
  | .error r => engBad c .write va r
  | .ok sp => .ok sp

/-- Write bytes at their spots: local stores at once, memory line by line through the die's L2. -/
def engWrite (s : State) (k : Nat) (c : Cmd) (xs : List (Spot × Byte)) : State :=
  let s1 := xs.foldl (fun u x => match x.1 with
                                 | .ls f off => lsWriteList u f off [x.2]
                                 | .mem _ _ => u) s
  let s2 := clearMarks s1 (xs.filterMap (fun x => match x.1 with
                                                  | .ls f off => some (f, off)
                                                  | .mem _ _ => none))
  let who : Nat × Nat := match c.owner with
    | .flock u fi => (u, fi)
    | .host _ _ => (s.nextUid, 0)
  performBytes s2 k who.1 who.2 (xs.filterMap (fun x => match x.1 with
    | .mem h lf => some { addr := h, va := 0, value := x.2, mask := 0xFF, lane := 255, dom := lf.dom, comp := lf.comp }
    | .ls _ _ => none))

/-- A place as one number: a home, or a byte of a fold's local store. -/
def spotKey : Spot → Nat
  | .mem h _ => h
  | .ls u off => 2 ^ 64 + u * 2 ^ 20 + off

/-- What the bytes that a command is to write hold now, noted once each while it runs. -/
def noteWas (s : State) (k : Nat) (c : Cmd) (sps : List Spot) : Cells Byte :=
  sps.foldl (fun m p => if m.any (fun x => x.1 == spotKey p) then m else cput m (spotKey p) (engByte s k p)) c.was

/-- Report the replayable fault that a command waits on. -/
def engWait (s : State) (k : Nat) (c : Cmd) (p : PageFault) : State :=
  match cmdCtx s c with
  | none => s
  | some x =>
    let (id, s1) := reportFault s x.id p
    putCmd s1 k { c with faults := if c.faults.contains id then c.faults else c.faults ++ [id] }

/-- Count a HOME_OFFLINE reply to an engine. -/
def engOffline (s : State) (k : Nat) (c : Cmd) (reason va : Nat) : State :=
  match cmdCtx s c with
  | none => s
  | some x => noteReason s x k va reason

end Sys2Proof.Machine
end

