-- ==== Sys2Proof/Machine/LoadStore.lean ====
section
/-! DEFINITION. Loads and stores (R179, R190 to R194). -/

namespace Sys2Proof.Machine

/-! ### Widths and addresses -/

/-- Bytes of a SIZE (R181). -/
def sizeBytes (n : BitVec 3) : Nat :=
  if n = 0 || n = 1 then 1 else if n = 2 || n = 3 then 2 else if n = 5 then 8 else if n = 6 then 16 else 4

/-- Registers of a SIZE. -/
def sizeRegs (n : BitVec 3) : Nat := if n = 5 then 2 else if n = 6 then 4 else 1

/-- The words that loaded bytes give (R181). -/
def loadWords (size : BitVec 3) (bs : List Byte) : List Word :=
  let v := leNat bs
  if size = 1 then [(BitVec.ofNat 8 v).signExtend 32]
  else if size = 3 then [(BitVec.ofNat 16 v).signExtend 32]
  else (List.range (sizeRegs size)).map (fun i => BitVec.ofNat 32 (v / 2 ^ (32 * i)))

/-- The bytes that data words give. -/
def storeBytes (size : BitVec 3) (ws : List Word) : List Byte := (ws.flatMap (fun w => leBytes 4 w.toNat)).take (sizeBytes size)

/-- The address of a lane (R183). -/
def addrOf (base : DWord) (idx off : Word) : Nat := (base + idx.setWidth 64 + off.signExtend 64).toNat

/-- A set of accesses with data, byte by byte. -/
def putsOf (p : Piece) (bs : List Byte) : List Put :=
  (List.range bs.length).zip bs |>.map (fun x =>
    { p := { p with va := p.va + x.1, n := 1,
                    spot := match p.spot with
                      | .ok (.ls u off) => .ok (.ls u (off + x.1))
                      | .ok (.mem h lf) => .ok (.mem (h + x.1) lf)
                      | r => r },
      v := x.2, m := 0xFF })

/-! ### The shared body of a load and of a store -/

/-- How an access is ordered: ORD and SCOPE (R182). -/
def isStrong (ord : BitVec 2) : Bool := ord != 0
def isWide (ord : BitVec 2) (sc : BitVec 4) : Bool := ord != 0 && wider sc

def howOf (ord : BitVec 2) (sc : BitVec 4) (hint : BitVec 2) : How :=
  { strong := isStrong ord, wide := isWide ord sc, hint := hint }

/-- Bytes of a single-copy atomic unit of an access of `n` bytes (R282). -/
def unitOf (n : Nat) : Nat := if n = 16 then 8 else n

/-- A load of the forms of R181: check, read, and leave the words to land, by `put`, as the load that takes the next
number. An acquire holds its path until it has returned. -/
def loadForm (s : State) (e : Env) (flg : FlagSel) (ord : BitVec 2) (sc : BitVec 4) (hint : BitVec 2) (ps : List Piece)
    (put : State → List (List SrcByte) → State) : Res State :=
  match holdUp e (flagOf e flg) false false with
  | some w => .stall w
  | none =>
    match misalign ps with
    | some t => .trap t
    | none =>
      let how := howOf ord sc hint
      (readPieces s e how ps).bind (fun r =>
        let t := put r.1 ((ps.zip r.2).map (fun x => srcBytes how true (unitOf x.1.n) x.1 x.2))
        .ok (if ord = 2 then acquireLoad t e sc r.1.nextUid else t))

/-- A store of the forms of R181. -/
def storeForm (s : State) (e : Env) (flg : FlagSel) (ord : BitVec 2) (sc : BitVec 4) (hint : BitVec 2)
    (ps : List (Piece × List Byte)) : Res State :=
  match holdUp e (flagOf e flg) true (ord == 2) with
  | some w => .stall w
  | none =>
    match misalign (ps.map (fun x => x.1)) with
    | some t => .trap t
    | none =>
      writePieces s e (flagOf e flg) (howOf ord sc hint) (ord == 2) sc
        (ps.flatMap (fun x => putsOf x.1 x.2))

/-- The words of a load that is to land, in registers of a lane or of the flock (R181). -/
def landWords (key : Nat → Nat) (l : Nat) (size : BitVec 3) (src : List SrcByte) : List PendWord :=
  (List.range (sizeRegs size)).map (fun i =>
    let part := (src.drop (4 * i)).take 4
    loadedWord l (key i) part 0 (8 * part.length) (size = 1 || size = 3) (BitVec.allOnes 32))

/-- The words of a lane's vector registers from `d` on. -/
def laneLoad (d l : Nat) (size : BitVec 3) (src : List SrcByte) : List PendWord :=
  landWords (fun i => (d + i) * 64 + l) l size src

/-- A vector load: one access per lane of Active. -/
def vectorLoad (s : State) (e : Env) (flg : FlagSel) (size : BitVec 3) (ord : BitVec 2) (sc : BitVec 4) (hint : BitVec 2)
    (d : Nat) (piece : Nat → Piece) : Res State :=
  if e.act = 0 then .ok s
  else
    loadForm s e flg ord sc hint ((actLanes e).map piece) (fun t bs =>
      addLoad t e { flg := flagOf e flg, strong := isStrong ord }
        (((actLanes e).zip bs).flatMap (fun x => laneLoad d x.1 size x.2)))

/-- A vector store. -/
def vectorStore (s : State) (e : Env) (flg : FlagSel) (size : BitVec 3) (ord : BitVec 2) (sc : BitVec 4)
    (hint : BitVec 2) (d : Nat) (piece : Nat → Piece) : Res State :=
  if e.act = 0 then .ok s
  else
    storeForm s e flg ord sc hint ((actLanes e).map (fun l =>
      (piece l, storeBytes size ((regsFrom d (sizeRegs size)).map (fun r => readV e 6 r l)))))

/-- The names of a memory instruction's address sources. -/
def addrNames (a : Reg) (idx : Src) (off : Option Src) : Names :=
  let n := srcNames 1 (idx :: optSrc off)
  { n with s := a.toNat :: (a.toNat + 1) :: n.s }

/-- Data registers of a vector store, read without routing. -/
def dataNames (d : Reg) (k : Nat) : Names := { vr := (regsFrom d.toNat k).map (fun r => (r, 0)) }

/-! ### LD, ST, SLD, SST (R190) -/

/-- The access of a lane of LD and ST. -/
def memPiece (s : State) (e : Env) (acc : Access) (a : Reg) (idx : Src) (off : Option Src) (n l : Nat) : Piece :=
  pieceMem s e acc l (addrOf (readS2 e 0 a.toNat) (srcV e 1 idx l) (optS e 2 off)) n

/-- LD. -/
def execLd (o : MemOp) (s : State) : Host.Outcome State Fault Refusal :=
  runMem s o.g false { addrNames o.a o.idx o.off with vw := regsFrom o.d.toNat (sizeRegs o.size) } (fun s e =>
    vectorLoad s e o.flg o.size o.ord o.scope o.hint o.d.toNat (memPiece s e .read o.a o.idx o.off (sizeBytes o.size)))

/-- ST. -/
def execSt (o : MemOp) (s : State) : Host.Outcome State Fault Refusal :=
  runMem s o.g false ((dataNames o.d (sizeRegs o.size)).also (addrNames o.a o.idx o.off)) (fun s e =>
    vectorStore s e o.flg o.size o.ord o.scope o.hint o.d.toNat (memPiece s e .write o.a o.idx o.off (sizeBytes o.size)))

/-- The access of SLD and SST. -/
def scalarPiece (s : State) (e : Env) (acc : Access) (a : Reg) (off : Option Src) (n : Nat) : Piece :=
  pieceMem s e acc 255 (addrOf (readS2 e 0 a.toNat) 0 (optS e 2 off)) n

/-- SLD. -/
def execSld (o : SMemOp) (s : State) : Host.Outcome State Fault Refusal :=
  runMem s o.g (o.flg == .none)
    { s := [o.a.toNat, o.a.toNat + 1] ++ (optSrc o.off).flatMap (sOf 1), sw := regsFrom o.d.toNat (sizeRegs o.size) }
    (fun s e =>
      if e.act = 0 then .ok s
      else
        loadForm s e o.flg o.ord o.scope o.hint [scalarPiece s e .read o.a o.off (sizeBytes o.size)] (fun t bs =>
          putScalars t e (flagOf e o.flg) (isStrong o.ord) (landWords (fun i => o.d.toNat + i) 0 o.size (bs.headD []))))

/-- SST. -/
def execSst (o : SMemOp) (s : State) : Host.Outcome State Fault Refusal :=
  runMem s o.g (o.flg == .none)
    { s := [o.a.toNat, o.a.toNat + 1] ++ (optSrc o.off).flatMap (sOf 1) ++ regsFrom o.d.toNat (sizeRegs o.size) }
    (fun s e =>
      if e.act = 0 then .ok s
      else
        storeForm s e o.flg o.ord o.scope o.hint
          [(scalarPiece s e .write o.a o.off (sizeBytes o.size),
            storeBytes o.size ((regsFrom o.d.toNat (sizeRegs o.size)).map (readS e 6)))])

/-! ### LDL, STL, LDX, STX (R193, R194) -/

/-- The access of a lane of LDL and STL. -/
def localPiece (e : Env) (a : Src) (off : Option Src) (n l : Nat) : Piece :=
  pieceLocal e l (srcV e 0 a l + optS e 1 off).toNat n

/-- LDL. -/
def execLdl (o : LMemOp) (s : State) : Host.Outcome State Fault Refusal :=
  runMem s o.g false { srcNames 1 (o.a :: optSrc o.off) with vw := regsFrom o.d.toNat (sizeRegs o.size) } (fun s e =>
    vectorLoad s e o.flg o.size o.ord o.scope 0 o.d.toNat (localPiece e o.a o.off (sizeBytes o.size)))

/-- STL. -/
def execStl (o : LMemOp) (s : State) : Host.Outcome State Fault Refusal :=
  runMem s o.g false ((dataNames o.d (sizeRegs o.size)).also (srcNames 1 (o.a :: optSrc o.off))) (fun s e =>
    vectorStore s e o.flg o.size o.ord o.scope 0 o.d.toNat (localPiece e o.a o.off (sizeBytes o.size)))

/-- The access of a lane of LDX and STX. -/
def rankPiece (s : State) (e : Env) (k a : Src) (off : Option Src) (n l : Nat) : Piece :=
  pieceRank s e l (srcV e 0 k l).toNat (srcV e 1 a l + optS e 2 off).toNat n

/-- LDX. -/
def execLdx (o : XMemOp) (s : State) : Host.Outcome State Fault Refusal :=
  runMem s o.g false { srcNames 1 (o.k :: o.a :: optSrc o.off) with vw := regsFrom o.d.toNat (sizeRegs o.size) } (fun s e =>
    vectorLoad s e o.flg o.size o.ord o.scope 0 o.d.toNat (rankPiece s e o.k o.a o.off (sizeBytes o.size)))

/-- STX. -/
def execStx (o : XMemOp) (s : State) : Host.Outcome State Fault Refusal :=
  runMem s o.g false ((dataNames o.d (sizeRegs o.size)).also (srcNames 1 (o.k :: o.a :: optSrc o.off))) (fun s e =>
    vectorStore s e o.flg o.size o.ord o.scope 0 o.d.toNat (rankPiece s e o.k o.a o.off (sizeBytes o.size)))

/-! ### LDP and STP (R191) -/

/-- The elements that are accessed, and the bit address of element 0. -/
def packedElems (e : Env) (f : Fdr) (count : Option Src) : List Nat :=
  let n := match count with
    | none => 2048 / f.w
    | some x => min (srcS e 2 x).toNat (2048 / f.w)
  (List.range n).filter (elemActive e.act f.w)

def packedBase (e : Env) (a b : Reg) : Nat := 8 * (readS2 e 0 a.toNat).toNat + (readS e 1 b.toNat).toNat

/-- The bytes that hold accessed bits, each once: address, and the lane of the first element with bits in it. -/
def packedBytes (bit0 w : Nat) (el : List Nat) : List (Nat × Nat) :=
  el.foldl (fun l i =>
    let lo := (bit0 + i * w) / 8
    let hi := (bit0 + i * w + w - 1) / 8
    l ++ ((List.range (hi - lo + 1)).map (fun j => (lo + j, i * w / 32))).filter (fun x => l.all (fun y => y.1 != x.1))) []

/-- LDP: the words of the row that the elements change, with the bits that change; the bits of a word stand in memory
from bit `bit0` + 32 × lane on. -/
def rowWords (d bit0 w : Nat) (el : List Nat) (bs : List (Nat × SrcByte)) : List PendWord :=
  let msk := el.foldl (fun v i => v + (2 ^ w - 1) * 2 ^ (i * w)) 0
  lanes.filterMap (fun l =>
    let m : Word := BitVec.ofNat 32 (msk / 2 ^ (32 * l))
    let at' := bit0 + 32 * l
    let src := (List.range 5).map (fun i => ((bs.find? (fun x => x.1 == at' / 8 + i)).map (fun x => x.2)).getD
      { fold := none, place := 0, unit := 1, val := 0, strong := false, wide := false, more := false })
    if m = 0 then none else some (loadedWord l (d * 64 + l) src (at' % 8) 32 false m))

/-- Names of LDP and STP, beside the words of the row. -/
def packedNames (o : PMemOp) : Names :=
  { s := [o.a.toNat, o.a.toNat + 1, o.b.toNat] ++ (optSrc o.count).flatMap (sOf 1) }

/-- The lanes of the row's words that LDP writes and STP reads. -/
def packedLanes (e : Env) (o : PMemOp) : List Nat := rowLanes (slotFdr e o.fs).w (packedElems e (slotFdr e o.fs) o.count)

/-- LDP. -/
def execLdp (o : PMemOp) (s : State) : Host.Outcome State Fault Refusal :=
  let row := named s o.g (fun e => { wx := (packedLanes e o).map (fun l => (l, o.d.toNat, l)), vn := [o.d.toNat] })
  runMem s o.g false (row.also (packedNames o)) (fun s e =>
    if e.act = 0 then .ok s
    else
      let f := slotFdr e o.fs
      let el := packedElems e f o.count
      let bit0 := packedBase e o.a o.b
      let bytes := packedBytes bit0 f.w el
      loadForm s e o.flg o.ord o.scope o.hint (bytes.map (fun x => pieceMem s e .read x.2 (x.1 % 2 ^ 64) 1)) (fun t bs =>
        addLoad t e { flg := flagOf e o.flg, strong := isStrong o.ord }
          (rowWords o.d.toNat bit0 f.w el ((bytes.map (fun x => x.1)).zip bs.flatten))))

/-- STP. -/
def execStp (o : PMemOp) (s : State) : Host.Outcome State Fault Refusal :=
  let row := named s o.g (fun e => { vx := (packedLanes e o).map (fun l => (l, o.d.toNat, l)), vn := [o.d.toNat] })
  runMem s o.g false (row.also (packedNames o)) (fun s e =>
    if e.act = 0 then .ok s
    else
      let f := slotFdr e o.fs
      let el := packedElems e f o.count
      let bit0 := packedBase e o.a o.b
      let first := bit0 / 8
      let row := rowNat (fun l => readV e 6 o.d.toNat l)
      let val := el.foldl (fun v i => v + rowElem row f.w i * 2 ^ (bit0 + i * f.w - 8 * first)) 0
      let msk := el.foldl (fun v i => v + (2 ^ f.w - 1) * 2 ^ (bit0 + i * f.w - 8 * first)) 0
      match holdUp e (flagOf e o.flg) true (o.ord == 2) with
      | some w => .stall w
      | none =>
        writePieces s e (flagOf e o.flg) (howOf o.ord o.scope o.hint) (o.ord == 2) o.scope
          ((packedBytes bit0 f.w el).map (fun x =>
            { p := pieceMem s e .write x.2 (x.1 % 2 ^ 64) 1,
              v := BitVec.ofNat 8 (val / 2 ^ (8 * (x.1 - first))),
              m := BitVec.ofNat 8 (msk / 2 ^ (8 * (x.1 - first))) })))

/-! ### STM (R192) -/

/-- STM. -/
def execStm (o : StmOp) (s : State) : Host.Outcome State Fault Refusal :=
  runMem s o.g false
    ((dataNames o.d 1).also { srcNames 1 [o.b, o.m] with s := [o.a.toNat, o.a.toNat + 1] ++ sOf 1 o.b ++ sOf 1 o.m })
    (fun s e =>
      if e.act = 0 then .ok s
      else
        let puts := (actLanes e).flatMap (fun l =>
          let a := (addrOf (readS2 e 0 o.a.toNat) (srcV e 1 o.b l) 0)
          let m := srcV e 2 o.m l
          let w := readV e 6 o.d.toNat l
          (List.range 4).filterMap (fun k =>
            if m.getLsbD k then
              some { p := pieceMem s e .write l ((a + k) % 2 ^ 64) 1, v := w.extractLsb' (8 * k) 8, m := 0xFF : Put }
            else none))
        match holdUp e (flagOf e o.flg) true (o.ord == 2) with
        | some w => .stall w
        | none =>
          writePieces s e (flagOf e o.flg) (howOf o.ord o.scope o.hint) (o.ord == 2) o.scope puts)

/-! ### BDEC (R179) -/

/-- The fields of the active lanes: lane, bit offset, width. -/
def bdecFields (width : Nat → Nat) : List Nat → Nat → List (Nat × Nat × Nat)
  | [], _ => []
  | l :: r, off => (l, off, width l) :: bdecFields width r (off + width l)

/-- BDEC: a weak load of local-store bits. A field of width 0 traps nowhere (log entry 22). -/
def execBdec (o : BdecOp) (s : State) : Host.Outcome State Fault Refusal :=
  runMem s o.g false { srcNames 1 [o.width] with vw := [o.d.toNat], s := [o.a.toNat] ++ sOf 1 o.width } (fun s e =>
    if e.act = 0 then .ok s
    else
      let width (l : Nat) : Nat := min ((srcV e 1 o.width l).toNat % 64) 32
      let fs := bdecFields width (actLanes e) (readS e 0 o.a.toNat).toNat
      match holdUp e (flagOf e o.flg) false false with
      | some w => .stall w
      | none =>
        if fs.any (fun x => x.2.2 != 0 && 8 * e.launch.lsBytes < x.2.1 + x.2.2) then .trap (plainTrap 0x18 255)
        else
          let piece (x : Nat × Nat × Nat) : Piece :=
            pieceLocal e x.1 (x.2.1 / 8) (if x.2.2 = 0 then 0 else (x.2.1 + x.2.2 - 1) / 8 - x.2.1 / 8 + 1)
          let ps := (fs.filter (fun x => x.2.2 != 0)).map piece
          match lsError s ps with
          | some t => .trap t
          | none =>
            let how : How := { strong := false, wide := false, hint := 0 }
            let s1 := settlePlaces s e.fold.uid e.fi (ps.flatMap (fun p => spotPlaces p.spot p.n))
            let word (x : Nat × Nat × Nat) : PendWord :=
              let p := piece x
              let src := srcBytes how true 1 p (lsBytes s1 e.fold.uid p.va p.n)
              loadedWord x.1 (o.d.toNat * 64 + x.1) src (x.2.1 % 8) x.2.2 o.sext (BitVec.allOnes 32)
            .ok (addLoad s1 e { flg := flagOf e o.flg } (fs.map word)))

end Sys2Proof.Machine
end

