-- ==== Sys2Proof/Machine/Barrier.lean ====
section
/-! DEFINITION. Barrier objects and batches: BARI, BARA, BARW, BART, CPYB, WAITB (R236 to R242). -/

namespace Sys2Proof.Machine

/-! ### The barrier object (R238, R240, R241) -/

structure Barrier where
  trapen : Bool
  ovr : Bool
  phase : Word
  pending : BitVec 16
  expected : BitVec 16
  bytes : Word
  deriving DecidableEq, Repr

/-- The fields of the 128 bits of an object; the reserved bits read 0 and are written as 0 (R5). -/
def unpackBar (w : BitVec 128) : Barrier where
  trapen := w.getLsbD 97
  ovr := w.getLsbD 96
  phase := w.extractLsb' 64 32
  pending := w.extractLsb' 48 16
  expected := w.extractLsb' 32 16
  bytes := w.extractLsb' 0 32

def packBar (b : Barrier) : BitVec 128 :=
  (0#30) ++ BitVec.ofBool b.trapen ++ BitVec.ofBool b.ovr ++ b.phase ++ b.pending ++ b.expected ++ b.bytes

/-- Complete(). -/
def barComplete (b : Barrier) : Barrier :=
  if b.pending = 0 && b.bytes = 0 then { b with phase := b.phase + 1, pending := b.expected } else b

/-- Done(p). -/
def barDone (b : Barrier) (p : Word) : Bool := 1 ≤ (b.phase - p).toNat && (b.phase - p).toNat ≤ 2 ^ 31

/-- The count of one item of a copy (R241). -/
def barCount (b : Barrier) (n : Nat) : Barrier :=
  barComplete (if b.bytes.toNat < n then { b with ovr := true, bytes := 0 }
               else { b with bytes := b.bytes - BitVec.ofNat 32 n })

/-- The object at an offset of a fold's local store. -/
def barAt (s : State) (u off : Nat) : Barrier := unpackBar (BitVec.ofNat 128 (leNat (lsBytes s u off 16)))

def putBar (s : State) (u off : Nat) (b : Barrier) : State := lsWriteList s u off (leBytes 16 (packBar b).toNat)

/-! ### The barrier instructions -/

/-- The fold in whose local store the object lies (R239). -/
def barFold (s : State) (e : Env) (drove : Bool) : Option Nat :=
  if drove then (rankFold s e.fold 0).map (fun g => g.uid) else some e.fold.uid

/-- FOLD or DROVE (R242). -/
def barScope (drove : Bool) : BitVec 4 := if drove then 2 else 1

/-- The object that an instruction names, after MISALIGN and LSRANGE. -/
def barObject (s : State) (e : Env) (drove : Bool) (off : Nat) : Res Nat :=
  if off % 16 ≠ 0 then .trap { cause := 0x17, detail := 255, addr := BitVec.ofNat 64 off }
  else match barFold s e drove with
    | none => .trap (plainTrap 0x18 255)
    | some u => if e.launch.lsBytes < off + 16 then .trap (plainTrap 0x18 255) else .ok u

/-- The object holds an uncorrectable error: SRAMERR, after the causes of the object itself (R326). -/
def barSram (s : State) (u off : Nat) : Option TrapInfo :=
  if (foldAt s u).any (fun f => f.lsMarks.any (fun w => off < 4 * w + 4 && 4 * w < off + 16)) then
    some { cause := 0x1F, detail := 255 * 256 + 4, addr := BitVec.ofNat 64 off }
  else none

/-- The flag that an instruction raises decrements when its update has landed. -/
def landed (s : State) (e : Env) (flg : FlagSel) : State :=
  addStore s e (doneStore (flagOf e flg) 0 false)

/-- BARI. -/
def execBari (o : BariOp) (s : State) : Host.Outcome State Fault Refusal :=
  runMem s o.g false { s := o.a.toNat :: sOf 1 o.n } (fun s e =>
    if e.act = 0 then .ok s
    else match holdUp e (flagOf e o.flg) true false with
      | some w => .stall w
      | none =>
        let off := (readS e 0 o.a.toNat).toNat
        let n := (srcS e 1 o.n).toNat
        (barObject s e o.drove off).bind (fun u =>
          if n = 0 || 65535 < n then .trap (plainTrap 0x1A 15)
          else
            let b : Barrier := { trapen := o.trap, ovr := false, phase := 0, pending := BitVec.ofNat 16 n,
                                 expected := BitVec.ofNat 16 n, bytes := 0 }
            .ok (landed (putBar s u off b) e o.flg)))

/-- BARA: a release of the flock's earlier accesses, then an arrival. -/
def execBara (o : BaraOp) (s : State) : Host.Outcome State Fault Refusal :=
  runMem s o.g false { s := o.a.toNat :: (optSrc o.b).flatMap (sOf 1), sw := [o.d.toNat] } (fun s e =>
    if e.act = 0 then .ok s
    else match holdUp e (flagOf e o.flg) true true with
      | some w => .stall w
      | none =>
        let off := (readS e 0 o.a.toNat).toNat
        let n := (optS e 1 o.b).toNat
        (barObject s e o.drove off).bind (fun u =>
          let b := barAt s u off
          if b.pending = 0 || 2 ^ 32 - 1 < b.bytes.toNat + n then .trap (plainTrap 0x1C 0)
          else match barSram s u off with
            | some t => .trap t
            | none =>
              let s1 := releaseNow s e (barScope o.drove)
              let b1 := barComplete { b with bytes := b.bytes + BitVec.ofNat 32 n, pending := b.pending - 1 }
              .ok (putScalars (putBar s1 u off b1) e (flagOf e o.flg) true (scalarWords o.d.toNat [b.phase]))))

/-- The result in a uniform predicate: its value is to land. -/
def putUniform (s : State) (e : Env) (flg : Option (BitVec 4)) (r : Nat) (b : Bool) : State :=
  putScalars s e flg true (scalarWords (qKey r) [if b then 1 else 0])

/-- BARW. -/
def execBarw (o : BarwOp) (s : State) : Host.Outcome State Fault Refusal :=
  runMem s o.g false { s := [o.a.toNat, o.p.toNat], sw := [qKey o.d.toNat] } (fun s e =>
    if e.act = 0 then .ok s
    else match holdUp e none false false with
      | some w => .stall w
      | none =>
        let off := (readS e 0 o.a.toNat).toNat
        (barObject s e o.drove off).bind (fun u =>
          let b := barAt s u off
          let d := barDone b (readS e 1 o.p.toNat)
          if d && b.ovr && b.trapen then .trap (plainTrap 0x1D 0)
          else match barSram s u off with
          | some t => .trap t
          | none =>
          if !d then .stall (.barrier u off (readS e 1 o.p.toNat))
          else .ok (acquireAt (putUniform s e none o.d.toNat b.ovr) e.fold.core (barScope o.drove))))

/-- BART. -/
def execBart (o : BarwOp) (s : State) : Host.Outcome State Fault Refusal :=
  runMem s o.g false { s := [o.a.toNat, o.p.toNat], sw := [qKey o.d.toNat] } (fun s e =>
    if e.act = 0 then .ok s
    else match holdUp e (flagOf e o.flg) false false with
      | some w => .stall w
      | none =>
        let off := (readS e 0 o.a.toNat).toNat
        (barObject s e o.drove off).bind (fun u =>
          let b := barAt s u off
          let d := barDone b (readS e 1 o.p.toNat)
          if d && b.ovr && b.trapen then .trap (plainTrap 0x1D 0)
          else match barSram s u off with
            | some t => .trap t
            | none =>
              let s1 := putUniform s e (flagOf e o.flg) o.d.toNat d
              .ok (if d then acquireAt s1 e.fold.core (barScope o.drove) else s1)))

/-! ### Batches (R236, R237) -/

/-- CPYB: the open batch is closed under the number BATCHNEXT. -/
def execCpyb (o : CpybOp) (s : State) : Host.Outcome State Fault Refusal :=
  runMem s o.g false { sw := (o.d.map (fun d => [d.toNat])).getD [] } (fun s e =>
    if e.act = 0 then .ok s
    else if flagFull e.fl (flagOf e o.flg) then .stall ((flagOf e o.flg).elim .none Wait.full)
    else if 256 ≤ batchesOut e.fl then .stall .cpyb
    else
      let num := e.fl.batchNext
      let s1 := onFlock s e.fold.uid e.fi (fun fl =>
        settleBatches (flagUp
          { fl with batchNext := fl.batchNext + 1, openCmds := [],
                    batches := fl.batches ++ [{ num := num, cmds := fl.openCmds, flag := flagOf e o.flg }] } (flagOf e o.flg)))
      .ok (match o.d with
        | none => s1
        | some d => putScalars s1 e none false (scalarWords d.toNat [num.setWidth 32])))

/-- WAITB. Its return is an acquire at the scope of each completed command; the caches are cleared as for SYSTEM,
which contains them all. -/
def execWaitb (o : WaitbOp) (s : State) : Host.Outcome State Fault Refusal :=
  runMem s o.g false { s := sOf 1 o.a } (fun s e =>
    if e.act = 0 then .ok s
    else
      if batchWaits e.fl o.le (srcS e 0 o.a) then .stall (.batch o.le (srcS e 0 o.a)) else .ok (acquireAt s e.fold.core 11))

end Sys2Proof.Machine
end

