-- ==== Sys2Proof/Machine/FormatVec.lean ====
section
/-! DEFINITION. The format-slot arithmetic instructions (R163 to R169). -/

namespace Sys2Proof.Machine

/-- An operation of two sources. -/
def fmt2 (s : State) (o : F2Op) (draws : Bool) (op : Fdr → Num → Num → Num × BitVec 5) :
    Host.Outcome State Fault Refusal :=
  fmtOp s o.g o.fs o.row o.tid draws o.d [o.a, o.b] (fun f rnd xs =>
    match xs with
    | [a, b] => rounded f rnd (op f a b)
    | _ => (0, 0))

/-- FADD (R163). -/
def execFadd (o : F2Op) (s : State) : Host.Outcome State Fault Refusal :=
  fmt2 s o true (fun f a b => addNum (f.rm == 3) a b)

/-- FSUB (R163). -/
def execFsub (o : F2Op) (s : State) : Host.Outcome State Fault Refusal :=
  fmt2 s o true (fun f a b => addNum (f.rm == 3) a b.negate)

/-- FMUL (R163). -/
def execFmul (o : F2Op) (s : State) : Host.Outcome State Fault Refusal := fmt2 s o true (fun _ a b => mulNum a b)

/-- FMA (R163). -/
def execFma (o : F3Op) (s : State) : Host.Outcome State Fault Refusal :=
  fmtOp s o.g o.fs o.row o.tid true o.d [o.a, o.b, o.c] (fun f rnd xs =>
    match xs with
    | [a, b, c] => rounded f rnd (fmaNum (f.rm == 3) a b c)
    | _ => (0, 0))

/-- RoundTo of a chosen operand: RM 101 draws nothing here and is taken as RNE. -/
def chosen (f : Fdr) (x : Num) : Nat × BitVec 5 := roundTo f (if f.rm = 5 then 0 else f.rm) 0 x

/-- FMIN and FMAX (R164). -/
def fmtMin (s : State) (o : F2Op) (max : Bool) : Host.Outcome State Fault Refusal :=
  fmtOp s o.g o.fs o.row o.tid false o.d [o.a, o.b] (fun f _ xs =>
    match xs with
    | [a, b] => chosen f (minNum max a b)
    | _ => (0, 0))

/-- FMIN (R164). -/
def execFmin (o : F2Op) (s : State) : Host.Outcome State Fault Refusal := fmtMin s o false

/-- FMAX (R164). -/
def execFmax (o : F2Op) (s : State) : Host.Outcome State Fault Refusal := fmtMin s o true

/-- The conditions of R165. -/
def condNum : FCond → Num → Num → Bool
  | .eq, a, b => a.eqv b
  | .ne, a, b => !a.eqv b
  | .lt, a, b => a.lt b
  | .le, a, b => a.lt b || a.eqv b
  | .gt, a, b => b.lt a
  | .ge, a, b => b.lt a || a.eqv b
  | .ord, a, b => !a.isNan && !b.isNan
  | .un, a, b => a.isNan || b.isNan

/-- FCMP (R165). -/
def execFcmp (o : FcmpOp) (s : State) : Host.Outcome State Fault Refusal :=
  runFlock s o.g false (srcNames 1 [o.a.src, o.b.src]) (fun e =>
    let f := slotFdr e o.fs
    let a := srcNum e f false 0 o.a
    let b := srcNum e f false 1 o.b
    .ok (setP e.fl o.d.toNat e.act (maskOf (fun l => condNum o.cond (a l) (b l)))))

/-- The class bit of a code after ABS and NEG (R166). -/
def classMask (f : Fdr) (neg abs : Bool) (c : Nat) : Word :=
  if f.isInt then
    match signMod neg abs (decodeNum f c) with
    | .fin s n _ => (if n = 0 then 1 <<< 4 else if s then 1 <<< 1 else 1 <<< 6) ||| 1 <<< 9
    | _ => 1 <<< 9
  else
    let s0 := signBit f c
    let s := (if abs then false else s0) != neg
    match clsOf f (c % 2 ^ f.w) with
    | .nan => 1 <<< 8
    | .inf => if s then 1 else 1 <<< 7
    | .normal => if s then 1 <<< 1 else 1 <<< 6
    | .subnormal => if s then 1 <<< 2 else 1 <<< 5
    | .zero => if s then 1 <<< 3 else 1 <<< 4

/-- FCLASS (R166). -/
def execFclass (o : FclassOp) (s : State) : Host.Outcome State Fault Refusal :=
  runFlock s o.g false { srcNames 1 [o.a.src] with vw := [o.d.toNat] } (fun e =>
    let f := slotFdr e o.fs
    let c := srcCode e f false 0 o.a.src
    .ok (setLanes e.fl o.d.toNat e.act (fun l => classMask f o.a.neg o.a.abs (c l))))

/-- The effective mode of FRINT (R167). -/
def frintMode (f : Fdr) : Option (BitVec 3) → Nat
  | none => f.rm
  | some m => m.toNat

/-- FRINT of a value: the integral value, then RoundTo under the mode (R167). -/
def frintNum (f : Fdr) (rm rnd : Nat) (x : Num) : Nat × BitVec 5 :=
  match x with
  | .fin s n d =>
    if n = 0 then roundTo f rm rnd x
    else
      let (i, nx) := roundInt rm f.srw rnd s n d
      let r := roundTo f rm rnd (.fin s i 1)
      (r.1, r.2 ||| (if nx then fNX else 0))
  | _ => roundTo f rm rnd x

/-- FRINT (R167). -/
def execFrint (o : FrintOp) (s : State) : Host.Outcome State Fault Refusal :=
  let names := named s o.g (fun e =>
    let n := elemNames e o.row (slotFdr e o.fs).w o.d.toNat [o.a.src]
    { n with s := n.s ++ (if frintMode (slotFdr e o.fs) o.mode = 5 then (o.tid.map (fun r => r.toNat)).toList else []) })
  runFlock s o.g false names (fun e =>
    let f := slotFdr e o.fs
    let rm := frintMode f o.mode
    if rm = 5 && f.srw = 0 && e.act != 0 then .trap (plainTrap 0x15 o.fs.toNat)
    else
      let stoch := rm == 5
      let a := srcNum e f o.row 0 o.a
      let x2 := if stoch then tidWord e o.tid else 0
      let rs := (elemIdx e o.row f.w).map (fun i =>
        let r := frintNum f rm (if stoch then rndWord e x2 o.row f.w i else 0) (a i)
        (i, r.1, r.2))
      .ok (putElems e e.fl o.row stoch f.w o.d.toNat rs))

/-- The integer operand of FSCALE for each element (R168). -/
def scaleInt (e : Env) (f : Fdr) (row : Bool) (x : Src) : Nat → Int :=
  match x with
  | .v r rt =>
    if row then
      let rw := routedRow e 1 r rt
      fun i =>
        let c := rowElem rw f.w i
        if c / 2 ^ (f.w - 1) = 1 then (c : Int) - 2 ^ f.w else c
    else fun l => (readV e (laneOpnd 1 l) r.toNat (routeLane e rt l)).toInt
  | .s r => fun _ => (readS e 1 r.toNat).toInt
  | .imm v => fun _ => v.toInt
  | .imm16 v => fun _ => v.toInt

/-- a × 2^n. Beyond ±8192 every exponent rounds alike in every slot, so the exponent is clamped there. -/
def scaleNum (n : Int) : Num → Num
  | .fin s a d =>
    let k := max (-8192) (min 8192 n)
    if a = 0 then .fin s 0 1 else if 0 ≤ k then .fin s (a * 2 ^ k.toNat) d else .fin s a (d * 2 ^ (-k).toNat)
  | x => x

/-- FSCALE (R168). -/
def execFscale (o : FscaleOp) (s : State) : Host.Outcome State Fault Refusal :=
  runFlock s o.g false (fmtNames s o.g o.fs o.row o.tid o.d [o.a.src, o.b]) (fun e =>
    let f := slotFdr e o.fs
    let stoch := f.rm == 5
    let a := srcNum e f o.row 0 o.a
    let n := scaleInt e f o.row o.b
    let x2 := if stoch then tidWord e o.tid else 0
    let rs := (elemIdx e o.row f.w).map (fun i =>
      let r := roundTo f f.rm (if stoch then rndWord e x2 o.row f.w i else 0) (scaleNum (n i) (a i))
      (i, r.1, r.2))
    .ok (putElems e e.fl o.row stoch f.w o.d.toNat rs))

end Sys2Proof.Machine
end

