-- ==== Sys2Proof/Machine/Convert.lean ====
section
/-! DEFINITION. Conversions between formats, field packing, and the access to format slots (R170 to R174). -/

namespace Sys2Proof.Machine

/-! ### CVT and CVTEF (R170 to R172) -/

/-- The elements of a block; 0 for a slot that carries no block scale (R71). -/
def Fdr.block (f : Fdr) : Nat := if f.blk = 0 then 0 else 8 * 2 ^ f.blk

/-- The fields that CVT and CVTEF share. -/
structure CvtArgs where
  g : Guard
  fs : BitVec 4
  row : Bool
  cs : BitVec 4
  part : Nat
  d : Nat
  a : Src
  sc : Reg
  scrt : Route
  tid : Option Src
  short : Bool
  /-- The residue slot of CVTEF. -/
  res : Option (BitVec 4)

/-- The slot that carries a block scale; the destination's comes first. -/
def scaledSlot (fd fs : Fdr) (d s : BitVec 4) : Option (BitVec 4) :=
  if fd.blk != 0 then some d else if fs.blk != 0 then some s else none

/-- The indices (i, si, di) of the elements that are converted. -/
def cvtIdx (e : Env) (row : Bool) (part ws wd : Nat) : List (Nat × Nat × Nat) :=
  if row then
    let ns := 2048 / ws
    let nd := 2048 / wd
    ((List.range (min ns nd)).map (fun i => if ns ≤ nd then (i, i, part * ns + i) else (i, part * nd + i, i))).filter
      (fun x => x.2.1 < ns && x.2.2 < nd && elemActive e.act ws x.2.1 && elemActive e.act wd x.2.2)
  else (lanes.filter (inMask e.act)).map (fun l => (l, l, l))

/-- The element of the scale row that scales an element, in a row of the scale slot (R171). -/
def scaleElem (e : Env) (o : CvtArgs) (x : Nat × Nat × Nat) : Nat :=
  let fd := slotFdr e o.fs
  if fd.blk != 0 then x.2.2 / fd.block else x.2.1 / (slotFdr e o.cs).block

/-- The FORMAT trap of R171: the slot that it names. -/
def cvtFormat (e : Env) (o : CvtArgs) (idx : List (Nat × Nat × Nat)) : Option (BitVec 4) :=
  let fd := slotFdr e o.fs
  let fs := slotFdr e o.cs
  match scaledSlot fd fs o.fs o.cs with
  | none => none
  | some z =>
    let f := slotFdr e z
    let c := slotFdr e (BitVec.ofNat 4 f.scslot)
    let beyond := idx.any (fun x => 2048 / c.w ≤ scaleElem e o x)
    if fd.blk != 0 && fs.blk != 0 then some o.fs
    else if o.short || f.scslot = z.toNat || 16 < c.w || c.blk != 0 || beyond then some z
    else none

/-- The elements of the residue's register that CVTEF writes. A residue that is not written raises no flag (log entry 27). -/
def resIdx (e : Env) (row : Bool) (w : Nat) (idx : List (Nat × Nat × Nat)) : List Nat :=
  (idx.map (fun x => x.1)).filter (fun i => !row || (i < 2048 / w && elemActive e.act w i))

/-- The names of a conversion; the scale row counts when a slot is scaled, the identifier when it is used. -/
def cvtNames (s : State) (o : CvtArgs) : Names :=
  named s o.g (fun e =>
    let fd := slotFdr e o.fs
    let fs := slotFdr e o.cs
    let idx := cvtIdx e o.row o.part fs.w fd.w
    let main : Names :=
      if o.row then (rowWrites fd.w o.d (idx.map (fun x => x.2.2))).also (rowReads e fs.w (idx.map (fun x => x.2.1)) o.a)
      else { srcNames 1 [o.a] with vw := [o.d] }
    let res : Names := match o.res with
      | none => {}
      | some r =>
        let w := (slotFdr e r).w
        if o.row then rowWrites w (o.d + 1) (resIdx e true w idx) else { vw := [o.d + 1] }
    let scale : Names := match (if o.short then none else scaledSlot fd fs o.fs o.cs) with
      | none => {}
      | some z =>
        let w := (slotFdr e (BitVec.ofNat 4 (slotFdr e z).scslot)).w
        routedReads e o.sc o.scrt (idx.flatMap (fun x =>
          (rowLanes w [scaleElem e o x]).map (fun l => (laneOfElem o.row fs.w x.2.1, l))))
    let tid : Names := if fd.rm = 5 then { s := sOf 1 (o.tid.getD (.imm 0)) } else {}
    (((main.also res).also scale).also tid))

/-- One converted element: its code and flags, and the residue's. -/
def cvtElem (fd fs : Fdr) (fr : Fdr) (scale : Num) (rnd code : Nat) : (Nat × BitVec 5) × (Nat × BitVec 5) :=
  let a := decodeNum fs code
  let src := if fs.blk != 0 then mulNum a scale else (a, 0)
  let x := if fd.blk != 0 then divNum src.1 scale else src
  let r := rounded fd rnd x
  let y := decodeNum fd r.1
  let yo := if fd.blk != 0 then (mulNum y scale).1 else y
  let rm := if fr.rm = 5 then 0 else fr.rm
  let res := match src.1, y with
    | .fin _ _ _, .fin _ _ _ => (addNum (rm == 3) src.1 yo.negate).1
    | _, _ => .zero
  (r, roundTo fr rm 0 res)

/-- CVT and CVTEF. -/
def convert (s : State) (o : CvtArgs) : Host.Outcome State Fault Refusal :=
  runFlock s o.g false (cvtNames s o) (fun e =>
    let fd := slotFdr e o.fs
    let fs := slotFdr e o.cs
    let idx := cvtIdx e o.row o.part fs.w fd.w
    match (if e.act = 0 then none else cvtFormat e o idx) with
    | some z => .trap (plainTrap 0x15 z.toNat)
    | none =>
      let sf := slotFdr e ((scaledSlot fd fs o.fs o.cs).getD 0)
      let sc := slotFdr e (BitVec.ofNat 4 sf.scslot)
      let scaled := fd.blk != 0 || fs.blk != 0
      let srow := if scaled then routedRow e 2 o.sc o.scrt else 0
      let fr := slotFdr e (o.res.getD 0)
      let stoch := fd.rm == 5
      let x2 := if stoch then optS e 7 o.tid else 0
      let src := srcCode e fs o.row 0 o.a
      let rs := idx.map (fun x =>
        let scale := if scaled then decodeNum sc (rowElem srow sc.w (scaleElem e o x))
                     else .zero
        (x.1, x.2.2, cvtElem fd fs fr scale (if stoch then rndWord e x2 o.row fd.w x.2.2 else 0) (src x.2.1)))
      let res := if o.res.isSome then
          rs.filter (fun x => (resIdx e o.row fr.w idx).contains x.1)
        else []
      let fl1 := putElems e e.fl o.row false fr.w (o.d + 1) (res.map (fun x => (x.1, x.2.2.2.1, x.2.2.2.2)))
      .ok (putElems e fl1 o.row stoch fd.w o.d (rs.map (fun x => (x.2.1, x.2.2.1.1, x.2.2.1.2)))))

/-- CVT (R170). -/
def execCvt (o : CvtOp) (s : State) : Host.Outcome State Fault Refusal :=
  convert s { g := o.g, fs := o.fs, row := o.row, cs := o.cs, part := o.part.toNat, d := o.d.toNat, a := o.a, sc := o.sc,
              scrt := o.scrt, tid := o.tid, short := o.short, res := none }

/-- CVTEF (R172). -/
def execCvtef (o : CvtefOp) (s : State) : Host.Outcome State Fault Refusal :=
  convert s { g := o.g, fs := o.fs, row := o.row, cs := o.cs, part := o.part.toNat, d := o.d.toNat, a := o.a, sc := o.sc,
              scrt := o.scrt, tid := o.tid, short := false, res := some o.res }

/-! ### PACK and UNPACK (R173) -/

/-- The lanes in which PACK writes an element. -/
def packLanes (e : Env) (w base : Nat) : List Nat :=
  lanes.filter (fun l => inMask e.act l && base + l < 2048 / w && elemActive e.act w (base + l))

/-- PACK. -/
def execPack (o : PackOp) (s : State) : Host.Outcome State Fault Refusal :=
  let base := o.k.toNat * 64
  let names := named s o.g (fun e =>
    let w := (slotFdr e o.fs).w
    (rowWrites w o.d.toNat ((packLanes e w base).map (fun l => base + l))).also
      (routedReads e o.a o.rt ((packLanes e w base).map (fun l => (l, l)))))
  runFlock s o.g false names (fun e =>
    let w := (slotFdr e o.fs).w
    .ok (setElems e.fl o.d.toNat w ((packLanes e w base).map (fun l => (base + l, (srcV e 0 (.v o.a o.rt) l).toNat)))))

/-- UNPACK. -/
def execUnpack (o : UnpackOp) (s : State) : Host.Outcome State Fault Refusal :=
  let base := o.k.toNat * 64
  let names := named s o.g (fun e =>
    let w := (slotFdr e o.fs).w
    let xs := (actLanes e).flatMap (fun l =>
      if base + l < 2048 / w then (rowLanes w [base + l]).map (fun m => (l, m)) else [])
    { routedReads e o.a o.rt xs with vw := [o.d.toNat] })
  runFlock s o.g false names (fun e =>
    let w := (slotFdr e o.fs).w
    let row := routedRow e 0 o.a o.rt
    .ok (setLanes e.fl o.d.toNat e.act (fun l =>
      let i := base + l
      let c := rowElem row w i
      if 2048 / w ≤ i then 0
      else if o.sext && c / 2 ^ (w - 1) = 1 then BitVec.ofInt 32 ((c : Int) - 2 ^ w)
      else BitVec.ofNat 32 c)))

/-! ### Format slots (R174) -/

/-- FDRW. -/
def execFdrw (o : FdrwOp) (s : State) : Host.Outcome State Fault Refusal :=
  runFlock s o.g false (srcNames 2 [o.a]) (fun e =>
    let raw : DWord := match o.a with
      | .imm w => w.setWidth 64
      | x => srcS2 e 0 x
    let img : DWord := (raw.extractLsb' 0 47).setWidth 64
    if e.act = 0 then .ok e.fl
    else if (fdrOf img).legal then .ok { e.fl with f := cset 0 e.fl.f o.fs.toNat img }
    else .trap (plainTrap 0x15 o.fs.toNat))

/-- FDRR. -/
def execFdrr (o : FdrrOp) (s : State) : Host.Outcome State Fault Refusal :=
  runFlock s o.g false { sw := [o.d.toNat, o.d.toNat + 1] } (fun e =>
    if e.act = 0 then .ok e.fl else .ok (setS2 e e.fl o.d.toNat (slotOf e.fl o.fs.toNat)))

end Sys2Proof.Machine
end

