-- ==== Sys2Proof/Machine/Matrix.lean ====
section
/-! DEFINITION. The matrix engine: MMA, MTREE and the accumulator moves (R212, R216 to R226, R301 to R304, R308). -/

namespace Sys2Proof.Machine

/-! ### FP32 and the canonical tree (R77, R220) -/

/-- FP32 RNE of a value. -/
def fp32 (x : Num) : Word := BitVec.ofNat 32 (roundFloat fdrSingle 0 0 x).1

def num32 (w : Word) : Num := decodeFloat fdrSingle w.toNat

/-- FP32 RNE of a sum. -/
def add32 (a b : Word) : Word := fp32 (addNum false (num32 a) (num32 b)).1

/-- One level up the tree: nodes by index, ascending; a lone child passes unchanged. -/
def treeUp : List (Nat × Word) → List (Nat × Word)
  | [] => []
  | [(i, a)] => [(i / 2, a)]
  | (i, a) :: (j, b) :: r =>
    if i / 2 = j / 2 then (i / 2, add32 a b) :: treeUp r else (i / 2, a) :: treeUp ((j, b) :: r)

/-- `n` levels up. -/
def treeUps : Nat → List (Nat × Word) → List (Nat × Word)
  | 0, l => l
  | n + 1, l => treeUps n (treeUp l)

/-- The least L with n ≤ 2^L. -/
def ceilLog2 (n : Nat) : Nat := if n ≤ 1 then 0 else Nat.log2 (n - 1) + 1

/-- CanonTree of leaves from index `g0`. -/
def canonTree (g0 : Nat) (ls : List Word) : Word :=
  match treeUps (ceilLog2 (g0 + ls.length)) ((List.range ls.length).zip ls |>.map (fun x => (g0 + x.1, x.2))) with
  | (_, w) :: _ => w
  | [] => 0

/-- The level of the largest node that begins at `g` and ends by `e`. -/
def pieceLevel (g e : Nat) : Nat → Nat
  | 0 => 0
  | l + 1 => if g % 2 ^ (l + 1) = 0 && g + 2 ^ (l + 1) ≤ e then l + 1 else pieceLevel g e l

/-- The nodes that `.node` writes: level and start (R221). -/
def pieces (e : Nat) : Nat → Nat → List (Nat × Nat)
  | 0, _ => []
  | n + 1, g =>
    if e ≤ g then []
    else
      let l := pieceLevel g e 32
      (l, g) :: pieces e n (g + 2 ^ l)

/-- Exact product sum of R220. -/
def stepSum (ps : List Num) : Word :=
  let infs := ps.filterMap (fun p => match p with
                                     | .inf s => some s
                                     | _ => none)
  if ps.any Num.isNan || (infs.contains true && infs.contains false) then 0x7FC00000
  else match infs with
    | s :: _ => fp32 (.inf s)
    | [] =>
      let fin := ps.filterMap (fun p => match p with
                                        | .fin s n d => if n = 0 then none else some (s, n, d)
                                        | _ => none)
      match fin with
      | [] => if ps.all (fun p => match p with
                                  | .fin s _ _ => s
                                  | _ => false) then 0x80000000 else 0
      | x :: r =>
        let e := r.foldl (fun m y => max m (log2Frac y.2.1 y.2.2)) (log2Frac x.2.1 x.2.2)
        let t : Int := fin.foldl (fun a y => a + signedNum y.1 (quantum y.2.1 y.2.2 (e - 62)).1) 0
        if t = 0 then 0 else fp32 (.dyadic (t < 0) t.natAbs (e - 62))

/-! ### Tiles (R216) -/

def tileWord (f : Fold) (t m n : Nat) : Word := cget 0 f.tiles (t * 4096 + 64 * m + n)

/-- The places of the rows of a command: row and column. -/
def rowCols (rows : LaneMask) : List (Nat × Nat) :=
  (lanes.filter (inMask rows)).flatMap (fun m => lanes.map (fun n => (m, n)))

/-- Write a tile's rows; words written lose their error marks. -/
def putTile (f : Fold) (t : Nat) (rows : LaneMask) (g : Nat → Nat → Word) : Fold :=
  let xs := rowCols rows
  { f with tiles := xs.foldl (fun c x => cset 0 c (t * 4096 + 64 * x.1 + x.2) (g x.1 x.2)) f.tiles,
           tileMarks := f.tileMarks.filter (fun w => !(w / 4096 == t && inMask rows (w / 64 % 64))) }

def putTag' (f : Fold) (t : Nat) (tag : DWord) : Fold := { f with ntag := cset 0 f.ntag t tag }

/-- NTAG of a node. -/
def nodeTag (l i : Nat) : DWord := BitVec.ofNat 64 (2 ^ 63 + l * 2 ^ 32 + i)

/-- The rows of a tile hold an uncorrectable error (R332). -/
def tileBad (f : Fold) (t : Nat) (rows : LaneMask) : Bool :=
  f.tileMarks.any (fun w => w / 4096 == t && inMask rows (w / 64 % 64))

/-- Bytes lo to hi of the local store hold one. -/
def lsBad (f : Fold) (lo hi : Nat) : Bool := f.lsMarks.any (fun w => lo ≤ 4 * w + 3 && 4 * w ≤ hi)

/-! ### MMA operands (R218, R219) -/

/-- One operand of an MMA: where it lies, its slot, and its block scales. -/
structure Opnd where
  tfu : Bool
  base : Nat
  pitch : Nat
  f : Fdr
  /-- Scale address and format when the attachment applies. -/
  scale : Option (Nat × Fdr)

/-- S and g0. -/
def mmaSteps (regs : List Word) : Nat := ((regs[6]?).getD 0).toNat
def mmaG0 (regs : List Word) : Nat := ((regs[7]?).getD 0).toNat

def operand (tfu bs : Bool) (regs : List Word) (i pitch sc : Nat) (slot scslot : DWord) : Opnd :=
  let r (j : Nat) : Word := (regs[j]?).getD 0
  let addr (j : Nat) : Nat := if tfu then (pair (r j) (r (j + 1))).toNat else (r j).toNat
  { tfu := tfu, base := addr i, pitch := (r pitch).toNat, f := fdrOf slot,
    scale := if bs && (fdrOf slot).blk != 0 then some (addr sc, fdrOf scslot) else none }

def opndA (o : MmaOp) (regs : List Word) (slots : List DWord) : Opnd :=
  operand o.tfua o.bs regs 0 4 8 ((slots[0]?).getD 0) ((slots[1]?).getD 0)
def opndB (o : MmaOp) (regs : List Word) (slots : List DWord) : Opnd :=
  operand o.tfub o.bs regs 2 5 10 ((slots[2]?).getD 0) ((slots[3]?).getD 0)

/-- First and last byte of the elements of steps t to u − 1 of a row or column. -/
def elemSpan (p : Opnd) (r t u : Nat) : Nat × Nat :=
  let b := 8 * (p.base + r * p.pitch) + 128 * t * p.f.w
  (b / 8, (b + 128 * (u - t) * p.f.w - 1) / 8)

/-- Bit position of block `j` of a row's scales. -/
def scalePos (base : Nat) (c : Fdr) (steps blk r j : Nat) : Nat := 8 * base + (r * (128 * steps / blk) + j) * c.w

/-- First and last byte of the scales of those steps. -/
def scaleSpan (p : Opnd) (steps r t u : Nat) : List (Nat × Nat) :=
  match p.scale with
  | none => []
  | some (base, c) =>
    let lo := scalePos base c steps p.f.block r (128 * t / p.f.block)
    let hi := scalePos base c steps p.f.block r (128 * u / p.f.block)
    [(lo / 8, (hi - 1) / 8)]

/-- The byte spans that steps t to u − 1 read of an operand. -/
def opndSpans (p : Opnd) (steps t u : Nat) (rows : List Nat) : List (Nat × Nat) :=
  rows.flatMap (fun r => elemSpan p r t u :: scaleSpan p steps r t u)

/-- The rows of A that a command reads. -/
def rowsOf (rows : LaneMask) : List Nat := lanes.filter (inMask rows)

/-! ### Issue of MMA (R215, R217) -/

/-- The significand width of R17. -/
def sigWidth (f : Fdr) : Nat := if f.isInt then f.s + f.m else f.m + 1

/-- A slot whose block-scale attachment breaks R72. -/
def badScale (e : Env) (n : Nat) : Bool :=
  let f := slotFdr e (BitVec.ofNat 4 n)
  let c := slotFdr e (BitVec.ofNat 4 f.scslot)
  f.blk != 0 && (f.scslot == n || 16 < c.w || c.blk != 0)

/-- FORMAT of an MMA. -/
def mmaFormat (e : Env) (o : MmaOp) : Option TrapInfo :=
  let a := o.fs.toNat
  let b := o.fb.toNat % 16
  let f (n : Nat) : Fdr := slotFdr e (BitVec.ofNat 4 n)
  let t (b : Bool) (n : Nat) : Option TrapInfo := trapIf b 0x15 n
  (t (12 < sigWidth (f a)) a).or <| (t (12 < sigWidth (f b)) b).or <|
    (t (o.bs && badScale e a) a).or <| (t (o.bs && badScale e b) b).or <|
      t (o.bs && (f a).blk == 0 && (f b).blk == 0) a

/-- An operand in local store reaches beyond the fold's bytes. -/
def opndRange (e : Env) (p : Opnd) (steps : Nat) (rows : List Nat) : Bool :=
  !p.tfu && (opndSpans p steps 0 steps rows).any (fun x => e.launch.lsBytes ≤ x.2)

/-- The pieces of `.node`. -/
def mmaPieces (regs : List Word) : List (Nat × Nat) := pieces (mmaG0 regs + mmaSteps regs) 66 (mmaG0 regs)

/-- The tiles that an MMA names: ranges by first tile and count. -/
def mmaTiles (o : MmaOp) (regs : List Word) : List (Nat × Nat) :=
  match o.mode with
  | .zero => [(o.d.toNat, 1)]
  | .acc => [(o.d.toNat, 1), (o.c.toNat, 1)]
  | .node => [(o.d.toNat, (mmaPieces regs).length)]

/-- The registers of the operand block that an MMA reads. -/
def mmaRegs (e : Env) (o : MmaOp) : List Nat :=
  let blk (n : Nat) : Bool := o.bs && (slotFdr e (BitVec.ofNat 4 n)).blk != 0
  let on (b : Bool) (l : List Nat) : List Nat := if b then l else []
  ([0, 2, 4, 5, 6, 7] ++ on o.tfua [1] ++ on o.tfub [3] ++ on (blk o.fs.toNat) (8 :: on o.tfua [9])
    ++ on (blk (o.fb.toNat % 16)) (10 :: on o.tfub [11]) ++ on o.msk [12] ++ on o.mv [13]).map (fun i => o.p.toNat + i)

/-- The traps of an MMA at issue, in order. -/
def mmaTraps (e : Env) (o : MmaOp) (regs : List Word) (slots : List DWord) : List (Option TrapInfo) :=
  let n := mmaSteps regs
  let badS := n = 0 || 4096 < n
  let badG := 2 ^ 32 < mmaG0 regs + n
  let range := opndRange e (opndA o regs slots) n (rowsOf e.act) || opndRange e (opndB o regs slots) n lanes
    || (o.msk && e.launch.lsBytes < ((regs[12]?).getD 0).toNat + 512)
  [mmaFormat e o, trapIf badS 0x1A 6, trapIf badG 0x1A 7, trapIf range 0x18 255,
   amRange e (if badS then [] else mmaTiles o regs)]

/-- MMA. -/
def execMma (o : MmaOp) (s : State) : Host.Outcome State Fault Refusal :=
  let names : Names := match envOf s o.g with
    | some e => { s := mmaRegs e o }
    | none => {}
  runMem s o.g false names (fun s e =>
    let regs := (List.range 16).map (fun i => readS e i (o.p.toNat + i))
    let slot (n : Nat) : DWord := slotOf e.fl n
    let slots := [slot o.fs.toNat, slot (slotFdr e o.fs).scslot, slot (o.fb.toNat % 16),
                  slot (slotFdr e (BitVec.ofNat 4 (o.fb.toNat % 16))).scslot]
    issueCmd s e (mmaTraps e o regs slots)
      (newCmd (.flock e.fold.uid e.fi) (.mma o) e.act regs slots (flagOf e o.flg)
        (if o.tfua || o.tfub then 5 else 1) e.launch.srseed))

/-! ### Pins (R302, R303) -/

/-- An entry's place as a number. -/
def posNum (p : Nat × Nat × Nat) : Nat := (p.1 * 1536 + p.2.1) * 16 + p.2.2

/-- The content of a line: of a peer's, as the peer gives it (R266). -/
def lineNow (s : State) (l : Nat) : Line :=
  if peerKey ≤ 128 * l then lineOf (fun i => homeByte s (128 * l + i)) else homeLine s l

/-- Lines of 128 bytes that the operand buffer holds. -/
def bufferLines : Nat := 0x20000 / 128

/-- The operand buffer takes a copy of a line; none when it is full. -/
def copyLine (s : State) (k : Nat) (c : Cmd) (l : Nat) : Option (State × Cmd) :=
  if bufferLines ≤ c.copies.length then none
  else
    let x := coreAt s k
    some (putCore s k { x with tfuCopies := x.tfuCopies + 1 }, { c with copies := c.copies ++ [(l, lineNow s l)] })

/-- Take one line for a step: a pin on its entry, or a copy in the operand buffer, as for a line of a peer, which no cache
takes (R266); none when the buffer has no room. -/
def takeLine (s : State) (k : Nat) (c : Cmd) (l : Nat) (lf : Leaf) : Option (State × Cmd) :=
  if c.copies.any (fun x => x.1 == l) || c.reads.any (fun x => x.1 == l) then some (s, c)
  else if peerKey ≤ 128 * l then copyLine s k c l
  else
    let d := dieOfCore k
    let s1 := l2Touch s d l lf.dom lf.comp
    match ((tagOf (l2At s1 d) l).bind (fun t => t.ent)).bind (entryOf (l2At s1 d)) with
    | none => copyLine s1 k c l
    | some e =>
      let p := posNum e.pos
      let c1 := { c with reads := c.reads ++ [(l, p)] }
      if c.pins.contains p then some (s1, c1)
      else if 512 ≤ c.pins.length then copyLine s1 k c l
      else
        let x := coreAt s1 k
        some (putCore (putL2 s1 d (putEntry (l2At s1 d) { e with pins := e.pins + 1 })) k { x with tfuPins := x.tfuPins + 1 },
          { c1 with pins := c.pins ++ [p] })

/-- Take lines in order, until the buffer is full: whether all have been taken. -/
def takeLines (s : State) (k : Nat) (c : Cmd) : List (Nat × Leaf) → State × Cmd × Bool
  | [] => (s, c, true)
  | x :: r =>
    match takeLine s k c x.1 x.2 with
    | none => (s, c, false)
    | some (t, d) => takeLines t k d r

/-- Release pins: an entry with no pin and no reference is free. -/
def unpin (s : State) (die : Nat) (ps : List Nat) : State :=
  let c := l2At s die
  putL2 s die { c with entries := (c.entries.map (fun e =>
      if ps.contains (posNum e.pos) then { e with pins := e.pins - 1 } else e)).filter (fun e => e.ref != 0 || e.pins != 0) }

/-- The home lines that a span of virtual addresses meets, with their leaves, granule by granule. -/
def spanLines (s : State) (k : Nat) (c : Cmd) (lo hi : Nat) : List (Nat × Leaf) :=
  (List.range (hi / 4096 - lo / 4096 + 1)).flatMap (fun i =>
    let a := max lo ((lo / 4096 + i) * 4096)
    let b := min hi ((lo / 4096 + i) * 4096 + 4095)
    match engSpot s k c .read a 1 with
    | .ok (.mem h lf) => (List.range ((h + (b - a)) / 128 - h / 128 + 1)).map (fun j => (h / 128 + j, lf))
    | _ => [])

/-- The TFU spans of a command for steps t to u − 1. -/
def tfuSpans (c : Cmd) (o : MmaOp) (t u : Nat) : List (Nat × Nat) :=
  let n := mmaSteps c.regs
  (if o.tfua then opndSpans (opndA o c.regs c.slots) n t u (rowsOf c.rows) else [])
    ++ (if o.tfub then opndSpans (opndB o c.regs c.slots) n t u lanes else [])

/-- The lines of a step, each once, in ascending order of home. -/
def stepLines (s : State) (k : Nat) (c : Cmd) (o : MmaOp) (t u : Nat) : List (Nat × Leaf) :=
  let ls := (tfuSpans c o t u).flatMap (fun x => spanLines s k c x.1 x.2)
  sortBy (fun a b => a.1 ≤ b.1) (ls.foldl (fun a x => if a.any (fun y => y.1 == x.1) then a else a ++ [x]) [])

/-- The first fault among the TFU reads of a step: each word is read, for a local store holds errors by the word (R332). -/
def spanFault (s : State) (k : Nat) (c : Cmd) (lo hi : Nat) : Option (Got Unit) :=
  let starts := (List.range (hi / 4 - lo / 4)).map (fun i => (lo / 4 + i + 1) * 4)
  let tail := max lo (hi / 4 * 4)
  ((lo :: starts) ++ (List.range (hi - tail + 1)).map (fun i => tail + i)).findSome? (fun a =>
    match engRead s k c a with
    | .ok _ => none
    | .wait p => some (.wait p)
    | .bad r x => some (.bad r x))

/-- The first fault that the TFU meets in step `n`. -/
def stepFault (s : State) (k : Nat) (c : Cmd) (o : MmaOp) (n : Nat) : Option (Got Unit) :=
  (tfuSpans c o n (n + 1)).findSome? (fun x => spanFault s k c x.1 x.2)

/-- Fetch the lines of step `n`, the next to be fetched; where one of its reads meets a fault they are left for later. -/
def fetchStep (s : State) (k : Nat) (c : Cmd) (o : MmaOp) (n : Nat) : State × Cmd :=
  if mmaSteps c.regs ≤ n || c.fetched != n || (stepFault s k c o n).isSome then (s, c)
  else
    let r := takeLines s k c (stepLines s k c o n (n + 1))
    (r.1, if r.2.2 then { r.2.1 with fetched := n + 1 } else r.2.1)

/-- While a step computes, the lines of the next are fetched (R301). -/
def fetchAhead (s : State) (k : Nat) (c : Cmd) (o : MmaOp) : State × Cmd :=
  let r := fetchStep s k c o c.step
  fetchStep r.1 k r.2 o (c.step + 1)

/-- After a step the pins and the copies that no later step reads are released, and lines are fetched. -/
def turnStep (s : State) (k : Nat) (c : Cmd) (o : MmaOp) : State :=
  let d := dieOfCore k
  let n := mmaSteps c.regs
  let later := if c.step < n then ((tfuSpans c o c.step n).flatMap (fun x => spanLines s k c x.1 x.2)).map (fun x => x.1) else []
  let tags := later.filterMap (fun l => ((tagOf (l2At s d) l).bind (fun t => t.ent)).map posNum)
  let reads := c.reads.filter (fun x => later.contains x.1)
  let held (p : Nat) : Bool := tags.contains p || reads.any (fun x => x.2 == p)
  let r := fetchAhead (unpin s d (c.pins.filter (fun p => !held p))) k
    { c with pins := c.pins.filter held, reads := reads, copies := c.copies.filter (fun x => later.contains x.1) } o
  putCmd r.1 k r.2

/-! ### Steps of an MMA (R220) -/

/-- A home byte as the TFU holds it: in a copy, in an entry that it pins, or as the die has it. -/
def heldByte (s : State) (k : Nat) (c : Cmd) (h : Nat) (lf : Leaf) : Byte :=
  let entry : Option L2Entry := match c.reads.find? (fun x => x.1 == h / 128) with
    | some x => (l2At s (dieOfCore k)).entries.find? (fun e => posNum e.pos == x.2)
    | none => none
  match c.copies.find? (fun x => x.1 == h / 128), entry with
  | some x, _ => lineByte x.2 (h % 128)
  | none, some e => lineByte e.data (h % 128)
  | none, none => engByte s k (.mem h lf)

/-- A byte of an operand. -/
def opByte (s : State) (k : Nat) (c : Cmd) (f : Fold) (tfu : Bool) (a : Nat) : Byte :=
  if tfu then
    match engSpot s k c .read a 1 with
    | .ok (.mem h lf) => heldByte s k c h lf
    | .ok sp => engByte s k sp
    | .error _ => 0
  else cget 0 f.ls a

/-- `n` bits from a bit position. -/
def bitsFrom (get : Nat → Byte) (pos n : Nat) : Nat :=
  let lo := pos / 8
  leNat ((List.range ((pos + n + 7) / 8 - lo)).map (fun i => get (lo + i))) / 2 ^ (pos % 8) % 2 ^ n

/-- The 128 element values of a row or column in a step. -/
def stepValues (get : Nat → Byte) (p : Opnd) (steps r t : Nat) : List Num :=
  let w := p.f.w
  let raw := bitsFrom get (8 * (p.base + r * p.pitch) + 128 * t * w) (128 * w)
  (List.range 128).map (fun i =>
    let x := decodeNum p.f (raw / 2 ^ (i * w))
    match p.scale with
    | none => x
    | some (base, c) =>
      (mulNum x (decodeNum c (bitsFrom get (scalePos base c steps p.f.block r ((128 * t + i) / p.f.block)) c.w))).1)

/-- The local-store operands of a step hold an uncorrectable error. -/
def stepSram (f : Fold) (c : Cmd) (o : MmaOp) (t : Nat) : Bool :=
  let n := mmaSteps c.regs
  let bad (p : Opnd) (rows : List Nat) : Bool := !p.tfu && (opndSpans p n t (t + 1) rows).any (fun x => lsBad f x.1 x.2)
  bad (opndA o c.regs c.slots) (rowsOf c.rows) || bad (opndB o c.regs c.slots) lanes

/-- The step sums of step t. -/
def stepSums (s : State) (k : Nat) (c : Cmd) (o : MmaOp) (f : Fold) (t : Nat) : Cells Word :=
  let a := opndA o c.regs c.slots
  let b := opndB o c.regs c.slots
  let n := mmaSteps c.regs
  let cols := lanes.map (fun j => stepValues (opByte s k c f b.tfu) b n j t)
  (rowsOf c.rows).foldl (fun acc m =>
    let row := stepValues (opByte s k c f a.tfu) a n m t
    ((List.range 64).zip cols).foldl (fun acc x =>
      cset 0 acc (t * 4096 + 64 * m + x.1) (stepSum ((row.zip x.2).map (fun y => (mulNum y.1 y.2).1)))) acc) c.sums

/-- At a step boundary the engine narrows under an alarm, and widens once the alarm has stayed clear for 200,000 clk. -/
def stepBoundary (s : State) (k : Nat) : State :=
  let d := dieAt s (dieOfCore k)
  let x := coreAt s k
  if d.alarm then putCore s k { x with narrow := true }
  else if x.narrow && d.clearedAt + 200000 ≤ s.clock then putCore s k { x with narrow := false }
  else s

/-- The command ends without a result; its pins are released. -/
def abandonMma (s : State) (k : Nat) (c : Cmd) : State := completeCmd (unpin s (dieOfCore k) c.pins) k c

/-- An MMA is set aside: it is to restart from its first step (R307). -/
def restartMma (s : State) (k : Nat) (c : Cmd) : State :=
  putCmd (unpin s (dieOfCore k) c.pins) k
    { c with started := false, step := 0, sums := [], pins := [], reads := [], copies := [], fetched := 0 }

/-- MMA_STEP_END (R220): the running MMA finishes a step. Where its fold is to be pre-empted it goes no further (R307). -/
def execMmaStepEnd (core cmd : Nat) (s : State) : Host.Outcome State Fault Refusal :=
  match cmdAt s core cmd with
  | none => .next s
  | some c =>
    match c.instr, cmdFold s c with
    | .mma o, some f =>
      if !c.started || mmaSteps c.regs ≤ c.step || !c.faults.isEmpty || f.place != .core then .next s
      else if stepSram f c o c.step then .next (engSram (abandonMma s core c) c)
      else
        match stepFault s core c o c.step with
        | some (.wait p) => .next (engWait s core c p)
        | some (.bad r a) =>
          .next (engFault (abandonMma (engOffline s core c r a) core c) c .read r a)
        | _ =>
          let r := fetchStep s core c o c.step
          let c1 := { r.2 with sums := stepSums r.1 core r.2 o f c.step, step := c.step + 1 }
          .next (stepBoundary (if f.preempt then restartMma (putCmd r.1 core c1) core c1
                               else turnStep (putCmd r.1 core c1) core c1 o) core)
    | _, _ => .next s

/-- The value of an element before the mask. -/
def mmaValue (f : Fold) (o : MmaOp) (g0 : Nat) (leaves : List Word) (m n : Nat) : Word :=
  let t := canonTree g0 leaves
  match o.mode with
  | .acc => add32 t (tileWord f o.c.toNat m n)
  | _ => t

/-- The bit of the output bitmap. -/
def maskBit (f : Fold) (base m n : Nat) : Bool :=
  (cget 0 f.ls (base + 8 * m + n / 8)).getLsbD (n % 8)

/-- Write the tiles of a finished MMA (R221, R222). -/
def writeMma (f : Fold) (c : Cmd) (o : MmaOp) : Fold :=
  let g0 := mmaG0 c.regs
  let leaves (m n : Nat) : List Word :=
    (List.range (mmaSteps c.regs)).map (fun t => cget 0 c.sums (t * 4096 + 64 * m + n))
  match o.mode with
  | .node =>
    let ps := mmaPieces c.regs
    ((List.range ps.length).zip ps).foldl (fun u x =>
      let j := x.1
      let l := x.2.1
      let g := x.2.2
      putTag' (putTile u (o.d.toNat + j) c.rows (fun m n =>
        canonTree 0 ((leaves m n).drop (g - g0) |>.take (2 ^ l)))) (o.d.toNat + j) (nodeTag l (g / 2 ^ l))) f
  | _ =>
    let mv : Word := if o.mv then regAt c 13 else 0xFF800000
    let val (m n : Nat) : Word :=
      if o.msk && maskBit f (regAt c 12).toNat m n then mv else mmaValue f o g0 (leaves m n) m n
    putTag' (putTile f o.d.toNat c.rows val) o.d.toNat 0

/-- MMA_COMPLETE (R221). -/
def execMmaComplete (core cmd : Nat) (s : State) : Host.Outcome State Fault Refusal :=
  match cmdAt s core cmd with
  | none => .next s
  | some c =>
    match c.instr, cmdFold s c with
    | .mma o, some f =>
      if !c.started || c.step != mmaSteps c.regs || f.place != .core then .next s
      else
        let base := (regAt c 12).toNat
        let bitmap (m : Nat) : Bool := lsBad f (base + 8 * m) (base + 8 * m + 7)
        if (o.msk && (rowsOf c.rows).any bitmap) || (o.mode == .acc && tileBad f o.c.toNat c.rows) then
          .next (engSram (abandonMma s core c) c)
        else .next (abandonMma (putFold s (writeMma f c o)) core c)
    | _, _ => .next s

/-! ### MTREE (R224) -/

/-- MTREE. -/
def execMtree (o : MtreeOp) (s : State) : Host.Outcome State Fault Refusal :=
  runMem s o.g false {} (fun s e =>
    let n := o.n1.toNat + 1
    issueCmd s e [amRange e ([(o.d.toNat, 1), (o.w.toNat, n)] ++ (if o.mode == .acc then [(o.c.toNat, 1)] else []))]
      (newCmd (.flock e.fold.uid e.fi) (.mtree o) e.act [] [] (flagOf e o.flg) 1 0))

/-- Level, index and range of a tag. -/
def tagLevel (t : DWord) : Nat := t.toNat / 2 ^ 32 % 64
def tagIndex (t : DWord) : Nat := t.toNat % 2 ^ 32
def tagStart (t : DWord) : Nat := tagIndex t * 2 ^ tagLevel t
def tagEnd (t : DWord) : Nat := (tagIndex t + 1) * 2 ^ tagLevel t

/-- The lowest tile whose tag is invalid or overlaps another's. -/
def badTree (f : Fold) (w n : Nat) : Option Nat :=
  let tag (i : Nat) : DWord := cget 0 f.ntag (w + i)
  ((List.range n).find? (fun i =>
    !(tag i).getLsbD 63
      || (List.range n).any (fun j => j != i && (tag j).getLsbD 63 && tagStart (tag i) < tagEnd (tag j)
            && tagStart (tag j) < tagEnd (tag i)))).map (fun i => w + i)

/-- The node (l, i) from the tiles at and below it. -/
def treeNode (nodes : List (Nat × Nat × Word)) : Nat → Nat → Option Word
  | l, i =>
    match l with
    | 0 => (nodes.find? (fun x => x.1 == 0 && x.2.1 == i)).map (fun x => x.2.2)
    | l + 1 =>
      match nodes.find? (fun x => x.1 == l + 1 && x.2.1 == i) with
      | some x => some x.2.2
      | none =>
        if nodes.all (fun x => l + 1 < x.1 || x.2.1 / 2 ^ (l + 1 - x.1) != i) then none
        else match treeNode nodes l (2 * i), treeNode nodes l (2 * i + 1) with
          | some a, some b => some (add32 a b)
          | some a, none => some a
          | none, b => b

/-- MTREE_EXECUTE. The node that covers the operands may lie above level 32, where R224 has no tag: its number is written as
it is (log entry 50). -/
def execMtreeExecute (core cmd : Nat) (s : State) : Host.Outcome State Fault Refusal :=
  match cmdAt s core cmd with
  | none => .next s
  | some c =>
    match c.instr, cmdFold s c, c.owner with
    | .mtree o, some f, .flock u fi =>
      let n := o.n1.toNat + 1
      let w := o.w.toNat
      if !c.started || f.place != .core then .next s
      else if (List.range n).any (fun i => tileBad f (w + i) c.rows) || (o.mode == .acc && tileBad f o.c.toNat c.rows) then
        .next (engSram (completeCmd s core c) c)
      else match badTree f w n with
        | some t =>
          .next (completeCmd (onFlock s u fi (fun fl => addRecord fl 0x03 (BitVec.ofNat 32 (256 * t)) 0 s.clock [])) core c)
        | none =>
          let tag (i : Nat) : DWord := cget 0 f.ntag (w + i)
          let lo := (List.range n).foldl (fun m i => min m (tagStart (tag i))) (tagStart (tag 0))
          let hi := (List.range n).foldl (fun m i => max m (tagEnd (tag i))) 0
          let l := ((List.range 65).find? (fun l => lo / 2 ^ l == (hi - 1) / 2 ^ l)).getD 64
          let i := lo / 2 ^ l
          let val (m k : Nat) : Word :=
            (treeNode ((List.range n).map (fun j => (tagLevel (tag j), tagIndex (tag j), tileWord f (w + j) m k))) l i).getD 0
          let f1 := match o.mode with
            | .zero => putTag' (putTile f o.d.toNat c.rows val) o.d.toNat 0
            | .node => putTag' (putTile f o.d.toNat c.rows val) o.d.toNat (nodeTag l i)
            | .acc => putTag' (putTile f o.d.toNat c.rows (fun m k => add32 (val m k) (tileWord f o.c.toNat m k))) o.d.toNat 0
          .next (completeCmd (putFold s f1) core c)
    | _, _, _ => .next s

/-! ### Accumulator moves (R225, R226) -/

/-- MISALIGN of an engine operand: an offset. -/
def offAlign (off n : Nat) : Option TrapInfo :=
  if off % n = 0 then none else some { cause := 0x17, detail := 255, addr := BitVec.ofNat 64 off }

/-- A tag image that AMLD refuses (R216). -/
def badTag (t : DWord) : Bool := t.toNat / 2 ^ 38 % 2 ^ 25 != 0 || 32 < tagLevel t

/-- AMLD. -/
def execAmld (o : AmldOp) (s : State) : Host.Outcome State Fault Refusal :=
  runMem s o.g false { s := o.a.toNat :: (match o.t with
                                          | some t => [t.toNat, t.toNat + 1]
                                          | none => []) } (fun s e =>
    let off := (readS e 0 o.a.toNat).toNat
    let tag : DWord := match o.t with
      | some t => readS2 e 1 t.toNat
      | none => 0
    issueCmd s e
      [trapIf (badTag tag) 0x1A 15, offAlign off 4, trapIf (e.launch.lsBytes < off + 16384) 0x18 255, amRange e [(o.d.toNat, 1)]]
      (newCmd (.flock e.fold.uid e.fi) (.amld o) e.act [BitVec.ofNat 32 off, loWord tag, hiWord tag] [] (flagOf e o.flg) 1 0))

/-- AMST. -/
def execAmst (o : AmstOp) (s : State) : Host.Outcome State Fault Refusal :=
  runMem s o.g false { s := [o.a.toNat] } (fun s e =>
    let off := (readS e 0 o.a.toNat).toNat
    issueCmd s e [offAlign off 4, trapIf (e.launch.lsBytes < off + 16384) 0x18 255, amRange e [(o.s.toNat, 1)]]
      (newCmd (.flock e.fold.uid e.fi) (.amst o) e.act [BitVec.ofNat 32 off] [] (flagOf e o.flg) 1 0))

/-- AMZ. -/
def execAmz (o : AmzOp) (s : State) : Host.Outcome State Fault Refusal :=
  runMem s o.g false {} (fun s e =>
    issueCmd s e [amRange e [(o.d.toNat, 1)]]
      (newCmd (.flock e.fold.uid e.fi) (.amz o) e.act [] [] (flagOf e o.flg) 1 0))

/-- AMCVT. -/
def execAmcvt (o : AmcvtOp) (s : State) : Host.Outcome State Fault Refusal :=
  runMem s o.g false
    { s := o.a.toNat :: (o.t.map (sOf 1)).getD [], vr := (o.rs.map (fun r => [(r.toNat, (0 : BitVec 12))])).getD [] }
    (fun s e =>
      let off := (readS e 0 o.a.toNat).toNat
      let f := slotFdr e o.fs
      let c := newCmd (.flock e.fold.uid e.fi) (.amcvt o) e.act [BitVec.ofNat 32 off, optS e 2 o.t]
        [slotOf e.fl o.fs.toNat] (flagOf e o.flg) 1 e.launch.srseed
      let vR := match o.rs with
        | none => []
        | some r => lanes.foldl (fun m l => cset 0 m l (readV e 1 r.toNat l)) []
      (issueCmd s e [trapIf (e.launch.lsBytes < off + 512 * f.w) 0x18 255, amRange e [(o.s.toNat, 1)]]
        { c with vR := vR, srcount := e.fl.srcount }).bind (fun t =>
          .ok (if f.rm = 5 && e.act != 0 then onFlock t e.fold.uid e.fi (fun fl => bumpSrcount fl e.act) else t)))

/-- Bits written in a local store: position, width and value of each field. -/
def putBits (ls : Cells Byte) (xs : List (Nat × Nat × Nat)) : Cells Byte :=
  xs.foldl (fun c x =>
    let lo := x.1 / 8
    let n := (x.1 + x.2.1 + 7) / 8 - lo
    let v := x.2.2 % 2 ^ x.2.1 * 2 ^ (x.1 % 8)
    let m := (2 ^ x.2.1 - 1) * 2 ^ (x.1 % 8)
    (List.range n).foldl (fun c i =>
      let mb := BitVec.ofNat 8 (m / 2 ^ (8 * i))
      cset 0 c (lo + i) ((cget 0 c (lo + i) &&& ~~~mb) ||| BitVec.ofNat 8 (v / 2 ^ (8 * i)))) c) ls

/-- One element of AMCVT: its code. -/
def amcvtCode (f : Fold) (c : Cmd) (o : AmcvtOp) (fi m n : Nat) : Nat :=
  let g := fdrOf ((c.slots[0]?).getD 0)
  let x := num32 (tileWord f o.s.toNat m n)
  let y := if o.rs.isSome then (mulNum x (num32 (cget 0 c.vR m))).1 else x
  let idx := 2 ^ 63 + f.foldId * 2 ^ 16 + fi * 2 ^ 12 + 64 * m + n
  let rnd := if g.rm = 5 then
      philox0 c.seed (idx % 2 ^ 32) (idx / 2 ^ 32 % 2 ^ 32) (regAt c 1).toNat (cget 0 c.srcount m).toNat
    else 0
  (roundTo g g.rm rnd y).1

/-- AM_MOVE_COMPLETE: the running AM move writes its rows. -/
def execAmMoveComplete (core cmd : Nat) (s : State) : Host.Outcome State Fault Refusal :=
  match cmdAt s core cmd with
  | none => .next s
  | some c =>
    match cmdFold s c, c.owner with
    | some f, .flock _ fi =>
      if !c.started || f.place != .core then .next s
      else
        let off := (regAt c 0).toNat
        let cells := rowCols c.rows
        match c.instr with
        | .amld o =>
          if (rowsOf c.rows).any (fun m => lsBad f (off + 256 * m) (off + 256 * m + 255)) then
            .next (engSram (completeCmd s core c) c)
          else
            let word (m n : Nat) : Word := BitVec.ofNat 32 (leNat (cgetList 0 f.ls (off + 4 * (64 * m + n)) 4))
            .next (completeCmd (putFold s (putTag' (putTile f o.d.toNat c.rows word) o.d.toNat
              (pair (regAt c 1) (regAt c 2)))) core c)
        | .amst o =>
          if tileBad f o.s.toNat c.rows then .next (engSram (completeCmd s core c) c)
          else
            let ls := cells.foldl (fun m x =>
              csetList 0 m (off + 4 * (64 * x.1 + x.2)) (leBytes 4 (tileWord f o.s.toNat x.1 x.2).toNat)) f.ls
            let marks := f.lsMarks.filter (fun w =>
              !(off ≤ 4 * w && 4 * w < off + 16384 && inMask c.rows ((4 * w - off) / 256)))
            .next (completeCmd (putFold s { f with ls := ls, lsMarks := marks }) core c)
        | .amz o =>
          .next (completeCmd (putFold s (putTag' (putTile f o.d.toNat c.rows (fun _ _ => 0)) o.d.toNat 0)) core c)
        | .amcvt o =>
          if tileBad f o.s.toNat c.rows then .next (engSram (completeCmd s core c) c)
          else
            let w := (fdrOf ((c.slots[0]?).getD 0)).w
            let xs := cells.map (fun x => (8 * off + (64 * x.1 + x.2) * w, w, amcvtCode f c o fi x.1 x.2))
            let whole (a : Nat) : Bool := off ≤ a && a < off + 512 * w && inMask c.rows ((a - off) / (8 * w))
            let marks := f.lsMarks.filter (fun x => !((List.range 4).all (fun i => whole (4 * x + i))))
            .next (completeCmd (putFold s { f with ls := putBits f.ls xs, lsMarks := marks }) core c)
        | _ => .next s
    | _, _ => .next s

/-! ### The places of the matrix commands (R298) -/

/-- Range of the local store that the elements or scales of an operand could cover, over all 64 rows. -/
def opndPlaces (u : Nat) (p : Opnd) (steps : Nat) : List (Nat × Nat × Nat) :=
  if p.tfu then []
  else
    let sc := match p.scale with
      | none => []
      | some _ => [(u, (scaleSpan p steps 0 0 steps).foldl (fun m x => min m x.1) (2 ^ 64),
                     (scaleSpan p steps 63 0 steps).foldl (fun m x => max m x.2) 0)]
    (u, (elemSpan p 0 0 steps).1, (elemSpan p 63 0 steps).2) :: sc

def tileList (u t n : Nat) : List (Nat × Nat) := (List.range n).map (fun i => (u, t + i))

/-- Read set and write set of a matrix command of fold `u`. -/
def matrixPlaces (u : Nat) (c : Cmd) : Places × Places :=
  let off := (regAt c 0).toNat
  match c.instr with
  | .mma o =>
    let n := mmaSteps c.regs
    let rd : Places :=
      { tiles := if o.mode == .acc then [(u, o.c.toNat)] else [],
        ls := opndPlaces u (opndA o c.regs c.slots) n ++ opndPlaces u (opndB o c.regs c.slots) n
          ++ (if o.msk then [(u, (regAt c 12).toNat, (regAt c 12).toNat + 511)] else []) }
    (rd, { tiles := tileList u o.d.toNat (if o.mode == .node then (mmaPieces c.regs).length else 1) })
  | .mtree o =>
    ({ tiles := tileList u o.w.toNat (o.n1.toNat + 1) ++ (if o.mode == .acc then [(u, o.c.toNat)] else []) },
     { tiles := [(u, o.d.toNat)] })
  | .amld o => ({ ls := [(u, off, off + 16383)] }, { tiles := [(u, o.d.toNat)] })
  | .amst o => ({ tiles := [(u, o.s.toNat)] }, { ls := [(u, off, off + 16383)] })
  | .amz o => ({}, { tiles := [(u, o.d.toNat)] })
  | .amcvt o =>
    ({ tiles := [(u, o.s.toNat)] }, { ls := [(u, off, off + 512 * (fdrOf ((c.slots[0]?).getD 0)).w - 1)] })
  | _ => ({}, {})

end Sys2Proof.Machine
end

