-- ==== Sys2Proof/Machine/Copy.lean ====
section
/-! DEFINITION. The copy engine: COPY, the start of engine commands, items, and the end of a copy (R227 to R235, R241,
R296 to R299, R306, R362). -/

namespace Sys2Proof.Machine

/-! ### Tensor layout records (R227) -/

structure Tensor where
  base : Nat
  img : DWord
  f : Fdr
  dims : List Nat
  strides : List Nat
  tid : Nat
  wcount : Nat
  bitoff : Nat
  rsv : Nat
  stamp : Nat

/-- A little-endian field of a record. -/
def recField (bs : List Byte) (off n : Nat) : Nat := leNat ((bs.drop off).take n)

def tensorOf (bs : List Byte) : Tensor where
  base := recField bs 0 8
  img := BitVec.ofNat 64 (recField bs 8 8)
  f := { fdrOf (BitVec.ofNat 64 (recField bs 8 8)) with blk := 0, scslot := 0 }
  dims := (List.range 4).map (fun i => recField bs (0x10 + 4 * i) 4)
  strides := (List.range 3).map (fun i => recField bs (0x20 + 4 * i) 4)
  tid := recField bs 0x2C 4
  wcount := recField bs 0x30 4
  bitoff := recField bs 0x34 1 % 8
  rsv := recField bs 0x34 1 / 8 + recField bs 0x35 3
  stamp := recField bs 0x38 8

/-- The record meets R227; `stamp` demands a stamp address. -/
def Tensor.ok (t : Tensor) (stamp : Bool) : Bool :=
  (fdrOf t.img).legal && t.img.toNat / 2 ^ 47 == 0 && t.dims.all (· != 0) && t.rsv == 0 && t.stamp % 8 == 0
    && (!stamp || t.stamp != 0)

def dimAt (ds : List Nat) (i : Nat) : Nat := (ds[i]?).getD 1

def Tensor.count (t : Tensor) : Nat := dimAt t.dims 0 * dimAt t.dims 1 * dimAt t.dims 2 * dimAt t.dims 3

/-- The coordinates of a linear index, first dimension fastest. -/
def coords (ds : List Nat) (k : Nat) : List Nat :=
  let a := dimAt ds 0
  let b := dimAt ds 1
  let c := dimAt ds 2
  [k % a, k / a % b, k / (a * b) % c, k / (a * b * c)]

def linear (ds cs : List Nat) : Nat :=
  let i (n : Nat) : Nat := (cs[n]?).getD 0
  i 0 + dimAt ds 0 * (i 1 + dimAt ds 1 * (i 2 + dimAt ds 2 * i 3))

/-- Bytes that `w` bits from a bit position touch. -/
def bytesOf (pos w : Nat) : List Nat := (List.range ((pos + w - 1) / 8 - pos / 8 + 1)).map (fun i => pos / 8 + i)

/-- The first bit of an element; positions are exact, with no wrap (log entry 49). -/
def Tensor.bitPos (t : Tensor) (k : Nat) : Nat :=
  let cs := coords t.dims k
  let off (n : Nat) : Nat := (cs[n]?).getD 0 * (t.strides[n - 1]?).getD 0
  8 * (t.base + off 1 + off 2 + off 3) + t.bitoff + (cs[0]?).getD 0 * t.f.w

/-- The lowest and the highest byte of the tensor. -/
def Tensor.span (t : Tensor) : Nat × Nat :=
  let off (n : Nat) : Nat := (dimAt t.dims n - 1) * (t.strides[n - 1]?).getD 0
  (t.base, (8 * (t.base + off 1 + off 2 + off 3) + t.bitoff + dimAt t.dims 0 * t.f.w - 1) / 8)

/-! ### The command's operands (R228, R362) -/

def srcAddr (c : Cmd) : Nat := regPair c 0
def dstAddr (c : Cmd) : Nat := regPair c 2
def statusAddr (c : Cmd) : Nat := regPair c 4
def opndAddr (c : Cmd) : Nat := regPair c 6
def resAddr (c : Cmd) : Nat := regPair c 8

/-- A Zutix copy, whose records are inline. -/
def fromHost (c : Cmd) : Bool :=
  match c.owner with
  | .host _ _ => true
  | .flock _ _ => false

/-- The address of a record: 0 source, 1 destination, 2 residue. -/
def recAddr (c : Cmd) (i : Nat) : Nat := if i = 0 then srcAddr c else if i = 1 then dstAddr c else resAddr c

/-- What has been read of a record. -/
def recHeld (c : Cmd) (i : Nat) : List Byte := if i = 0 then c.src else if i = 1 then c.dst else c.res

/-- The record that a command names: it is read once. -/
def readRecord (s : State) (k : Nat) (c : Cmd) (i : Nat) : Got (List Byte) :=
  if fromHost c then .ok ((c.recs.drop (64 * i)).take 64)
  else if recHeld c i != [] then .ok (recHeld c i)
  else if recAddr c i % 64 ≠ 0 then .bad 0 (recAddr c i)
  else engReads s k c (recAddr c i) 64

/-- Source elements that an index list counts. -/
def listCount (o : CopyOp) (a b : Tensor) : Nat := if o.mode = 1 then b.count else a.count

/-- A range of a Zutix copy meets the aperture, which it may not name (R247). -/
def hostRange (s : State) (c : Cmd) (lo n : Nat) : Bool :=
  match fromHost c, cmdCtx s c with
  | true, some x => n != 0 && ((apertureOff x lo).isSome || (lo ≤ x.lsap.toNat && x.lsap.toNat < lo + n))
  | _, _ => false

/-- A record's BASE or one of its elements does. -/
def hostTensor (s : State) (c : Cmd) (t : Tensor) : Bool :=
  hostRange s c t.base (t.span.2 + 1 - t.base)
    && (hostRange s c t.base 1 || (List.range t.count).any (fun i => (bytesOf (t.bitPos i) t.f.w).any (fun a => hostRange s c a 1)))

/-- Its STAMP does, where it names one. -/
def hostStamp (s : State) (c : Cmd) (t : Tensor) : Bool := t.stamp != 0 && hostRange s c t.stamp 8

/-- The destination record of a Zutix copy names the aperture. -/
def hostDest (s : State) (c : Cmd) (b : Tensor) : Bool := (c.host != 2 && hostTensor s c b) || hostStamp s c b

/-- Its source, or its bitmap or index list does. -/
def hostSource (s : State) (c : Cmd) (o : CopyOp) (a b : Tensor) : Bool :=
  let opnd : Nat :=
    if o.sel != 0 then (a.count + 7) / 8 else if o.mode = 1 || o.mode = 2 then 4 * listCount o a b else 0
  (o.mode != 3 && ((c.host != 1 && hostTensor s c a) || hostStamp s c a)) || hostRange s c (opndAddr c) opnd

/-! ### COPY (R228) -/

/-- COPY. The barrier offset is operand 10. -/
def execCopy (o : CopyOp) (s : State) : Host.Outcome State Fault Refusal :=
  let n := if o.ef then 10 else 8
  let used (i : Nat) : Bool := !(o.mode == 3 && i < 2) && !(o.mode == 0 && o.sel == 0 && (i == 6 || i == 7))
  runMem s o.g false
    { s := ((List.range n).filter used).map (fun i => o.p.toNat + i) ++ (o.bar.map (fun b => [b.toNat])).getD [] } (fun s e =>
    let regs := (List.range 10).map (fun i => if i < n then readS e i (o.p.toNat + i) else 0)
    let bar : Word := match o.bar with
      | some b => readS e 10 b.toNat
      | none => 0
    let status := (pair ((regs[4]?).getD 0) ((regs[5]?).getD 0)).toNat
    issueCmd s e
      [trapIf (status % 32 != 0) 0x1A 4, if o.bar.isSome then offAlign bar.toNat 16 else none,
       trapIf (o.bar.isSome && e.launch.lsBytes < bar.toNat + 16) 0x18 255]
      (newCmd (.flock e.fold.uid e.fi) (.copy o) e.act (regs ++ [bar]) [] (flagOf e o.flg) o.scope e.launch.srseed))

/-! ### Validation and the plan (R229 to R231) -/

/-- SHAPE. -/
def badShape (o : CopyOp) (a b r : Tensor) : Bool :=
  let stream := if o.tr then [dimAt a.dims 1, dimAt a.dims 0, dimAt a.dims 2, dimAt a.dims 3] else a.dims
  (o.mode != 3 && !o.cvt && a.f.w != b.f.w) || (o.mode == 0 && o.sel != 2 && stream != b.dims)
    || (o.ef && r.dims != b.dims)

/-- The source element of a stream element. -/
def streamElem (o : CopyOp) (a : Tensor) (k : Nat) : Nat :=
  if !o.tr then k
  else
    let st := [dimAt a.dims 1, dimAt a.dims 0, dimAt a.dims 2, dimAt a.dims 3]
    let cs := coords st k
    linear a.dims [(cs[1]?).getD 0, (cs[0]?).getD 0, (cs[2]?).getD 0, (cs[3]?).getD 0]

/-- The bytes of a bitmap or index list: each a value, or the REASON why it cannot be read; or a fault to wait on. -/
def readList (s : State) (k : Nat) (c : Cmd) : Nat → Nat → Except PageFault (List (Byte × Nat))
  | _, 0 => .ok []
  | va, n + 1 =>
    match readList s k c (va + 1) n with
    | .error p => .error p
    | .ok r =>
      match engRead s k c va with
      | .wait p => .error p
      | .bad q _ => .ok ((0, q) :: r)
      | .ok b => .ok ((b, 0) :: r)

/-- A plan: its elements, COMPACTOVF and INDEX. -/
structure Plan where
  elems : List (Nat × Nat × Nat)
  ovf : Bool := false
  idxErr : Bool := false

/-- Stream copies: the bit of stream element k, and its REASON. -/
def streamPlan (o : CopyOp) (a b : Tensor) (bits : List (Byte × Nat)) : Plan :=
  let bit (k : Nat) : Bool × Nat := match bits[k / 8]? with
    | some (x, q) => (x.getLsbD (k % 8) || q != 0, q)
    | none => (true, 0)
  if o.sel = 2 then
    let sel := (List.range a.count).filter (fun k => (bit k).1)
    let first := (List.range sel.length).zip sel
    { elems := (first.filter (fun x => x.1 < b.count)).map (fun x => (x.1, streamElem o a x.2,
        -- a bit that cannot be read leaves every later place open
        ((List.range (x.2 + 1)).findSome? (fun k => if (bit k).2 = 0 then none else some (bit k).2)).getD 0)),
      ovf := b.count < sel.length }
  else
    { elems := ((List.range a.count).filter (fun k => o.sel = 0 || (bit k).1)).map (fun k =>
        (k, streamElem o a k, if o.sel = 0 then 0 else (bit k).2)) }

/-- Gather and scatter. -/
def indexPlan (o : CopyOp) (a b : Tensor) (bytes : List (Byte × Nat)) : Plan :=
  let n := listCount o a b
  let ix := (List.range n).map (fun j =>
    let w := (bytes.drop (4 * j)).take 4
    (j, leNat (w.map (fun x => x.1)), (w.findSome? (fun x => if x.2 = 0 then none else some x.2)).getD 0))
  let lim := if o.mode = 1 then a.count else b.count
  let good := ix.filter (fun x => x.2.2 != 0 || x.2.1 < lim)
  { elems := good.map (fun x =>
      let i := if x.2.2 = 0 then x.2.1 else 0
      if o.mode = 1 then (x.1, i, x.2.2) else (i, x.1, x.2.2)),
    idxErr := good.length < ix.length }

def copyPlan (o : CopyOp) (a b : Tensor) (bytes : List (Byte × Nat)) : Plan :=
  if o.mode = 0 then streamPlan o a b bytes
  else if o.mode = 3 then { elems := (List.range b.count).map (fun t => (t, 0, 0)) }
  else indexPlan o a b bytes

/-- Bytes of the bitmap or index list. -/
def listBytes (o : CopyOp) (a b : Tensor) : Nat :=
  if o.mode = 0 then (if o.sel = 0 then 0 else (a.count + 7) / 8) else if o.mode = 3 then 0 else 4 * listCount o a b

/-- A record with what its reading gave: its bytes, or that it is bad. -/
def recordOk (r : Got (List Byte)) (stamp : Bool) : Bool :=
  match r with
  | .ok bs => (tensorOf bs).ok stamp
  | _ => false

def recordBytes (r : Got (List Byte)) : List Byte :=
  match r with
  | .ok bs => bs
  | _ => []

/-- The HOME_OFFLINE replies among refused reads, addresses with their REASON: one for each line (R374). -/
def noteReplies (s : State) (k : Nat) (c : Cmd) : List Nat → List (Nat × Nat) → State
  | _, [] => s
  | seen, (va, q) :: r =>
    if q ≠ rOffline || seen.contains (va / 128) then noteReplies s k c seen r
    else noteReplies (engOffline s k c q va) k c (va / 128 :: seen) r

/-- The HOME_OFFLINE replies that the reading of records met. -/
def noteRecord (s : State) (k : Nat) (c : Cmd) (r : Got (List Byte)) : State :=
  match r with
  | .bad q a => engOffline s k c q a
  | _ => s

/-- The copy starts: its records are read and checked, and its elements are chosen. -/
def startCopy (s : State) (k : Nat) (c : Cmd) (o : CopyOp) : State :=
  let ra := if o.mode = 3 then .ok (List.replicate 64 0) else readRecord s k c 0
  let rb := readRecord s k c 1
  let rr := if o.ef then readRecord s k c 2 else .ok (List.replicate 64 0)
  let c0 := { c with started := true, src := recordBytes ra, dst := recordBytes rb, res := recordBytes rr }
  match ra, rb, rr with
  | .wait p, _, _ => engWait s k c0 p
  | _, .wait p, _ => engWait s k c0 p
  | _, _, .wait p => engWait s k c0 p
  | _, _, _ =>
    let s1 := noteRecord (noteRecord (noteRecord s k c ra) k c rb) k c rr
    let a := tensorOf (recordBytes ra)
    let b := tensorOf (recordBytes rb)
    let r := tensorOf (recordBytes rr)
    let c1 := { c0 with valid := true }
    if !recordOk rb o.stamp || hostDest s c b then putCmd s1 k { c1 with bad := 3 }
    else if o.ef && (!recordOk rr false || hostTensor s c r || hostStamp s c r) then putCmd s1 k { c1 with bad := 4 }
    else if (o.mode != 3 && !recordOk ra false) || hostSource s c o a b then putCmd s1 k { c1 with bad := 1 }
    else if badShape o a b r then putCmd s1 k { c1 with bad := 2 }
    else match readList s1 k c (opndAddr c) (listBytes o a b) with
      | .error p => engWait s1 k c0 p
      | .ok bs =>
        let pl := copyPlan o a b bs
        let s2 := noteReplies s1 k c [] ((List.range bs.length).zip bs |>.map (fun x => (opndAddr c + x.1, x.2.2)))
        putCmd s2 k { c1 with plan := pl.elems, ovf := pl.ovf, idxErr := pl.idxErr }

/-! ### The scoreboard and the start of a command (R296 to R299) -/

/-- The part of a range that lies in the issuing fold's own part of the aperture, as local store. -/
def ownRange (s : State) (c : Cmd) (lo hi : Nat) : List (Nat × Nat × Nat) :=
  match c.owner, cmdCtx s c with
  | .flock u _, some x =>
    let a := x.lsap.toNat
    if hi < a || a + 0x100000 ≤ lo then [] else [(u, max lo a - a, min hi (a + 0xFFFFF) - a)]
  | _, _ => []

/-- What a copy's record tells of its ranges: nothing while it waits on a fault, or while its bytes are among those that
`w`, what earlier commands are still to write, may change; a record that is bad names none. -/
def recTensor (s : State) (k : Nat) (w : List (Nat × Nat × Nat)) (c : Cmd) (i : Nat) : Option (Option Tensor) :=
  if recHeld c i == [] && !fromHost c && (ownRange s c (recAddr c i) (recAddr c i + 63)).any (fun x => w.any (granMeet x)) then
    none
  else match readRecord s k c i with
  | .ok bs => some (some (tensorOf bs))
  | .bad _ _ => some none
  | .wait _ => none

/-- The whole of a fold's part of the aperture, as local store. -/
def ownAll (c : Cmd) : List (Nat × Nat × Nat) :=
  match c.owner with
  | .flock u _ => [(u, 0, 0xFFFFF)]
  | .host _ _ => []

/-- The range of the tensor that a record names. While what the record will say is not known, the whole of the fold's part
of the aperture stands for it (log entry 49). -/
def recSpan (s : State) (k : Nat) (w : List (Nat × Nat × Nat)) (c : Cmd) (i : Nat) : List (Nat × Nat × Nat) :=
  match recTensor s k w c i with
  | none => ownAll c
  | some none => []
  | some (some t) => ownRange s c t.span.1 t.span.2

/-- Read set and write set of a copy, where earlier commands are still to write `w`. -/
def copyPlaces (s : State) (k : Nat) (w : List (Nat × Nat × Nat)) (c : Cmd) (o : CopyOp) : Places × Places :=
  let rg (x : Nat × Nat) : List (Nat × Nat × Nat) := ownRange s c x.1 x.2
  let rec' (p : Nat) : List (Nat × Nat × Nat) := if fromHost c then [] else rg (p, p + 63)
  let lst : List (Nat × Nat × Nat) :=
    if o.mode = 3 || (o.mode = 0 && o.sel = 0) then []
    else match recTensor s k w c 0, recTensor s k w c 1 with
      | some (some a), some (some b) =>
        if listBytes o a b = 0 then [] else rg (opndAddr c, opndAddr c + listBytes o a b - 1)
      | some _, some _ => []
      | _, _ => ownAll c
  ({ ls := (if o.mode = 3 then [] else rec' (srcAddr c) ++ recSpan s k w c 0) ++ rec' (dstAddr c)
             ++ (if o.ef then rec' (resAddr c) else []) ++ lst },
   { ls := recSpan s k w c 1 ++ rec' (dstAddr c) ++ (if o.ef then recSpan s k w c 2 ++ rec' (resAddr c) else []) })

def cmdPlaces (s : State) (k : Nat) (w : List (Nat × Nat × Nat)) (c : Cmd) : Places × Places :=
  match c.instr, c.owner with
  | .copy o, _ => copyPlaces s k w c o
  | _, .flock u _ => matrixPlaces u c
  | _, .host _ _ => ({}, {})

/-- What a command writes to local store, but for the write counts of a copy's records, which change none of its ranges. -/
def dataWrites (s : State) (k : Nat) (w : List (Nat × Nat × Nat)) (c : Cmd) : List (Nat × Nat × Nat) :=
  match c.instr with
  | .copy o => recSpan s k w c 1 ++ (if o.ef then recSpan s k w c 2 else [])
  | _ => (cmdPlaces s k w c).2.ls

/-- What commands write to local store, each after those before it. -/
def writesOf (s : State) (k : Nat) (cs : List Cmd) : List (Nat × Nat × Nat) :=
  cs.foldl (fun w c => w ++ dataWrites s k w c) []

/-- A later command may not start beside an earlier one (R299). -/
def conflicts (a b : Places × Places) : Bool := b.2.meets a.1 || b.2.meets a.2 || b.1.meets a.2

/-- No command accepted before `c` stands in its way: each earlier command has the places that those before it leave it. -/
def clearOf (s : State) (k : Nat) (mine : Places × Places) : List Cmd → List Cmd → Bool
  | _, [] => true
  | before, d :: r =>
    !conflicts (cmdPlaces s k (writesOf s k before) d) mine && clearOf s k mine (before ++ [d]) r

/-- The command's engine may start it: it is first of its engine's queue, the engine has room for it, and no command
accepted before it stands in its way. -/
def canStart (s : State) (k : Nat) (c : Cmd) : Bool :=
  let cs := (coreAt s k).cmds
  let before := cs.takeWhile (fun d => d.id != c.id)
  let mine := before.filter (fun d => isCopy d == isCopy c)
  let running := (cs.filter (fun d => d.started && isCopy d == isCopy c)).length
  !c.started && mine.all (fun d => d.started) && running < (if isCopy c then 4 else 1)
    && clearOf s k (cmdPlaces s k (writesOf s k before) c) [] before
    && (match c.owner with
        | .flock u _ => (foldAt s u).any (fun f => f.place == .core && !f.preempt)
        | .host _ _ => true)

/-- ENGINE_COMMAND_START: an engine starts its next command; a copy that has waited on a fault at its start tries
again. -/
def execEngineCommandStart (core cmd : Nat) (s : State) : Host.Outcome State Fault Refusal :=
  match cmdAt s core cmd with
  | none => .next s
  | some c =>
    match c.instr with
    | .copy o =>
      -- a copy restored from a fleece goes on with its saved progress
      if canStart s core c && c.valid then .next (putCmd s core { c with started := true })
      else if canStart s core c || (c.started && !c.valid && c.faults.isEmpty) then .next (startCopy s core c o)
      else .next s
    | .mma o =>
      if canStart s core c then
        let c1 := { c with started := true }
        let r := fetchAhead (stepBoundary s core) core c1 o
        .next (putCmd r.1 core r.2)
      else .next s
    | _ => .next (if canStart s core c then putCmd s core { c with started := true } else s)

/-! ### Items (R232, R306) -/

def insertNat (n : Nat) : List Nat → List Nat
  | [] => [n]
  | x :: r => if n < x then n :: x :: r else if n = x then x :: r else x :: insertNat n r

/-- The 4 KiB blocks that the elements of a tensor touch, ascending. -/
def blocksOf (t : Tensor) (ts : List Nat) : List Nat :=
  ts.foldl (fun bs k => (bytesOf (t.bitPos k) t.f.w).foldl (fun bs a => insertNat (a / 4096) bs) bs) []

/-- The items in their order: whether an item is of the residue, and its block. -/
def copyItems (c : Cmd) (o : CopyOp) : List (Bool × Nat) :=
  if c.bad ≠ 0 then []
  else
    let ts := c.plan.map (fun x => x.1)
    (blocksOf (tensorOf c.dst) ts).map (fun b => (false, b))
      ++ (if o.ef then (blocksOf (tensorOf c.res) ts).map (fun b => (true, b)) else [])

/-- A byte of the source: of host memory, whose addresses have 64 bits, or as an engine reads it. -/
def sourceByte (s : State) (k : Nat) (c : Cmd) (va : Nat) : Got Byte :=
  if fromHost c && c.host == 1 then
    (if 2 ^ 64 ≤ va || s.hostDeny.contains (va / 4096) then .bad 2 va else .ok (cget 0 s.hostMem va))
  else engRead s k c va

/-- Where a byte of the destination or residue lies: at the host, or at a spot. -/
def targetByte (s : State) (k : Nat) (c : Cmd) (res : Bool) (va : Nat) : Got (Option Spot) :=
  if fromHost c && c.host == 2 && !res then
    (if 2 ^ 64 ≤ va || s.hostDeny.contains (va / 4096) then .bad 2 va else .ok none)
  else match engWritable s k c va with
    | .ok sp => .ok (some sp)
    | .wait p => .wait p
    | .bad q a => .bad q a

/-- A free choice of the bits of a byte. -/
def raceMask (s : State) (key : Nat) : Byte :=
  (List.range 8).foldl (fun m i => if Config.raceSees s.free (8 * key + i) then m ||| BitVec.twoPow 8 i else m) 0

/-- The codes of a destination element and its residue, with flags (R230, R231). -/
def elemCodes (c : Cmd) (o : CopyOp) (t raw : Nat) : (Nat × BitVec 5) × (Nat × BitVec 5) :=
  let a := tensorOf c.src
  let b := tensorOf c.dst
  if o.mode = 3 then ((opndAddr c % 2 ^ b.f.w, 0), (0, 0))
  else if !o.cvt then ((raw, 0), (0, 0))
  else
    let rnd := if b.f.rm = 5 then philox0 c.seed (t % 2 ^ 32) (t / 2 ^ 32 % 2 ^ 32) b.tid b.wcount else 0
    let r := cvtElem b.f a.f (tensorOf c.res).f .zero rnd raw
    if o.ef then r else (r.1, (0, 0))

/-- What one element of an item has met: a fault to wait on, a REASON, the reads refused, the source bytes read, and its
codes with flags. -/
structure ElemRes where
  wait : Option PageFault := none
  reason : Nat := 0
  bad : List (Nat × Nat) := []
  got : List (Nat × Byte) := []
  codes : (Nat × BitVec 5) × (Nat × BitVec 5) := ((0, 0), (0, 0))

/-- Bytes that the elements of an item have written so far, by place. -/
abbrev Fresh := Cells Byte

/-- A source byte where the command's own destination overlaps it (R231): each bit as it was before the command, or as it
is now. -/
def overlapByte (s : State) (k : Nat) (c : Cmd) (now : Fresh) (t q : Nat) (b : Byte) : Byte :=
  match engSpot s k c .read q 1 with
  | .error _ => b
  | .ok sp =>
    let new := ((now.find? (fun x => x.1 == spotKey sp)).map (fun x => x.2)).getD b
    let old := ((c.was.find? (fun x => x.1 == spotKey sp)).map (fun x => x.2)).getD b
    if new = old then b
    else
      let m := raceMask s ((t + 1) * 2 ^ 64 + q)
      (old &&& ~~~m) ||| (new &&& m)

/-- The value of one element: `x` is its destination element, its source element, and the REASON of its bit or index. A
residue item reads the source again, as it then stands (log entry 49). -/
def evalElem (s : State) (k : Nat) (c : Cmd) (o : CopyOp) (now : Fresh) (x : Nat × Nat × Nat) : ElemRes :=
  let a := tensorOf c.src
  let p := a.bitPos x.2.1
  let reads := if o.mode = 3 then [] else bytesOf p a.f.w
  let r := reads.foldl (fun (y : ElemRes) q =>
    match sourceByte s k c q with
    | .ok b =>
      let b := if fromHost c && c.host == 1 then b else overlapByte s k c now x.1 q b
      { y with got := y.got ++ [(q, b)] }
    | .wait f => { y with wait := y.wait.or (some f), got := y.got ++ [(q, 0)] }
    | .bad z _ =>
      { y with got := y.got ++ [(q, (Config.freeWord s.free q).setWidth 8)], reason := if y.reason = 0 then z else y.reason,
               bad := y.bad ++ [(q, z)] })
    { reason := x.2.2 }
  let raw := leNat (r.got.map (fun y => y.2)) / 2 ^ (p % 8) % 2 ^ a.f.w
  { r with codes := elemCodes c o x.1 raw }

/-- The code that an element gives to the destination, or to the residue. -/
def ElemRes.code (r : ElemRes) (res : Bool) : Nat := if res then r.codes.2.1 else r.codes.1.1

/-- The bytes of an element: address, the bits that it writes there, and their mask. -/
def elemParts (pos w v : Nat) : List (Nat × Byte × Byte) :=
  (bytesOf pos w).map (fun a =>
    let sh (x : Nat) : Byte := BitVec.ofNat 8 (x * 2 ^ (pos % 8) / 2 ^ (8 * (a - pos / 8)))
    (a, sh (v % 2 ^ w), sh (2 ^ w - 1)))

/-- Those in a block. -/
def elemBytes (blk pos w v : Nat) : List (Nat × Byte × Byte) := (elemParts pos w v).filter (fun y => y.1 / 4096 == blk)

/-- The elements of the plan with bits in a block. -/
def itemElems (c : Cmd) (res : Bool) (blk : Nat) : List (Nat × Nat × Nat) :=
  let t := tensorOf (if res then c.res else c.dst)
  c.plan.filter (fun x => (bytesOf (t.bitPos x.1) t.f.w).any (fun q => q / 4096 == blk))

/-- The places of what the elements of an item read, and of what they write. -/
def readKeys (s : State) (k : Nat) (c : Cmd) (o : CopyOp) (xs : List (Nat × Nat × Nat)) : List Nat :=
  let a := tensorOf c.src
  if o.mode = 3 then []
  else xs.flatMap (fun x => (bytesOf (a.bitPos x.2.1) a.f.w).filterMap (fun q =>
    match engSpot s k c .read q 1 with
    | .ok sp => some (spotKey sp)
    | .error _ => none))

def writeKeys (s : State) (k : Nat) (c : Cmd) (res : Bool) (blk : Nat) (xs : List (Nat × Nat × Nat)) : List Nat :=
  let t := tensorOf (if res then c.res else c.dst)
  xs.flatMap (fun x => (elemBytes blk (t.bitPos x.1) t.f.w 0).filterMap (fun y =>
    match targetByte s k c res y.1 with
    | .ok (some sp) => some (spotKey sp)
    | _ => none))

/-- The order in which the elements of an item take their values: any, where they read among what they write (R231). -/
def evalOrder (s : State) (k : Nat) (c : Cmd) (o : CopyOp) (res : Bool) (blk : Nat) (xs : List (Nat × Nat × Nat)) :
    List (Nat × Nat × Nat) :=
  match writeKeys s k c res blk xs with
  | [] => xs
  | w :: ws =>
    let lo := ws.foldl min w
    let hi := ws.foldl max w
    if (readKeys s k c o xs).any (fun r => lo ≤ r && r ≤ hi) then
      sortBy (fun x y => decide ((Config.freeWord s.free x.1).toNat ≤ (Config.freeWord s.free y.1).toNat)) xs
    else xs

/-- The values of elements, one after another: each sees what those before it have written. -/
def evalElems (s : State) (k : Nat) (c : Cmd) (o : CopyOp) (res : Bool) (blk : Nat) :
    Fresh → List (Nat × Nat × Nat) → List ((Nat × Nat × Nat) × ElemRes)
  | _, [] => []
  | now, x :: r =>
    let t := tensorOf (if res then c.res else c.dst)
    let v := evalElem s k c o now x
    let now' := (elemBytes blk (t.bitPos x.1) t.f.w (v.code res)).foldl (fun m y =>
      match targetByte s k c res y.1 with
      | .ok (some sp) =>
        let b := ((m.find? (fun z => z.1 == spotKey sp)).map (fun z => z.2)).getD (engByte s k sp)
        cput m (spotKey sp) ((b &&& ~~~y.2.2) ||| (y.2.1 &&& y.2.2))
      | _ => m) now
    (x, v) :: evalElems s k c o res blk now' r

/-- What an item has gathered: a fault to wait on, the first REASON, the reads refused, the written bits by byte (value, mask, and the
bits whose source was read), the source bytes read, and the flags. -/
structure ItemAcc where
  wait : Option PageFault := none
  reason : Nat := 0
  bad : List (Nat × Nat) := []
  out : Cells (Byte × Byte × Byte) := []
  got : Cells Byte := []
  fl : BitVec 5 := 0

/-- One element's share of an item. -/
def gather (blk pos w : Nat) (res : Bool) (acc : ItemAcc) (v : ElemRes) : ItemAcc :=
  let good := v.reason = 0
  { wait := acc.wait.or v.wait, reason := if acc.reason = 0 then v.reason else acc.reason, bad := acc.bad ++ v.bad,
    out := (elemBytes blk pos w (v.code res)).foldl (fun m y =>
      let old := cget (0, 0, 0) m y.1
      cput m y.1 ((old.1 &&& ~~~y.2.2) ||| (y.2.1 &&& y.2.2), old.2.1 ||| y.2.2,
        if good then old.2.2 ||| y.2.2 else old.2.2 &&& ~~~y.2.2)) acc.out,
    got := v.got.foldl (fun m y => cput m y.1 y.2) acc.got,
    fl := if good then acc.fl ||| v.codes.1.2 ||| v.codes.2.2 else acc.fl }

/-- What an item writes: of bits that several elements write, the last in the stream stands (R231). -/
def itemAcc (s : State) (k : Nat) (c : Cmd) (o : CopyOp) (res : Bool) (blk : Nat) : ItemAcc :=
  let t := tensorOf (if res then c.res else c.dst)
  let xs := itemElems c res blk
  let vs := evalElems s k c o res blk [] (evalOrder s k c o res blk xs)
  xs.foldl (fun acc x => match vs.find? (fun y => y.1 == x) with
    | some y => gather blk (t.bitPos x.1) t.f.w res acc y.2
    | none => acc) {}

/-- The bits of an item's places of which the item makes the last write in the stream: for an element the destination is
written before the residue (R230, R231). -/
def lastBits (s : State) (k : Nat) (c : Cmd) (o : CopyOp) (res : Bool) (blk : Nat) : Cells Byte :=
  let keys := writeKeys s k c res blk (itemElems c res blk)
  c.plan.foldl (fun m x => (if o.ef then [false, true] else [false]).foldl (fun m q =>
    let t := tensorOf (if q then c.res else c.dst)
    (elemParts (t.bitPos x.1) t.f.w 0).foldl (fun m y =>
      match targetByte s k c q y.1 with
      | .ok (some sp) =>
        if !keys.contains (spotKey sp) then m
        else
          let old := cget 0 m (spotKey sp)
          cset 0 m (spotKey sp) (if q == res && y.1 / 4096 == blk then old ||| y.2.2 else old &&& ~~~y.2.2)
      | _ => m) m) m) []

/-- The barrier bytes of an ended item are counted (R241). -/
def countItem (s : State) (c : Cmd) (o : CopyOp) (n : Nat) : State :=
  match c.owner with
  | .host _ _ => s
  | .flock u _ =>
    if o.bar.isNone then s
    else
      let off := (regAt c 10).toNat
      putBar s u off (barCount (barAt s u off) n)

/-- An item ends. -/
def endItem (s : State) (k : Nat) (c : Cmd) (o : CopyOp) (item : Nat) (res : Bool) (blk : Nat) : State :=
  let acc := itemAcc s k c o res blk
  let spots := acc.out.map (fun x => (x.1, x.2, targetByte s k c res x.1))
  let waits := spots.findSome? (fun x => match x.2.2 with
    | .wait p => some p
    | _ => none)
  match acc.wait, waits with
  | some p, _ => engWait s k c p
  | none, some p => engWait s k c p
  | none, none =>
    let denied := spots.filterMap (fun x => match x.2.2 with
      | .bad q a => some (a, q)
      | _ => none)
    let reason := if acc.reason ≠ 0 then acc.reason else (denied.map (fun x => x.2)).headD 0
    let fails := reason != 0
    let oldOf (va : Nat) (sp : Got (Option Spot)) : Byte := match sp with
      | .ok (some p) => engByte s k p
      | .ok none => cget 0 s.hostMem va
      | _ => (Config.freeWord s.free va).setWidth 8
    let s1 := acc.got.foldl (fun u x => if x.1 % 128 = 0 then engTouch u k c x.1 else u)
      (match acc.got with
       | x :: _ => engTouch s k c x.1
       | [] => s)
    -- what is written: of a failed item, a free choice of the bits whose source was read; no bit of a later write
    let last := lastBits s k c o res blk
    let wins : Option Spot → Byte
      | some p => cget 0 last (spotKey p)
      | none => 0xFF
    let bytes := spots.filterMap (fun x => match x.2.2 with
      | .ok sp =>
        let m := wins sp &&& (if fails then x.2.1.2.2 &&& raceMask s x.1 else x.2.1.2.1)
        let old := oldOf x.1 x.2.2
        some (x.1, sp, (old &&& ~~~m) ||| (x.2.1.1 &&& m))
      | _ => none)
    let s2 := engWrite s1 k c (bytes.filterMap (fun x => x.2.1.map (fun sp => (sp, x.2.2))))
    let s3 := bytes.foldl (fun u x => match x.2.1 with
      | none => { u with hostMem := cset 0 u.hostMem x.1 x.2.2 }
      | some _ => u) s2
    let s4 := noteReplies (noteReplies s3 k c [] acc.bad) k c [] denied
    let whole := spots.map (fun x => (x.1, (oldOf x.1 x.2.2 &&& ~~~x.2.1.2.1) ||| (x.2.1.1 &&& x.2.1.2.1)))
    let c1 := { c with
      ended := c.ended ++ [item], failed := if fails then c.failed ++ [item] else c.failed, fl := c.fl ||| acc.fl,
      wrote := if res then c.wrote else whole.foldl (fun m x => cput m x.1 x.2) c.wrote,
      got := acc.got.foldl (fun m x => cput m x.1 x.2) c.got,
      flight := c.flight.filter (· != item), was := noteWas s k c (bytes.filterMap (fun x => x.2.1)) }
    let s5 := countItem (putCmd s4 k c1) c1 o acc.out.length
    match c.owner with
    | .flock _ _ => s5
    | .host x i =>
      let s6 := addItems s5 (x + 1) i 1
      if fails then addFailure s6 (x + 1) i item (0x400 + reason) 0 else s6

/-- An item in flight waits on a fault that is to be resolved (R232). -/
def itemWaits (s : State) (k : Nat) (c : Cmd) (item : Nat) : Bool :=
  match c.instr with
  | .copy o =>
    (match (copyItems c o)[item]? with
     | some (res, blk) =>
       let acc := itemAcc s k c o res blk
       acc.wait.isSome || acc.out.any (fun x => match targetByte s k c res x.1 with
                                                | .wait _ => true
                                                | _ => false)
     | none => false)
  | _ => false

/-- Items in flight across the copy engine of a core. -/
def inFlight (s : State) (k : Nat) : Nat := ((coreAt s k).cmds.map (fun c => c.flight.length)).sum

/-- Items start in ascending order, at most four of a command and eight of the engine in flight (R306), and none beyond the
three above the lowest that has not ended, which the saved progress can name (R307): the command with item `item` in flight,
if it can be. -/
def startItems (s : State) (k : Nat) (c : Cmd) (item : Nat) : Option Cmd :=
  let new := (List.range (item + 1)).filter (fun i => !c.ended.contains i && !c.flight.contains i)
  if !new.isEmpty && (cmdFold s c).any (fun f => f.preempt) then none   -- only what is in flight ends (R307)
  else if ((List.range item).find? (fun i => !c.ended.contains i)).any (fun low => low + 3 < item) then none
  else if 4 < c.flight.length + new.length || 8 < inFlight s k + new.length then none
  else some { c with flight := c.flight ++ new }

/-- The engine can work on a command: its fold is resident, and the host's side is connected. -/
def copyRuns (s : State) (c : Cmd) : Bool :=
  c.started && c.valid && (match c.owner with
    | .flock u _ => (foldAt s u).any (fun f => f.place == .core)
    | .host x _ => c.host == 0 || (endpointAt s (x + 1)).up)

/-- COPY_ITEM_END: an item in flight ends; the items up to it have started. An item that meets a fault to be resolved stays
in flight (R232, R306). -/
def execCopyItemEnd (core cmd item : Nat) (s : State) : Host.Outcome State Fault Refusal :=
  match cmdAt s core cmd with
  | none => .next s
  | some c =>
    match c.instr with
    | .copy o =>
      (match (copyItems c o)[item]?, startItems s core c item with
       | some (res, blk), some c1 =>
         if !copyRuns s c || c.ended.contains item then .next s
         else .next (endItem (putCmd s core c1) core c1 o item res blk)
       | _, _ => .next s)
    | _ => .next s

/-! ### The end of a copy (R234, R235) -/

/-- The new WCOUNT of a record. -/
def newWcount (bs : List Byte) : Nat := ((tensorOf bs).wcount + 1) % 2 ^ 32

/-- The 32 bytes of the status word. -/
def statusWord (c : Cmd) (o : CopyOp) (items : Nat) : List Byte :=
  let bit (b : Bool) (n : Nat) : Nat := if b then 2 ^ n else 0
  let w0 := 1 + bit (!c.failed.isEmpty) 1 + bit (c.bad = 1 || 3 ≤ c.bad) 2 + bit (c.bad = 2) 3 + bit c.idxErr 4 + bit c.ovf 5
    + c.fl.toNat * 256
  let crc (on : Bool) (m : Cells Byte) : Nat := if on && !m.isEmpty then (crc32c (m.map (fun x => x.2))).toNat else 0
  leBytes 4 w0 ++ leBytes 4 items ++ leBytes 4 c.failed.length
    ++ leBytes 4 (match c.failed with
                  | [] => 0xFFFFFFFF
                  | x :: r => r.foldl min x)
    ++ leBytes 4 (crc o.crcd c.wrote) ++ leBytes 4 (crc o.crcs c.got)
    ++ leBytes 4 (if c.bad = 3 then 0 else newWcount c.dst) ++ leBytes 4 0

/-- A write of the end of a copy: done, waiting, or lost. -/
def tailWrite (s : State) (k : Nat) (c : Cmd) (va : Nat) (bs : List Byte) : Got State :=
  let spots := (List.range bs.length).zip bs |>.map (fun x => (engWritable s k c (va + x.1), x.2))
  match spots.findSome? (fun x => match x.1 with
      | .wait p => some (Got.wait p)
      | .bad q a => some (Got.bad q a)
      | .ok _ => none) with
  | some r => r
  | none =>
    .ok (engWrite (if wider c.scope then releaseAt s k c.scope else s) k c (spots.filterMap (fun x => match x.1 with
      | .ok sp => some (sp, x.2)
      | _ => none)))

/-- The write that step `n` of R235 makes: 0 and 1 the write counts, 2 the status word, 3 the stamp. The count of a
residue record that could not be read is read now. -/
def tailStep (s : State) (k : Nat) (c : Cmd) (o : CopyOp) (items n : Nat) : Got (Option (Nat × List Byte)) :=
  match n with
  | 0 => .ok (if fromHost c || c.bad = 3 then none else some (dstAddr c + 0x30, leBytes 4 (newWcount c.dst)))
  | 1 =>
    if fromHost c || !o.ef || c.bad = 3 then .ok none
    else if c.res != [] then .ok (some (resAddr c + 0x30, leBytes 4 (newWcount c.res)))
    else match engReads s k c (resAddr c + 0x30) 4 with
      | .ok bs => .ok (some (resAddr c + 0x30, leBytes 4 (leNat bs + 1)))
      | .wait p => .wait p
      | .bad q a => .bad q a
  | 2 => .ok (if fromHost c || statusAddr c = 0 then none else some (statusAddr c, statusWord c o items))
  | _ => .ok (if !o.stamp || c.bad = 3 then none else some ((tensorOf c.dst).stamp, leBytes 8 (newWcount c.dst)))

/-- A lost write is reported. -/
def loseWrite (s : State) (k : Nat) (c : Cmd) (reason va : Nat) : State :=
  let s1 := engFault (engOffline s k c reason va) c .write reason va
  match c.owner with
  | .flock _ _ => s1
  | .host x i => addFailure s1 (x + 1) i 0xFFFFFFFF (0x400 + reason) 0

/-- The command of a queue has completed (R311). -/
def queueDone (s : State) (ctx index : Nat) : State :=
  match ctxAt s ctx with
  | none => s
  | some c => putCtx s { c with queue := c.queue.map (fun q => if q.index == index then { q with done := true } else q) }

/-- Step 5 of R235. -/
def endCopy (s : State) (k : Nat) (c : Cmd) (o : CopyOp) (items : Nat) : State :=
  let s1 := completeCmd s k c
  match c.owner with
  | .flock _ _ => s1
  | .host x i =>
    let bad := !c.failed.isEmpty || c.lostWrite.isSome
    complete (queueDone s1 x i) (x + 1) i (if bad then 4 else 3) (if bad then stFailed else stOk) (statusWord c o items)

/-- Step `n` of R235 on the state: it is done, it waits, or its write is lost. -/
def tailDo (s : State) (k : Nat) (c : Cmd) (o : CopyOp) (items n : Nat) : Got State :=
  match tailStep s k c o items n with
  | .ok none => .ok s
  | .ok (some (va, bs)) => tailWrite s k c va bs
  | .wait p => .wait p
  | .bad q a => .bad q a

/-- The steps of R235 from step `c.step` on, until one waits. -/
def copyTail : Nat → State → Nat → Cmd → CopyOp → Nat → State
  | 0, s, k, c, o, items => endCopy s k c o items
  | n + 1, s, k, c, o, items =>
    if 4 ≤ c.step then endCopy s k c o items
    else
      let c1 := { c with step := c.step + 1 }
      match tailDo s k c o items c.step with
      | .ok t => copyTail n (putCmd t k c1) k c1 o items
      | .wait p => engWait s k c p
      | .bad q a =>
        let c2 := { c1 with lostWrite := c1.lostWrite.or (some q) }
        copyTail n (putCmd (loseWrite s k c q a) k c2) k c2 o items

/-- COPY_FINISH: every item has ended; the write counts, the status word and the stamp are written and the command
completes. -/
def execCopyFinish (core cmd : Nat) (s : State) : Host.Outcome State Fault Refusal :=
  match cmdAt s core cmd with
  | none => .next s
  | some c =>
    match c.instr with
    | .copy o =>
      let items := (copyItems c o).length
      let here := match c.owner with
        | .flock u _ => (foldAt s u).any (fun f => f.place == .core)
        | .host _ _ => true
      if c.started && c.valid && c.faults.isEmpty && here && (List.range items).all c.ended.contains then
        .next (copyTail 4 s core c o items)
      else .next s
    | _ => .next s

end Sys2Proof.Machine
end

