-- ==== Sys2Proof/Machine/Arith.lean ====
section
/-! DEFINITION. The integer functions that scalar and vector instructions share (R140, R141, R143, R158 to R162). -/

namespace Sys2Proof.Machine

/-- Bit `i` of a table for three inputs (R138, R140). -/
def lutBit (lut : BitVec 8) (a b c : Bool) : Bool := lut.getLsbD (a.toNat + 2 * b.toNat + 4 * c.toNat)

/-- A table applied bit by bit: the OR of the minterms that the table selects. -/
def lutWord {w : Nat} (lut : BitVec 8) (a b c : BitVec w) : BitVec w :=
  (List.range 8).foldl (fun r i =>
    if lut.getLsbD i then
      r ||| ((if i % 2 = 1 then a else ~~~a) &&& (if i / 2 % 2 = 1 then b else ~~~b) &&& (if i / 4 = 1 then c else ~~~c))
    else r) 0

/-- Shift amount: the low 8 bits. -/
def shAmt (b : Word) : Nat := b.toNat % 256

def shlW (a b : Word) : Word := if 32 ≤ shAmt b then 0 else a <<< shAmt b
def shrW (a b : Word) : Word := if 32 ≤ shAmt b then 0 else a >>> shAmt b
def sraW (a b : Word) : Word := if 32 ≤ shAmt b then (if a.msb then BitVec.allOnes 32 else 0) else a.sshiftRight (shAmt b)

/-- The high 32 bits of the exact product. -/
def mulHigh (u : Bool) (a b : Word) : Word :=
  if u then (a.setWidth 64 * b.setWidth 64).extractLsb' 32 32 else (a.signExtend 64 * b.signExtend 64).extractLsb' 32 32

def minW (u : Bool) (a b : Word) : Word := if (if u then b.ult a else b.slt a) then b else a
def maxW (u : Bool) (a b : Word) : Word := if (if u then a.ult b else a.slt b) then b else a

/-- SBFE and BFE (R141). -/
def bfeW (u : Bool) (a c : Word) : Word :=
  let pos := c.toNat % 256
  let len := c.toNat / 256 % 256
  if 32 ≤ pos ∨ len = 0 then 0
  else
    let top := min (pos + len) 32
    let f := lowBits (top - pos) (a >>> pos)
    if u || !a.getLsbD (top - 1) then f else f ||| (BitVec.allOnes 32 <<< (top - pos))

/-- SBFI and BFI (R141): value, control, base. -/
def bfiW (a b c : Word) : Word :=
  let pos := b.toNat % 256
  let len := b.toNat / 256 % 256
  if 32 ≤ pos ∨ len = 0 then c
  else
    let top := min (pos + len) 32
    let m := (lowBits (top - pos) (BitVec.allOnes 32)) <<< pos
    (c &&& ~~~m) ||| ((a <<< pos) &&& m)

/-- The number of set bits. -/
def popW (a : Word) : Word := BitVec.ofNat 32 (((List.range 32).filter (fun i => a.getLsbD i)).length)

/-- The number of leading zeros; 32 for zero. -/
def clzW (a : Word) : Word :=
  match (List.range 32).find? (fun i => a.getLsbD (31 - i)) with
  | some i => BitVec.ofNat 32 i
  | none => 32

/-- The bits in reverse order. -/
def brevW (a : Word) : Word := a.reverse

/-- The conditions of R143. -/
def condW : ICond → Word → Word → Bool
  | .eq, a, b => a == b
  | .ne, a, b => a != b
  | .lt, a, b => a.slt b
  | .le, a, b => a.sle b
  | .gt, a, b => b.slt a
  | .ge, a, b => b.sle a
  | .ltu, a, b => a.ult b
  | .leu, a, b => a.ule b
  | .gtu, a, b => b.ult a
  | .geu, a, b => b.ule a

end Sys2Proof.Machine
end

