-- ==== Sys2Proof/Machine/IntVec.lean ====
section
/-! DEFINITION. The integer, bit, compare, select and move instructions of the vector unit (R158 to R162). -/

namespace Sys2Proof.Machine

/-- A word result in every lane of Active, from the lane's source words. -/
def lane1 (s : State) (g : Guard) (d : Reg) (a : Src) (f : Word → Word) : Host.Outcome State Fault Refusal :=
  runFlock s g false { srcNames 1 [a] with vw := [d.toNat] } (fun e =>
    .ok (setLanes e.fl d.toNat e.act (fun l => f (srcV e 0 a l))))

def lane2 (s : State) (g : Guard) (d : Reg) (a b : Src) (f : Word → Word → Word) : Host.Outcome State Fault Refusal :=
  runFlock s g false { srcNames 1 [a, b] with vw := [d.toNat] } (fun e =>
    .ok (setLanes e.fl d.toNat e.act (fun l => f (srcV e 0 a l) (srcV e 1 b l))))

def lane3 (s : State) (g : Guard) (d : Reg) (a b c : Src) (f : Word → Word → Word → Word) :
    Host.Outcome State Fault Refusal :=
  runFlock s g false { srcNames 1 [a, b, c] with vw := [d.toNat] } (fun e =>
    .ok (setLanes e.fl d.toNat e.act (fun l => f (srcV e 0 a l) (srcV e 1 b l) (srcV e 2 c l))))

/-- p[r] in a lane of the mask, one lane at a time. -/
def setPLane (fl : Flock) (r l : Nat) (b : Bool) : Flock :=
  setP fl r (BitVec.twoPow 64 l) (if b then BitVec.twoPow 64 l else 0)

/-- IADD (R158). -/
def execIadd (o : V2Op) (s : State) : Host.Outcome State Fault Refusal :=
  lane2 s o.g o.d o.a o.b (fun a b => a + b)

/-- ISUB (R158). -/
def execIsub (o : V2Op) (s : State) : Host.Outcome State Fault Refusal :=
  lane2 s o.g o.d o.a o.b (fun a b => a - b)

/-- IADDC and ISUBB: the word and the carry of each lane; every lane is read before any is written (R159). -/
def laneCarry (s : State) (o : VCarryOp) (f : Word → Word → Bool → Word × Bool) : Host.Outcome State Fault Refusal :=
  runFlock s o.g false { srcNames 1 [o.a, o.b] with vw := [o.d.toNat], pr := (o.pi.map (fun p => p.toNat)).toList } (fun e =>
    let cin (l : Nat) : Bool := match o.pi with
      | none => false
      | some p => rdP e.fl p.toNat l
    let r (l : Nat) : Word × Bool := f (srcV e 0 o.a l) (srcV e 1 o.b l) (cin l)
    let fl1 := setLanes e.fl o.d.toNat e.act (fun l => (r l).1)
    .ok (match o.po with
      | none => fl1
      | some p => setP fl1 p.toNat e.act (maskOf (fun l => (r l).2))))

/-- IADDC (R159). -/
def execIaddc (o : VCarryOp) (s : State) : Host.Outcome State Fault Refusal :=
  laneCarry s o (fun a b c =>
    let t := a.toNat + b.toNat + c.toNat
    (BitVec.ofNat 32 t, decide (2 ^ 32 ≤ t)))

/-- ISUBB (R159). -/
def execIsubb (o : VCarryOp) (s : State) : Host.Outcome State Fault Refusal :=
  laneCarry s o (fun a b c =>
    (a - b - (if c then 1 else 0), decide (a.toNat < b.toNat + c.toNat)))

/-- IMUL (R158). -/
def execImul (o : V2Op) (s : State) : Host.Outcome State Fault Refusal :=
  lane2 s o.g o.d o.a o.b (fun a b => a * b)

/-- IMULH (R158). -/
def execImulh (o : V2UOp) (s : State) : Host.Outcome State Fault Refusal :=
  lane2 s o.g o.d o.a o.b (mulHigh o.u)

/-- IMAD (R158). -/
def execImad (o : V3Op) (s : State) : Host.Outcome State Fault Refusal :=
  lane3 s o.g o.d o.a o.b o.c (fun a b c => a * b + c)

/-- A word extended to 64 bits. -/
def ext64 (u : Bool) (a : Word) : DWord := if u then a.setWidth 64 else a.signExtend 64

/-- IMADW (R160). -/
def execImadw (o : V3UOp) (s : State) : Host.Outcome State Fault Refusal :=
  runFlock s o.g false
    { (srcNames 1 [o.a, o.b]).also (srcNames 2 [o.c]) with vw := [o.d.toNat, o.d.toNat + 1] } (fun e =>
      .ok (setLanes2 e.fl o.d.toNat e.act (fun l =>
        ext64 o.u (srcV e 0 o.a l) * ext64 o.u (srcV e 1 o.b l) + srcV2 e 2 o.c l)))

/-- IADD64 (R160). -/
def execIadd64 (o : V2Op) (s : State) : Host.Outcome State Fault Refusal :=
  runFlock s o.g false { srcNames 2 [o.a, o.b] with vw := [o.d.toNat, o.d.toNat + 1] } (fun e =>
    .ok (setLanes2 e.fl o.d.toNat e.act (fun l => srcV2 e 0 o.a l + srcV2 e 1 o.b l)))

/-- IABS (R158). -/
def execIabs (o : V1Op) (s : State) : Host.Outcome State Fault Refusal :=
  lane1 s o.g o.d o.a (fun a => if a.msb then -a else a)

/-- IMIN (R158). -/
def execImin (o : V2UOp) (s : State) : Host.Outcome State Fault Refusal :=
  lane2 s o.g o.d o.a o.b (minW o.u)

/-- IMAX (R158). -/
def execImax (o : V2UOp) (s : State) : Host.Outcome State Fault Refusal :=
  lane2 s o.g o.d o.a o.b (maxW o.u)

/-- LTAB (R158). -/
def execLtab (o : V3LOp) (s : State) : Host.Outcome State Fault Refusal :=
  lane3 s o.g o.d o.a o.b o.c (lutWord o.lut)

/-- SHL (R158). -/
def execShl (o : V2Op) (s : State) : Host.Outcome State Fault Refusal :=
  lane2 s o.g o.d o.a o.b shlW

/-- SHR (R158). -/
def execShr (o : V2Op) (s : State) : Host.Outcome State Fault Refusal :=
  lane2 s o.g o.d o.a o.b shrW

/-- SRA (R158). -/
def execSra (o : V2Op) (s : State) : Host.Outcome State Fault Refusal :=
  lane2 s o.g o.d o.a o.b sraW

/-- A funnel shift amount: at most 32. -/
def funnel (c : Word) : Nat := min (c.toNat % 256) 32

/-- FSHL (R161). -/
def execFshl (o : V3Op) (s : State) : Host.Outcome State Fault Refusal :=
  lane3 s o.g o.d o.a o.b o.c (fun a b c => (pair b a <<< funnel c).extractLsb' 32 32)

/-- FSHR (R161). -/
def execFshr (o : V3Op) (s : State) : Host.Outcome State Fault Refusal :=
  lane3 s o.g o.d o.a o.b o.c (fun a b c => (pair b a >>> funnel c).extractLsb' 0 32)

/-- BFE (R141, R158). -/
def execBfe (o : V2UOp) (s : State) : Host.Outcome State Fault Refusal :=
  lane2 s o.g o.d o.a o.b (bfeW o.u)

/-- BFI (R141, R158). -/
def execBfi (o : V3Op) (s : State) : Host.Outcome State Fault Refusal :=
  lane3 s o.g o.d o.a o.b o.c bfiW

/-- BREV (R158). -/
def execBrev (o : V1Op) (s : State) : Host.Outcome State Fault Refusal :=
  lane1 s o.g o.d o.a brevW

/-- POPC (R158). -/
def execPopc (o : V1Op) (s : State) : Host.Outcome State Fault Refusal :=
  lane1 s o.g o.d o.a popW

/-- CLZ (R158). -/
def execClz (o : V1Op) (s : State) : Host.Outcome State Fault Refusal :=
  lane1 s o.g o.d o.a clzW

/-- One byte of BMIX under its control byte (R161). -/
def bmixByte (ab : DWord) (k : Nat) : Byte :=
  let src : Byte := ab.extractLsb' (8 * (k % 8)) 8
  match k / 8 % 4 with
  | 0 => src
  | 1 => 0
  | 2 => if src.msb then 0xFF else 0
  | _ => src.reverse

def bmixW (a b c : Word) : Word :=
  BitVec.ofNat 32 (leNat ((List.range 4).map (fun i => bmixByte (pair a b) ((c.extractLsb' (8 * i) 8).toNat))))

/-- BMIX (R161). -/
def execBmix (o : V3Op) (s : State) : Host.Outcome State Fault Refusal :=
  lane3 s o.g o.d o.a o.b o.c bmixW

/-- ICMP (R162). -/
def execIcmp (o : IcmpOp) (s : State) : Host.Outcome State Fault Refusal :=
  runFlock s o.g false (srcNames 1 [o.a, o.b]) (fun e =>
    .ok (setP e.fl o.d.toNat e.act (maskOf (fun l => condW o.cond (srcV e 0 o.a l) (srcV e 1 o.b l)))))

/-- SEL (R162): a lane whose predicate holds takes the first data operand. -/
def execSel (o : SelOp) (s : State) : Host.Outcome State Fault Refusal :=
  runFlock s o.g false { srcNames 1 [o.a, o.b] with vw := [o.d.toNat], pr := [o.c.toNat] } (fun e =>
    .ok (setLanes e.fl o.d.toNat e.act (fun l =>
      if rdP e.fl o.c.toNat l != o.neg then srcV e 0 o.a l else srcV e 1 o.b l)))

/-- MOV (R158). -/
def execMov (o : DVOp) (s : State) : Host.Outcome State Fault Refusal :=
  lane1 s o.g o.d (.v o.a o.rt) (fun a => a)

/-- MOVI (R158). -/
def execMovi (o : V1Op) (s : State) : Host.Outcome State Fault Refusal :=
  lane1 s o.g o.d o.a (fun a => a)

/-- MOVS (R162). -/
def execMovs (o : MovsOp) (s : State) : Host.Outcome State Fault Refusal :=
  let n := if o.pair then 2 else 1
  runFlock s o.g false { srcNames n [.s o.a] with vw := regsFrom o.d.toNat n } (fun e =>
    .ok (if o.pair then setLanes2 e.fl o.d.toNat e.act (fun _ => readS2 e 0 o.a.toNat)
         else setLanes e.fl o.d.toNat e.act (fun _ => readS e 0 o.a.toNat)))

/-- x[r] in every lane of the mask. -/
def setX (fl : Flock) (r : Nat) (m : LaneMask) (f : Nat → Byte) : Flock :=
  let c := lanes.foldl (fun c l => if inMask m l then cset 0 c (r * 64 + l) (f l) else c) fl.x
  { fl with x := c, marks := fl.marks.filter (fun y => !(lanes.any (fun l => inMask m l && y == .x r l))) }

/-- MOVX to an index register (R162). -/
def execMovxTox (o : DVOp) (s : State) : Host.Outcome State Fault Refusal :=
  runFlock s o.g false (srcNames 1 [.v o.a o.rt]) (fun e =>
    .ok (setX e.fl o.d.toNat e.act (fun l => (srcV e 0 (.v o.a o.rt) l).setWidth 8)))

/-- MOVX from an index register (R162). -/
def execMovxFromx (o : DAOp) (s : State) : Host.Outcome State Fault Refusal :=
  runFlock s o.g false { vw := [o.d.toNat], xr := [o.a.toNat] } (fun e =>
    .ok (setLanes e.fl o.d.toNat e.act (fun l => (cget 0 e.fl.x (o.a.toNat * 64 + l)).setWidth 32)))

end Sys2Proof.Machine
end

