-- ==== Sys2Proof/Machine/Atomic.lean ====
section
/-! DEFINITION. Atomics, reductions and deterministic reductions (R196 to R204). -/

namespace Sys2Proof.Machine

/-! ### The operations (R196) -/

/-- The operation works in a format slot. -/
def atomFloat : AtomFn → Bool
  | .fadd | .fmin | .fmax => true
  | _ => false

/-- A number of `w` bits as a signed integer. -/
def signedOf (w v : Nat) : Int := if v / 2 ^ (w - 1) % 2 = 1 then (v : Int) - 2 ^ w else v

/-- The new value of a container of `w` bits from the old one, the operand and, for CAS, the new value. -/
def atomNew (fn : AtomFn) (w : Nat) (f : Fdr) (m c new : Nat) : Nat × BitVec 5 :=
  let g := { f with rm := if f.rm = 5 then 0 else f.rm }
  match fn with
  | .swap => (c, 0)
  | .cas => (if m = c then new else m, 0)
  | .add => ((m + c) % 2 ^ w, 0)
  | .minS => (if signedOf w c < signedOf w m then c else m, 0)
  | .minU => (min m c, 0)
  | .maxS => (if signedOf w m < signedOf w c then c else m, 0)
  | .maxU => (max m c, 0)
  | .and => (Nat.land m c, 0)
  | .or => (Nat.lor m c, 0)
  | .xor => (Nat.xor m c, 0)
  | .fadd => rounded g 0 (addNum (g.rm == 3) (decodeNum g m) (decodeNum g c))
  | .fmin => chosen g (minNum false (decodeNum g m) (decodeNum g c))
  | .fmax => chosen g (minNum true (decodeNum g m) (decodeNum g c))

/-- The container's width in bits. -/
def atomBits (fn : AtomFn) (wide : Bool) (f : Fdr) : Nat := if atomFloat fn then f.w else if wide then 64 else 32

/-- The operand of a lane as a number of `w` bits; a float immediate is converted into the slot (R73). -/
def atomOperand (e : Env) (fn : AtomFn) (wide : Bool) (f : Fdr) (c : Src) (l : Nat) : Nat :=
  match c with
  | .imm v => if atomFloat fn && !f.isInt then immCode f (decodeFloat fdrSingle v.toNat)
              else (v.signExtend 64).toNat % 2 ^ atomBits fn wide f
  | x => (if wide then (srcV2 e 2 x l).toNat else (srcV e 2 x l).toNat) % 2 ^ atomBits fn wide f

/-- The new value that CAS names in the registers after the compare value. -/
def casNew (e : Env) (wide : Bool) (c : Src) (l : Nat) : Nat :=
  match c with
  | .v r rt => if wide then (srcV2 e 3 (.v (r + 2) rt) l).toNat else (srcV e 3 (.v (r + 1) rt) l).toNat
  | _ => 0

/-- Registers of an atomic's operand. -/
def atomRegs (fn : AtomFn) (wide : Bool) : Nat := (if wide then 2 else 1) * (if fn = .cas then 2 else 1)

/-- The slot is refused: w is not 8, 16 or 32, or it carries a block scale. -/
def atomBadSlot (fn : AtomFn) (f : Fdr) : Bool :=
  atomFloat fn && (!(f.w = 8 || f.w = 16 || f.w = 32) || f.blk != 0)

/-! ### One read-modify-write (R197, R283) -/

/-- Bytes written at a home by an atomic or an application. -/
def homeWriteBytes (s : State) (h : Nat) (bs : List Byte) (comp : BitVec 2) : State :=
  let o := h % 128
  let m := (List.range bs.length).foldl (fun m i => m ||| BitVec.twoPow 128 (o + i)) (0#128)
  homeWrite s (h / 128) m (BitVec.ofNat 1024 (leNat bs * 2 ^ (8 * o))) comp

/-- The number that bytes at a home hold for a read-modify-write of a lane: what stands there, or a changed byte of a
parameter block (R24). -/
def homeNat (s : State) (lane h n : Nat) : Nat :=
  leNat ((List.range n).map (fun i => paramByte s lane (h + i) (homeByte s (h + i))))

/-- The old value of a container and the state after the read-modify-write. -/
def rmwAt (s : State) (e : Env) (lane : Nat) (sp : Spot) (n : Nat) (g : Nat → Nat × BitVec 5) : Nat × BitVec 5 × State :=
  match sp with
  | .ls u off =>
    let m := leNat (lsBytes s u off n)
    let r := g m
    (m, r.2, lsWriteList s u off (leBytes n r.1))
  | .mem h lf =>
    if peerKey ≤ h then
      let m := homeNat s lane h n
      let r := g m
      let s1 := putL2 s e.fold.die (dropTag (l2At s e.fold.die) (h / 128))
      (m, r.2, { s1 with peerMem := csetList 0 s1.peerMem (h - peerKey) (leBytes n r.1) })
    else
      let s1 := l1Evict s e.fold.core (h / 128)
      let m := homeNat s1 lane h n
      let r := g m
      (m, r.2, homeWriteBytes s1 h (leBytes n r.1) lf.comp)

/-- The lanes of Active in the device's order. -/
def laneOrder (e : Env) : List Nat :=
  sortBy (fun a b => Config.laneKey e.free a ≤ Config.laneKey e.free b) (actLanes e)

/-- A container of a read-modify-write holds an uncorrectable error, or a peer refuses the operation (R372). -/
def checkRmw (s : State) (fn : AtomFn) (p : Piece) : Piece :=
  match p.spot with
  | .ok (.mem h _) =>
    if peerKey ≤ h then
      (if atomFloat fn && !Config.peerAccepts s.free then { p with spot := .error (.reason rBadFrame) } else p)
    else if s.lost.contains (h / 128) || s.badFill.contains (h / 128) then { p with spot := .error (.reason rUncorr) }
    else p
  | _ => p

/-- What ATOM and RED check at issue, in the order of R326. -/
def atomCheck (s : State) (e : Env) (fn : AtomFn) (fs : BitVec 4) (ps : List Piece) : Option (Res Unit) :=
  if atomBadSlot fn (slotFdr e fs) then some (.trap (plainTrap 0x15 fs.toNat))
  else if e.launch.det && atomFloat fn then some (.trap (plainTrap 0x16 0))
  else match misalign ps with
    | some t => some (.trap t)
    | none =>
      match pickBad e.fl .rmw (badOf ps), lsError s ps with
      | some r, _ => some r
      | none, some t => some (.trap t)
      | none, none => if meetsWaiting e.fl ps then some (.stall .interlock) else none

/-- The fields that ATOM and RED share. -/
structure RmwArgs where
  flg : FlagSel
  fs : BitVec 4
  fn : AtomFn
  wide : Bool
  ord : BitVec 2
  scope : BitVec 4
  a : Reg
  idx : Src
  c : Src

/-- Perform the lanes of an ATOM or RED: each lane's old value, the flags, the state. -/
def rmwLanes (s : State) (e : Env) (o : RmwArgs) : Res (List (Nat × Nat) × BitVec 5 × State) :=
  let f := slotFdr e o.fs
  let w := atomBits o.fn o.wide f
  let rel := o.ord == 2 || o.ord == 3
  let pc (l : Nat) : Piece :=
    checkRmw s o.fn (pieceMem s e .rmw l (addrOf (readS2 e 0 o.a.toNat) (srcV e 1 o.idx l) 0) (w / 8))
  match holdUp e (flagOf e o.flg) true rel with
  | some x => .stall x
  | none =>
    match atomCheck s e o.fn o.fs ((actLanes e).map pc) with
    | some (.trap t) => .trap t
    | some (.stall x) => .stall x
    | some (.page p) => .page p
    | _ =>
      let u := e.fold.uid
      let s0 := if rel then settleAll s u e.fi
                else settlePlaces s u e.fi ((actLanes e).flatMap (fun l => spotPlaces (pc l).spot (w / 8)))
      let s1 := drainStores s0 u e.fi
      let s2 := if rel then releaseAt s1 e.fold.core o.scope else s1
      let r := (laneOrder e).foldl (fun (x : List (Nat × Nat) × BitVec 5 × State) l =>
        match (pc l).spot with
        | .error _ => x
        | .ok sp =>
          let y := rmwAt x.2.2 e l sp (w / 8) (fun m =>
            atomNew o.fn w f m (atomOperand e o.fn o.wide f o.c l) (casNew e o.wide o.c l))
          ((l, y.1) :: x.1, x.2.1 ||| y.2.1, y.2.2)) ([], 0, s2)
      .ok (r.1, r.2.1, if o.ord == 1 || o.ord == 3 then acquireAt r.2.2 e.fold.core o.scope else r.2.2)

/-- The names of an atomic's sources. -/
def atomNames (a : Reg) (idx c : Src) (fn : AtomFn) (wide : Bool) : Names :=
  (addrNames a idx none).also (srcNames (atomRegs fn wide) [c])

/-- ATOM (R196, R197). -/
def execAtom (o : AtomOp) (s : State) : Host.Outcome State Fault Refusal :=
  runMem s o.g false
    { atomNames o.a o.idx o.c o.fn o.wide with vw := regsFrom o.d.toNat (if o.wide then 2 else 1) } (fun s e =>
      if e.act = 0 then .ok s
      else
        (rmwLanes s e { flg := o.flg, fs := o.fs, fn := o.fn, wide := o.wide, ord := o.ord, scope := o.scope, a := o.a,
                        idx := o.idx, c := o.c }).bind (fun r =>
          .ok (addLoad r.2.2 e { flg := flagOf e o.flg, strong := true, fflags := r.2.1 }
            (r.1.flatMap (fun x => laneWords o.d.toNat x.1
              ((List.range (if o.wide then 2 else 1)).map (fun i => BitVec.ofNat 32 (x.2 / 2 ^ (32 * i)))))))))

/-- RED (R196, R197). -/
def execRed (o : RedMemOp) (s : State) : Host.Outcome State Fault Refusal :=
  runMem s o.g false (atomNames o.a o.idx o.c o.fn o.wide) (fun s e =>
    if e.act = 0 then .ok s
    else
      (rmwLanes s e { flg := o.flg, fs := o.fs, fn := o.fn, wide := o.wide, ord := o.ord, scope := o.scope, a := o.a,
                      idx := o.idx, c := o.c }).bind (fun r =>
        .ok (addStore r.2.2 e (doneStore (flagOf e o.flg) o.scope false))))

/-! ### RED.D (R199, R200) -/

/-- Contributions in a core's buffer. -/
def drbUse (s : State) (k : Nat) : Nat :=
  ((s.folds.filter (fun f => f.core == k && f.place == .core)).map (fun f => f.drb.length)).sum

/-- RED.D reaches NORMAL and NEAR memory only: REASON 8. Its issue sends the home no request, so an offline home is met
when the contribution drains (R200, R374). -/
def checkRedD (s : State) (e : Env) (p : Piece) : Piece :=
  if (apertureOff e.ctx p.va).isSome then { p with spot := .error (.reason rType) }
  else match p.spot with
    | .ok (.mem h _) => if peerKey ≤ h then { p with spot := .error (.reason rType) } else p
    | _ =>
      match translate s (some e.fold.core) e.ctx.id e.ctx.ptroot.toNat .rmw p.va with
      | .ok (h, lf) =>
        if peerKey ≤ h then { p with spot := .error (.reason rType) } else { p with spot := .ok (.mem h lf) }
      | .error _ =>
        (match leafAt s (some e.fold.core) e.ctx.id e.ctx.ptroot.toNat p.va with
         | .ok lf => if lf.mt = 2 && p.va < 2 ^ 52 then { p with spot := .error (.reason rType) } else p
         | .error _ => p)

/-- RED.D: a container is as wide as the operation's, one byte or two for a slot of 8 or 16 bits (log entry 46). -/
def execRedD (o : RedDOp) (s : State) : Host.Outcome State Fault Refusal :=
  runMem s o.g false (atomNames o.a o.idx o.c o.fn o.wide) (fun s e =>
    if e.act = 0 then .ok s
    else
      let f := slotFdr e o.fs
      let w := atomBits o.fn o.wide f
      let pc (l : Nat) : Piece :=
        checkRedD s e (pieceMem s e .rmw l (addrOf (readS2 e 0 o.a.toNat) (srcV e 1 o.idx l) 0) (w / 8))
      match holdUp e (flagOf e o.flg) true false with
      | some x => .stall x
      | none =>
        if atomBadSlot o.fn f then .trap (plainTrap 0x15 o.fs.toNat)
        else match misalign ((actLanes e).map pc) with
          | some t => .trap t
          | none =>
            match pickBad e.fl .rmw (badOf ((actLanes e).map pc)) with
            | some r => r
            | none =>
              if Config.drbSize < drbUse s e.fold.core + laneCount e.act then .stall .interlock
              else
                let cs := (actLanes e).filterMap (fun l =>
                  match (pc l).spot with
                  | .ok (.mem h lf) =>
                    some ({ home := h, width := w / 8, comp := lf.comp, fn := o.fn, slot := slotOf e.fl o.fs.toNat,
                            c := BitVec.ofNat 64 (atomOperand e o.fn o.wide f o.c l), launch := e.launch.uid,
                            step := e.fold.step, fold := e.fold.uid, foldId := e.fold.foldId, flock := e.fi, lane := l,
                            dseq := (cget 0 e.fl.dseq l).toNat, gen := e.fl.dflush } : Contribution)
                  | _ => none)
                let fl := { e.fl with
                  dseq := (actLanes e).foldl (fun c l => cset 0 c l (cget 0 c l + 1)) e.fl.dseq }
                let s1 := putFold s (putFlock { e.fold with drb := e.fold.drb ++ cs } e.fi fl)
                .ok (addStore s1 e (doneStore (flagOf e o.flg) 0 false)))

/-! ### Draining and exhaustion (R200, R204, R374) -/

/-- The whole launch fails: every resident fold stops, saved folds are discarded, the rest never runs, and every
contribution not yet applied is discarded. -/
def failLaunch (s : State) (uid : Nat) (direct : List Nat) (code : Nat) : State :=
  let s1 := { s with
    folds := s.folds.map (fun f =>
      if f.launch == uid then { stopFold f (if direct.contains f.uid then code else 0x301) with drb := [] } else f),
    dies := s.dies.map (fun d => { d with staging := d.staging.filter (fun x => x.2.launch != uid) }) }
  match launchAt s1 uid with
  | none => s1
  | some l => putLaunch s1 { l with stopped := true }

/-- Contributions that the staging area of a context holds on each die (R200). -/
def stageRoom (s : State) (c : Context) (d : Nat) : Nat :=
  c.stage * 32768 - ((dieAt s d).staging.filter (fun x => x.1 == c.id)).length

/-- Move one contribution to its home's staging area; none when that area is full. -/
def stageOne (s : State) (c : Context) (x : Contribution) : Option State :=
  let d := dieOfHome x.home
  if stageRoom s c d = 0 then none
  else some (putDie s d { dieAt s d with staging := (dieAt s d).staging ++ [(c.id, x)] })

/-- Drain contributions of a fold; what finds no room fails the launch, and so does an offline home. A launch that has
stopped as a whole contributes nothing more. -/
def drainList (s : State) (c : Context) (f : Fold) : List Contribution → State
  | [] => s
  | x :: r =>
    if (launchAt s f.launch).any (fun l => l.stopped) then s
    else if homeOffline s x.home then failLaunch (countOffline s x.home f.core) f.launch [f.uid] 0x300
    else match stageOne s c x with
      | none => failLaunch s f.launch [f.uid] 0x300
      | some t => drainList t c f r

/-- The contributions of a fold drain. -/
def drainFold (s : State) (uid : Nat) : State :=
  match foldAt s uid with
  | none => s
  | some f =>
    match ctxOf s f with
    | none => s
    | some c => drainList (putFold s { f with drb := [] }) c f f.drb

/-- The buffer of a core drains: the contributions of every fold on it (R200). The folds drain in the order of the list of
folds, so the first of them that finds no room gets code 0x300 and the others of its launch 0x301 (log entry 29). -/
def drainCore (s : State) (k : Nat) : State :=
  ((s.folds.filter (fun f => f.core == k && f.place == .core)).map (fun f => f.uid)).foldl drainFold s

/-! ### Applications (R201) -/

/-- The key order of R199 and R201. -/
def keyLe (a b : Contribution) : Bool :=
  if a.foldId ≠ b.foldId then a.foldId < b.foldId
  else if a.flock ≠ b.flock then a.flock < b.flock
  else if a.lane ≠ b.lane then a.lane < b.lane
  else a.dseq ≤ b.dseq

/-- Containers in ascending order of start address, and of width for equal starts. -/
def boxLe (a b : Nat × Nat) : Bool := if a.1 ≠ b.1 then a.1 < b.1 else a.2 ≤ b.2

/-- Apply the contributions to one container. The home is written as an atomic writes it. -/
def applyBox (s : State) (b : Nat × Nat) (cs : List Contribution) : State :=
  let mine := sortBy keyLe (cs.filter (fun x => x.home == b.1 && x.width == b.2))
  let m := leNat (cgetList 0 s.mem b.1 b.2)
  let new := mine.foldl (fun m x => (atomNew x.fn (8 * b.2) (fdrOf x.slot) m x.c.toNat 0).1) m
  homeWriteBytes s b.1 (leBytes b.2 new) ((mine.map (fun x => x.comp)).getLastD 0)

/-- One application: the staged contributions of one step of one pasture that meet `p` are applied and leave. -/
def applyStaged (s : State) (p : Contribution → Bool) : State :=
  let cs := (s.dies.flatMap (fun d => d.staging.map (fun x => x.2))).filter p
  let boxes := sortBy boxLe (cs.map (fun x => (x.home, x.width))).dedup
  let s1 := boxes.foldl (fun u b => applyBox u b cs) s
  { s1 with dies := s1.dies.map (fun d => { d with staging := d.staging.filter (fun x => !p x.2) }) }

/-! ### DFLUSH (R203) -/

/-- DFLUSH: an arrival of the flock, and the release side of its generation (R287); the core's buffer drains. -/
def execDflush (o : DflushOp) (s : State) : Host.Outcome State Fault Refusal :=
  runMem s o.g false {} (fun s e =>
    if e.act = 0 then .ok s
    else match holdUp e (flagOf e o.flg) true true with
      | some x => .stall x
      | none =>
        let s0 := releaseNow s e o.scope
        let s1 := onFlock s0 e.fold.uid e.fi (fun fl =>
          flagUp { fl with dflush := fl.dflush + 1, dflags := fl.dflags ++ [(fl.dflush + 1, o.scope, flagOf e o.flg)] }
            (flagOf e o.flg))
        .ok (drainCore s1 e.fold.core))

end Sys2Proof.Machine
end

