-- ==== Sys2Proof/Machine/MemSync.lean ====
section
/-! DEFINITION. Fences, monitor wait, prefetch and cache control (R205 to R208). -/

namespace Sys2Proof.Machine

/-! ### FENCE (R205, R288) -/

/-- The release and the acquire half that ORD selects. -/
def fenceRel (o : FenceOp) : Bool := o.ord == 2 || o.ord == 3
def fenceAcq (o : FenceOp) : Bool := o.ord == 1 || o.ord == 3

/-- The accesses in flight on the path of the issuing split, and the strong and atomic reads among them (R273, R288). -/
def opsBefore (e : Env) : List Nat :=
  e.sp.path.filter (fun i => e.fl.loads.any (fun p => p.id == i) || e.fl.stores.any (fun p => p.id == i)
    || e.fl.records.any (fun r => r.stores.contains i))
def readsBefore (e : Env) : List Nat := e.sp.path.filter (fun i => e.fl.loads.any (fun p => p.id == i && p.strong))

/-- A fence of a handler is complete when it retires: it waits for what the flock has in flight. -/
def fenceHere (s : State) (e : Env) (o : FenceOp) : Res State :=
  if (fenceRel o && !(e.fl.loads.isEmpty && e.fl.stores.isEmpty)) || (fenceAcq o && !e.fl.loads.isEmpty) then
    .stall .interlock
  else .ok (fenceEffect s e.fold.core o.scope (fenceRel o) (fenceAcq o))

/-- FENCE. -/
def execFence (o : FenceOp) (s : State) : Host.Outcome State Fault Refusal :=
  runMem s o.g (o.flg == .none) {} (fun s e =>
    if e.act = 0 then .ok s
    else if flagFull e.fl (flagOf e o.flg) then .stall ((flagOf e o.flg).elim .none Wait.full)
    else if e.hand then fenceHere s e o
    else .ok (addFence s e { id := 0, flag := flagOf e o.flg, scope := o.scope, acq := fenceAcq o, rel := fenceRel o,
                             acqOn := readsBefore e, relOn := if fenceRel o then opsBefore e else [] }))

/-! ### MWAIT (R206) -/

/-- The value that MWAIT waits for. -/
def mwaitValue (e : Env) (x : Src) : Nat := (srcS2 e 1 x).toNat

/-- What a split waits for whose location is too small. -/
def mwaitFor (p : Piece) (wide : Bool) (n : Nat) : Wait :=
  match p.spot with
  | .ok (.ls u off) => .mwait (some u) off wide n
  | .ok (.mem h _) => .mwait none h wide n
  | .error _ => .interlock

/-- MWAIT: one reading of the location; while it is too small the split waits and reads again. -/
def execMwait (o : MwaitOp) (s : State) : Host.Outcome State Fault Refusal :=
  runMem s o.g false
    { s := [o.a.toNat, o.a.toNat + 1] ++ sOf 2 o.e, sw := (o.d.map (fun d => [d.toNat, d.toNat + 1])).getD [] }
    (fun s e =>
      if e.act = 0 then .ok s
      else
        let p := pieceMem s e .read 255 (readS2 e 0 o.a.toNat).toNat 8
        match holdUp e none false false with
        | some w => .stall w
        | none =>
          match misalign [p] with
          | some t => .trap t
          | none =>
            (readPieces s e { strong := true, wide := wider o.scope, hint := 0 } [p]).bind (fun r =>
              let v := leNat (r.2.headD [])
              if v < mwaitValue e o.e then .stall (mwaitFor p (wider o.scope) (mwaitValue e o.e))
              else
                let t := match o.d with
                  | none => r.1
                  | some d => putScalars r.1 e none true (scalarWords d.toNat [BitVec.ofNat 32 v, BitVec.ofNat 32 (v / 2 ^ 32)])
                .ok (acquireAt t e.fold.core o.scope)))

/-! ### PREF (R207) -/

/-- Bring a line toward a level; an address that does not translate, or whose line cannot be had, is dropped. -/
def prefLine (s : State) (e : Env) (level : BitVec 2) (va : Nat) : State :=
  match pieceMem s e .read 0 va 1 with
  | { spot := .ok (.mem h lf), .. } =>
    let l := h / 128
    if peerKey ≤ h || dieUncorr s e.fold.die l then s
    else if level = 0 then l1Fill s e.fold.core l false lf.dom lf.comp
    else if level = 1 then l2Touch s e.fold.die l lf.dom lf.comp
    else mantleTouch s l false
  | _ => s

/-- PREF. -/
def execPref (o : PrefOp) (s : State) : Host.Outcome State Fault Refusal :=
  runMem s o.g false (addrNames o.a o.idx o.off) (fun s e =>
    .ok ((actLanes e).foldl (fun u l =>
      prefLine u e o.level (addrOf (readS2 e 0 o.a.toNat) (srcV e 1 o.idx l) (optS e 2 o.off))) s))

/-! ### CCTL (R208) -/

/-- The Mantle of a die writes the block of a line back; the issuing die's Mantle holds only blocks homed there. -/
def mantleLine (s : State) (die l : Nat) (drop : Bool) : State :=
  if dieOfHome (128 * l) = die then mantleClean s l drop else s

/-- One line of a CCTL; of a PEER line nothing is dirty, and the die's L2 alone may hold a copy. -/
def cctlLine (s : State) (k : Nat) (op : BitVec 3) (h : Nat) : State :=
  let l := h / 128
  let d := dieOfCore k
  if peerKey ≤ h then (if op = 1 then s else putL2 s d (dropTag (l2At s d) l))
  else if op = 3 then s
  else if op = 1 then mantleLine (l2Clean (l1Clean s k l) d l) d l false
  else mantleLine (evictTag (l1Evict s k l) d l) d l true

/-- CCTL. -/
def execCctl (o : CctlOp) (s : State) : Host.Outcome State Fault Refusal :=
  runMem s o.g false (match o.addr with
                      | none => {}
                      | some (a, idx, off) => addrNames a idx off) (fun s e =>
    if e.act = 0 then .ok s
    else match holdUp e (flagOf e o.flg) false false with
      | some w => .stall w
      | none =>
        let done (t : State) : State :=
          addStore t e (doneStore (flagOf e o.flg) 0 true)
        match o.addr with
        | none => .ok (done (l1Drop s e.fold.core))
        | some (a, idx, off) =>
          let ps := (actLanes e).map (fun l =>
            pieceMem s e .read l (addrOf (readS2 e 0 a.toNat) (srcV e 1 idx l) (optS e 2 off)) 1)
          match pickBad e.fl .read (badOf ps) with
          | some r => r
          | none =>
            -- the flock's earlier stores to the lines are in the caches first (R189)
            let s1 := drainStores s e.fold.uid e.fi
            .ok (done (ps.foldl (fun u p => match p.spot with
                                            | .ok (.mem h _) => cctlLine u e.fold.core o.op h
                                            | _ => u) s1)))

end Sys2Proof.Machine
end

