-- ==== Sys2Proof/Machine/MemEvents.lean ====
section
/-! DEFINITION. The steps of the memory pipeline, the page walkers and the fault timeout, the deterministic-reduction
buffer, and the active set. A step whose condition does not hold leaves the state unchanged. -/

namespace Sys2Proof.Machine

/-! ### LOAD_LAND, STORE_PERFORMED, L1_EVICTION -/

/-- LOAD_LAND (R96, R187): the values of a load land in a lane; what it reads may be what stands there by now (R281). -/
def execLoadLand (r : FlockRef) (op lane : Nat) (s : State) : Host.Outcome State Fault Refusal :=
  let s1 := settleReads s r.fold r.flock false (fun p w _ => p.id == op && (p.scalar || w.lane == lane))
  .next (settleFlock (onFlock s1 r.fold r.flock (fun fl => landLane fl s.free op lane)) r.fold r.flock)

/-- Two stores of one flock write a byte in common; neither waits on a fault. -/
def shareByte (p q : PendStore) : Bool :=
  p.waitFault.isNone && q.waitFault.isNone && q.bytes.any (fun b => p.bytes.any (fun c => c.addr == b.addr))

/-- A store comes before another that issued later: on the path of a release (R284), or at a byte of both (R189, R280). -/
def storeBefore (q p : PendStore) : Bool := (p.release && p.after.contains q.id) || shareByte q p

/-- What is performed with a store, it among them: `ps` are the later ones that are, and `qs` the earlier stores of the
flock, the last first. -/
def closeBefore (ps : List PendStore) : List PendStore → List PendStore
  | [] => ps
  | q :: qs => closeBefore (if ps.any (storeBefore q) then q :: ps else ps) qs

/-- The stores of a flock that are performed with one of them, in the order in which they issued: it, and every one that
comes before one of them. -/
def storesWith (fl : Flock) (p : PendStore) : List PendStore :=
  closeBefore [p] (fl.stores.takeWhile (fun q => q.id != p.id)).reverse

/-- The store may be performed: no store that is performed with it waits on a fault. -/
def canPerform (fl : Flock) (p : PendStore) : Bool := (storesWith fl p).all (fun q => q.waitFault.isNone)

/-- Perform a store of a flock with what comes before it; its flag decrements. -/
def performStore (s : State) (uid fi op : Nat) : State :=
  match foldAt s uid with
  | none => s
  | some f =>
    match flockAt f fi with
    | none => s
    | some fl =>
      match fl.stores.find? (fun p => p.id == op) with
      | none => s
      | some p =>
        if !canPerform fl p then s
        else
          settleFences (onFlock (performThose s f.core uid fi (storesWith fl p)) uid fi (fun fl =>
            flagDown { fl with stores := fl.stores.filter (fun q => q.id != op) } p.flag)) uid fi

/-- STORE_PERFORMED (R187, R279). -/
def execStorePerformed (r : FlockRef) (op : Nat) (s : State) : Host.Outcome State Fault Refusal :=
  .next (performStore s r.fold r.flock op)

/-- L1_EVICTION (R279): a line leaves an L1 at any time; its dirty bytes go to the L2. -/
def execL1Eviction (core line : Nat) (s : State) : Host.Outcome State Fault Refusal := .next (l1Evict s core line)

/-! ### Translation in the background (R270, R331) -/

/-- The lines of the tables that a walk reads: `left` levels remain (R267). -/
def walkLines (s : State) (va : Nat) : Nat → Nat → Nat → List Nat
  | 0, _, _ => []
  | left + 1, n, table =>
    let a := table + 8 * levelIndex n va
    match tableHome s a, readEntry s a with
    | some h, .ok e =>
      h / 128 :: (if bitsOf e 0 1 = 1 && bitsOf e 1 1 = 0 then walkLines s va left (n + 1) (bitsOf e 8 44 * 256) else [])
    | _, _ => []

/-- A TLB with an entry, which takes the place of one for the same page. -/
def tlbPut (ts : List TlbEntry) (t : TlbEntry) : List TlbEntry :=
  ts.filter (fun x => !(x.ctx == t.ctx && x.page == t.page && x.leaf.size == t.leaf.size)) ++ [t]

/-- A walker of a die begins: it reads the table of a context for an access (R270). Misses to one page share a walk, and an
address in the aperture is not translated (R246). -/
def walkStart (s : State) (die ctx : Nat) (acc : Access) (va : Nat) : State :=
  match ctxAt s ctx with
  | none => s
  | some c =>
    let d := dieAt s die
    if 4 ≤ die || (apertureOff c va).isSome || 32 ≤ d.walks.length || d.walks.any (fun w => w.ctx == ctx && pageBase w.va == pageBase va) then s
    else
      let found : Leaf ⊕ Nat := if 2 ^ 52 ≤ va then .inr rAddress
        else match walk s c.ptroot.toNat va with
          | .ok lf => .inl lf
          | .error r => .inr r
      putDie s die { d with walks := d.walks ++ [{ ctx := ctx, va := va, acc := acc, found := found }] }

/-- PAGE_WALK_COMPLETE (R269, R270): a walk of a die ends. Its leaf is held in the die's L2 TLB, and the lines of the
tables in its L2, in domain 0; a fault that the CPC may resolve is reported once. -/
def execPageWalkComplete (r : WalkRef) (acc : Access) (va : Nat) (s : State) : Host.Outcome State Fault Refusal :=
  let die := r.die
  let ctx := r.ctx
  let d := dieAt s die
  match ctxAt s ctx, d.walks.find? (fun w => w.ctx == ctx && w.va == va && w.acc == acc) with
  | some c, some w =>
    let s1 := putDie s die { d with walks := d.walks.filter (fun x => x != w) }
    (match w.found with
     | .inr r =>
       .next (if resolvable r then (reportFault s1 ctx { page := pageBase va, reason := r, acc := acc }).2 else s1)
     | .inl lf =>
       let s2 := (walkLines s1 va 4 0 c.ptroot.toNat).foldl (fun u l => l2Touch u die l 0 0) s1
       .next (putDie s2 die { dieAt s2 die with
         tlb := tlbPut (dieAt s2 die).tlb { ctx := ctx, page := va / lf.size * lf.size, leaf := lf } }))
  | _, _ => .next s

/-- A core's L1 TLB takes the entry that its die's L2 TLB holds for an address. -/
def tlbFill (s : State) (core ctx va : Nat) : State :=
  match tlbFind (dieAt s (dieOfCore core)).tlb ctx va with
  | none => s
  | some t => putCore s core { coreAt s core with tlb := tlbPut (coreAt s core).tlb t }

/-- The entries of a TLB that do not cover an address. -/
def tlbWithout (ts : List TlbEntry) (ctx va : Nat) : List TlbEntry :=
  ts.filter (fun t => !(t.ctx == ctx && t.page / t.leaf.size == va / t.leaf.size))

/-- A byte of a waiting weak store tries again: it is written, drops with a fault that stands, or waits on. -/
def retryByte (s : State) (fi : Nat) (f : Fold) (c : Context) (l : Launch) (dead : Option (Nat × Reason)) (b : PendByte) :
    State × Option (PendByte × Reason) × Option Reason :=
  match locate s f l c .write b.addr 1 with
  | .ok (.mem h lf) =>
    let o : ByteOwner := { fold := f.uid, flock := fi, lane := b.lane, va := b.va }
    -- a fold in its fleece has no core; its byte goes to the home
    (if f.place == .core then weakByte s f.core h 0 lf b.value b.mask o
     else if peerKey ≤ h then peerWrite s f.die h ((homeByte s h &&& ~~~b.mask) ||| (b.value &&& b.mask))
     else homeWriteByte s h ((homeByte s h &&& ~~~b.mask) ||| (b.value &&& b.mask)) lf.comp, none, none)
  | .ok (.ls u off) => (lsWrite s u off b.value, none, none)
  | .error .range => (s, none, some rAperture)
  | .error (.reason r) =>
    if !resolvable r || dead == some (pageBase b.addr, r) then (s, none, some r) else (s, some (b, r), none)

/-- A weak store that waits tries its bytes again; what then stands as a fault is recorded (R292). -/
def retryStore (s : State) (uid fi : Nat) (dead : Option (Nat × Reason)) (p : PendStore) : State :=
  match foldAt s uid with
  | none => s
  | some f =>
    match launchAt s f.launch, ctxOf s f with
    | some l, some c =>
      let r := p.bytes.foldl (fun (a : State × List (PendByte × Reason) × Option (Nat × Nat × Reason)) b =>
        let x := retryByte a.1 fi f c l dead b
        (x.1, a.2.1 ++ x.2.1.toList, match a.2.2, x.2.2 with
                                     | none, some q => some (b.lane, b.addr, q)
                                     | y, _ => y)) (s, [], none)
      let s1 := match r.2.2 with
        | none => r.1
        | some (lane, va, q) => storeFault r.1 uid fi lane va q [p.id]
      let (w, s2) := reportAll s1 c.id (r.2.1.map (fun x => (pageBase x.1.addr, x.2)))
      let s3 := onFlock s2 uid fi (fun fl =>
        { fl with stores := fl.stores.map (fun q =>
          if q.id == p.id then { q with waitFault := w, bytes := r.2.1.map (fun x => x.1) } else q) })
      settleFences s3 uid fi
    | _, _ => s

/-- The flocks of a context: fold and place. -/
def flocksOf (s : State) (ctx : Nat) : List (Nat × Nat) :=
  (s.folds.filter (fun f => (launchAt s f.launch).any (fun l => l.ctx == ctx))).flatMap (fun f =>
    (List.range f.flocks.length).map (fun i => (f.uid, i)))

/-- Every waiting weak store of a context tries again. -/
def retryStores (s : State) (ctx : Nat) (dead : Option (Nat × Reason)) : State :=
  (flocksOf s ctx).foldl (fun u x =>
    match flockOf u x.1 x.2 with
    | none => u
    | some fl => (fl.stores.filter (fun p => p.waitFault.isSome)).foldl (fun u p => retryStore u x.1 x.2 dead p) u) s

/-- A command of the context that waits on a fault takes an answer. -/
def settleCmd (s : State) (ctx fid : Nat) (dead : Option (Nat × Nat)) (m : Cmd) : Cmd :=
  if m.faults.contains fid && ownerCtx s m == some ctx then
    { m with faults := m.faults.filter (· != fid), dead := m.dead ++ dead.toList }
  else m

/-- Engine commands that wait on a fault of the context take an answer, those in fleeces too (R307). -/
def settleCmds (s : State) (ctx fid : Nat) (dead : Option (Nat × Nat)) : State :=
  { s with cores := s.cores.map (fun c => { c with cmds := c.cmds.map (settleCmd s ctx fid dead) }),
           folds := s.folds.map (fun f => { f with images := f.images.map (settleCmd s ctx fid dead) }) }

/-- A fault of a context is settled: stalled flocks issue again (R331). -/
def releaseFlocks (s : State) (ctx fid : Nat) (verdict : Option (Nat × Nat)) : State :=
  (flocksOf s ctx).foldl (fun u x => onFlock u x.1 x.2 (fun fl =>
    if fl.stall == some fid then { fl with stall := none, verdicts := fl.verdicts ++ verdict.toList } else fl)) s

/-- The fault becomes unresolvable: each stalled access takes MEMFAULT, a weak store STOREFAULT (R331). -/
def faultDead (s : State) (ctx fid : Nat) : State :=
  match ctxAt s ctx with
  | none => s
  | some c =>
    match c.faults.find? (fun r => r.id == fid) with
    | none => s
    | some r =>
      let s1 := putCtx s { c with faults := c.faults.filter (fun x => x.id != fid) }
      let s2 := releaseFlocks s1 ctx fid (some (r.page, r.reason))
      settleCmds (retryStores s2 ctx (some (r.page, r.reason))) ctx fid (some (r.page, r.reason))

/-- The fault is resolved. -/
def faultResolved (s : State) (ctx fid : Nat) : State :=
  match ctxAt s ctx with
  | none => s
  | some c =>
    let s1 := putCtx s { c with faults := c.faults.filter (fun x => x.id != fid) }
    settleCmds (retryStores (releaseFlocks s1 ctx fid none) ctx none) ctx fid none

/-- FAULTTO in clk: units of 10 µs, 0 for 1 ms (R361). -/
def faultLimit (c : Context) : Nat := if c.faultto = 0 then 2000000 else c.faultto * 20000

/-- FAULT_TIMEOUT (R331): measured from the first report. -/
def execFaultTimeout (ctx fid : Nat) (s : State) : Host.Outcome State Fault Refusal :=
  match ctxAt s ctx with
  | none => .next s
  | some c =>
    match c.faults.find? (fun r => r.id == fid) with
    | none => .next s
    | some r => .next (if r.since + faultLimit c ≤ s.clock then faultDead s ctx fid else s)

/-! ### DRB_DRAIN, RED_D_APPLY (R200 to R203) -/

/-- The core's buffer has filled: a RED.D of a whole flock finds no room (R200). -/
def drbFull (s : State) (k : Nat) : Bool := decide (Config.drbSize < drbUse s k + 64)

/-- DRB_DRAIN: a full buffer drains; DFLUSH, retirement and pre-emption drain it too, as part of their own steps. -/
def execDrbDrain (fold : Nat) (s : State) : Host.Outcome State Fault Refusal :=
  match foldAt s fold with
  | none => .next s
  | some f => .next (if drbFull s f.core then drainCore s f.core else s)

/-- The flock has finished: no split, no path, no handler (R43). -/
def finished (fl : Flock) : Bool := fl.splits.isEmpty && fl.stack.isEmpty && fl.handler.isNone

/-- The flocks of the unit of a DFLUSH scope. -/
def dflushUnit (s : State) (f : Fold) (fi : Nat) (scope : BitVec 4) : List (Nat × Nat) :=
  if scope = 0 then [(f.uid, fi)]
  else (if scope = 1 then [f] else droveFolds s f).flatMap (fun g =>
    (List.range g.flocks.length).map (fun i => (g.uid, i)))

/-- The flock has arrived at a generation, or has finished (R203). -/
def arrivedAt (s : State) (gen : Nat) (x : Nat × Nat) : Bool :=
  match flockOf s x.1 x.2 with
  | some fl => gen ≤ fl.dflush || finished fl
  | none => true

/-- The flags of an arrived flock decrement, as an acquire of the scope; what the homes now hold must be visible, so the
core's L1 keeps nothing. -/
def dflushFlags (s : State) (scope : BitVec 4) (gen : Nat) (x : Nat × Nat) : State :=
  match foldAt s x.1, flockOf s x.1 x.2 with
  | some g, some fl =>
    let mine := fl.dflags.filter (fun d => d.1 == gen && d.2.1 == scope)
    if mine.isEmpty then s
    else
      let u1 := onFlock s x.1 x.2 (fun fl =>
        mine.foldl (fun v d => flagDown v d.2.2)
          { fl with dflags := fl.dflags.filter (fun d => !(d.1 == gen && d.2.1 == scope)) })
      l1Drop (acquireAt u1 g.core scope) g.core
  | _, _ => s

/-- RED_D_APPLY: generation `gen` of the unit is applied once every flock of it has arrived. What the buffers of the
unit's cores still hold, of flocks that have finished, drains first. -/
def execRedDApply (r : FlockRef) (scope : BitVec 4) (gen : Nat) (s : State) : Host.Outcome State Fault Refusal :=
  match foldAt s r.fold with
  | none => .next s
  | some f =>
    let unit := dflushUnit s f r.flock scope
    let waits (x : Nat × Nat) : Bool := match flockOf s x.1 x.2 with
      | some fl => fl.dflags.any (fun d => d.1 == gen && d.2.1 == scope)
      | none => false
    if unit.all (arrivedAt s gen) && unit.any waits then
      let s0 := ((unit.filterMap (fun x => (foldAt s x.1).map (fun g => g.core))).dedup).foldl drainCore s
      if (launchAt s0 f.launch).any (fun l => l.stopped) then .next s0
      else
        let s1 := applyStaged s0 (fun k => unit.contains (k.fold, k.flock) && k.gen < gen)
        .next (unit.foldl (fun u x => dflushFlags u scope gen x) s1)
    else .next s

/-! ### The active set (R46) -/

def isLwait : Wait → Bool
  | .lwait _ => true
  | _ => false

/-- The split waits on a long-latency condition of R46: BARW, MWAIT and LWAIT at once; WAITB, WAITF and a clause WAIT
once they have lasted more than 64 clk (R136, R237). A split whose condition holds waits no longer. -/
def longWait (s : State) (uid : Nat) (fl : Flock) (sp : Split) : Bool :=
  !sp.halted && !canGoOn s uid fl sp && (match sp.wait with
    | .barrier _ _ _ => true
    | .mwait _ _ _ _ => true
    | .lwait _ => true
    | .flag _ _ => sp.since + 64 < s.clock
    | .batch _ _ => sp.since + 64 < s.clock
    | _ => false)

/-- ACTIVE_SET_SWAP: every live split of an active flock waits on a long-latency condition. A flock with no live split keeps
its place (log entry 40). -/
def execActiveSetSwap (r : FlockRef) (s : State) : Host.Outcome State Fault Refusal :=
  match foldAt s r.fold with
  | none => .next s
  | some f =>
    match flockAt f r.flock with
    | none => .next s
    | some fl =>
      if fl.handler.isNone && !fl.splits.isEmpty && fl.splits.all (longWait s f.uid fl) then
        .next (swapOut s f.core fl.quad f.uid r.flock)
      else .next s

/-- PENDING_READY_TIMEOUT: a pending flock has been ready for 4,096 clk while no flock has left the active set; the
one that entered earliest leaves. -/
def execPendingReadyTimeout (core quad : Nat) (s : State) : Host.Outcome State Fault Refusal :=
  match (coreAt s core).quads[quad]? with
  | none => .next s
  | some q =>
    match longestReady s q, q.active with
    | some y, a :: _ =>
      if y.2.2 + 4096 ≤ s.clock && q.lastLeft + 4096 ≤ s.clock then .next (swapOut s core quad a.1 a.2) else .next s
    | _, _ => .next s

end Sys2Proof.Machine
end

