-- ==== Sys2Proof/Machine/Launch.lean ====
section
/-! DEFINITION. Launch records and kernel headers, the checks at acceptance, LAUNCH and LWAIT (R22 to R29, R47, R243,
R244, R313). -/

namespace Sys2Proof.Machine

/-! ### Acceptance (R23, R25, R26) -/

/-- Bytes that acceptance reads: not of the aperture, translated, and readable. -/
def acceptBytes (s : State) (c : Context) (va n : Nat) : Option (List Byte) := devBytes s c va n

/-- A field of a record in its bits. -/
def bitsIn (w lo n : Nat) : Nat := w / 2 ^ lo % 2 ^ n

/-- Little-endian field of bytes. -/
def field (bs : List Byte) (off n : Nat) : Nat := leNat ((bs.drop off).take n)

/-- Check 1 on the record: reserved fields, STEPS, dimensions and the die bounds. -/
def recordBad (r : List Byte) : Bool :=
  let w := field r 0x10 4
  let z := field r 0x0C 4
  let lo := bitsIn w 8 3
  let hi := bitsIn w 12 3
  field r 0 8 % 256 != 0 || bitsIn w 26 6 != 0 || bitsIn w 19 5 != 0 || bitsIn w 15 1 != 0 || bitsIn w 11 1 != 0
    || bitsIn w 6 2 != 0 || field r 0x30 16 != 0 || field r 0x14 4 == 0 || field r 8 4 == 0 || z % 65536 == 0
    || z / 65536 == 0 || lo == 0 || hi < lo || 4 < hi

/-- Check 1 on the header: reserved fields, those of the FDR images among them, and ENTRY. -/
def headerBad (h : List Byte) : Bool :=
  let w := field h 0 4
  bitsIn w 22 10 != 0 || bitsIn w 9 7 != 0 || field h 0x18 104 != 0 || field h 8 4 % 16 != 0
    || (List.range 16).any (fun k => field h (0x80 + 8 * k) 8 / 2 ^ 47 != 0)

/-- A launch read from its record and header, with what its queue and parent give it. -/
def launchOf (r h : List Byte) (ctx index queue prio depth : Nat) (parent : Option Nat) (det : Bool) : Launch :=
  let w := field r 0x10 4
  { uid := 0, ctx := ctx, index := index, queue := queue, order := 0, kernel := BitVec.ofNat 64 (field r 0 8),
    dims := (field r 8 4, field r 0x0C 2, field r 0x0E 2), det := det || bitsIn w 25 1 == 1,
    overlap := bitsIn w 24 1 == 1, prio := prio, dieMin := bitsIn w 8 3, dieMax := bitsIn w 12 3,
    drove := 2 ^ bitsIn w 4 2, flocks := bitsIn w 0 4 + 1, steps := field r 0x14 4,
    param := BitVec.ofNat 64 (field r 0x18 8), paramBytes := BitVec.ofNat 32 (field r 0x20 4), paramWas := [],
    lsBytes := field h 4 4 + field r 0x24 4, srseed := BitVec.ofNat 64 (field r 0x28 8), amtiles := bitsIn (field h 0 4) 16 6,
    vregs := bitsIn (field h 0 4) 0 9, entry := field h 8 4, kernid := BitVec.ofNat 32 (field h 0x0C 4),
    safemap := BitVec.ofNat 64 (field h 0x10 8),
    fdr := (List.range 16).map (fun k => BitVec.ofNat 64 (field h (0x80 + 8 * k) 8)), pastid := 0, depth := depth,
    parent := parent, started := false, step := 0, running := none, retired := [], stopped := false }

/-- PRIO of a record. -/
def recordPrio (r : List Byte) : Nat := bitsIn (field r 0x10 4) 16 3

/-- F, the folds of a step. -/
def foldCount (l : Launch) : Nat := l.dims.1 * l.dims.2.1 * l.dims.2.2

/-- Checks 2 to 7: the status of the first that fails, or 0. -/
def launchStatus (l : Launch) : Nat :=
  if 2 ^ 32 < foldCount l || foldCount l % l.drove != 0 then 2
  else if 256 < l.vregs then 3
  else if Config.lsBytes < l.lsBytes then 4
  else if Config.amTiles < l.amtiles then 5
  else if l.fdr.any (fun w => !(fdrOf w).legal) then 6
  else if 10 < l.depth then 7
  else 0

/-- The checks of R25: a status, or the launch. -/
def checkLaunch (s : State) (c : Context) (addr : Nat) (mk : List Byte → List Byte → Launch) : Except Nat Launch :=
  if addr % 64 ≠ 0 then .error 1
  else match acceptBytes s c addr 64 with
    | none => .error 1
    | some r =>
      if recordBad r then .error 1
      else match acceptBytes s c (field r 0 8) 256 with
        | none => .error 1
        | some h =>
          if headerBad h then .error 1
          else
            let l := mk r h
            if launchStatus l = 0 then .ok l else .error (launchStatus l)

/-- A HOME_OFFLINE reply to a read of acceptance is counted (R374); `item` is the requesting CORENUM, or all ones. -/
def noteAccept (s : State) (c : Context) (addr item : Nat) : State :=
  let off (va n : Nat) : Option Nat :=
    (List.range n).findSome? (fun i => match translate s none c.id c.ptroot.toNat .read (va + i) with
      | .error r => if r = rOffline then offlineHome s none c (va + i) else none
      | .ok (h, _) => if homeOffline s h then some h else none)
  let note (h : Option Nat) : State := match h with
    | some h => countOffline s h item
    | none => s
  if addr % 64 ≠ 0 || (List.range 64).any (fun i => (apertureOff c (addr + i)).isSome) then s
  else match acceptBytes s c addr 64 with
    | none => note (off addr 64)
    | some r =>
      if recordBad r || (List.range 256).any (fun i => (apertureOff c (field r 0 8 + i)).isSome) then s
      else note (off (field r 0 8) 256)

/-- A PASTID that no live launch of the context has (R22). -/
def newPastid (s : State) (c : Context) : Word :=
  let live := (s.launches.filter (fun l => l.ctx == c.id)).map (fun l => l.pastid)
  ((List.range (live.length + 2)).map (fun i => c.nextPast + BitVec.ofNat 32 i)).find? (fun p =>
    p != 0 && !live.contains p) |>.getD c.nextPast

/-- The homes of a launch's parameter block, with the bytes that stand there (R24). Bytes in the aperture have none. -/
def paramNow (s : State) (c : Context) (l : Launch) : List (Nat × Byte) :=
  (List.range l.paramBytes.toNat).filterMap (fun i =>
    if (apertureOff c (l.param.toNat + i)).isSome then none
    else match translate s none c.id c.ptroot.toNat .read (l.param.toNat + i) with
    | .ok (h, _) => some (h, homeByte s h)
    | .error _ => none)

/-- The page table of a context may map more: bytes of parameter blocks that had no home at acceptance are noted with what
stands at the home that they have now (R24, log entry 32). -/
def noteParams (s : State) (c : Context) : State :=
  { s with launches := s.launches.map (fun l =>
      if l.ctx != c.id then l
      else { l with paramWas := l.paramWas ++
               (paramNow s c l).filter (fun x => l.paramWas.all (fun y => y.1 != x.1)) }) }

/-- Add an accepted launch. -/
def addLaunch (s : State) (c : Context) (l : Launch) : Launch × State :=
  let p := newPastid s c
  let (u, s1) := fresh s
  let l1 := { l with uid := u, order := u, pastid := p, paramWas := paramNow s c l }
  (l1, { putCtx s1 { c with nextPast := p + 1 } with launches := s1.launches ++ [l1] })

/-! ### LAUNCH (R243, R313) -/

/-- Child launches of a context that have not retired. -/
def childCount (s : State) (ctx : Nat) : Nat := (s.launches.filter (fun l => l.ctx == ctx && l.parent.isSome)).length

/-- The child that a flock launches starts at once, in its parent's context and at its parent's priority. -/
def launchChild (s : State) (e : Env) (addr : Nat) : Nat × Word × State :=
  let p := e.launch
  match checkLaunch s e.ctx addr (fun r h =>
      { launchOf r h e.ctx.id p.index p.queue p.prio (p.depth + 1) (some e.fold.uid) p.det with
        overlap := false, started := true }) with
  | .error st => (st, 0, s)
  | .ok l =>
    if Config.childLimit ≤ childCount s e.ctx.id then (8, 0, s)
    else
      let (l1, s1) := addLaunch s e.ctx l
      (0, l1.pastid, s1)

/-- LAUNCH: a release at TREE, then acceptance; the destination is to land. -/
def execLaunch (o : LaunchOp) (s : State) : Host.Outcome State Fault Refusal :=
  runMem s o.g false { s := [o.a.toNat, o.a.toNat + 1], sw := [o.d.toNat, o.d.toNat + 1] } (fun s e =>
    if e.act = 0 then .ok s
    else match holdUp e (flagOf e o.flg) true true with
      | some w => .stall w
      | none =>
        let s1 := releaseNow s e 7
        let r := launchChild (noteAccept s1 e.ctx (readS2 e 0 o.a.toNat).toNat e.fold.core) e (readS2 e 0 o.a.toNat).toNat
        .ok (putScalars r.2.2 e (flagOf e o.flg) false (scalarWords o.d.toNat [BitVec.ofNat 32 r.1, r.2.1])))

/-! ### LWAIT (R244) -/

/-- LWAIT: return is an acquire at TREE. -/
def execLwait (o : LwaitOp) (s : State) : Host.Outcome State Fault Refusal :=
  runMem s o.g false { s := (o.a.map (fun a => [a.toNat])).getD [] } (fun s e =>
    if e.act = 0 then .ok s
    else
      let p := o.a.map (fun a => readS e 0 a.toNat)
      if lwaitHolds s e.fold.uid p then .stall (.lwait p) else .ok (acquireAt s e.fold.core 7))

end Sys2Proof.Machine
end

