-- ==== Sys2Proof/Machine/Place.lean ====
section
/-! DEFINITION. A program placed by hand: one context, one launch of one fold of one flock, and one bundle at the
split's program counter. It stands for the host's CONTEXT and LAUNCH commands and the Shepherd's dispatch. -/

namespace Sys2Proof.Machine

/-- A context that has just been created, with a page table at DPA 0x10000. -/
def placedCtx : Context where
  id := 0
  ptroot := 0x10000
  lsap := 0x8_0000_0000
  trapbase := 0
  dieMask := 15
  slice := 0
  wdog := 0
  stage := 1
  spill := 0
  saveBase := 0
  saveSize := 0
  faultto := 0
  wins := []
  queue := []
  faults := []
  nextFault := 1
  attached := false
  breaks := []
  pendChk := false
  sampling := { k := 0, buf := 0, size := 0, stop := false, wp := 0, drops := 0 }
  timers := []
  nextPast := 2
  preempts := []

/-- A launch of one fold that has every register, tile and byte of local store. -/
def placedLaunch : Launch where
  uid := 0
  ctx := 0
  index := 0
  queue := 0
  order := 0
  kernel := 0x1000
  dims := (1, 1, 1)
  det := false
  overlap := false
  prio := 0
  dieMin := 1
  dieMax := 1
  drove := 1
  flocks := 1
  steps := 1
  param := 0
  paramBytes := 0
  paramWas := []
  lsBytes := Config.lsBytes
  srseed := 0
  amtiles := 32
  vregs := 256
  entry := 0
  kernid := 0
  safemap := 0
  fdr := List.replicate 16 0xA1FEF1
  pastid := 1
  depth := 0
  parent := none
  started := true
  step := 0
  running := some [{ die := 0, next := 1, last := 1 }]
  retired := []
  stopped := false

/-- A split that stands at a bundle of its clause, with both set-flags valid. -/
def placedSplit (head : Bool) : Split :=
  { freshSplit 0x1000 (BitVec.allOnes 64) [] with
    inside := true, headDue := head, setA := some 0, setB := some 1, left := if head then 0 else 1 }

/-- A flock as a fold's start leaves it (R28), of slot 0 in quadrant 0, with one split. -/
def freshFlock (param : DWord) (bytes : Word) (fdr : List DWord) (quad slot : Nat) (sp : Split) : Flock where
  v := []
  s := cset 0 (cset 0 (cset 0 [] 0 (loWord param)) 1 (hiWord param)) 2 bytes
  sh := []
  shq := 0
  p := []
  q := 0
  x := []
  f := csetList 0 [] 0 fdr
  c := []
  fflags := 0
  srcount := []
  dseq := []
  batchNext := 0
  batchDone := 0
  openCmds := []
  batches := []
  dflush := 0
  dflags := []
  trap := { cause := 0, detail := 0, pc := 0, split := 0 }
  records := []
  splits := [sp]
  stack := []
  hw := 0
  handler := none
  loads := []
  stores := []
  fences := []
  stall := none
  verdicts := []
  haltReq := false
  halting := false
  focus := false
  later := none
  watchdog := false
  pendChk := false
  marks := []
  stopped := false
  quad := quad
  slot := slot
  fromClk := 0
  sample := none

/-- A fold with given flocks, resident on a core. -/
def freshFold (uid launch foldId step die core order : Nat) (fls : List Flock) : Fold where
  uid := uid
  launch := launch
  foldId := foldId
  step := step
  die := die
  core := core
  place := .core
  order := order
  flocks := fls
  ls := []
  tiles := []
  ntag := []
  drb := []
  fail := none
  wd := 0
  preempt := false
  swapped := false
  room := none
  dieMask := 15
  wdog := 0
  images := []
  lsMarks := []
  tileMarks := []
  fleeceMark := false

/-- Sixteen bytes of a bundle at address 0x1000, and two page table entries that map the first 1 GiB to die 0. -/
def placedMem (m : Cells Byte) (w : BitVec 128) : Cells Byte :=
  let put (m : Cells Byte) (a n v : Nat) : Cells Byte := csetList 0 m a (leBytes n v)
  put (put (put m 0x1000 16 w.toNat) 0x10000 8 0x20001) 0x20000 8 0x33

/-- The state with a program of one bundle in it, about to issue. -/
def placeBundle (s : State) (w : BitVec 128) : State :=
  let fl := freshFlock 0 0 (List.replicate 16 0xA1FEF1) 0 0 (placedSplit (w.extractLsb' 0 2 == 2))
  let q : Quadrant := { active := [(0, 0)], pending := [], turn := 0, lastLeft := 0, tag := [], drawn := [] }
  { s with
    boot := .running,
    nextUid := 1,
    ctxs := [placedCtx],
    launches := [placedLaunch],
    folds := [freshFold 0 0 0 0 0 0 0 [fl]],
    cores := s.cores.set 0 { coreAt s 0 with quads := [q, Quadrant.empty, Quadrant.empty, Quadrant.empty] },
    mem := placedMem s.mem w,
    agenda := [.issue { fold := 0, flock := 0, split := 0 }] }

end Sys2Proof.Machine
end

