-- ==== Sys2Proof/Machine/Sampling.lean ====
section
/-! DEFINITION. Sampling records and the trace buffer of a context (R351, R352). -/

namespace Sys2Proof.Machine

/-- The extra clk of a routing modifier (R103). -/
def routeExtra (rt : BitVec 12) : Nat :=
  let cls := (rt.extractLsb' 9 3).toNat
  let seg := (rt.extractLsb' 6 3).toNat
  if cls = 0 then 0 else if cls = 4 then 4 else if seg != 0 && seg ≤ 3 then 1 else 2

/-- The routing modifier of a half. -/
def halfRoutes (w : BitVec 64) : List (BitVec 12) :=
  let r := unpackH w
  if r.immf == 0 && r.sk == 0 then [r.top4 ++ r.lo16.extractLsb' 8 8] else []

/-- The routing modifiers of a bundle (R78, R81, R83). -/
def bundleRoutes (w : BitVec 128) : List (BitVec 12) :=
  let f := unpackF w
  if w.extractLsb' 0 2 = 0 then
    [(unpackSrc f.sa).route, (unpackSrc f.sb).route]
      ++ (if f.imm = 0 then [(unpackSrc (f.hi.extractLsb' 0 24)).route] else [])
  else (if w.extractLsb' 0 2 = 1 then halfRoutes (w.extractLsb' 0 64) else []) ++ halfRoutes (w.extractLsb' 64 64)

/-- The routing clk of a bundle: those of its slowest operand, where each register-indexed operand adds to those before
it (R103). -/
def routeClk (w : BitVec 128) : Nat :=
  let rs := bundleRoutes w
  let idx := (rs.filter (fun r => r.extractLsb' 9 3 = 4)).length
  (rs.map routeExtra).foldl max (4 * idx)

/-- LEVEL of a record: one of the levels that the accesses of the bundle have reached (log entry 52). -/
def sampleLevel (s : State) (r : SampleRec) : Nat :=
  match r.levels with
  | [] => 0
  | x :: _ => (r.levels[(Config.freeWord s.free 4).toNat % r.levels.length]?).getD x

/-- The 64 bytes of a sampling record. Latencies are free values. -/
def sampleBytes (s : State) (f : Fold) (l : Launch) (i : Nat) (r : SampleRec) : List Byte :=
  let free (k n : Nat) : List Byte := leBytes n (Config.freeWord s.free k).toNat
  leBytes 4 l.kernid.toNat ++ leBytes 4 r.ord.toNat
    ++ leBytes 4 ((r.pc.toNat + 2 ^ 64 - l.kernel.toNat) % 2 ^ 32) ++ leBytes 4 f.foldId ++ leBytes 4 l.pastid.toNat
    ++ leBytes 2 i ++ leBytes 2 f.core ++ leBytes 8 r.mask.toNat ++ leBytes 8 r.clock
    ++ free 0 4 ++ free 1 4 ++ free 2 2
    ++ leBytes 1 (r.stall % 16 + sampleLevel s r * 16 + (if r.narrow then 128 else 0)) ++ leBytes 1 r.route
    ++ List.replicate 12 (0 : Byte)

/-- Append a record to the trace buffer of a context: a full buffer wraps or drops it, and either counts. A record
that finds no translation, or the aperture, is dropped. -/
def appendSample (s : State) (c : Context) (die : Nat) (bs : List Byte) : State :=
  let x := c.sampling
  let full := x.size ≤ x.wp
  let drop := putCtx s { c with sampling := { x with drops := x.drops + 1 } }
  if x.size = 0 || (full && x.stop) then drop
  else if (apertureOff c (x.buf + x.wp % x.size)).isSome then drop
  else match translate s none c.id c.ptroot.toNat .write (x.buf + x.wp % x.size) with
    | .error _ => drop
    | .ok (h, lf) =>
      if homeOffline s h then drop
      else
        putCtx (l2WriteBytes s die h bs lf)
          { c with sampling := { x with wp := x.wp + 64, drops := x.drops + (if full then 1 else 0) } }

/-- The record of a tagged bundle of a flock, if it has one, goes to the trace buffer. -/
def writeSample (s : State) (uid i : Nat) : State :=
  match foldAt s uid with
  | none => s
  | some f =>
    match (flockAt f i).bind (fun fl => fl.sample) with
    | none => s
    | some r =>
      let s1 := onFlock s uid i (fun fl => { fl with sample := none })
      match launchAt s f.launch, ctxOf s f with
      | some l, some c => { appendSample s1 c f.die (sampleBytes s f l i r) with free := s.free + 1 }
      | _, _ => s1

/-- The records of every flock of a fold, before it leaves its core. -/
def writeSamples (s : State) (uid : Nat) : State :=
  match foldAt s uid with
  | none => s
  | some f => (List.range f.flocks.length).foldl (fun u i => writeSample u uid i) s

end Sys2Proof.Machine
end

