-- ==== Sys2Proof/Machine/Shepherd.lean ====
section
/-! DEFINITION. The Shepherd: launch queues, steps, dispatch, retirement, swapping out, pre-emption and restoring, the
watchdog (R30 to R37, R48, R49, R202, R204, R307 to R321, R333 to R338). -/

namespace Sys2Proof.Machine

/-! ### Resources of a core (R30, R31) -/

/-- Folds resident on a core, but for those to be passed by. -/
def residents (s : State) (k : Nat) (skip : Fold → Bool) : List Fold :=
  s.folds.filter (fun f => f.place == .core && f.core == k && !skip f)

/-- Free flock slots of a quadrant. -/
def quadFree (rs : List Fold) (q : Nat) : Nat :=
  Config.quadSlots - ((rs.map (fun f => (f.flocks.filter (fun fl => fl.quad == q)).length)).sum)

/-- The quadrant with the most free slots, the lowest among equals. -/
def bestQuad (rs : List Fold) : Nat :=
  [1, 2, 3].foldl (fun b q => if quadFree rs b < quadFree rs q then q else b) 0

/-- The flocks of a fold that go to a quadrant. -/
def quadNeed (n q0 q : Nat) : Nat := ((List.range n).filter (fun i => (q0 + i) % 4 == q)).length

/-- The core has all that a fold of the launch needs. -/
def coreFits (s : State) (k : Nat) (l : Launch) (skip : Fold → Bool) : Bool :=
  let rs := residents s k skip
  let ls := rs.filterMap (fun f => launchAt s f.launch)
  let vrf (x : Launch) : Nat := x.flocks * 256 * gRegs x
  let q0 := bestQuad rs
  [0, 1, 2, 3].all (fun q => quadNeed l.flocks q0 q ≤ quadFree rs q)
    && (ls.map vrf).sum + vrf l ≤ Config.vrfBytes
    && (ls.map (fun x => x.lsBytes)).sum + l.lsBytes ≤ Config.lsBytes
    && (ls.map (fun x => x.amtiles)).sum + l.amtiles ≤ Config.amTiles

/-- The commands of a core but for those of the folds passed by. -/
def cmdsBut (s : State) (k : Nat) (skip : Fold → Bool) : List Cmd :=
  (coreAt s k).cmds.filter (fun c => !(cmdFold s c).any skip)

/-- The core has room for command images: scoreboard entries, and the queues with as many more as their engines run at
once (R307). -/
def imagesFit (s : State) (k : Nat) (cs : List Cmd) (skip : Fold → Bool) : Bool :=
  let held := cmdsBut s k skip
  held.length + cs.length ≤ 64
    && queued held false + (cs.filter (fun c => !isCopy c)).length ≤ 17
    && queued held true + (cs.filter isCopy).length ≤ 52

/-- The core takes any fold of a drove of the launch, with its images (log entry 53). -/
def coreTakes (s : State) (k : Nat) (l : Launch) (imgs : List (List Cmd)) (skip : Fold → Bool) : Bool :=
  coreFits s k l skip && imgs.all (fun cs => imagesFit s k cs skip)

/-- The cores of a die. -/
def dieCores (die : Nat) : List Nat := (List.range Config.coresPerDie).map (fun i => die * Config.coresPerDie + i)

def freeSlots (s : State) (k : Nat) (skip : Fold → Bool) : Nat :=
  let rs := residents s k skip
  (quadFree rs 0) + (quadFree rs 1) + (quadFree rs 2) + (quadFree rs 3)

/-- The core of R321 among those that fit. -/
def bestCore (s : State) (ks : List Nat) (skip : Fold → Bool) : Option Nat :=
  ks.foldl (fun b k => match b with
    | none => some k
    | some j =>
      let fk := freeSlots s k skip
      let fj := freeSlots s j skip
      let nk := (residents s k skip).length
      let nj := (residents s j skip).length
      if fj < fk || (fj == fk && nk < nj) then some k else some j) none

/-- `n` distinct cores for the folds of a drove, in ascending order. -/
def chooseCores (s : State) (skip : Fold → Bool) : Nat → List Nat → Option (List Nat)
  | 0, _ => some []
  | n + 1, ks =>
    match bestCore s ks skip with
    | none => none
    | some k => (chooseCores s skip n (ks.filter (· != k))).map (insertNat k)

/-- Cores for a launch's next drove on a die, with room for each list of images. -/
def placeFor (s : State) (die : Nat) (l : Launch) (imgs : List (List Cmd)) (skip : Fold → Bool) : Option (List Nat) :=
  chooseCores s skip l.drove ((dieCores die).filter (fun k => coreTakes s k l imgs skip))

/-! ### Candidates (R317, R320) -/

/-- What a launch would have placed next on a die: the folds of a drove to restore, or its next drove. -/
structure Cand where
  launch : Launch
  restore : List Fold
  drove : Nat

/-- Every LWAIT of a swapped-out drove would still stall (R49). -/
def stillWaits (s : State) (fs : List Fold) : Bool :=
  fs.all (fun f => f.flocks.all (fun fl => fl.splits.all (fun sp => match sp.wait with
    | .lwait p => lwaitHolds s f.uid p
    | _ => false)))

/-- Folds of a launch in their fleece on a die that are to be restored: neither failed, nor swapped out and waiting. -/
def toRestore (s : State) (l : Launch) (die : Nat) : List Fold :=
  s.folds.filter (fun f => f.launch == l.uid && f.die == die && f.place != .core && f.fail.isNone
    && !(f.swapped && stillWaits s (droveFolds s f)))

def candOf (s : State) (die : Nat) (l : Launch) : Option Cand :=
  if !l.started || l.stopped then none
  else match toRestore s l die with
    | f :: r =>
      if (ctxAt s l.ctx).any (fun c => !c.preempts.isEmpty) then none
      else
        let g := r.foldl (fun a b => if b.foldId < a.foldId then b else a) f
        some { launch := l, restore := sortBy (fun a b => a.foldId ≤ b.foldId) (droveFolds s g), drove := 0 }
    | [] =>
      match (l.running.getD []).find? (fun x => x.die == die && x.next < x.last) with
      | some x => some { launch := l, restore := [], drove := x.next }
      | none => none

def candLe (a b : Cand) : Bool :=
  if a.launch.prio ≠ b.launch.prio then b.launch.prio < a.launch.prio
  else if a.restore.isEmpty ≠ b.restore.isEmpty then !a.restore.isEmpty
  else a.launch.order ≤ b.launch.order

/-- The candidates of a die in rank. -/
def ranked (s : State) (die : Nat) : List Cand := sortBy candLe (s.launches.filterMap (candOf s die))

def candCores (s : State) (die : Nat) (c : Cand) (skip : Fold → Bool) : Option (List Nat) :=
  placeFor s die c.launch (c.restore.map (fun f => f.images)) skip

/-- A candidate is held back by one of its priority or above that has starved; of two that have starved, by the one that
ranks before it (log entry 53). -/
def heldBack (s : State) (die : Nat) (cs : List Cand) (c : Cand) : Bool :=
  let st := (dieAt s die).starved
  cs.any (fun x => st.contains x.launch.uid && x.launch.uid != c.launch.uid && c.launch.prio ≤ x.launch.prio
    && !(st.contains c.launch.uid && candLe c x))

/-- The first candidate in rank that is placed, with its cores. -/
def chooseCand (s : State) (die : Nat) : Option (Cand × List Nat) :=
  let cs := ranked s die
  cs.findSome? (fun c =>
    if heldBack s die cs c then none else (candCores s die c (fun _ => false)).map (fun ks => (c, ks)))

/-- Which launch's candidate stands first without fitting is noted. -/
def noteStarve (s : State) (die : Nat) : State :=
  let d := dieAt s die
  let st : Option (Nat × Nat) := match ranked s die with
    | [] => none
    | c :: _ =>
      if (candCores s die c (fun _ => false)).isSome then none
      else match d.starve with
        | some (u, t) => if u = c.launch.uid then some (u, t) else some (c.launch.uid, s.clock)
        | none => some (c.launch.uid, s.clock)
  let alive := d.starved.filter (fun u => (ranked s die).any (fun c => c.launch.uid == u))
  putDie s die { d with starve := st, starved := alive }

/-- DISPATCH_STARVATION_TIMEOUT. -/
def execDispatchStarvationTimeout (die : Nat) (s : State) : Host.Outcome State Fault Refusal :=
  let s1 := noteStarve s die
  .next (match (dieAt s1 die).starve with
    | some (u, t) =>
      let d := dieAt s1 die
      if t + 200000 ≤ s.clock && !d.starved.contains u then putDie s1 die { d with starved := d.starved ++ [u] } else s1
    | none => s1)

/-! ### Placing flocks on a core (R31, R45) -/

/-- The lowest free slot of a quadrant. -/
def lowSlot (used : List Nat) (q : Nat) : Nat :=
  ((List.range Config.quadSlots).find? (fun j => !used.contains (q * Config.quadSlots + j))).getD 0 + q * Config.quadSlots

/-- Give flocks their quadrants and slots. -/
def seatFlocks (q0 : Nat) : Nat → List Nat → List Flock → List Flock
  | _, _, [] => []
  | i, used, fl :: r =>
    let q := (q0 + i) % 4
    let j := lowSlot used q
    { fl with quad := q, slot := j } :: seatFlocks q0 (i + 1) (j :: used) r

/-- A flock joins its quadrant's active set, or the pending set. -/
def joinQuad (s : State) (k q uid fi : Nat) : State :=
  onQuad s k q (fun x =>
    if x.active.length < 8 then { x with active := x.active ++ [(uid, fi)] }
    else { x with pending := x.pending ++ [(uid, fi, s.clock)] })

/-- The flocks of a fold leave their quadrants. The first flocks of the pending list take the room at once, whether or not
they are ready, and may issue without a delay: R45 does not say which do, nor when (log entry 40). -/
def leaveQuads (s : State) (k uid : Nat) : State :=
  (List.range 4).foldl (fun s q => onQuad s k q (fun x =>
    let act := x.active.filter (fun a => a.1 != uid)
    let pend := x.pending.filter (fun a => a.1 != uid)
    let n := 8 - act.length
    { x with active := act ++ (pend.take n).map (fun a => (a.1, a.2.1)), pending := pend.drop n,
             lastLeft := if act.length < x.active.length then s.clock else x.lastLeft })) s

/-- Seat a fold's flocks on a core. -/
def seatFold (s : State) (k : Nat) (f : Fold) : State :=
  let rs := residents s k (fun g => g.uid == f.uid)
  let used := rs.flatMap (fun g => g.flocks.map (fun fl => fl.slot))
  let fls := seatFlocks (bestQuad rs) 0 used f.flocks
  let f1 := { f with core := k, place := .core, flocks := fls }
  let s1 := if (foldAt s f.uid).isSome then putFold s f1 else { s with folds := s.folds ++ [f1] }
  (List.range fls.length).foldl (fun u i => match fls[i]? with
    | some fl => joinQuad u k fl.quad f.uid i
    | none => u) (l1Drop s1 k)

/-- The slice timer of a context on a die starts with its first fold, and each dispatch there brings SLICE as it stands (R316,
R361). -/
def startTimer (s : State) (ctx die : Nat) : State :=
  match ctxAt s ctx with
  | none => s
  | some c =>
    if c.timers.any (fun t => t.1 == die) then
      putCtx s { c with timers := c.timers.map (fun t => if t.1 == die then (die, t.2.1, c.slice) else t) }
    else putCtx s { c with timers := c.timers ++ [(die, s.clock, c.slice)] }

/-! ### Dispatch (R28, R35, R320, R321) -/

/-- The first split of a flock. -/
def firstSplit (l : Launch) : Split := freshSplit (l.kernel + BitVec.ofNat 64 l.entry) (BitVec.allOnes 64) []

/-- Dispatch one fold of a launch to a core. -/
def dispatchFold (s : State) (l : Launch) (c : Context) (die k foldId : Nat) : State :=
  let (u, s1) := fresh s
  let fl := freshFlock l.param l.paramBytes l.fdr 0 0 (firstSplit l)
  let f := freshFold u l.uid foldId l.step die k u (List.replicate l.flocks fl)
  seatFold s1 k { f with dieMask := c.dieMask, wdog := c.wdog }

/-- A candidate of a die has been placed. -/
def placed (s : State) (die uid : Nat) : State :=
  let d := dieAt s die
  noteStarve (putDie s die { d with nextPlace := s.clock + 32, starve := d.starve.filter (fun x => x.1 != uid),
                                    starved := d.starved.filter (· != uid) }) die

/-- FOLD_DISPATCH: the die's Shepherd places the next drove of its candidate. -/
def execFoldDispatch (die : Nat) (s0 : State) : Host.Outcome State Fault Refusal :=
  let s := noteStarve s0 die
  if s.clock < (dieAt s die).nextPlace then .next s
  else match chooseCand s die with
    | none => .next s
    | some (c, ks) =>
      match c.restore, ctxAt s c.launch.ctx with
      | [], some x =>
        let l := c.launch
        let s1 := putLaunch s { l with running := l.running.map (fun r => r.map (fun x =>
          if x.die == die then { x with next := x.next + 1 } else x)) }
        let s2 := ((List.range ks.length).zip ks).foldl (fun u y =>
          dispatchFold u l x die y.2 (c.drove * l.drove + y.1)) (startTimer s1 l.ctx die)
        .next (placed s2 die l.uid)
      | _, _ => .next s

/-! ### Launch queues (R310, R311, R362) -/

def admitted (s : State) (d : Nat) : Bool := d < 4 && (dieAt s d).state == .admitted

/-- The die is available to a context's steps (R318, R319). -/
def available (s : State) (c : Context) (d : Nat) : Bool :=
  admitted s d && c.dieMask.getLsbD d
    && (match s.dieCtl with
        | some x => x.die != d
        | none => true)

/-- The form of a Zutix copy (R362). -/
def copyOpOf (a : CopyArgs) : CopyOp where
  g := .always
  flg := .none
  scope := 11
  mode := a.sub.extractLsb' 0 2
  cvt := a.sub.getLsbD 2
  tr := a.sub.getLsbD 3
  ef := a.aux.getLsbD 0
  sel := a.aux.extractLsb' 1 2
  stamp := a.aux.getLsbD 3
  crcd := a.aux.getLsbD 4
  crcs := a.aux.getLsbD 5
  p := 0
  bar := none

/-- The die of a Zutix copy: the home of the device-side BASE, or the lowest admitted die of the context. -/
def copyDie (s : State) (c : Context) (a : CopyArgs) : Option Nat :=
  let base (i : Nat) : Nat := leNat ((a.recs.drop (64 * i)).take 8)
  let side : Option Nat :=
    if a.host = 2 then (if (copyOpOf a).mode = 3 then none else some (base 0)) else some (base 1)
  let home : Option Nat := match side with
    | none => none
    | some va =>
      if (apertureOff c va).isSome then none
      else match translate s none c.id c.ptroot.toNat .read va with
        | .error _ => none
        | .ok (h, _) => if h < peerKey && admitted s (dieOfHome h) then some (dieOfHome h) else none
  home.or ([0, 1, 2, 3].find? (fun d => admitted s d && c.dieMask.getLsbD d))

/-- The core of the die with the fewest queued copies. -/
def copyCore (s : State) (die : Nat) : Nat :=
  let n (k : Nat) : Nat := queued (coreAt s k).cmds true
  (dieCores die).foldl (fun b k => if n k < n b then k else b) (die * Config.coresPerDie)

/-- The copy as a command of a core. -/
def hostCmd (ctx index : Nat) (a : CopyArgs) : Cmd :=
  { newCmd (.host ctx index) (.copy (copyOpOf a)) 0
      ([0, 0, 0, 0, 0, 0] ++ [loWord a.opnd, hiWord a.opnd, 0, 0, 0]) [] none 11 a.seed with
    recs := a.recs, host := a.host }

/-- Every fold of a launch's last step has been dispatched. -/
def allDispatched (s : State) (uid : Nat) : Bool :=
  match launchAt s uid with
  | none => true
  | some l => l.step + 1 == l.steps && (match l.running with
      | some r => r.all (fun x => x.next == x.last)
      | none => false)

/-- The command may start (R311). -/
def mayStart (s : State) (q : List QueueItem) (it : QueueItem) : Bool :=
  let before := (q.filter (fun x => x.queue == it.queue)).takeWhile (fun x => x.index != it.index)
  !it.started && before.all (fun x => x.started)
    && (match before.getLast? with
        | none => true
        | some p => p.done
          || (match it.launch, p.launch with
              | some u, some v => (launchAt s u).any (fun l => l.overlap) && allDispatched s v
              | _, _ => false))

/-- Change an entry of a context's launch queues. -/
def onQueue (s : State) (c : Context) (item : Nat) (g : QueueItem → QueueItem) : State :=
  putCtx s { c with queue := c.queue.map (fun x => if x.index == item then g x else x) }

/-- The core of a Zutix copy: the one on which the CPC has placed it, while its die is admitted, or the one on which it
places it now (R362). -/
def placedCore (s : State) (c : Context) (it : QueueItem) (a : CopyArgs) : Option Nat :=
  (it.placed.filter (fun k => admitted s (dieOfCore k))).or ((copyDie s c a).map (copyCore s))

/-- LAUNCH_START: a launch or copy command of a queue starts. A copy is placed on its core, where the CPC waits as the fifth
requester (R297). -/
def execLaunchStart (ctx item : Nat) (s : State) : Host.Outcome State Fault Refusal :=
  match ctxAt s ctx with
  | none => .next s
  | some c =>
    match c.queue.find? (fun x => x.index == item) with
    | none => .next s
    | some it =>
      if !mayStart s c.queue it then .next s
      else
        let begun := startRecord (onQueue s c item (fun x => { x with started := true })) (ctx + 1) item
        match it.launch, it.copy with
        | some u, _ =>
          (match launchAt begun u with
           | some l => .next (putLaunch begun { l with started := true })
           | none => .next begun)
        | none, some a =>
          (match placedCore s c it a with
           | none => .next s
           | some k =>
             if !hasRoom s k true || !engineTurn s k 4 then .next (onQueue s c item (fun x => { x with placed := some k }))
             else
               let (id, t) := fresh begun
               .next (enqueueCmd t k 4 { hostCmd ctx item a with id := id }))
        | none, none => .next begun

/-! ### Steps (R33, R34, R318) -/

/-- Folds waiting to be dispatched or restored on a die, across all contexts. -/
def waitingOn (s : State) (d : Nat) : Nat :=
  (s.launches.map (fun l =>
    (if l.stopped then 0
     else ((l.running.getD []).map (fun x => if x.die == d then (x.last - x.next) * l.drove else 0)).sum)
      + (toRestore s l d).length)).sum

/-- The dies of a step: the n with the fewest folds waiting, by DIEID. -/
def stepDies (s : State) (avail : List Nat) (n : Nat) : List Nat :=
  let few (a b : Nat) : Bool := if waitingOn s a ≠ waitingOn s b then waitingOn s a < waitingOn s b else a ≤ b
  sortBy (fun a b => a ≤ b) ((sortBy few avail).take n)

/-- STEP_START. -/
def execStepStart (launch : Nat) (s : State) : Host.Outcome State Fault Refusal :=
  match launchAt s launch with
  | none => .next s
  | some l =>
    match ctxAt s l.ctx with
    | none => .next s
    | some c =>
      let avail := [0, 1, 2, 3].filter (available s c)
      if !l.started || l.stopped || l.running.isSome || l.steps ≤ l.step || avail.length < l.dieMin then .next s
      else
        let n := min l.dieMax avail.length
        let ds := stepDies s avail n
        let total := foldCount l / l.drove
        let shares := ((List.range n).zip ds).map (fun x =>
          ({ die := x.2, next := x.1 * total / n, last := (x.1 + 1) * total / n } : StepShare))
        .next (putLaunch s { l with running := some shares })

/-! ### Retirement (R48, R150, R202, R204, R327, R366) -/

/-- The fold has commands that have not completed. -/
def hasCmds (s : State) (f : Fold) : Bool :=
  (coreAt s f.core).cmds.any (fun c => match c.owner with
    | .flock u _ => u == f.uid
    | .host _ _ => false)

/-- The fold may retire, or be recorded as failed. -/
def endReady (s : State) (f : Fold) : Bool :=
  !s.launches.any (fun l => l.parent == some f.uid)
    && (if f.place == .core then
          f.flocks.all finished && !hasCmds s f
            && f.flocks.all (fun fl => fl.stores.all (fun p => p.waitFault.isNone))
        else f.fail.isSome)

/-- The oldest record outstanding in a fold. -/
def oldestRecord (f : Fold) : Option ImpRecord :=
  (f.flocks.flatMap (fun fl => fl.records)).foldl (fun b r => match b with
    | none => some r
    | some x => if r.age < x.age then some r else some x) none

/-- A resident fold whose flocks have all finished fails with a record that no bundle can deliver. -/
def failUndelivered (s : State) (uid : Nat) : State :=
  match foldAt s uid with
  | none => s
  | some f =>
    if f.fail.isSome || f.place != .core || !f.flocks.all finished then s
    else match oldestRecord f with
      | none => s
      | some r => failFold s uid (0x100 + r.cause)

/-- A pre-emption that a CONTEXT command waits for is settled for a fold; the last one completes the command, and its FAULTTO
takes effect (R361). -/
def preemptSettled (s : State) (uid : Nat) : State :=
  s.ctxs.foldl (fun u c =>
    let ps := c.preempts.map (fun p => (p.1, p.2.1.filter (· != uid), p.2.2))
    let done := ps.filter (fun p => p.2.1.isEmpty)
    let u1 := putCtx u { c with preempts := ps.filter (fun p => !p.2.1.isEmpty),
                                faultto := (done.getLast?.map (fun p => p.2.2)).getD c.faultto }
    done.foldl (fun v p => complete v 0 p.1 3 stOk []) u1)
    s

/-- What a fold has written is performed and leaves its core, before it does. -/
def writeBackFold (s : State) (uid : Nat) : State :=
  match foldAt s uid with
  | none => s
  | some f =>
    if f.place == .core then
      l1CleanAll ((List.range f.flocks.length).foldl (fun u i => drainStores u uid i) s) f.core
    else s

/-- A fold leaves the machine and is counted in its launch's record. -/
def endFold (s : State) (l : Launch) (f : Fold) : State :=
  let s1 := writeSamples s f.uid
  let code := ((foldAt s1 f.uid).bind (fun g => g.fail))
  let s2 := leaveQuads { s1 with folds := s1.folds.filter (fun g => g.uid != f.uid) } f.core f.uid
  let s3 := addItems s2 (l.ctx + 1) l.index 1
  preemptSettled (match code, launchAt s3 l.uid with
    | some c, _ => addFailure s3 (l.ctx + 1) l.index f.foldId c l.depth
    | none, some x => putLaunch s3 { x with retired := x.retired ++ [f.foldId] }
    | none, none => s3) f.uid

/-- The folds of a launch stopped as a whole that had retired are recorded with code 0x301 too (R204). -/
def countRetired (s : State) (l : Launch) : State :=
  updRecord s (l.ctx + 1) l.index (fun r =>
    { r with fails := r.fails + l.retired.length,
             first := (r.first ++ l.retired.map (fun i => (i, 0x301, l.depth))).take 16 })

/-- Folds that never run are counted with code 0x301: FAILS and ITEMS by their number, and FIRST while it has room. -/
def countLost (s : State) (l : Launch) (ids : List Nat) (n : Nat) : State :=
  updRecord (addItems s (l.ctx + 1) l.index n) (l.ctx + 1) l.index (fun r =>
    { r with fails := r.fails + n, first := (r.first ++ ids.map (fun i => (i, 0x301, l.depth))).take 16 })

/-- The folds of a stopped launch that were never dispatched: the first sixteen, and their number. -/
def undispatched (l : Launch) : List Nat × Nat :=
  let here := (l.running.getD []).flatMap (fun x =>
    (List.range (min 16 ((x.last - x.next) * l.drove))).map (fun i => x.next * l.drove + i))
  let n := ((l.running.getD []).map (fun x => (x.last - x.next) * l.drove)).sum
  let later := (l.steps - l.step - 1) * foldCount l
  ((here ++ (List.range (min 16 later)).map (fun i => i % foldCount l)).take 16, n + later)

/-- The launch has ended: a host's is completed, a child's parent may go on. -/
def endLaunch (s : State) (l : Launch) : State :=
  let s1 := { s with launches := s.launches.filter (fun x => x.uid != l.uid) }
  match l.parent with
  | some _ => s1
  | none =>
    let bad := (recordAt s1 (l.ctx + 1) l.index).any (fun r => r.fails != 0)
    complete (queueDone s1 l.ctx l.index) (l.ctx + 1) l.index (if bad then 4 else 3) (if bad then stFailed else stOk) []

/-- The running step has no fold left: its contributions are applied, and the launch goes on or ends. -/
def endStep (s : State) (uid : Nat) : State :=
  match launchAt s uid with
  | none => s
  | some l =>
    if s.folds.any (fun f => f.launch == uid) then s
    else if l.stopped then
      let lost := undispatched l
      endLaunch (countLost (countRetired s l) l lost.1 lost.2) l
    else match l.running with
      | none => s
      | some r =>
        if r.any (fun x => x.next < x.last) then s
        else
          let s1 := applyStaged s (fun k => k.launch == uid && k.step == l.step)
          let l1 := { l with running := none, step := l.step + 1 }
          if l1.steps ≤ l1.step then endLaunch s1 l1 else putLaunch s1 l1

/-- FOLD_RETIRE: a fold that has finished with an undelivered record fails; the folds of a drove retire together, or are
recorded as failed. -/
def execFoldRetire (fold : Nat) (s : State) : Host.Outcome State Fault Refusal :=
  match foldAt s fold with
  | none => .next s
  | some f =>
    match launchAt s f.launch with
    | none => .next s
    | some l =>
      let us := (droveFolds s f).map (fun g => g.uid)
      let s1 := us.foldl failUndelivered s
      if !(droveFolds s1 f).all (endReady s1) then .next s1
      else
        let s2 := us.foldl failUndelivered (us.foldl writeBackFold s1)
        let s3 := (((droveFolds s2 f).filter (fun g => g.place == .core)).map (fun g => g.core)).foldl drainCore s2
        let s4 := us.foldl (fun u x => match foldAt u x with
          | some g => endFold u l g
          | none => u) s3
        .next (endStep s4 l.uid)

/-! ### Fleeces (R334, R335) -/

def up4k (n : Nat) : Nat := (n + 4095) / 4096 * 4096

/-- The commands of a fold on its core, in acceptance order. -/
def foldCmds (s : State) (f : Fold) : List Cmd :=
  (coreAt s f.core).cmds.filter (fun c => match c.owner with
    | .flock u _ => u == f.uid
    | .host _ _ => false)

/-- Where the sections of a fleece begin, and its size (R335). -/
structure Sections where
  cmd : Nat
  am : Nat
  ls : Nat
  v : Nat
  size : Nat
  deriving DecidableEq, Repr

/-- The sections of the fleece of a fold of a launch with `n` command images. -/
def sections (l : Launch) (n : Nat) : Sections :=
  let cmd := 0x1000 + 0x1000 * l.flocks
  let am := cmd + up4k (1024 * n)
  let ls := am + 16384 * l.amtiles
  let v := ls + up4k l.lsBytes
  { cmd := cmd, am := am, ls := ls, v := v, size := v + up4k (l.flocks * gRegs l * 256) }

/-- Bytes of a fold's fleece. -/
def fleeceBytes (s : State) (f : Fold) : Nat :=
  match launchAt s f.launch with
  | none => 0
  | some l => (sections l (foldCmds s f).length).size

/-- Bytes held of a die's fleece region. -/
def mantleUse (s : State) (die : Nat) : Nat :=
  ((s.folds.filter (fun f => f.die == die)).map (fun f => match f.room with
    | some (false, n) => n
    | _ => 0)).sum

/-- The save area of a context in the HBM of a die (log entry 54). -/
def saveUse (s : State) (ctx die : Nat) : Nat :=
  ((s.folds.filter (fun f => f.die == die && (launchAt s f.launch).any (fun l => l.ctx == ctx))).map (fun f => match f.room with
    | some (true, n) => n
    | _ => 0)).sum

/-- Hold room for the fleece of a fold: the Mantle first, then the save area. -/
def reserve (s : State) (uid : Nat) : Option State :=
  match foldAt s uid with
  | none => none
  | some f =>
    let n := fleeceBytes s f
    match ctxOf s f with
    | none => none
    | some c =>
      if mantleUse s f.die + n ≤ Config.fleeceRegion then some (putFold s { f with room := some (false, n) })
      else if saveUse s c.id f.die + n ≤ c.saveSize.toNat then some (putFold s { f with room := some (true, n) })
      else none

/-- Hold room for every fold of a list, or for none. -/
def reserveAll : State → List Nat → Option State
  | s, [] => some s
  | s, u :: r => (reserve s u).bind (fun t => reserveAll t r)

/-- Select the drove of a fold for pre-emption, where its fleeces have room. -/
def markUnit (s : State) (f : Fold) : Option State :=
  let us := (droveFolds s f).map (fun g => g.uid)
  (reserveAll s us).map (fun t =>
    { t with folds := t.folds.map (fun g => if us.contains g.uid then { g with preempt := true } else g) })

/-- An engine command set aside (R307): an MMA starts again from its first step, a copy keeps its progress and abandons the
items that wait. Of what an abandoned item may have written each bit keeps its old value (log entry 31). -/
def setAside (c : Cmd) : Cmd :=
  match c.instr with
  | .mma _ => { c with started := false, step := 0, sums := [], pins := [], reads := [], copies := [], fetched := 0 }
  | _ => { c with started := false, flight := [] }

/-- The engines hold back the saving of a fold: a running AM move, AMCVT or MTREE completes first, an MMA its step, and a
copy the items in flight, but for what waits on a fault (R307). -/
def engineBusy (s : State) (f : Fold) : Bool :=
  (foldCmds s f).any (fun c => c.started && (match c.instr with
    | .mma _ => c.faults.isEmpty && c.step < mmaSteps c.regs
    | .copy _ => c.flight.any (fun i => !itemWaits s f.core c i)
    | _ => true))

/-- A flock settles its accesses and stops (R209, R333). -/
def stopForSave (s : State) (uid fi : Nat) : State :=
  let s1 := onFlock (settleAll s uid fi) uid fi (fun fl =>
    fl.loads.foldl (fun u p => lanes.foldl (fun v l => landLane v s.free p.id l) u) fl)
  let s2 := drainStores (settleFlock s1 uid fi) uid fi
  onFlock s2 uid fi (fun fl => { fl with stopped := true })

/-- The waits of a saved flock are tested afresh. -/
def freshWaits (fl : Flock) : Flock :=
  { fl with stopped := false, splits := fl.splits.map (fun sp => { sp with wait := .none }),
            handler := fl.handler.map (fun h => { h with sp := { h.sp with wait := .none } }) }

/-- Write one fold to its fleece and free its core. -/
def saveOne (s0 : State) (uid : Nat) (swap : Bool) : State :=
  let s := writeBackFold (writeSamples s0 uid) uid
  match foldAt s uid with
  | none => s
  | some f =>
    let cs := foldCmds s f
    let s1 := unpin s f.die (cs.flatMap (fun c => c.pins))
    let x := coreAt s1 f.core
    let s2 := putCore s1 f.core { x with cmds := x.cmds.filter (fun c => !cs.any (fun d => d.id == c.id)) }
    let save := match f.room with
      | some (b, _) => b
      | none => false
    leaveQuads (putFold s2
      { f with place := .fleece save, preempt := false, swapped := swap, images := cs.map setAside,
               flocks := if swap then f.flocks.map (fun fl => { fl with stopped := false }) else f.flocks.map freshWaits })
      f.core uid

/-- Write the folds of a drove, once the buffers of their cores have drained; exhaustion fails the launch instead. -/
def saveUnit (s : State) (us : List Nat) (swap : Bool) : State :=
  let s1 := (us.filterMap (fun u => (foldAt s u).map (fun f => f.core))).foldl drainCore s
  if us.any (fun u => (foldAt s1 u).any (fun f => f.fail.isSome)) then s1
  else us.foldl (fun t u => preemptSettled (saveOne t u swap) u) s1

/-- FLOCK_PREEMPT_STOP. -/
def execFlockPreemptStop (r : FlockRef) (s : State) : Host.Outcome State Fault Refusal :=
  match foldAt s r.fold with
  | none => .next s
  | some f => .next (if f.preempt && f.place == .core then stopForSave s r.fold r.flock else s)

/-- FLEECE_WRITE: every flock of the drove has stopped and the engines have settled. -/
def execFleeceWrite (fold : Nat) (s : State) : Host.Outcome State Fault Refusal :=
  match foldAt s fold with
  | none => .next s
  | some f =>
    let unit := droveFolds s f
    if unit.all (fun g => g.preempt && g.place == .core && g.fail.isNone && !engineBusy s g
        && g.flocks.all (fun fl => fl.stopped || finished fl)) then
      .next (saveUnit s (unit.map (fun g => g.uid)) false)
    else .next s

/-- Every flock of the fold waits in LWAIT (R49). A finished flock does not: a fold with one is never swapped out (log
entry 40). -/
def allLwait (f : Fold) : Bool :=
  f.flocks.all (fun fl => fl.handler.isNone && !fl.splits.isEmpty && fl.splits.all (fun sp => isLwait sp.wait))

/-- FOLD_SWAP_OUT. -/
def execFoldSwapOut (fold : Nat) (s : State) : Host.Outcome State Fault Refusal :=
  match foldAt s fold with
  | none => .next s
  | some f =>
    let unit := droveFolds s f
    if unit.all (fun g => g.place == .core && g.fail.isNone && !g.preempt && allLwait g && !engineBusy s g)
        && stillWaits s unit then
      match reserveAll s (unit.map (fun g => g.uid)) with
      | none => .next s
      | some t =>
        let us := unit.map (fun g => g.uid)
        let t1 := us.foldl (fun u x => match foldAt u x with
          | some g => (List.range g.flocks.length).foldl (fun v i => stopForSave v x i) u
          | none => u) t
        .next (saveUnit t1 us true)
    else .next s

/-! ### Restoring (R317, R337) -/

/-- Restore one fold on a core: its images first, then its flocks; what a debugger has asked of them takes effect. -/
def restoreOne (s : State) (k uid : Nat) : State :=
  match foldAt s uid with
  | none => s
  | some f =>
    let x := coreAt s k
    let s1 := putCore s k { x with cmds := x.cmds ++ f.images }
    goOnAll (seatFold s1 k { f with images := [], room := none, swapped := false, flocks := f.flocks.map freshWaits }) uid

/-- Folds whose fleece could not be read fail, and with them the others of their drove (R332). -/
def failMarked (s : State) (us : List Nat) : State :=
  let bad := us.filter (fun u => (foldAt s u).any (fun f => f.fleeceMark))
  let s1 := { s with folds := s.folds.map (fun g =>
    if bad.contains g.uid then { stopFold g 0x11F with fleeceMark := false } else g) }
  bad.foldl (fun t u => failFold t u 0x11F) s1

/-- FOLD_RESTORE. -/
def execFoldRestore (die : Nat) (s0 : State) : Host.Outcome State Fault Refusal :=
  let s := noteStarve s0 die
  if s.clock < (dieAt s die).nextPlace then .next s
  else match chooseCand s die with
    | none => .next s
    | some (c, ks) =>
      if c.restore.isEmpty then .next s
      else
        let us := c.restore.map (fun f => f.uid)
        .next (placed (failMarked ((us.zip ks).foldl (fun t x => restoreOne t x.2 x.1) s) us) die c.launch.uid)

/-! ### Pre-emption (R315, R316) -/

/-- Pre-empt victims of a core in their order until a fold of the launch fits; how many it took. -/
def selectOn (k : Nat) (l : Launch) (imgs : List (List Cmd)) : List Fold → Nat → State → Option (Nat × State)
  | [], n, s => if coreTakes s k l imgs (fun f => f.preempt) then some (n, s) else none
  | v :: r, n, s =>
    if coreTakes s k l imgs (fun f => f.preempt) then some (n, s)
    else match foldAt s v.uid with
      | none => selectOn k l imgs r n s
      | some f =>
        if f.preempt then selectOn k l imgs r n s
        else match markUnit s f with
          | none => selectOn k l imgs r n s
          | some t => selectOn k l imgs r (n + 1) t

/-- Victims of a core: lowest priority first, the most recently dispatched first among equals. -/
def victimsOn (s : State) (k : Nat) (p : Launch → Bool) : List Fold :=
  let prio (f : Fold) : Nat := ((launchAt s f.launch).map (fun l => l.prio)).getD 0
  sortBy (fun a b => if prio a ≠ prio b then prio a < prio b else b.order ≤ a.order)
    ((residents s k (fun f => f.preempt)).filter (fun f => f.fail.isNone && (launchAt s f.launch).any p))

/-- The core on which the fewest folds go, and the state with them selected. -/
def fewestOn (s : State) (ks : List Nat) (l : Launch) (imgs : List (List Cmd)) (p : Launch → Bool) : Option (Nat × State) :=
  ((ks.filterMap (fun k => (selectOn k l imgs (victimsOn s k p) 0 s).map (fun x => (x.1, k, x.2)))).foldl
    (fun (b : Option (Nat × Nat × State)) x => match b with
      | none => some x
      | some y => if x.1 < y.1 then some x else some y) none).map (fun x => (x.2.1, x.2.2))

/-- Choose cores one after another. -/
def makeRoom (l : Launch) (imgs : List (List Cmd)) (p : Launch → Bool) : Nat → List Nat → State → Option State
  | 0, _, s => some s
  | n + 1, ks, s =>
    match fewestOn s ks l imgs p with
    | none => none
    | some (k, t) => makeRoom l imgs p n (ks.filter (· != k)) t

/-- Pre-empt, among the folds that meet `p`, for the candidate that stands first and cannot be placed. -/
def preemptFor (s : State) (die : Nat) (want : Cand → Bool) (p : Cand → Launch → Bool) : State :=
  match ranked s die with
  | [] => s
  | c :: _ =>
    if !want c || (candCores s die c (fun f => f.preempt)).isSome then s
    else (makeRoom c.launch (c.restore.map (fun f => f.images)) (p c) c.launch.drove (dieCores die) s).getD s

/-- PREEMPT_REQUEST (R315). -/
def execPreemptRequest (die : Nat) (s : State) : Host.Outcome State Fault Refusal :=
  .next (preemptFor s die (fun _ => true) (fun c l => l.prio < c.launch.prio))

/-- A SLICE in clk: units of 0.25 ms. -/
def sliceClk (n : Nat) : Nat := n * 500000

/-- SLICE_TIMER_EXPIRY (R316). -/
def execSliceTimerExpiry (ctx die : Nat) (s : State) : Host.Outcome State Fault Refusal :=
  match ctxAt s ctx with
  | none => .next s
  | some c =>
    match c.timers.find? (fun t => t.1 == die) with
    | none => .next s
    | some t =>
      if s.clock < t.2.1 + sliceClk t.2.2 then .next s
      else
        let s1 := putCtx s { c with timers := c.timers.map (fun x => if x.1 == die then (die, s.clock, x.2.2) else x) }
        .next (preemptFor s1 die (fun x => x.launch.ctx != ctx)
          (fun x l => l.ctx == ctx && l.prio == x.launch.prio))

/-! ### The watchdog (R338) -/

/-- Every split of the flock waits. -/
def allWait (fl : Flock) : Bool :=
  fl.handler.isNone && !fl.splits.isEmpty && fl.splits.all (fun sp => sp.wait != .none && !sp.halted)

/-- The split that began to wait earliest. -/
def earliest (fl : Flock) : Nat :=
  (List.range fl.splits.length).foldl (fun b i => match fl.splits[i]?, fl.splits[b]? with
    | some x, some y => if x.since < y.since then i else b
    | _, _ => b) 0

/-- A flock takes WATCHDOG: at once where all its splits wait, otherwise at its next bundle. -/
def takeWatchdog (s : State) (uid fi : Nat) : State :=
  match flockOf s uid fi with
  | none => s
  | some fl =>
    if finished fl then s
    else
      let s1 := onFlock s uid fi (fun fl => { fl with watchdog := true })
      if allWait fl && fl.stall.isNone then (asyncTrap s1 uid fi (earliest fl)).getD s1 else s1

/-- WATCHDOG. -/
def execWatchdog (fold : Nat) (s : State) : Host.Outcome State Fault Refusal :=
  match foldAt s fold with
  | none => .next s
  | some f =>
    if f.wdog = 0 || f.wd < f.wdog * 2 ^ 24 || f.place != .core || f.fail.isSome then .next s
    else
      let s1 := putFold s { f with wd := 0 }
      .next ((List.range f.flocks.length).foldl (fun u i => takeWatchdog u fold i) s1)

end Sys2Proof.Machine
end

