-- ==== Sys2Proof/Machine/Pred.lean ====
section
/-! DEFINITION. The predicate instructions (R138, R139). -/

namespace Sys2Proof.Machine

/-- PLTAB (R138). -/
def execPltab (o : Tab3Op) (s : State) : Host.Outcome State Fault Refusal :=
  runFlock s o.g false { pr := [o.a.toNat, o.b.toNat, o.c.toNat] } (fun e =>
    let p (r : Reg) : LaneMask := cget 0 e.fl.p r.toNat
    .ok (setP e.fl o.d.toNat e.act (lutWord o.lut (p o.a) (p o.b) (p o.c))))

/-- The predicates p0 to p23 of a lane as bits [23:0] (R138, R153). -/
def predImage (fl : Flock) (l : Nat) : Word :=
  (List.range 24).foldl (fun w k => if rdP fl k l then w ||| BitVec.twoPow 32 k else w) 0

/-- Set p0 to p23 of a lane from bits [23:0]. -/
def setPredImage (fl : Flock) (l : Nat) (w : Word) : Flock :=
  let m := BitVec.twoPow 64 l
  (List.range 24).foldl (fun u k => setP u k m (if w.getLsbD k then m else 0)) fl

/-- PMOV.TOV (R138). -/
def execPmovTov (o : DOp) (s : State) : Host.Outcome State Fault Refusal :=
  runFlock s o.g false { vw := [o.d.toNat], pr := List.range 24 } (fun e =>
    .ok (setLanes e.fl o.d.toNat e.act (predImage e.fl)))

/-- PMOV.FROMV (R138). -/
def execPmovFromv (o : VOp) (s : State) : Host.Outcome State Fault Refusal :=
  runFlock s o.g false (srcNames 1 [.v o.a o.rt]) (fun e =>
    .ok (lanes.foldl (fun u l => if inMask e.act l then setPredImage u l (srcV e 0 (.v o.a o.rt) l) else u) e.fl))

/-- POLL (R139). -/
def execPoll (o : PollOp) (s : State) : Host.Outcome State Fault Refusal :=
  runFlock s o.g false
    { sw := match o.mode with
            | .mask => [o.d.toNat, o.d.toNat + 1]
            | .count => [o.d.toNat]
            | _ => [qKey o.d.toNat],
      pr := [o.a.toNat] }
    (fun e =>
      let p := cget 0 e.fl.p o.a.toNat
      let b := e.act &&& (if o.neg then ~~~p else p)
      if e.act = 0 then .ok e.fl
      else .ok (match o.mode with
        | .every => setQ e e.fl o.d.toNat (b == e.act)
        | .some => setQ e e.fl o.d.toNat (b != 0)
        | .same => setQ e e.fl o.d.toNat (b == e.act || b == 0)
        | .mask => setS2 e e.fl o.d.toNat b
        | .count => setS e e.fl o.d.toNat (BitVec.ofNat 32 (laneCount b))))

/-- QLTAB (R138). -/
def execQltab (o : Tab3Op) (s : State) : Host.Outcome State Fault Refusal :=
  runFlock s o.g true
    { s := [qKey o.a.toNat, qKey o.b.toNat, qKey o.c.toNat], sw := [qKey o.d.toNat] } (fun e =>
    if e.act = 0 then .ok e.fl
    else .ok (setQ e e.fl o.d.toNat (lutBit o.lut (rdQ e o.a.toNat) (rdQ e o.b.toNat) (rdQ e o.c.toNat))))

/-- QSET (R138). -/
def execQset (o : D1Op) (s : State) : Host.Outcome State Fault Refusal :=
  runFlock s o.g true { srcNames 1 [o.a] with sw := [qKey o.d.toNat] } (fun e =>
    if e.act = 0 then .ok e.fl else .ok (setQ e e.fl o.d.toNat (srcS e 0 o.a != 0)))

end Sys2Proof.Machine
end

