-- ==== Sys2Proof/Machine/System.lean ====
section
/-! DEFINITION. System registers, the trap group and lane patching (R144 to R153). -/

namespace Sys2Proof.Machine

/-! ### System registers (R144 to R147) -/

/-- POWSTAT of a die (R376). -/
def powstat (s : State) (die : Nat) : Word :=
  let d := dieAt s die
  let narrow := ((s.cores.drop (die * Config.coresPerDie)).take Config.coresPerDie).any (fun c => c.narrow)
  BitVec.ofNat 32 (d.temp.toNat * 4096 + d.vrail.toNat * 16 + (if d.alarm then 2 else 0) + (if narrow then 1 else 0))

/-- The value of a system register as lane `l` of the issuing split sees it, zero-extended to 64 bits. -/
def sysValue (s : State) (e : Env) (n l : Nat) : DWord :=
  let w32 (x : Nat) : DWord := BitVec.ofNat 64 (x % 2 ^ 32)
  match n with
  | 0x00 => w32 l
  | 0x01 => 64
  | 0x02 => 2048
  | 0x03 => w32 e.fi
  | 0x04 => w32 e.fold.foldId
  | 0x05 => w32 (droveOf e.launch e.fold)
  | 0x06 => e.launch.pastid.setWidth 64
  | 0x07 => w32 e.fold.step
  | 0x08 => w32 e.fold.die
  | 0x09 => w32 e.fold.core
  | 0x0A => w32 e.launch.depth
  | 0x0B => e.mask
  | 0x10 => e.launch.srseed
  | 0x11 => (cget 0 e.fl.srcount l).setWidth 64
  | 0x12 => e.fl.batchNext.setWidth 64
  | 0x13 => e.fl.batchDone.setWidth 64
  | 0x14 => e.fl.fflags.setWidth 64
  | 0x15 => (powstat s e.fold.die).setWidth 64
  | 0x16 => BitVec.ofNat 64 s.clock
  | 0x20 => e.fl.trap.cause.setWidth 64
  | 0x21 => e.fl.trap.detail.setWidth 64
  | 0x22 => e.fl.trap.pc
  | 0x23 => e.fl.trap.split
  | _ => 0

/-- The register is two words wide. -/
def sysWide (n : Nat) : Bool := n == 0x0B || n == 0x10 || n == 0x16 || n == 0x22 || n == 0x23

/-- SRD (R145). A handler may read into s only (R329). FFLAGS includes every instruction issued before it (R76, R146). -/
def execSrd (o : SrdOp) (s : State) : Host.Outcome State Fault Refusal :=
  let regs := regsFrom o.d.toNat (if sysWide o.n.toNat then 2 else 1)
  runFlock s o.g (!o.vec) { vw := if o.vec then regs else [], sw := if o.vec then [] else regs } (fun e0 =>
    let e := if o.n.toNat = 0x14 then { e0 with fl := drainFlags e0.fl } else e0
    if e.act = 0 then .ok e0.fl
    else
      let v (l : Nat) : DWord := sysValue s e o.n.toNat l
      let b := v (lowestLane e.act)
      .ok (match o.vec, sysWide o.n.toNat with
        | false, false => setS e e.fl o.d.toNat (loWord b)
        | false, true => setS2 e e.fl o.d.toNat b
        | true, false => setLanes e.fl o.d.toNat e.act (fun l => loWord (v l))
        | true, true => setLanes2 e.fl o.d.toNat e.act v))

/-- SRCOUNT of the lanes of the mask takes a value. -/
def setSrcount (fl : Flock) (m : LaneMask) (f : Nat → Word) : Flock :=
  let c := lanes.foldl (fun c l => if inMask m l then cset 0 c l (f l) else c) fl.srcount
  { fl with srcount := c }

/-- SWR (R146): SRCOUNT and FFLAGS are written, the others keep their values (R5). No earlier instruction changes FFLAGS
afterwards. -/
def execSwr (o : SwrOp) (s : State) : Host.Outcome State Fault Refusal :=
  runFlock s o.g true (srcNames 1 [o.a]) (fun e =>
    if e.act = 0 then .ok e.fl
    else if o.n.toNat = 0x11 then
      .ok (setSrcount e.fl e.act (srcV e 0 o.a))
    else if o.n.toNat = 0x14 then .ok { drainFlags e.fl with fflags := srcS e 0 o.a &&& 31 }
    else .ok e.fl)

/-! ### The trap group (R148 to R151) -/

/-- TRAP (R148). -/
def execTrap (o : NOp) (s : State) : Host.Outcome State Fault Refusal :=
  runFlock s o.g false {} (fun e => if e.act = 0 then .ok e.fl else .trap (plainTrap 0x20 o.n.toNat))

/-- TRET (R149, R330). -/
def execTret (o : TretOp) (s : State) : Host.Outcome State Fault Refusal :=
  runControl s o.g true {} (fun e =>
    if e.hand then .ok (storeFlock s e (returnFromHandler e.fl o.next))
    else if e.act = 0 then .ok (storeFlock s e (putSplit e e.fl (outside e.sp (e.sp.pc + 16))))
    else .trap (plainTrap 0x12 0))

/-- TKILL (R150): outside a handler it acts only where Active is not empty. -/
def execTkill (o : NOp) (s : State) : Host.Outcome State Fault Refusal :=
  runControl s o.g true {} (fun e =>
    if !e.hand && e.act = 0 then .ok (storeFlock s e (putSplit e e.fl (outside e.sp (e.sp.pc + 16))))
    else .ok (failFold s e.fold.uid o.n.toNat))

/-- BRK (R151, R345). A second BRK before the safe point replaces the number of the first (log entry 45). -/
def execBrk (o : NOp) (s : State) : Host.Outcome State Fault Refusal :=
  run s o.g false {} (fun e =>
    if e.act = 0 || !e.ctx.attached then .ok s
    else
      let stopHere : Option (BitVec 20) :=
        match e.sp.stop with
        | some ord => if e.sp.first && isSafePoint s e.ctx e.launch (e.sp.pc - 16) ord then some ord else none
        | none => none
      match stopHere with
      | some ord =>
        .ok (haltReport
          (onFlock s e.fold.uid e.fi (fun fl =>
            { fl with halting := true, splits := fl.splits.set e.idx { e.sp with halted := true, stepping := false } }))
          e ord (e.sp.pc - 16) (3 + 256 * o.n.toNat + 65536))
      | none =>
        .ok (onFlock s e.fold.uid e.fi (fun fl =>
          { fl with splits := fl.splits.set e.idx { e.sp with brk := some o.n } })))

/-! ### Lane patching (R152, R153) -/

/-- The flock's own scalar register, inside a handler too. -/
def readOwn (e : Env) (k r : Nat) : Word :=
  pendPick e.free (k + 16 * posCode e.pos) true r (cget 0 e.fl.s r) e.fl.loads

def setOwn (fl : Flock) (r : Nat) (w : Word) : Flock :=
  { fl with s := cset 0 fl.s r w, loads := hitLoads true r fl.loads, marks := unmark (.s r) fl.marks }

/-- The lane operand, modulo FLOCKW. -/
def laneOf (e : Env) (k : Nat) (x : Src) : Nat := (srcS e k x).toNat % 64

/-- The lane that an instruction names, for the words it accesses. -/
def namedLane (s : State) (g : Guard) (k : Nat) (x : Src) : Nat :=
  match envOf s g with
  | some e => laneOf e k x
  | none => 0

/-- SGETL (R152). -/
def execSgetl (o : SgetlOp) (s : State) : Host.Outcome State Fault Refusal :=
  runFlock s o.g true
    { vx := match o.a with
            | .v r _ => [(namedLane s o.g 1 o.l, r.toNat, namedLane s o.g 1 o.l)]
            | _ => [],
      vn := match o.a with
            | .v r _ => [r.toNat]
            | _ => [],
      os := sOf 1 o.a, s := sOf 1 o.l, sw := [o.d.toNat] }
    (fun e =>
      if e.act = 0 then .ok e.fl
      else .ok (setS e e.fl o.d.toNat (match o.a with
        | .v r _ => readV e 0 r.toNat (laneOf e 1 o.l)
        | .s r => readOwn e 0 r.toNat
        | .imm w => w
        | .imm16 w => w.signExtend 32)))

/-- SPUTL (R152). -/
def execSputl (o : SputlOp) (s : State) : Host.Outcome State Fault Refusal :=
  runFlock s o.g true
    { wx := if o.own then [] else [(namedLane s o.g 1 o.l, o.d.toNat, namedLane s o.g 1 o.l)],
      vn := if o.own then [] else [o.d.toNat],
      s := o.a.toNat :: sOf 1 o.l, osw := if o.own then [o.d.toNat] else [] }
    (fun e =>
      if e.act = 0 then .ok e.fl
      else
        let w := readS e 0 o.a.toNat
        .ok (if o.own then setOwn e.fl o.d.toNat w else setV e.fl o.d.toNat (laneOf e 1 o.l) w))

/-- The index registers of a lane as one word (R153). -/
def indexImage (fl : Flock) (l : Nat) : Word :=
  BitVec.ofNat 32 (leNat ((List.range 4).map (fun r => cget 0 fl.x (r * 64 + l))))

def setIndexImage (fl : Flock) (l : Nat) (w : Word) : Flock :=
  let c := (List.range 4).foldl (fun c r => cset 0 c (r * 64 + l) (w.extractLsb' (8 * r) 8)) fl.x
  { fl with x := c, marks := fl.marks.filter (fun y => !((List.range 4).any (fun r => y == .x r l))) }

/-- The eight keys of the uniform predicates, where the image is theirs. -/
def qKeys (w : PImage) : List Nat :=
  match w with
  | .uniform => (List.range 8).map qKey
  | _ => []

/-- The flock's own uniform predicates as one image (R153), inside a handler too. -/
def ownQ (e : Env) : Word :=
  BitVec.ofNat 32 ((List.range 8).foldl (fun n i =>
    let b : Word := if e.fl.q.getLsbD i then 1 else 0
    if (pendPick e.free (8 + 16 * posCode e.pos) true (qKey i) b e.fl.loads).getLsbD 0 then n + 2 ^ i else n) 0)

/-- SGETP (R152). -/
def execSgetp (o : SgetpOp) (s : State) : Host.Outcome State Fault Refusal :=
  let l := match o.l with
    | some x => namedLane s o.g 0 x
    | none => 0
  runFlock s o.g true
    { s := (optSrc o.l).flatMap (sOf 1), os := qKeys o.which, sw := [o.d.toNat],
      pl := if o.which == .preds then (List.range 24).map (fun r => (r, l)) else [],
      xl := if o.which == .index then (List.range 4).map (fun r => (r, l)) else [] } (fun e =>
    if e.act = 0 then .ok e.fl
    else
      let l := (optS e 0 o.l).toNat % 64
      .ok (setS e e.fl o.d.toNat (match o.which with
        | .preds => predImage e.fl l
        | .index => indexImage e.fl l
        | .uniform => ownQ e)))

/-- SPUTP (R152): a full write clears the error marks of what it writes (R332). -/
def execSputp (o : SputpOp) (s : State) : Host.Outcome State Fault Refusal :=
  runFlock s o.g true { s := o.a.toNat :: (optSrc o.l).flatMap (sOf 1), osw := qKeys o.which } (fun e =>
    if e.act = 0 then .ok e.fl
    else
      let l := (optS e 1 o.l).toNat % 64
      let w := readS e 0 o.a.toNat
      .ok (match o.which with
        | .preds => setPredImage e.fl l w
        | .index => setIndexImage e.fl l w
        | .uniform => { e.fl with q := w.setWidth 8,
                                  loads := (List.range 8).foldl (fun ls i => hitLoads true (qKey i) ls) e.fl.loads,
                                  marks := e.fl.marks.filter (fun y => !((List.range 8).any (fun i => y == .s (qKey i)))) }))

end Sys2Proof.Machine
end

