-- ==== Sys2Proof/Machine/Outside.lean ====
section
/-! DEFINITION. Power, boot, connections, host RDMA, peers, links and soft errors (R290, R291, R304, R332, R355, R359,
R364, R368 to R372, R376 to R378, R380). -/

namespace Sys2Proof.Machine

/-! ### Power (R304, R376, R377) -/

/-- An EVENT on the management endpoint: kind, die, and 24 bytes. -/
def mgmtEvent (s : State) (kind die : Nat) (bs : List Byte) : State :=
  sendMsg s { ep := 0, type := 0x83, seq := 0, tag := 0, status := 0,
              payload := leBytes 4 kind ++ leBytes 4 die ++ (bs ++ List.replicate 24 0).take 24 }

/-- A condition for the alarm of a die holds, with a rail threshold in tenths of an ampere. -/
def hot (s : State) (d limit : Nat) : Bool :=
  limit < (dieAt s d).deciA || 105 ≤ (dieAt s d).temp.toNat || (s.boardAlarm[d]?).getD false || 1800000 < s.packPower

/-- The die's alarm has a condition that holds now: the lower threshold counts while it is raised. -/
def hotNow (s : State) (d : Nat) : Bool := hot s d (if (dieAt s d).alarm then 7000 else 7500)

/-- Note on each die that a condition holds. -/
def noteHot (s : State) : State :=
  [0, 1, 2, 3].foldl (fun u d => if hotNow u d then putDie u d { dieAt u d with lastHot := u.clock } else u) s

/-- POWER_ALARM_RAISE. -/
def execPowerAlarmRaise (die : Nat) (s : State) : Host.Outcome State Fault Refusal :=
  if 4 ≤ die || (dieAt s die).alarm || !hot s die 7500 then .next s
  else
    let s1 := putDie s die { dieAt s die with alarm := true, lastHot := s.clock }
    .next (mgmtEvent s1 2 die (leBytes 4 (powstat s1 die).toNat))

/-- POWER_ALARM_CLEAR: every condition has been false for 10 µs. -/
def execPowerAlarmClear (die : Nat) (s : State) : Host.Outcome State Fault Refusal :=
  let d := dieAt s die
  if 4 ≤ die || !d.alarm || hot s die 7000 || s.clock < d.lastHot + 20000 then .next s
  else
    let s1 := putDie s die { d with alarm := false, clearedAt := s.clock }
    .next (mgmtEvent s1 2 die (leBytes 4 (powstat s1 die).toNat))

/-- ENGINE_WIDEN: the matrix engine stands at a step boundary. -/
def execEngineWiden (core : Nat) (s : State) : Host.Outcome State Fault Refusal :=
  let d := dieAt s (dieOfCore core)
  let x := coreAt s core
  let inStep := x.cmds.any (fun c => c.started && (match c.instr with
    | .mma _ => c.step < mmaSteps c.regs
    | _ => false))
  .next (if x.narrow && !d.alarm && d.clearedAt + 200000 ≤ s.clock && !inStep then putCore s core { x with narrow := false }
         else s)

/-- THERMTRIP. -/
def execThermtrip (die : Nat) (s : State) : Host.Outcome State Fault Refusal :=
  .next (if die < 4 && 115 ≤ (dieAt s die).temp.toNat then putDie s die { dieAt s die with thermtrip := true } else s)

/-! ### Boot (R368) -/

/-- The boot ROM accepts an image. -/
def slotOk (s : State) (i : BootImage) : Bool :=
  sha3 i.key == s.fuseHash && s.fuseVersion ≤ i.version && sha3 i.body == i.digest
    && Config.mldsaVerify i.key i.digest i.sig

/-- A measurement register extended from zero. -/
def measure (d : List Byte) : List Byte := sha3 (List.replicate 32 0 ++ d)

/-- POWER_ON_BOOT: slot A, then slot B; otherwise recovery. -/
def execPowerOnBoot (s : State) : Host.Outcome State Fault Refusal :=
  if s.boot == .running then .next s
  else match (s.flash.filterMap id).find? (slotOk s) with
    | some i =>
      .next { s with boot := .running, version := i.version,
                     meas := measure i.digest :: [1, 2, 3].map (fun k => measure (Config.stageDigest i.body k)) }
    | none => .next { s with boot := .recovery }

/-- SIDEBAND_NEW_IMAGE: in recovery the sideband accepts an image into slot A. -/
def execSidebandNewImage (img : BootImage) (s : State) : Host.Outcome State Fault Refusal :=
  .next (if s.boot == .recovery then { s with flash := s.flash.set 0 (some img) } else s)

/-! ### Connections (R355, R359) -/

/-- CONNECTION_SETUP: the unresolved faults of the context are sent again. -/
def execConnectionSetup (ep : Nat) (s : State) : Host.Outcome State Fault Refusal :=
  if s.boot != .running then .next s
  else
    let s1 := putEndpoint s ep { endpointAt s ep with up := true }
    if ep = 0 then .next s1
    else match ctxAt s (ep - 1) with
      | none => .next s
      | some c => .next (c.faults.foldl (fun u r => faultEvent u c r) s1)

/-- CONNECTION_CLOSE. -/
def execConnectionClose (ep : Nat) (s : State) : Host.Outcome State Fault Refusal :=
  .next (if (endpointAt s ep).up then putEndpoint s ep { endpointAt s ep with up := false } else s)

/-- RDMA_INVALID_REQUEST. -/
def execRdmaInvalidRequest (ep : Nat) (s : State) : Host.Outcome State Fault Refusal :=
  .next (if s.boot == .running then { s with replies := s.replies ++ [.nakInvalid ep] } else s)

/-! ### Host RDMA (R290, R364) -/

/-- A window covers the range with the access. -/
def inWindow (c : Context) (va n : Nat) (rkey : BitVec 32) (bit : Nat) : Bool :=
  c.wins.any (fun w => w.rkey == rkey && w.base ≤ va && va + n ≤ w.base + w.len && w.access.getLsbD bit)

/-- The homes of the bytes of a range for an agent with a page table outside the cores, or why it cannot be accessed: the home
that answered HOME_OFFLINE, if that is the reason. -/
def rangeHomes (s : State) (id root : Nat) (acc : Access) (va n : Nat) : Except (Option Nat) (List (Nat × Leaf)) :=
  (List.range n).mapM (fun i =>
    match translate s none id root acc (va + i) with
    | .error r =>
      .error (if r = rOffline then
                (match leafAt s none id root (va + i) with
                 | .ok lf => homeOf s lf (lf.frame + (va + i) % lf.size)
                 | .error _ => walkStop s (va + i) 4 0 root)
              else none)
    | .ok (h, lf) =>
      if homeOffline s h then .error (some h)
      else if acc = .read && (s.lost.contains (h / 128) || s.badFill.contains (h / 128)) then .error none
      else .ok (h, lf))

/-- A HOME_OFFLINE reply to host RDMA or a peer is counted with ITEM 0xFFFF_FFFF (R367). -/
def noteOff (s : State) (h : Option Nat) : State :=
  match h with
  | some h => countOffline s h 0xFFFFFFFF
  | none => s

/-- Write bytes at their homes. -/
def writeHomes (s : State) (xs : List ((Nat × Leaf) × Byte)) : State :=
  xs.foldl (fun u x => homeWriteByte u x.1.1 x.2 x.1.2.comp) s

/-- The bytes that a request of the host or of a peer reads at homes (R24). -/
def readHomes (s : State) (hs : List (Nat × Leaf)) : List Byte := hs.map (fun x => paramByte s 258 x.1 (homeByte s x.1))

/-- The request of an endpoint: its context, if the connection is up. -/
def rdmaCtx (s : State) (ep : Nat) : Option Context :=
  if ep = 0 || !(endpointAt s ep).up then none else ctxAt s (ep - 1)

def answer (s : State) (r : OutReply) : State := { s with replies := s.replies ++ [r] }

/-- The request touches the aperture. -/
def apertureHit (c : Context) (va n : Nat) : Bool := (List.range n).any (fun i => (apertureOff c (va + i)).isSome)

/-- RDMA_WRITE. -/
def execRdmaWrite (ep va : Nat) (rkey : BitVec 32) (bytes : List Byte) (s : State) : Host.Outcome State Fault Refusal :=
  if s.boot != .running then .next s
  else if !(endpointAt s ep).up then .next (answer s (.nakInvalid ep))
  else match rdmaCtx s ep with
    | none => .next (answer s (.nakAccess ep))
    | some c =>
      if !inWindow c va bytes.length rkey 1 || apertureHit c va bytes.length then .next (answer s (.nakAccess ep))
      else match rangeHomes s c.id c.ptroot.toNat .write va bytes.length with
        | .error h => .next (answer (noteOff s h) (.nakAccess ep))
        | .ok hs => .next (answer (writeHomes s (hs.zip bytes)) (.ack ep))

/-- RDMA_READ. -/
def execRdmaRead (ep va len : Nat) (rkey : BitVec 32) (s : State) : Host.Outcome State Fault Refusal :=
  if s.boot != .running then .next s
  else if !(endpointAt s ep).up then .next (answer s (.nakInvalid ep))
  else match rdmaCtx s ep with
    | none => .next (answer s (.nakAccess ep))
    | some c =>
      if !inWindow c va len rkey 0 || apertureHit c va len then .next (answer s (.nakAccess ep))
      else match rangeHomes s c.id c.ptroot.toNat .read va len with
        | .error h => .next (answer (noteOff s h) (.nakAccess ep))
        | .ok hs => .next (answer s (.data ep (readHomes s hs)))

/-! ### Peers (R291, R371, R372) -/

/-- The number under which translations of the peer context are cached. -/
def peerCtxId : Nat := 256

/-- PEER_ACCESS. -/
def execPeerAccess (req : PeerReq) (s : State) : Host.Outcome State Fault Refusal :=
  match s.peer with
  | none => .next (answer s .peerError)
  | some p =>
    let root := p.ptroot.toNat
    match req with
    | .read va len =>
      (match rangeHomes s peerCtxId root .read va len with
       | .error h => .next (answer (noteOff s h) .peerError)
       | .ok hs => .next (answer s (.peerData (readHomes s hs))))
    | .write va bytes =>
      (match rangeHomes s peerCtxId root .write va bytes.length with
       | .error h => .next (answer (noteOff s h) .peerError)
       | .ok hs => .next (answer (writeHomes s (hs.zip bytes)) (.peerData [])))
    | .atomic fn wide va slot c new =>
      if atomFloat fn && !Config.peerAccepts s.free then .next (answer s .peerBadFrame)
      else
        let n := atomBits fn wide (fdrOf slot) / 8
        match rangeHomes s peerCtxId root .rmw va n, rangeHomes s peerCtxId root .read va n with
        | .ok hs, .ok _ =>
          let old := readHomes s hs
          let r := atomNew fn (8 * n) (fdrOf slot) (leNat old) (c.toNat % 2 ^ (8 * n)) (new.toNat % 2 ^ (8 * n))
          .next (answer (writeHomes s (hs.zip (leBytes n r.1))) (.peerData old))
        | .error h, _ => .next (answer (noteOff s h) .peerError)
        | _, .error h => .next (answer (noteOff s h) .peerError)

/-- UALINK_LINK_DROP: requests take the ports that are still up. -/
def execUalinkLinkDrop (port : Nat) (s : State) : Host.Outcome State Fault Refusal :=
  .next (if 64 ≤ port || s.portDown.contains port then s else { s with portDown := s.portDown ++ [port] })

/-! ### Soft errors (R332, R378) -/

/-- Count a soft error of a class and report it. -/
def countError (s : State) (die cls : Nat) (bad : Bool) : State :=
  let d := dieAt s die
  let key := 2 * cls + (if bad then 1 else 0)
  mgmtEvent (putDie s die { d with soft := cset 0 d.soft key (cget 0 d.soft key + 1) }) 4 die
    (leBytes 4 cls ++ leBytes 4 (if bad then 2 else 1))

/-- Mark a register of a flock. -/
def markReg (s : State) (r : FlockRef) (m : RegMark) : State :=
  match foldAt s r.fold with
  | none => s
  | some f =>
    if f.place != .core || (flockAt f r.flock).isNone then s
    else countError (onFlock s r.fold r.flock (fun fl =>
      { fl with marks := if fl.marks.contains m then fl.marks else fl.marks ++ [m] })) f.die 1 true

/-- The die that counts an error in a line: the one whose L1 or L2 it is in, or the home of a Mantle or HBM line. -/
def lineDie (cls die line : Nat) : Nat := if cls = 4 || cls = 5 then die else dieOfHome (128 * line)

/-- The L1s of a die lose their copies of a line that meet `p`. -/
def dropL1s (s : State) (die line : Nat) (p : L1Line → Bool) : State :=
  (List.range Config.coresPerDie).foldl (fun u i =>
    if (l1Find u (die * Config.coresPerDie + i) line).any p then l1Del u (die * Config.coresPerDie + i) line else u) s

/-- A line with an uncorrectable error: a dirty one is lost; a clean copy in the die's L1s or L2 is dropped; an error in the
Mantle's or HBM's own copy stands. -/
def markLine (s : State) (cls die line : Nat) (dirty : Bool) : State :=
  let s1 := countError s (lineDie cls die line) cls true
  if dirty then
    let t := { s1 with lost := if s1.lost.contains line then s1.lost else s1.lost ++ [line] }
    if cls = 4 then dropL1s t die line (fun x => x.dirty != 0) else t
  else if cls = 4 then dropL1s s1 die line (fun x => x.dirty == 0)
  else if cls = 5 then
    if (tagOf (l2At s1 die) line).any (fun t => !t.dirty) then putL2 s1 die (dropTag (l2At s1 die) line) else s1
  else { s1 with badFill := if s1.badFill.contains line then s1.badFill else s1.badFill ++ [line] }

/-- SOFT_ERROR: a corrected error is counted and changes nothing else. -/
def execSoftError (site : ErrSite) (s : State) : Host.Outcome State Fault Refusal :=
  .next (match site with
    | .corrected die cls => if die < 4 && 1 ≤ cls && cls ≤ 7 then countError s die cls false else s
    | .vreg r reg lane => if reg < 256 && lane < 64 then markReg s r (.v reg lane) else s
    | .sreg r reg => if reg < 128 then markReg s r (.s reg) else s
    | .pred r reg lane => if reg < 24 && lane < 64 then markReg s r (.p reg lane) else s
    | .index r reg lane => if reg < 4 && lane < 64 then markReg s r (.x reg lane) else s
    | .uniform r reg => if reg < 8 then markReg s r (.s (qKey reg)) else s
    | .shadow r reg => if reg < 128 then markReg s r (.sh reg) else s
    | .shadowQ r reg => if reg < 8 then markReg s r (.sh (qKey reg)) else s
    | .localStore u w =>
      (match foldAt s u with
       | none => s
       | some f =>
         if f.place != .core then s
         else countError (putFold s { f with lsMarks := if f.lsMarks.contains w then f.lsMarks else f.lsMarks ++ [w] })
           f.die 2 true)
    | .tile u w =>
      (match foldAt s u with
       | none => s
       | some f =>
         if f.place != .core then s
         else countError (putFold s { f with tileMarks := if f.tileMarks.contains w then f.tileMarks
                                                          else f.tileMarks ++ [w] }) f.die 3 true)
    | .line cls die l dirty =>
      if 4 ≤ cls && cls ≤ 7 && die < 4 && 128 * l < peerKey then markLine s cls die l dirty else s
    | .fleece u =>
      (match foldAt s u with
       | none => s
       | some f =>
         if f.place == .core then s
         else countError (putFold s { f with fleeceMark := true }) f.die
           (if f.place == .fleece true then 7 else 6) true))

end Sys2Proof.Machine
end

