-- ==== Sys2Proof/Machine/Flags.lean ====
section
/-! DEFINITION. What the machine says of itself without a program's asking: the issue codes of splits (R322) and the
counters that run with the clock (R46, R320, R338, R353, R377). The flags of arithmetic stand in Machine/Ops.lean
(`orFlags`) and Machine/Format.lean. -/

namespace Sys2Proof.Machine

/-- One of a list of codes. -/
def pickCode (s : State) (key : Nat) (l : List Nat) : Nat := (l[Config.idleCode s.free key % l.length]?).getD 0

/-- A split of the quadrant's active set has issued in this clk. -/
def quadIssued (s : State) (k q : Nat) : Bool :=
  match (coreAt s k).quads[q]? with
  | none => false
  | some x => x.active.any (fun y => match flockOf s y.1 y.2 with
      | some fl => fl.splits.any (fun sp => sp.issued == s.clock + 1)
      | none => false)

/-- Operand collection of the split's next bundle awaits routing, as far as the bundle shows (R103). -/
def routesNext (s : State) (f : Fold) (i j : Nat) : Bool :=
  match envOf { s with cur := { fold := f.uid, flock := i, split := j, pos := .full, last := true, levels := [] } } .always with
  | none => false
  | some e =>
    match fetchBundle s e e.sp.pc with
    | .ok (w, _) => decide (0 < routeClk w)
    | _ => false

/-- The code of a split that could issue, at `clock`: whether its next bundle has been fetched, its operands have arrived or
another pair had the slot is not visible here (log entry 52). -/
def idleCodeOf (s : State) (clock : Nat) (f : Fold) (i : Nat) (fl : Flock) (j : Nat) : Nat :=
  let codes := [3, 8] ++ (if routesNext s f i j then [9] else [])
    ++ (if !inActiveSet s f i fl || clock < fl.fromClk then [10] else if quadIssued s f.core fl.quad then [11] else [])
  pickCode s ((f.uid * 16 + i) * 4 + j) codes

/-- The code of R322 for live split `j` of a flock in the clk `clock`, in which it does not issue: the first reason that
holds. -/
def splitCode (s : State) (clock : Nat) (f : Fold) (i : Nat) (fl : Flock) (j : Nat) (sp : Split) : Nat :=
  if fl.handler.isSome || sp.halted then 1
  else if f.preempt || fl.stopped then 2
  else if fl.stall.isSome then 3
  else if sp.wait != .interlock && waitOver s f.uid fl sp then idleCodeOf s clock f i fl j
  else match sp.wait with
    | .release => 3
    | .flag _ _ => 4
    | .full _ => 4
    | .batch _ _ => 5
    | .cpyb => 5
    | .barrier _ _ _ => 6
    | .mwait _ _ _ _ => 6
    | .lwait _ => 6
    | .engineq _ => 7
    | .interlock => 8
    | .none => idleCodeOf s clock f i fl j

/-- The codes of a split over the next `n` clk beside the ISSUED of its bundle, and how often: first the clk before its flock
may issue (R46), then the others. -/
def splitClks (s : State) (n : Nat) (f : Fold) (i : Nat) (fl : Flock) (j : Nat) (sp : Split) : List (Nat × Nat) :=
  let done := if sp.issued = s.clock + 1 then 1 else 0
  let early := min n (max done (fl.fromClk - s.clock))
  ([(splitCode s s.clock f i fl j sp, early - done), (splitCode s (s.clock + early) f i fl j sp, n - early)]).filter
    (fun x => x.2 != 0)

/-- The codes of every live split of a core's folds: context, code and clk. -/
def coreCodes (s : State) (n k : Nat) : List (Nat × Nat × Nat) :=
  (s.folds.filter (fun f => f.place == .core && f.core == k)).flatMap (fun f =>
    match launchAt s f.launch with
    | none => []
    | some l =>
      (List.range f.flocks.length).flatMap (fun i => match f.flocks[i]? with
        | none => []
        | some fl => ((List.range fl.splits.length).zip fl.splits).flatMap (fun x =>
          (splitClks s n f i fl x.1 x.2).map (fun y => (l.ctx, y)))))

/-- Add to a counter of R353. -/
def addCode (m : Cells Nat) (ctx code n : Nat) : Cells Nat := cset 0 m (ctx * 16 + code) (cget 0 m (ctx * 16 + code) + n)

/-- The counters of R353 of a core after `n` clk; a bundle's ISSUED was counted when it issued. -/
def countCore (s : State) (n k : Nat) (c : Core) : Core :=
  let busy (copy : Bool) : Nat := if c.cmds.any (fun x => x.started && isCopy x == copy) then n else 0
  { c with
    stallClk := (coreCodes s n k).foldl (fun x y => addCode x y.1 y.2.1 y.2.2) c.stallClk,
    meBusy := c.meBusy + busy false,
    ceBusy := c.ceBusy + busy true,
    narrowClk := c.narrowClk + (if c.narrow then n else 0) }

/-- Each live split of a resident fold keeps the code of the last of `n` clk. -/
def noteCodes (s : State) (n : Nat) (f : Fold) : Fold :=
  if f.place != .core then f
  else { f with flocks := ((List.range f.flocks.length).zip f.flocks).map (fun x =>
    { x.2 with splits := ((List.range x.2.splits.length).zip x.2.splits).map (fun y =>
      { y.2 with code := (((splitClks s n f x.1 x.2 y.1 y.2).getLast?).map (fun c => c.1)).getD 0 }) }) }

/-- A fold counts clk towards its watchdog while it is resident and none of its flocks is halted (R338). -/
def countFold (n : Nat) (f : Fold) : Fold :=
  if f.place == .core && !f.flocks.any haltedFlock then { f with wd := f.wd + n } else f

/-- A pending flock that is not ready has been ready for no time (R46). -/
def ageQuad (s : State) (q : Quadrant) : Quadrant :=
  { q with pending := q.pending.map (fun x => match flockOf s x.1 x.2.1 with
      | some fl => if flockReady s x.1 fl then x else (x.1, x.2.1, s.clock)
      | none => x) }

end Sys2Proof.Machine
end

