-- ==== Sys2Proof/Machine/Clock.lean ====
section
/-! DEFINITION. The passing of time: CLOCK and the counts that run with it. -/

namespace Sys2Proof.Machine

/-- The counts of a clk on every core. -/
def countCores (s : State) (n : Nat) : State :=
  { s with cores := (List.range s.cores.length).zipWith (fun k c => countCore s n k c) s.cores }

/-- Pending flocks age. -/
def ageQuads (s : State) : State :=
  { s with cores := s.cores.map (fun c => { c with quads := c.quads.map (ageQuad s) }) }

/-- `n` clk pass. -/
def tick (n : Nat) (s : State) : State :=
  let s1 := countCores s n
  let s2 := { s1 with clock := s1.clock + n, folds := s1.folds.map (fun f => countFold n (noteCodes s n f)) }
  [0, 1, 2, 3].foldl noteStarve (noteHot (ageQuads s2))

end Sys2Proof.Machine
end

