-- ==== Sys2Proof/Machine/Control.lean ====
section
/-! DEFINITION. The control instructions (R125 to R137). -/

namespace Sys2Proof.Machine

/-- The address of the next bundle (R127). -/
def nextPc (e : Env) : DWord := e.sp.pc + 16

/-- A direct target (R125). -/
def targetOf (e : Env) (disp : BitVec 32) : DWord := e.sp.pc + disp.signExtend 64

/-- Clear bits [3:0] of an address (R126). -/
def clear4 (a : DWord) : DWord := a &&& ~~~15

/-- The whole issuing split, or the handler, leaves its clause for an address. -/
def goTo (s : State) (e : Env) (fl : Flock) (pc : DWord) : State := storeFlock s e (putSplit e fl (outside e.sp pc))

/-- Put the flock back after a push, unless the push has failed the fold (R40). -/
def afterPush (s : State) (e : Env) (fl : Flock) : State :=
  if (foldAt s e.fold.uid).any (fun f => f.fail.isSome) then s else onFlock s e.fold.uid e.fi (fun _ => fl)

/-- Divide the issuing split between a target and the next bundle (R39, R40). -/
def divide (s : State) (e : Env) (fl : Flock) (taken : LaneMask) (target : DWord) : Res State :=
  let rest := e.mask &&& ~~~taken
  if rest = 0 then .ok (goTo s e fl target)
  else if taken = 0 then .ok (goTo s e fl (nextPc e))
  else
    let keep := { outside e.sp target with mask := taken }
    if fl.splits.length < 4 then
      .ok (storeFlock s e { fl with splits := fl.splits.set e.idx keep ++ [childSplit e.sp (nextPc e) rest] })
    else if 256 ≤ fl.stack.length then .trap (plainTrap 0x1B 0)
    else
      (pushPaths s e { fl with splits := fl.splits.set e.idx keep } [{ pc := nextPc e, mask := rest, path := e.sp.path, pass := false }]).bind
        (fun r => .ok (afterPush r.1 e r.2))

/-- NOP (R137). -/
def execNop (o : GOp) (s : State) : Host.Outcome State Fault Refusal :=
  run s o.g true {} (fun _ => .ok s)

/-- BRA (R129). -/
def execBra (o : BraOp) (s : State) : Host.Outcome State Fault Refusal :=
  runControl s o.g true { s := (o.cond.map (fun c => [qKey c.1.toNat])).getD [] } (fun e =>
    let cond := e.act != 0 && (match o.cond with
                               | none => true
                               | some (q, neg) => rdQ e q.toNat != neg)
    .ok (goTo s e e.fl (if cond then targetOf e o.disp else nextPc e)))

/-- BRX (R130). -/
def execBrx (o : BrxOp) (s : State) : Host.Outcome State Fault Refusal :=
  runControl s o.g false { pr := [o.p.toNat] } (fun e =>
    let p := cget 0 e.fl.p o.p.toNat
    divide s e e.fl (e.act &&& (if o.neg then ~~~p else p)) (targetOf e o.disp))

/-- BRI (R129). -/
def execBri (o : AOp) (s : State) : Host.Outcome State Fault Refusal :=
  runControl s o.g true { s := [o.a.toNat, o.a.toNat + 1] } (fun e =>
    .ok (goTo s e e.fl (if e.act != 0 then clear4 (readS2 e 0 o.a.toNat) else nextPc e)))

/-- CALL (R131). -/
def execCall (o : DDispOp) (s : State) : Host.Outcome State Fault Refusal :=
  runControl s o.g false { vw := [o.d.toNat, o.d.toNat + 1] } (fun e =>
    divide s e (setLanes2 e.fl o.d.toNat e.act (fun _ => nextPc e)) e.act (targetOf e o.disp))

/-- The distinct addresses of a list, ascending. -/
def ascAddrs (l : List Nat) : List Nat := sortBy (fun a b => a ≤ b) l.dedup

/-- RET (R132). -/
def execRet (o : AOp) (s : State) : Host.Outcome State Fault Refusal :=
  runControl s o.g false { vr := [(o.a.toNat, 0), (o.a.toNat + 1, 0)] } (fun e =>
    let t (l : Nat) : Nat :=
      if inMask e.act l then (clear4 (pair (readV e 0 o.a.toNat l) (readV e 0 (o.a.toNat + 1) l))).toNat
      else (nextPc e).toNat
    let keep := if e.act = 0 then (nextPc e).toNat else t (lowestLane e.act)
    let grp (a : Nat) : LaneMask := maskOf (fun l => inMask e.mask l && t l == a)
    let rest := (ascAddrs ((lanes.filter (inMask e.mask)).map t)).filter (· != keep)
    let room := 4 - e.fl.splits.length
    if 256 < e.fl.stack.length + (rest.length - room) then .trap (plainTrap 0x1B 0)
    else
      let sp := { outside e.sp (BitVec.ofNat 64 keep) with mask := grp keep }
      let live := (rest.take room).map (fun a => childSplit e.sp (BitVec.ofNat 64 a) (grp a))
      let push := ((rest.drop room).reverse).map (fun a =>
        ({ pc := BitVec.ofNat 64 a, mask := grp a, path := e.sp.path, pass := false } : PathEntry))
      (pushPaths s e { e.fl with splits := e.fl.splits.set e.idx sp ++ live } push).bind (fun r =>
        .ok (tidyFlock (afterPush r.1 e r.2) e.fold.uid e.fi)))

/-- LOOP (R133). -/
def execLoop (o : DDispOp) (s : State) : Host.Outcome State Fault Refusal :=
  runControl s o.g true { s := [o.d.toNat], sw := [o.d.toNat] } (fun e =>
    if e.act = 0 then .ok (goTo s e e.fl (nextPc e))
    else
      let n := readS e 0 o.d.toNat - 1
      .ok (goTo s e (setS e e.fl o.d.toNat n) (if n = 0 then nextPc e else targetOf e o.disp)))

/-- Words still to land in lanes that have exited are discarded (R134). -/
def dropPending (fl : Flock) (m : LaneMask) : Flock :=
  { fl with loads := fl.loads.map (fun p =>
      if p.scalar then p else { p with words := p.words.filter (fun w => !inMask m w.lane) }) }

/-- EXIT (R134). -/
def execExit (o : GOp) (s : State) : Host.Outcome State Fault Refusal :=
  runControl s o.g false {} (fun e =>
    let sp := { outside e.sp (nextPc e) with mask := e.mask &&& ~~~e.act }
    let s1 := storeFlock s e (dropPending (putSplit e e.fl sp) e.act)
    .ok (tidyFlock (settleFlock s1 e.fold.uid e.fi) e.fold.uid e.fi))

/-- YIELD (R135): a change of the active set at most. -/
def execYield (o : YieldOp) (s : State) : Host.Outcome State Fault Refusal :=
  run s o.g false {} (fun e =>
    .ok (if o.swap && e.act != 0 then swapOut s e.fold.core e.fl.quad e.fold.uid e.fi else s))

/-- WAITF (R136). -/
def execWaitf (o : WaitfOp) (s : State) : Host.Outcome State Fault Refusal :=
  runFlock s o.g true {} (fun e =>
    if e.act = 0 || flagsAtMost e.fl o.mask o.n.toNat then .ok e.fl else .stall (.flag o.mask o.n.toNat))

end Sys2Proof.Machine
end

