-- ==== Sys2Proof/Machine/CrossLane.lean ====
section
/-! DEFINITION. REDL, SCANL and MATCH (R176 to R178). -/

namespace Sys2Proof.Machine

/-- Lanes of a segment code; 0 is the whole flock (R99). -/
def segLanes (k : BitVec 3) : Nat := if k = 0 then 64 else 2 ^ k.toNat

/-- The operation works in a format slot. -/
def redFloat : RedOp → Bool
  | .fadd | .fmin | .fmax => true
  | _ => false

/-- Op on two words: the result and its flags. Format-slot results are zero-extended. -/
def redOp (f : Fdr) (op : RedOp) (a b : Word) : Word × BitVec 5 :=
  let fmtRes (r : Nat × BitVec 5) : Word × BitVec 5 := (BitVec.ofNat 32 r.1, r.2)
  let dec (x : Word) : Num := decodeNum f x.toNat
  match op with
  | .iadd => (a + b, 0)
  | .iminS => (minW false a b, 0)
  | .iminU => (minW true a b, 0)
  | .imaxS => (maxW false a b, 0)
  | .imaxU => (maxW true a b, 0)
  | .and => (a &&& b, 0)
  | .or => (a ||| b, 0)
  | .xor => (a ^^^ b, 0)
  | .fadd =>
    let rm := if f.rm = 5 then 0 else f.rm
    let x := addNum (rm == 3) (dec a) (dec b)
    let r := roundTo f rm 0 x.1
    fmtRes (r.1, x.2 ||| r.2)
  | .fmin => fmtRes (chosen f (minNum false (dec a) (dec b)))
  | .fmax => fmtRes (chosen f (minNum true (dec a) (dec b)))

/-- One level of the tree: neighbours combine, and a lone child passes unchanged. -/
def redLevel (f : Fdr) (op : RedOp) : List (Option Word) → List (Option Word) × BitVec 5
  | some a :: some b :: r =>
    let x := redOp f op a b
    let y := redLevel f op r
    (some x.1 :: y.1, x.2 ||| y.2)
  | some a :: none :: r =>
    let y := redLevel f op r
    (some a :: y.1, y.2)
  | none :: b :: r =>
    let y := redLevel f op r
    (b :: y.1, y.2)
  | l => (l, 0)

/-- The tree of R176: `n` levels. -/
def redTree (f : Fdr) (op : RedOp) : Nat → List (Option Word) → Option Word × BitVec 5
  | 0, l => (l.headD none, 0)
  | n + 1, l =>
    let x := redLevel f op l
    let y := redTree f op n x.1
    (y.1, x.2 ||| y.2)

/-- REDL (R176). -/
def execRedl (o : RedlOp) (s : State) : Host.Outcome State Fault Refusal :=
  runFlock s o.g false { srcNames 1 [o.a] with vw := [o.d.toNat] } (fun e =>
    let f := slotFdr e o.fs
    let n := segLanes o.seg
    let leaf (l : Nat) : Option Word :=
      if inMask e.act l then
        (if redFloat o.op then some (lowBits f.w (srcV e 0 o.a l)) else some (srcV e 0 o.a l))
      else none
    let res := (List.range (64 / n)).map (fun k =>
      redTree f o.op (Nat.log2 n) ((List.range n).map (fun i => leaf (k * n + i))))
    let fl := setLanes e.fl o.d.toNat e.act (fun l => match res[l / n]? with
                                                      | some (some w, _) => w
                                                      | _ => 0)
    .ok (orFlags fl (res.foldl (fun a x => a ||| x.2) 0)))

/-- The identity of an operation (R177). -/
def redIdentity (f : Fdr) : RedOp → Word
  | .iadd | .or | .xor | .imaxU => 0
  | .and | .iminU => 0xFFFFFFFF
  | .iminS => 0x7FFFFFFF
  | .imaxS => 0x80000000
  | .fadd => BitVec.ofNat 32 (roundTo f 0 0 (.fin true 0 1)).1
  | .fmin =>
    BitVec.ofNat 32 (if f.isInt then intCode f (intMax f) else if f.ic = 1 then codeInf f false else codeMax f false)
  | .fmax =>
    BitVec.ofNat 32
      (if f.isInt then intCode f (intMin f)
       else if f.s = 0 then 0
       else if f.ic = 1 then codeInf f true
       else codeMax f true)

/-- The fold of a segment's lanes, ascending: what each lane of Active receives, and the flags. -/
def scanRun (f : Fdr) (op : RedOp) (excl : Bool) (val : Nat → Word) :
    List Nat → Option Word → List (Nat × Word) × BitVec 5
  | [], _ => ([], 0)
  | l :: r, acc =>
    let (new, fl) : Word × BitVec 5 := match acc with
      | none => (val l, 0)
      | some x => redOp f op x (val l)
    let given := if excl then acc.getD (redIdentity f op) else new
    let y := scanRun f op excl val r (some new)
    -- the sum with the last lane of an exclusive fold is given to no lane
    let fl' := if excl && r.isEmpty then 0 else fl
    ((l, given) :: y.1, fl' ||| y.2)

/-- SCANL (R177). -/
def execScanl (o : ScanlOp) (s : State) : Host.Outcome State Fault Refusal :=
  runFlock s o.g false { srcNames 1 [o.a] with vw := [o.d.toNat] } (fun e =>
    let f := slotFdr e o.fs
    let n := segLanes o.seg
    let val (l : Nat) : Word := if redFloat o.op then lowBits f.w (srcV e 0 o.a l) else srcV e 0 o.a l
    let res := (List.range (64 / n)).map (fun k =>
      scanRun f o.op o.excl val (((List.range n).map (fun i => k * n + i)).filter (inMask e.act)) none)
    let fl := (res.flatMap (fun x => x.1)).foldl (fun u x => setV u o.d.toNat x.1 x.2) e.fl
    .ok (orFlags fl (res.foldl (fun a x => a ||| x.2) 0)))

/-- MATCH (R178). -/
def execMatchv (o : MatchOp) (s : State) : Host.Outcome State Fault Refusal :=
  let src : Src := .v o.a o.rt
  runFlock s o.g false { srcNames (if o.pair then 2 else 1) [src] with vw := [o.d.toNat, o.d.toNat + 1] } (fun e =>
    let val (l : Nat) : DWord := if o.pair then srcV2 e 0 src l else (srcV e 0 src l).setWidth 64
    let m (l : Nat) : LaneMask := maskOf (fun j => inMask e.act j && val j == val l)
    let fl := setLanes2 e.fl o.d.toNat e.act m
    .ok (match o.pe with
      | none => fl
      | some p => setP fl p.toNat e.act (maskOf (fun l => m l == e.act))))

end Sys2Proof.Machine
end

