-- ==== Sys2Proof/Machine/Zutix.lean ====
section
/-! DEFINITION. Zutix commands of the host other than DEBUG: LAUNCH, COPY, MAP, CONTEXT, QUERY, JOURNAL (R243, R271,
R331, R355 to R369, R372, R378, R379). -/

namespace Sys2Proof.Machine

/-! ### Acceptance of a message (R356 to R358) -/

/-- The context of a context endpoint. -/
def msgCtx (s : State) (m : Msg) : Option Context := if m.ep = 0 then none else ctxAt s (m.ep - 1)

/-- A command with a payload of `n` bytes that starts as it is accepted. -/
def atOnce (s : State) (m : Msg) (type n : Nat) (bad : Bool) (reject : Nat) (act : Nat → State → State) : State :=
  withCommand s m type n bad reject 0 (fun i t => act i (startRecord t m.ep i))

/-- The same, completed with OK and nothing more. -/
def doAtOnce (s : State) (m : Msg) (type n : Nat) (bad : Bool) (reject : Nat) (act : State → State) : State :=
  atOnce s m type n bad reject (fun i t => complete (act t) m.ep i 3 stOk [])

/-! ### LAUNCH (R23 to R26, R310) -/

/-- What acceptance of a launch record answers. -/
def hostLaunch (s : State) (m : Msg) (c : Context) (addr : Nat) : Except Nat Launch :=
  let e := endpointAt s m.ep
  checkLaunch s c addr (fun r h =>
    launchOf r h c.id e.nextIndex (m.queue.toNat % 64) (recordPrio r) 0 none false)

/-- LAUNCH_MESSAGE. -/
def execLaunchMessage (m : Msg) (addr : DWord) (s : State) : Host.Outcome State Fault Refusal :=
  let bad := m.ep = 0
  let taken := s.boot == .running && (endpointAt s m.ep).up && !headBad m 1 8 && !bad && (seqCheck s m).isNone
  match msgCtx s m with
  | none => .next (withCommand s m 1 8 bad stDenied 0 (fun _ t => t))
  | some c =>
    let s1 := if taken then noteAccept s c addr.toNat 0xFFFFFFFF else s
    match hostLaunch s m c addr.toNat with
    | .error st => .next (withCommand s1 m 1 8 bad st 0 (fun _ t => t))
    | .ok l =>
      .next (withCommand s1 m 1 8 bad 0 (newPastid s c).toNat (fun i t =>
        match ctxAt t c.id with
        | none => t
        | some x =>
          let (l1, t1) := addLaunch t x { l with index := i }
          match ctxAt t1 c.id with
          | none => t1
          | some y =>
            putCtx t1 { y with queue := y.queue ++ [{ queue := m.queue.toNat % 64, index := i, launch := some l1.uid,
                                                      copy := none, prio := l1.prio, placed := none, started := false, done := false }] }))

/-! ### COPY (R228, R229, R362) -/

/-- The payload is malformed: HOST, a reserved bit, or a form that R228 does not have. -/
def copyBad (a : CopyArgs) : Bool :=
  let o := copyOpOf a
  2 < a.host.toNat || a.rsv != 0 || a.zero != 0 || bitsIn a.sub.toNat 4 4 != 0 || bitsIn a.aux.toNat 6 2 != 0
    || (o.mode != 0 && (o.cvt || o.tr || o.ef || o.sel != 0)) || (o.ef && !o.cvt) || o.sel == 3 || a.recs.length != 192

/-- COPY_MESSAGE: the copy joins its launch queue. -/
def execCopyMessage (m : Msg) (a : CopyArgs) (s : State) : Host.Outcome State Fault Refusal :=
  .next (withCommand s m 2 224 (m.ep = 0 || copyBad a) 0 0 (fun i t =>
    match msgCtx t m with
    | none => t
    | some c =>
      putCtx t { c with queue := c.queue ++ [{ queue := m.queue.toNat % 64, index := i, launch := none, copy := some a,
                                               prio := bitsIn m.queue.toNat 8 3, placed := none, started := false,
                                               done := false }] }))

/-! ### MAP (R271, R331, R363) -/

/-- A range of bytes meets a page. -/
def meetsPage (base len page size : Nat) : Bool := page < base + len && base < page + size

/-- No TLB of a core or of a die holds a translation that meets `p`, and no walk of the context goes on. -/
def dropTlbs (s : State) (ctx : Nat) (p : TlbEntry → Bool) : State :=
  { s with cores := s.cores.map (fun c => { c with tlb := c.tlb.filter (fun t => !p t) }),
           dies := s.dies.map (fun d => { d with tlb := d.tlb.filter (fun t => !p t),
                                                 walks := d.walks.filter (fun w => w.ctx != ctx) }) }

/-- No TLB holds a translation of the context in the range (R271). -/
def invalidateRange (s : State) (ctx base len : Nat) : State :=
  dropTlbs s ctx (fun t => t.ctx == ctx && meetsPage base len t.page t.leaf.size)

/-- The walk for a reported fault now succeeds. -/
def faultGone (s : State) (c : Context) (r : FaultRec) : Bool :=
  match translate s none c.id c.ptroot.toNat r.acc r.page with
  | .ok _ => true
  | .error _ => false

/-- A MAP head that is not of the operation. -/
def mapBad (m : Msg) (h : MapHead) (op : Nat) : Bool := m.ep = 0 || h.op.toNat != op || h.rsv != 0

/-- MAP_INVALIDATE. -/
def execMapInvalidate (m : Msg) (h : MapHead) (r : MapRange) (s : State) : Host.Outcome State Fault Refusal :=
  .next (doAtOnce s m 3 24 (mapBad m h 1) 0 (fun t =>
    match msgCtx t m with
    | none => t
    | some c =>
      let t1 := noteParams (invalidateRange t c.id r.base.toNat r.len.toNat) c
      ((c.faults.filter (fun x => meetsPage r.base.toNat r.len.toNat x.page 0x10000 && faultGone t1 c x)).map
        (fun x => x.id)).foldl (fun u f => faultResolved u c.id f) t1))

/-- MAP_UNRESOLVABLE: the fault id stands in the first four bytes, and the others are 0 (log entry 55). -/
def execMapUnresolvable (m : Msg) (a : MapArgs) (s : State) : Host.Outcome State Fault Refusal :=
  let fid := a.lo.toNat
  let known := match msgCtx s m with
    | some c => c.faults.any (fun r => r.id == fid)
    | none => false
  .next (doAtOnce s m 3 24 (mapBad m a.toMapHead 2 || 2 ^ 32 ≤ fid || a.hi != 0) (if known then 0 else stGone)
    (fun t => faultDead t (m.ep - 1) fid))

/-! ### CONTEXT (R361, R372) -/

def by64k (d : DWord) : Bool := d.toNat % 0x10000 == 0

/-- Fields of SCHED that must be 0. -/
def schedBad (w : BitVec 32) (modify : Bool) : Bool :=
  bitsIn w.toNat 4 4 != 0 || bitsIn w.toNat 25 7 != 0 || (!modify && w.getLsbD 24)

def winsBad (ws : List Window) : Bool :=
  16 < ws.length || ws.any (fun w => w.base % 0x10000 != 0 || w.len % 0x10000 != 0)

/-- The number of the peer context in CTX: bit 31 alone. -/
def peerCtxCode : Nat := 2 ^ 31

def ctxCodeBad (n : Nat) : Bool := 256 ≤ n && n != peerCtxCode

/-- Bytes of a CONTEXT payload (R361). -/
def ctxLen (a : CtxArgs) : Nat := 0x48 + 24 * a.wins.length

/-- A CONTEXT payload that is not of the operation, or whose NWIN is not the number of its windows. -/
def ctxBad (m : Msg) (a : CtxArgs) (op : Nat) : Bool :=
  m.ep != 0 || a.op.toNat != op || ctxCodeBad a.ctx || a.nwin.toNat != a.wins.length || winsBad a.wins

/-- DIEMASK lies outside its limits (R309). -/
def dieMaskBad (w : BitVec 32) : Bool := bitsIn w.toNat 0 4 == 0

/-- A create payload lies outside the limits. -/
def createBad (s : State) (a : CtxArgs) : Bool :=
  schedBad a.sched false || dieMaskBad a.sched || !by64k a.ptroot || !by64k a.lsap || !by64k a.spill
    || !by64k a.saveBase || !by64k a.saveSize || a.trapbase.toNat % 16 != 0
    || 128 < (s.ctxs.map (fun c => c.stage)).sum + a.stage.toNat

/-- A context as OP 1 makes it. -/
def newContext (a : CtxArgs) : Context where
  id := a.ctx
  ptroot := a.ptroot
  lsap := a.lsap
  trapbase := a.trapbase
  dieMask := a.sched.extractLsb' 0 4
  slice := bitsIn a.sched.toNat 8 8 + 1
  wdog := bitsIn a.sched.toNat 16 8
  stage := a.stage.toNat
  spill := a.spill
  saveBase := a.saveBase
  saveSize := a.saveSize
  faultto := a.faultto.toNat
  wins := a.wins
  queue := []
  faults := []
  nextFault := 1
  attached := false
  breaks := []
  pendChk := false
  sampling := { k := 0, buf := 0, size := 0, stop := false, wp := 0, drops := 0 }
  timers := []
  nextPast := 1
  preempts := []

/-- A context joins the package. Its staging areas take their part of each Mantle, whose cache gives it up (R260). -/
def addContext (s : State) (a : CtxArgs) : State :=
  [0, 1, 2, 3].foldl mantleTrim (putEndpoint { s with ctxs := s.ctxs ++ [newContext a] } (a.ctx + 1) Endpoint.empty)

/-- CONTEXT_CREATE. -/
def execContextCreate (m : Msg) (a : CtxArgs) (s : State) : Host.Outcome State Fault Refusal :=
  let there := if a.ctx = peerCtxCode then s.peer.isSome else (ctxAt s a.ctx).isSome
  .next (doAtOnce s m 4 (ctxLen a) (ctxBad m a 1 || createBad s a) (if there then stDenied else 0) (fun t =>
    if a.ctx = peerCtxCode then { t with peer := some { ptroot := a.ptroot } }
    else addContext t a))

/-- A command of the context has not completed. -/
def ctxBusy (s : State) (ctx : Nat) : Bool := (endpointAt s (ctx + 1)).journal.any (fun r => r.state < 3)

/-- CONTEXT_DESTROY: the context, its endpoint and its translations leave. -/
def execContextDestroy (m : Msg) (a : CtxArgs) (s : State) : Host.Outcome State Fault Refusal :=
  let ctx := a.ctx
  let deny := if ctx = peerCtxCode then s.peer.isNone else (ctxAt s ctx).isNone || ctxBusy s ctx
  .next (doAtOnce s m 4 (ctxLen a) (ctxBad m a 2 || schedBad a.sched false) (if deny then stDenied else 0) (fun t =>
    if ctx = peerCtxCode then { t with peer := none }
    else dropTlbs { t with ctxs := t.ctxs.filter (fun c => c.id != ctx), eps := t.eps.filter (fun e => e.1 != ctx + 1) }
      ctx (fun x => x.ctx == ctx)))

/-- The fields that OP 3 replaces; FAULTTO at the COMPLETE, which with PREEMPT comes later. -/
def modified (c : Context) (a : CtxArgs) (done : Bool) : Context :=
  { c with dieMask := a.sched.extractLsb' 0 4, slice := bitsIn a.sched.toNat 8 8 + 1,
           wdog := bitsIn a.sched.toNat 16 8, faultto := if done then a.faultto.toNat else c.faultto, wins := a.wins }

/-- OP 3 on what there is: the peer context has none of the fields that it replaces. -/
def modifyCtx (s : State) (a : CtxArgs) (done : Bool) : State :=
  match ctxAt s a.ctx with
  | none => s
  | some c => putCtx s (modified c a done)

def modifyBad (m : Msg) (a : CtxArgs) : Bool := ctxBad m a 3 || schedBad a.sched true || dieMaskBad a.sched

def modifyDeny (s : State) (a : CtxArgs) : Bool :=
  if a.ctx = peerCtxCode then s.peer.isNone else (ctxAt s a.ctx).isNone

/-- CONTEXT_MODIFY, without PREEMPT. -/
def execContextModify (m : Msg) (a : CtxArgs) (s : State) : Host.Outcome State Fault Refusal :=
  .next (doAtOnce s m 4 (ctxLen a) (modifyBad m a || a.sched.getLsbD 24) (if modifyDeny s a then stDenied else 0)
    (fun t => modifyCtx t a true))

/-- The resident folds of a context that run on: those that a pre-emption of the context names (R361). -/
def preemptable (s : State) (ctx : Nat) : List Nat :=
  (s.folds.filter (fun f => f.place == .core && f.fail.isNone && (launchAt s f.launch).any (fun l => l.ctx == ctx))).map
    (fun f => f.uid)

/-- Select each drove of a list of folds for pre-emption. A fold left resident is counted with code 0x303. -/
def selectAll (index : Nat) : List Nat → State → State
  | [], s => s
  | u :: r, s =>
    match foldAt s u with
    | none => selectAll index r s
    | some f =>
      if f.preempt then selectAll index r s
      else match markUnit s f with
        | some t => selectAll index r t
        | none => selectAll index r (addFailure s 0 index f.foldId 0x303 0)

/-- CONTEXT_PREEMPT: OP 3 with PREEMPT; it completes once each resident fold has been saved or left. -/
def execContextPreempt (m : Msg) (a : CtxArgs) (s : State) : Host.Outcome State Fault Refusal :=
  .next (atOnce s m 4 (ctxLen a) (modifyBad m a || !a.sched.getLsbD 24) (if modifyDeny s a then stDenied else 0) (fun i t =>
    let t1 := modifyCtx t a false
    let us := preemptable t1 a.ctx
    let t2 := selectAll i us t1
    let wait := us.filter (fun u => (foldAt t2 u).any (fun f => f.preempt))
    match wait, ctxAt t2 a.ctx with
    | _ :: _, some c => putCtx t2 { c with preempts := c.preempts ++ [(i, wait, a.faultto.toNat)] }
    | _, _ => complete (modifyCtx t2 a true) m.ep i 3 stOk []))

/-! ### QUERY and JOURNAL (R358, R359, R365, R366, R378, R379) -/

/-- The end of a command answered by DATA: its record at STATE 3, or 4 with the rejection. -/
def closeData (s : State) (ep index status : Nat) : State :=
  updRecord s ep index (fun r =>
    { r with state := if status = 0 then 3 else 4, status := status, times := (r.times.1, r.times.2.1, s.clock) })

/-- A command that receives one DATA: `act` answers its status and its bytes. -/
def withData (s : State) (m : Msg) (type n : Nat) (bad : Bool) (act : State → Nat × List Byte × State) : State :=
  let e := endpointAt s m.ep
  if s.boot != .running then s
  else if !e.up then { s with replies := s.replies ++ [.nakInvalid m.ep] }
  else if headBad m type n || bad then sendData s m stBadMsg []
  else if m.seq = e.h + 1 then
    if 4096 ≤ outstanding e then sendData s m stBusy []
    else
      let (i, s1) := newRecord s m.ep m.seq m.tag type 1 0 0
      let e1 := endpointAt s1 m.ep
      let s2 := startRecord (putEndpoint s1 m.ep
        { e1 with h := m.seq,
                  accepted := keepAccepted e1 m.seq
                    ++ [{ seq := m.seq, index := i, tag := m.tag, done := none, status := 0 }] }) m.ep i
      let (st, bs, s3) := act s2
      sendData (closeData s3 m.ep i st) m st (if st = 0 then bs else [])
  else if 1 ≤ m.seq && m.seq ≤ e.h && e.h ≤ m.seq + 8191 && e.accepted.any (fun a => a.seq == m.seq) then
    sendData s m stAlready []
  else sendData s m stGap []

/-- SEL names the selector of a row, with its bits that must be 0 and those that only some selectors take (R379). -/
def selBits (q : QueryArgs) (clear write : Bool) : Bool :=
  bitsIn q.sel.toNat 8 22 != 0 || (q.sel.getLsbD 30 && !write) || (q.sel.getLsbD 31 && !clear)

/-- SEL is that of a row. -/
def selIs (q : QueryArgs) (n : Nat) : Bool := bitsIn q.sel.toNat 0 8 == n

/-- A QUERY of selector `sel`: one that a context endpoint does not accept is denied there, and so is a SEL of no selector;
on the management endpoint the latter is BADMSG. -/
def withQuery (s : State) (m : Msg) (q : QueryArgs) (sel n : Nat) (clear write : Bool) (bad : Bool)
    (act : State → Nat × List Byte × State) : State :=
  withData s m 5 n (selBits q clear write || (if selIs q sel then bad else m.ep = 0)) (fun t =>
    if !selIs q sel || (m.ep != 0 && sel != 2 && sel != 3 && sel != 7) then (stDenied, [], t) else act t)

/-- The counters are to be cleared. -/
def clears (q : QueryArgs) : Bool := q.sel.getLsbD 31

/-- UNIT of selectors 1 and 5: one die, or all of them. -/
def unitDies (q : QueryArgs) : List Nat := if q.unit.toNat = 2 ^ 32 - 1 then [0, 1, 2, 3] else [q.unit.toNat]

def diesBad (q : QueryArgs) : Bool := 4 ≤ q.unit.toNat && q.unit.toNat != 2 ^ 32 - 1

/-- The context of selectors 2 and 3. -/
def queryCtx (m : Msg) (q : QueryArgs) : Nat := if m.ep = 0 then q.ctx.toNat else m.ep - 1

def queryCtxBad (m : Msg) (q : QueryArgs) : Bool := if m.ep = 0 then 256 ≤ q.ctx.toNat else q.ctx != 0

/-- The 64-bit little-endian values of a reply. -/
def values (ns : List Nat) : List Byte := ns.flatMap (fun n => leBytes 8 n)

/-- QUERY_L2_COUNTERS: a clear takes the cumulative counts to 0. -/
def execQueryL2Counters (m : Msg) (q : QueryArgs) (s : State) : Host.Outcome State Fault Refusal :=
  .next (withQuery s m q 1 16 true false (diesBad q || q.ctx != 0 || q.count != 0) (fun t =>
    (0, (unitDies q).flatMap (fun d => values (l2Counters (l2At t d))),
     if clears q then (unitDies q).foldl (fun u d => putL2 u d { l2At u d with satref := 0, unshr := 0 }) t else t)))

/-- The seventeen values of R379 for a core and a context. -/
def coreCounters (c : Core) (ctx : Nat) : List Nat :=
  (List.range 12).map (fun k => cget 0 c.stallClk (ctx * 16 + k))
    ++ [c.meBusy, c.ceBusy, c.narrowClk, c.tfuPins, c.tfuCopies]

def clearCounters (c : Core) (ctx : Nat) : Core :=
  { c with stallClk := (List.range 12).foldl (fun x k => cset 0 x (ctx * 16 + k) 0) c.stallClk, meBusy := 0, ceBusy := 0,
           narrowClk := 0, tfuPins := 0, tfuCopies := 0 }

/-- QUERY_CORE_COUNTERS. -/
def execQueryCoreCounters (m : Msg) (q : QueryArgs) (s : State) : Host.Outcome State Fault Refusal :=
  let k := q.unit.toNat
  let x := queryCtx m q
  .next (withQuery s m q 2 16 true false (160 ≤ k || queryCtxBad m q || q.count != 0) (fun t =>
    if (ctxAt t x).isNone then (stDenied, [], t)
    else
      (0, values (coreCounters (coreAt t k) x),
       if clears q then putCore t k (clearCounters (coreAt t k) x) else t)))

/-- QUERY_TRACE. -/
def execQueryTrace (m : Msg) (q : QueryArgs) (s : State) : Host.Outcome State Fault Refusal :=
  .next (withQuery s m q 3 16 true false (q.unit != 0 || queryCtxBad m q || q.count != 0) (fun t =>
    match ctxAt t (queryCtx m q) with
    | none => (stDenied, [], t)
    | some c =>
      (0, values [c.sampling.wp % max 1 c.sampling.size, c.sampling.drops],
       if clears q then putCtx t { c with sampling := { c.sampling with drops := 0 } } else t)))

/-- QUERY_POWER. -/
def execQueryPower (m : Msg) (q : QueryArgs) (s : State) : Host.Outcome State Fault Refusal :=
  .next (withQuery s m q 4 16 false false (q.unit != 0 || q.ctx != 0 || q.count != 0) (fun t =>
      (0, [0, 1, 2, 3].flatMap (fun d => leBytes 4 (dieAt t d).mV ++ leBytes 4 (dieAt t d).deciA
            ++ leBytes 8 (dieAt t d).mJ)
          ++ [0, 1, 2, 3].map (fun d => (dieAt t d).temp) ++ leBytes 4 t.otherPower, t)))

/-- QUERY_SOFT_ERRORS. -/
def execQuerySoftErrors (m : Msg) (q : QueryArgs) (s : State) : Host.Outcome State Fault Refusal :=
  .next (withQuery s m q 5 16 true false (diesBad q || q.ctx != 0 || q.count != 0) (fun t =>
      (0, (unitDies q).flatMap (fun d =>
            values ((List.range 14).map (fun i => cget 0 (dieAt t d).soft (i + 2)))),
       if clears q then (unitDies q).foldl (fun u d => putDie u d { dieAt u d with soft := [] }) t else t)))

/-- The attestation report (R369). -/
def attestation (s : State) (nonce : List Byte) : List Byte :=
  let body := leBytes 4 Config.reportVersion ++ leBytes 4 s.version ++ s.serial ++ nonce ++ s.meas.flatMap id ++ s.idKey
  body ++ Config.mldsaSign (sha3 body)

/-- QUERY_ATTESTATION. -/
def execQueryAttestation (m : Msg) (q : QueryArgs) (nonce : List Byte) (s : State) : Host.Outcome State Fault Refusal :=
  .next (withQuery s m q 6 (16 + nonce.length) false false (q.unit != 0 || q.ctx != 0 || q.count != 0 || nonce.length != 32)
    (fun t => (0, attestation t nonce, t)))

/-- The endpoint of a ring: 0 to 255 for a context, 256 for the management ring. -/
def ringEp (r : Nat) : Nat := if r = 256 then 0 else r + 1

/-- A ring exists. -/
def ringThere (s : State) (r : Nat) : Bool := r == 256 || (ctxAt s r).isSome

/-- QUERY_JOURNAL_HEAD. -/
def execQueryJournalHead (m : Msg) (q : QueryArgs) (s : State) : Host.Outcome State Fault Refusal :=
  let r := q.unit.toNat
  .next (withQuery s m q 7 16 false false (256 < r || q.ctx != 0 || q.count != 0) (fun t =>
    if !ringThere t r || (m.ep ≠ 0 && r + 1 ≠ m.ep) then (stDenied, [], t)
    else (0, values [(endpointAt t (ringEp r)).nextIndex], t)))

/-- Fields of selector 8 outside their range. -/
def routingBad (q : QueryArgs) : Bool :=
  q.ctx != 0 || q.count == 0 || 64 < q.count.toNat || 1024 < q.unit.toNat + q.count.toNat

/-- QUERY_ROUTING_READ. -/
def execQueryRoutingRead (m : Msg) (q : QueryArgs) (s : State) : Host.Outcome State Fault Refusal :=
  .next (withQuery s m q 8 16 false true (routingBad q || q.sel.getLsbD 30) (fun t =>
    (0, (cgetList 0 t.routing q.unit.toNat q.count.toNat).flatMap (fun d => leBytes 8 d.toNat), t)))

/-- QUERY_ROUTING_WRITE. -/
def execQueryRoutingWrite (m : Msg) (q : QueryArgs) (masks : List DWord) (s : State) :
    Host.Outcome State Fault Refusal :=
  .next (withQuery s m q 8 (16 + 8 * masks.length) false true
    (routingBad q || !q.sel.getLsbD 30 || masks.length != q.count.toNat) (fun t =>
    (0, [], { t with routing := csetList 0 t.routing q.unit.toNat masks })))

/-- A journal record in its 256 bytes. -/
def journalBytes (r : JournalRec) : List Byte :=
  leBytes 8 r.index ++ leBytes 8 r.seq ++ leBytes 8 r.tag.toNat ++ leBytes 2 r.type ++ leBytes 1 r.state
    ++ leBytes 1 r.status ++ leBytes 4 r.pastid.toNat ++ leBytes 8 r.times.1 ++ leBytes 8 r.times.2.1
    ++ leBytes 8 r.times.2.2 ++ leBytes 4 r.items ++ leBytes 4 r.fails
    ++ ((r.first.take 16).flatMap (fun f => leBytes 4 f.1 ++ leBytes 2 f.2.1 ++ leBytes 1 f.2.2 ++ leBytes 1 0)
          ++ List.replicate 128 (0 : Byte)).take 128
    ++ List.replicate 64 (0 : Byte)

/-- JOURNAL: records from `first` on, or GONE where the first has been overwritten. -/
def execJournal (m : Msg) (first : Nat) (count ring : BitVec 32) (s : State) : Host.Outcome State Fault Refusal :=
  let r := if m.ep = 0 then ring.toNat else m.ep - 1
  let bad := count == 0 || 15 < count.toNat || (if m.ep = 0 then 256 < ring.toNat else ring != 0)
  .next (withData s m 6 16 bad (fun t =>
    if !ringThere t r then (stDenied, [], t)
    else
      let e := endpointAt t (ringEp r)
      let at' (js : List JournalRec) (i : Nat) : Option JournalRec := js.find? (fun x => x.index == i)
      if first < e.nextIndex && (at' e.journal first).isNone then (stGone, [], t)
      else
        (0, ((List.range count.toNat).filterMap (fun i => at' (ringOf t (ringEp r)) (first + i))).flatMap journalBytes, t)))

end Sys2Proof.Machine
end

