-- ==== Sys2Proof/Machine/DieControl.lean ====
section
/-! DEFINITION. Die control: the DIECTL commands and the ends of their stages (R11, R259, R262, R319, R370, R373 to
R375). -/

namespace Sys2Proof.Machine

/-! ### Acceptance (R373, R375) -/

/-- Dies that would stay admitted are diagonal with no admitted intermediate (R11). -/
def stranded (adm : Nat → Bool) : Bool :=
  (adm 0 && adm 3 && !adm 1 && !adm 2) || (adm 1 && adm 2 && !adm 0 && !adm 3)

/-- OP 1 or OP 3 on a die is denied. -/
def withdrawDeny (s : State) (d : Nat) : Bool :=
  let rest (x : Nat) : Bool := admitted s x && x != d
  s.dieCtl.isSome || !admitted s d || !(rest 0 || rest 1 || rest 2 || rest 3) || stranded rest

/-- A DIECTL payload that is not of the operation (R373). -/
def dieBad (m : Msg) (h : DieHead) (op : Nat) : Bool := m.ep != 0 || h.op.toNat != op || 4 ≤ h.die.toNat

/-- A die-control command begins at a stage; the record of an earlier one on the die is final. -/
def beginDie (s : State) (m : Msg) (op d stage i : Nat) : State :=
  { putDie s d { dieAt s d with record := some i } with
    dieCtl := some { op := op, die := d, stage := stage, index := i, seq := m.seq, tag := m.tag } }

/-- DIE_WITHDRAW: OP 1. -/
def execDieWithdraw (m : Msg) (a : DieArgs) (s : State) : Host.Outcome State Fault Refusal :=
  .next (atOnce s m 7 12 (dieBad m a.toDieHead 1) (if withdrawDeny s a.die.toNat then stDenied else 0)
    (fun i t => beginDie t m 1 a.die.toNat 1 i))

/-- DIE_READMIT: OP 2. -/
def execDieReadmit (m : Msg) (a : DieArgs) (s : State) : Host.Outcome State Fault Refusal :=
  let deny := s.dieCtl.isSome || (dieAt s a.die.toNat).state != .refresh
  .next (atOnce s m 7 12 (dieBad m a.toDieHead 2) (if deny then stDenied else 0) (fun i t => beginDie t m 2 a.die.toNat 5 i))

/-- DIE_RESET: OP 3. -/
def execDieReset (m : Msg) (a : DieArgs) (s : State) : Host.Outcome State Fault Refusal :=
  .next (atOnce s m 7 12 (dieBad m a.toDieHead 3) (if withdrawDeny s a.die.toNat then stDenied else 0)
    (fun i t => beginDie t m 3 a.die.toNat 1 i))

/-- First home byte of a die's NEAR range. -/
def nearBase (d : Nat) : Nat := Config.hbmBytes + d * Config.nearBytes

/-- A context holds a translation to the die's NEAR range. -/
def nearHeld (s : State) (d : Nat) : Bool :=
  let near (t : TlbEntry) : Bool :=
    t.leaf.mt == 1 && t.leaf.frame < nearBase (d + 1) && nearBase d < t.leaf.frame + t.leaf.size
  s.cores.any (fun c => c.tlb.any near) || s.dies.any (fun x => x.tlb.any near)

/-- Home bytes of a range read zero, and no L1 and no L2 holds their lines. -/
def zeroRange (s : State) (lo hi : Nat) : State :=
  let within (l : Nat) : Bool := lo ≤ 128 * l && 128 * l < hi
  let s1 := { s with mem := s.mem.filter (fun c => !(lo ≤ c.1 && c.1 < hi)),
                     lost := s.lost.filter (fun l => !within l),
                     badFill := s.badFill.filter (fun l => !within l),
                     cores := s.cores.map (fun c => { c with l1 := c.l1.filter (fun x => !within x.line) }) }
  [0, 1, 2, 3].foldl (fun u d =>
    putL2 u d ((((l2At u d).tags.filter (fun t => within t.line)).map (fun t => t.line)).foldl dropTag (l2At u d))) s1

/-- CARVE(d) changes: bytes that come into the carve-out read zero. -/
def setCarve (s : State) (d carve : Nat) : State :=
  let old := (dieAt s d).carve
  let lo := nearBase d + min old carve * 0x4000000
  putDie (zeroRange s lo (nearBase (d + 1))) d { dieAt (zeroRange s lo (nearBase (d + 1))) d with carve := carve }

/-- DIE_CARVE: OP 4. -/
def execDieCarve (m : Msg) (h : DieHead) (carve : BitVec 32) (s : State) : Host.Outcome State Fault Refusal :=
  let die := h.die.toNat
  let deny := s.dieCtl.isSome || nearHeld s die
  .next (doAtOnce s m 7 12 (dieBad m h 4 || 8 < carve.toNat) (if deny then stDenied else 0) (fun t =>
    let t1 := putDie t die { dieAt t die with record := none }
    mantleTrim (setCarve t1 die carve.toNat) die))

/-! ### Stages (R373) -/

/-- The byte is homed on a die. -/
def homedOn (d h : Nat) : Bool := h < peerKey && dieOfHome h == d

/-- A store that was granted before stage 3 has still to be performed at a home of the die (R374). -/
def grantedTo (s : State) (d : Nat) : Bool :=
  s.folds.any (fun f => f.flocks.any (fun fl => fl.stores.any (fun p => p.waitFault.isNone
    && p.bytes.any (fun b => homedOn d b.addr))))

/-- A stage may end. -/
def stageReady (s : State) (c : DieCtl) : Bool :=
  if c.stage = 1 then
    s.launches.all (fun l => (l.running.getD []).all (fun x => x.die != c.die)) && s.folds.all (fun f => f.die != c.die)
  else if c.stage = 2 then (dieCores c.die).all (fun k => (coreAt s k).cmds.isEmpty)
  else if c.stage = 3 then !grantedTo s c.die
  else true

/-- Stage 3: every line homed on the die leaves every L1 and every L2, and every line leaves the die's own L2; its Mantle's
cache goes to HBM. The home refuses what an L1 of another die has still to write. -/
def flushDie (s : State) (d : Nat) : State :=
  let s1 := (List.range s.cores.length).foldl (fun u k =>
    (((coreAt u k).l1.filter (fun x => homedOn d (128 * x.line))).map (fun x => x.line)).foldl (fun v l => l1Evict v k l) u) s
  let s2 := [0, 1, 2, 3].foldl (fun u k =>
    (((l2At u k).tags.filter (fun t => k == d || homedOn d (128 * t.line))).map (fun t => t.line)).foldl
      (fun v l => evictTag v k l) u) s1
  putDie s2 d { dieAt s2 d with mantle := [] }

/-- Stage 5: the compute die and its Mantle are reset; CARVE(d), the sensors and the error counts stay. -/
def resetDie (s : State) (d : Nat) : State :=
  let x := dieAt s d
  let s1 := putDie s d
    { x with l2 := L2.empty, tlb := [], walks := [], mantle := [], staging := [], starve := none, starved := [], nextPlace := 0 }
  (dieCores d).foldl (fun u k => putCore u k Core.reset) s1

/-- After a die has been re-admitted every ring that lost a copy has both again (R365). -/
def copyRings (s : State) : State :=
  let both (ep : Nat) (e : Endpoint) : Endpoint :=
    { e with copies := if e.journal = [] then e.copies else (ringDies ep).filter (fun d => !dieOffline s d) }
  { s with mgmt := both 0 s.mgmt, eps := s.eps.map (fun p => (p.1, both p.1 p.2)) }

/-- What a stage does by its end. -/
def stageEffect (s : State) (c : DieCtl) : State :=
  match c.stage with
  | 2 => (dieCores c.die).foldl l1Drop s
  | 3 => flushDie s c.die
  | 5 => resetDie s c.die
  | 7 => zeroRange s (nearBase c.die) (nearBase (c.die + 1))
  | _ => s

def stageState (n : Nat) : DieState :=
  match n with
  | 1 => .withdrawing
  | 2 => .quiesced
  | 3 => .flushed
  | 4 => .refresh
  | 5 => .reset
  | 6 => .retrain
  | _ => .admitted

/-- The last stage of an operation. -/
def lastStage (op : Nat) : Nat := if op = 1 then 4 else 7

/-- The DIE event: the state reached, by its stage number. -/
def dieEvent (s : State) (c : DieCtl) : State := mgmtEvent s 3 c.die (leBytes 4 c.stage)

/-- DIECTL_STAGE_END. -/
def execDiectlStageEnd (s : State) : Host.Outcome State Fault Refusal :=
  match s.dieCtl with
  | none => .next s
  | some c =>
    if !stageReady s c then .next s
    else if c.stage = 6 && !Config.linksUp s.free c.die then
      let s1 := { putDie s c.die { dieAt s c.die with record := none } with dieCtl := none, free := s.free + 1 }
      .next (complete s1 0 c.index 4 stLinkFail [])
    else
      let s1 := stageEffect s c
      let d := dieAt s1 c.die
      let s2 := putDie s1 c.die { d with state := stageState c.stage, record := if c.stage = 7 then none else d.record }
      let s3 := dieEvent (addItems { s2 with free := s2.free + (if c.stage = 6 then 1 else 0) } 0 c.index 1) c
      .next (if c.stage = lastStage c.op then
               let s4 := { s3 with dieCtl := none }
               complete (if c.stage = 7 then copyRings s4 else s4) 0 c.index 3 stOk []
             else { s3 with dieCtl := some { c with stage := c.stage + 1 } })

end Sys2Proof.Machine
end

