-- ==== Sys2Proof/Machine/Debug.lean ====
section
/-! DEFINITION. DEBUG commands and sampling (R341 to R352). -/

namespace Sys2Proof.Machine

/-! ### The operation block (R342) -/

/-- FLAGS has the bits that the operation's form asks for: its own bit 0, and no others than those of `may`. -/
def flagsBad (a : DbgArgs) (second : Bool) (may : Nat) : Bool :=
  a.flags.getLsbD 0 != second || (a.flags.toNat - (if second then 1 else 0)) &&& (2 ^ 32 - 1 - may) != 0

/-- A debugger is attached to the context of the endpoint. -/
def attachedTo (s : State) (m : Msg) : Bool := (msgCtx s m).any (fun c => c.attached)

/-- The fold of the flock operand. -/
def dbgFold (s : State) (m : Msg) (a : DbgArgs) : Option Fold :=
  match msgCtx s m with
  | none => none
  | some c =>
    match s.launches.find? (fun l => l.ctx == c.id && l.pastid == a.pastid) with
    | none => none
    | some l => s.folds.find? (fun f => f.launch == l.uid && f.foldId == a.foldid.toNat)

/-- The flock of the flock operand: its fold and its place. -/
def dbgFlock (s : State) (m : Msg) (a : DbgArgs) : Option (Fold × Nat × Flock) :=
  match dbgFold s m a with
  | none => none
  | some f => (flockAt f a.flockid.toNat).map (fun fl => (f, a.flockid.toNat, fl))

/-- The named flock, if it is halted and a debugger is attached. -/
def dbgHalted (s : State) (m : Msg) (a : DbgArgs) : Option (Fold × Nat × Flock) :=
  if attachedTo s m then (dbgFlock s m a).filter (fun x => haltedFlock x.2.2) else none

/-- A block that is not of the operation, or with a nonzero word that must be 0 (R342). -/
def blockBad (m : Msg) (a : DbgArgs) (op : Nat) : Bool := m.ep = 0 || a.op.toNat != op || a.zero24 != 0 || a.zero38 != 0

/-- A DEBUG command of an operation that takes effect at once, or is denied. -/
def debugOp (s : State) (m : Msg) (a : DbgArgs) (op : Nat) (bad deny : Bool) (act : State → State) : State :=
  doAtOnce s m 8 64 (blockBad m a op || bad) (if deny then stDenied else 0) act

/-! ### Attachment, halts and breakpoints (R341, R343) -/

/-- ATTACH. -/
def execAttach (m : Msg) (a : DbgArgs) (s : State) : Host.Outcome State Fault Refusal :=
  .next (debugOp s m a 1 (flagsBad a false 0) false (fun t => match msgCtx t m with
    | none => t
    | some c => putCtx t { c with attached := true }))

/-- A flock without a debugger: a halted one goes on, and every request is forgotten, a BRK that waits for its safe point too
(R151). -/
def releaseFlock (s : State) (uid fi : Nat) : State :=
  goOnOrLater (onFlock s uid fi (fun fl => { fl with splits := fl.splits.map (fun sp => { sp with brk := none }) })) uid fi
    .resume

/-- DETACH: every flock goes on, and every breakpoint is cleared. -/
def execDetach (m : Msg) (a : DbgArgs) (s : State) : Host.Outcome State Fault Refusal :=
  .next (debugOp s m a 1 (flagsBad a true 0) (!attachedTo s m) (fun t => match msgCtx t m with
    | none => t
    | some c =>
      (flocksOf t c.id).foldl (fun u x => releaseFlock u x.1 x.2) (putCtx t { c with attached := false, breaks := [] })))

/-- A halt is requested of a flock that has not finished. -/
def requestHalt (s : State) (uid fi : Nat) : State :=
  onFlock s uid fi (fun fl => if finished fl then fl else { fl with haltReq := true })

/-- HALT of one flock, or of every flock of its fold. -/
def execHalt (m : Msg) (a : DbgArgs) (s : State) : Host.Outcome State Fault Refusal :=
  let all := a.flags.getLsbD 1
  let there := if all then (dbgFold s m a).isSome else (dbgFlock s m a).isSome
  .next (debugOp s m a 2 (flagsBad a false 2) (!attachedTo s m || !there) (fun t => match dbgFold t m a with
    | none => t
    | some f =>
      if all then (List.range f.flocks.length).foldl (fun u i => requestHalt u f.uid i) t
      else requestHalt t f.uid a.flockid.toNat))

/-- RESUME. -/
def execResume (m : Msg) (a : DbgArgs) (s : State) : Host.Outcome State Fault Refusal :=
  .next (debugOp s m a 3 (flagsBad a false 0) (dbgHalted s m a).isNone (fun t => match dbgFlock t m a with
    | none => t
    | some (f, i, _) => goOnOrLater t f.uid i .resume))

/-- STEP. -/
def execStep (m : Msg) (a : DbgArgs) (s : State) : Host.Outcome State Fault Refusal :=
  let focus := a.flags.getLsbD 2
  let deny := match dbgHalted s m a with
    | none => true
    | some (f, i, _) => focus && (focusFlock s f i a.lane.toNat).isNone
  .next (debugOp s m a 4 (flagsBad a false 4) deny (fun t => match dbgFlock t m a with
    | none => t
    | some (f, i, _) => goOnOrLater t f.uid i (.step (if focus then some a.lane.toNat else none))))

/-- The ordinal's bits above [19:0] are 0. -/
def ordBad (a : DbgArgs) : Bool := 2 ^ 20 ≤ a.ord.toNat

/-- The place of a breakpoint. -/
def breakOf (a : DbgArgs) : Word × BitVec 20 := (a.kernid, a.ord.setWidth 20)

/-- BREAK: at most 64 are armed. -/
def execBreak (m : Msg) (a : DbgArgs) (s : State) : Host.Outcome State Fault Refusal :=
  let full := (msgCtx s m).any (fun c => !c.breaks.contains (breakOf a) && 64 ≤ c.breaks.length)
  .next (debugOp s m a 5 (flagsBad a false 0 || ordBad a) (!attachedTo s m || full) (fun t => match msgCtx t m with
    | none => t
    | some c => if c.breaks.contains (breakOf a) then t else putCtx t { c with breaks := c.breaks ++ [breakOf a] }))

/-- UNBREAK. -/
def execUnbreak (m : Msg) (a : DbgArgs) (s : State) : Host.Outcome State Fault Refusal :=
  .next (debugOp s m a 5 (flagsBad a true 0 || ordBad a) (!attachedTo s m) (fun t => match msgCtx t m with
    | none => t
    | some c => putCtx t { c with breaks := c.breaks.filter (· != breakOf a) }))

/-- PENDCHK: it takes effect for each flock at its next clause start (R349). -/
def execPendchk (m : Msg) (a : DbgArgs) (s : State) : Host.Outcome State Fault Refusal :=
  .next (debugOp s m a 7 (flagsBad a false 8) false (fun t => match msgCtx t m with
    | none => t
    | some c => putCtx t { c with pendChk := a.flags.getLsbD 3 }))

/-- SAMPLE: the interval, and a new trace buffer; off leaves the buffer as it is. -/
def execSample (m : Msg) (a : DbgArgs) (s : State) : Host.Outcome State Fault Refusal :=
  let k := a.index.toNat
  let bad := flagsBad a false 16
    || (k != 0 && (k < 10 || 24 < k || !by64k a.buf || !by64k a.bufsize || a.bufsize == 0))
  .next (debugOp s m a 8 bad false (fun t => match msgCtx t m with
    | none => t
    | some c =>
      if k = 0 then putCtx t { c with sampling := { c.sampling with k := 0 } }
      else putCtx t { c with sampling := { k := k, buf := a.buf.toNat, size := a.bufsize.toNat, stop := a.flags.getLsbD 4,
                                           wp := 0, drops := 0 } }))

/-! ### READ and WRITE (R342, R347) -/

/-- Bytes of one item of a space. -/
def itemBytes (a : DbgArgs) : Nat :=
  match a.space.toNat with
  | 1 => if a.lane.toNat = 255 then 256 else 4
  | 7 => 1
  | 9 => 8
  | 11 => 1
  | 13 => 24
  | _ => 4

/-- Items of a space that the flock has. -/
def itemCount (f : Fold) (l : Launch) (a : DbgArgs) : Nat :=
  match a.space.toNat with
  | 1 => gRegs l
  | 2 => 128
  | 3 => 128
  | 7 => 12
  | 9 => 16
  | 11 => l.lsBytes
  | 12 => l.amtiles * 4096
  | _ => if f.flocks.isEmpty then 0 else 1

/-- The block of a READ or WRITE is malformed. -/
def itemsBad (a : DbgArgs) : Bool :=
  let sp := a.space.toNat
  let lane := a.lane.toNat
  let single := sp == 6 || sp == 8 || sp == 13
  sp == 0 || 13 < sp || ((sp == 4 || sp == 5 || sp == 10) && 64 ≤ lane) || (sp == 1 && 64 ≤ lane && lane != 255)
    || (single && (a.index != 0 || a.count != 1))

/-- Items outside the flock's state. -/
def itemsOut (s : State) (x : Fold × Nat × Flock) (a : DbgArgs) : Bool :=
  match launchAt s x.1.launch with
  | none => true
  | some l => itemCount x.1 l a < a.index.toNat + a.count.toNat

/-- An item as bytes. -/
def readItem (e : Env) (a : DbgArgs) (i : Nat) : List Byte :=
  let w (v : Word) : List Byte := leBytes 4 v.toNat
  let lane := a.lane.toNat
  match a.space.toNat with
  | 1 => if lane = 255 then lanes.flatMap (fun l => w (readV e 0 i l)) else w (readV e 0 i lane)
  | 2 => w (readS { e with hand := false } 0 i)
  | 3 => w (cget 0 e.fl.sh i)
  | 4 => w (predImage e.fl lane)
  | 5 => w (indexImage e.fl lane)
  | 6 => w (ownQ e)
  | 7 => leBytes 1 (cget 0 e.fl.c i)
  | 8 => w e.fl.fflags
  | 9 => leBytes 8 (slotOf e.fl i).toNat
  | 10 => w (cget 0 e.fl.srcount lane)
  | 11 => [cget 0 e.fold.ls i]
  | 12 => w (cget 0 e.fold.tiles i)
  | _ =>
    w e.fl.trap.cause ++ w e.fl.trap.detail ++ leBytes 8 e.fl.trap.pc.toNat ++ leBytes 8 e.fl.trap.split.toNat

/-- The flock as READ sees it, outside every split. -/
def dbgEnv (s : State) (x : Fold × Nat × Flock) : Option Env :=
  (launchAt s x.1.launch).bind (fun l => (ctxAt s l.ctx).map (fun c =>
    { fold := x.1, fi := x.2.1, fl := x.2.2, launch := l, ctx := c, sp := freshSplit 0 0 [], idx := 0, hand := false,
      mask := 0, act := 0, free := s.free, pos := .full, last := true }))

/-- READ: COMPLETE carries the items. -/
def execRead (m : Msg) (a : DbgArgs) (s : State) : Host.Outcome State Fault Refusal :=
  let bad := blockBad m a 6 || flagsBad a false 0 || itemsBad a || 4056 < a.count.toNat * itemBytes a
  let deny := match dbgHalted s m a with
    | none => true
    | some x => itemsOut s x a
  .next (atOnce s m 8 64 bad (if deny then stDenied else 0) (fun i t =>
    let items := match (dbgFlock t m a).bind (dbgEnv t) with
      | none => []
      | some e => (List.range a.count.toNat).flatMap (fun j => readItem e a (a.index.toNat + j))
    complete { t with free := t.free + 1 } m.ep i 3 stOk items))

/-- A word of the data. -/
def dataWord (d : List Byte) (off : Nat) : Word := BitVec.ofNat 32 (field d off 4)

/-- Change a flock by one item, as SPUTL, SPUTP, SWR and FDRW would. -/
def writeItem (fl : Flock) (a : DbgArgs) (i : Nat) (d : List Byte) : Flock :=
  let lane := a.lane.toNat
  let w := dataWord d 0
  match a.space.toNat with
  | 1 => if lane = 255 then lanes.foldl (fun u l => setV u i l (dataWord d (4 * l))) fl else setV fl i lane w
  | 2 => setOwn fl i w
  | 3 => { fl with sh := cset 0 fl.sh i w, marks := unmark (.sh i) fl.marks }
  | 4 => setPredImage fl lane w
  | 5 => setIndexImage fl lane w
  | 6 => { fl with q := w.setWidth 8, marks := fl.marks.filter (fun y => !((List.range 8).any (fun i => y == .s (qKey i)))),
                   loads := (List.range 8).foldl (fun ls i => hitLoads true (qKey i) ls) fl.loads }
  | 8 => { drainFlags fl with fflags := w &&& 31 }
  | 9 => { fl with f := cset 0 fl.f i (BitVec.ofNat 64 (field d 0 8 % 2 ^ 47)) }
  | 10 => setSrcount fl (BitVec.twoPow 64 lane) (fun _ => w)
  | _ => fl

/-- A format slot would take an image that is not legal (R52). -/
def slotsBad (a : DbgArgs) (d : List Byte) : Bool :=
  a.space.toNat == 9
    && (List.range a.count.toNat).any (fun j => !(fdrOf (BitVec.ofNat 64 (field d (8 * j) 8 % 2 ^ 47))).legal)

/-- Consecutive words of a fold's tiles. A full write of a word clears its error mark. -/
def writeTiles (s : State) (uid first n : Nat) (d : List Byte) : State :=
  match foldAt s uid with
  | none => s
  | some f =>
    putFold s { f with tiles := csetList 0 f.tiles first ((List.range n).map (fun j => dataWord d (4 * j))),
                       tileMarks := f.tileMarks.filter (fun w => !(first ≤ w && w < first + n)) }

/-- WRITE. -/
def execWrite (m : Msg) (a : DbgArgs) (data : List Byte) (s : State) : Host.Outcome State Fault Refusal :=
  let n := a.count.toNat
  let sp := a.space.toNat
  let bad := blockBad m a 6 || flagsBad a true 0 || itemsBad a || data.length != n * itemBytes a || slotsBad a data
  let deny := sp == 7 || sp == 13 || (match dbgHalted s m a with
    | none => true
    | some x => itemsOut s x a)
  .next (doAtOnce s m 8 (64 + data.length) bad (if deny then stDenied else 0) (fun t => match dbgFlock t m a with
    | none => t
    | some (f, i, _) =>
      if sp = 11 then lsWriteList t f.uid a.index.toNat data
      else if sp = 12 then writeTiles t f.uid a.index.toNat n data
      else onFlock t f.uid i (fun fl => (List.range n).foldl (fun u j =>
        writeItem u a (a.index.toNat + j) (data.drop (j * itemBytes a))) fl)))

/-! ### Sampling (R350 to R352) -/

/-- Contexts for which the quadrant has still to draw a clk of the present interval, whether or not a flock of theirs is
there now: the tag waits for the next bundle that the quadrant issues for one. -/
def sampleDue (s : State) (q : Quadrant) : List Context :=
  s.ctxs.filter (fun c => c.sampling.k != 0 && cget 0 q.drawn c.id != s.clock / 2 ^ c.sampling.k + 1)

/-- SAMPLE_TAG: the clk that a quadrant has drawn; its next bundle for the context is tagged. -/
def execSampleTag (core quad : Nat) (s : State) : Host.Outcome State Fault Refusal :=
  match (coreAt s core).quads[quad]? with
  | none => .next s
  | some q =>
    let cs := sampleDue s q
    match cs[(Config.freeWord s.free 0).toNat % cs.length]? with
    | none => .next s
    | some c =>
      let c' := coreAt s core
      .next { putCore s core { c' with quads := c'.quads.modify quad (fun x =>
                { x with tag := if x.tag.contains c.id then x.tag else x.tag ++ [c.id], drawn := cset 0 x.drawn c.id (s.clock / 2 ^ c.sampling.k + 1) }) } with
              free := s.free + 1 }

/-- The flocks of a quadrant that hold a tagged bundle. -/
def sampledIn (s : State) (core quad : Nat) : List (Fold × Nat × SampleRec) :=
  (s.folds.filter (fun f => f.core == core && f.place == .core)).flatMap (fun f =>
    (List.range f.flocks.length).filterMap (fun i => match f.flocks[i]? with
      | some fl => if fl.quad == quad then fl.sample.map (fun r => (f, i, r)) else none
      | none => none))

/-- SAMPLE_RECORD: a tagged bundle of the quadrant that has issued writes its record. -/
def execSampleRecord (core quad : Nat) (s : State) : Host.Outcome State Fault Refusal :=
  match sampledIn s core quad with
  | [] => .next s
  | (f, i, _) :: _ => .next (writeSample s f.uid i)

end Sys2Proof.Machine
end

