-- ==== Sys2Proof/Machine/Scalar.lean ====
section
/-! DEFINITION. The scalar integer instructions (R140 to R143). -/

namespace Sys2Proof.Machine

/-- A scalar result of two words: written when Active is not empty (R86). -/
def scalar2 (s : State) (o : S2Op) (f : Word → Word → Word) : Host.Outcome State Fault Refusal :=
  runFlock s o.g true { srcNames 1 [.s o.a, o.b] with sw := [o.d.toNat] } (fun e =>
    if e.act = 0 then .ok e.fl else .ok (setS e e.fl o.d.toNat (f (readS e 0 o.a.toNat) (srcS e 1 o.b))))

/-- The same with a signedness bit. -/
def scalar2u (s : State) (o : S2UOp) (f : Bool → Word → Word → Word) : Host.Outcome State Fault Refusal :=
  scalar2 s { g := o.g, d := o.d, a := o.a, b := o.b } (f o.u)

/-- A scalar result of three words. -/
def scalar3 (s : State) (o : S3Op) (f : Word → Word → Word → Word) : Host.Outcome State Fault Refusal :=
  runFlock s o.g true { srcNames 1 [.s o.a, .s o.b, o.c] with sw := [o.d.toNat] } (fun e =>
    if e.act = 0 then .ok e.fl
    else .ok (setS e e.fl o.d.toNat (f (readS e 0 o.a.toNat) (readS e 1 o.b.toNat) (srcS e 2 o.c))))

/-- A scalar result of one source. -/
def scalar1 (s : State) (g : Guard) (d : Reg) (a : Src) (f : Word → Word) : Host.Outcome State Fault Refusal :=
  runFlock s g true { srcNames 1 [a] with sw := [d.toNat] } (fun e =>
    if e.act = 0 then .ok e.fl else .ok (setS e e.fl d.toNat (f (srcS e 0 a))))

/-- SADD (R140). -/
def execSadd (o : S2Op) (s : State) : Host.Outcome State Fault Refusal :=
  scalar2 s o (fun a b => a + b)

/-- SSUB (R140). -/
def execSsub (o : S2Op) (s : State) : Host.Outcome State Fault Refusal :=
  scalar2 s o (fun a b => a - b)

/-- SMUL (R140). -/
def execSmul (o : S2Op) (s : State) : Host.Outcome State Fault Refusal :=
  scalar2 s o (fun a b => a * b)

/-- SMULH (R140). -/
def execSmulh (o : S2UOp) (s : State) : Host.Outcome State Fault Refusal :=
  scalar2u s o mulHigh

/-- SMAD (R140). -/
def execSmad (o : S3Op) (s : State) : Host.Outcome State Fault Refusal :=
  scalar3 s o (fun a b c => a * b + c)

/-- SADD64 (R140). -/
def execSadd64 (o : S2Op) (s : State) : Host.Outcome State Fault Refusal :=
  runFlock s o.g true
    { srcNames 2 [.s o.a, o.b] with sw := [o.d.toNat, o.d.toNat + 1] } (fun e =>
      if e.act = 0 then .ok e.fl else .ok (setS2 e e.fl o.d.toNat (readS2 e 0 o.a.toNat + srcS2 e 1 o.b)))

/-- SLTAB (R140). -/
def execSltab (o : S3LOp) (s : State) : Host.Outcome State Fault Refusal :=
  scalar3 s { g := o.g, d := o.d, a := o.a, b := o.b, c := o.c } (lutWord o.lut)

/-- SSHL (R140). -/
def execSshl (o : S2Op) (s : State) : Host.Outcome State Fault Refusal :=
  scalar2 s o shlW

/-- SSHR (R140). -/
def execSshr (o : S2Op) (s : State) : Host.Outcome State Fault Refusal :=
  scalar2 s o shrW

/-- SSRA (R140). -/
def execSsra (o : S2Op) (s : State) : Host.Outcome State Fault Refusal :=
  scalar2 s o sraW

/-- SMIN (R140). -/
def execSmin (o : S2UOp) (s : State) : Host.Outcome State Fault Refusal :=
  scalar2u s o minW

/-- SMAX (R140). -/
def execSmax (o : S2UOp) (s : State) : Host.Outcome State Fault Refusal :=
  scalar2u s o maxW

/-- SBFE (R141). -/
def execSbfe (o : S2UOp) (s : State) : Host.Outcome State Fault Refusal :=
  scalar2u s o bfeW

/-- SBFI (R141). -/
def execSbfi (o : S3Op) (s : State) : Host.Outcome State Fault Refusal :=
  scalar3 s o bfiW

/-- SPOPC (R140). -/
def execSpopc (o : D1Op) (s : State) : Host.Outcome State Fault Refusal :=
  scalar1 s o.g o.d o.a popW

/-- SCLZ (R140). -/
def execSclz (o : D1Op) (s : State) : Host.Outcome State Fault Refusal :=
  scalar1 s o.g o.d o.a clzW

/-- The source is not a vector register. -/
def notVector : Src → Bool
  | .v _ _ => false
  | _ => true

/-- SMOV (R142): a vector source gives the bellwether's routed word; the handler may not use that form (R329). -/
def execSmov (o : D1Op) (s : State) : Host.Outcome State Fault Refusal :=
  runFlock s o.g (notVector o.a)
    (named s o.g (fun e =>
      let n : Names := match o.a with
        | .v r rt =>
          let l := lowestLane e.act
          { vx := [(l, r.toNat, routeLane e rt l)], vn := [r.toNat], xl := (routeIdx rt).map (fun x => (x, l)) }
        | _ => { s := sOf 1 o.a }
      { n with sw := [o.d.toNat] }))
    (fun e => if e.act = 0 then .ok e.fl else .ok (setS e e.fl o.d.toNat (srcV e 0 o.a (lowestLane e.act))))

/-- SMOVI (R140). -/
def execSmovi (o : DImmOp) (s : State) : Host.Outcome State Fault Refusal :=
  scalar1 s o.g o.d (.imm o.imm) (fun a => a)

/-- SCMP (R143). -/
def execScmp (o : ScmpOp) (s : State) : Host.Outcome State Fault Refusal :=
  runFlock s o.g true { srcNames 1 [.s o.a, o.b] with sw := [qKey o.d.toNat] } (fun e =>
    if e.act = 0 then .ok e.fl else .ok (setQ e e.fl o.d.toNat (condW o.cond (readS e 0 o.a.toNat) (srcS e 1 o.b))))

/-- SSEL (R140). -/
def execSsel (o : SselOp) (s : State) : Host.Outcome State Fault Refusal :=
  let n := srcNames 1 [.s o.a, o.b]
  runFlock s o.g true { n with s := n.s ++ [qKey o.c.toNat], sw := [o.d.toNat] } (fun e =>
    if e.act = 0 then .ok e.fl
    else .ok (setS e e.fl o.d.toNat (if rdQ e o.c.toNat != o.neg then readS e 0 o.a.toNat else srcS e 1 o.b)))

end Sys2Proof.Machine
end

