-- ==== Sys2Proof/Machine/Transcend.lean ====
section
/-! DEFINITION. The special functions (R74): exact where the result is a fraction, otherwise an enclosure between two
fractions that is narrowed until both ends round alike. -/

namespace Sys2Proof.Machine

/-! ### Square roots -/

/-- Newton's step from above. -/
def isqrtRun : Nat → Nat → Nat → Nat
  | 0, _, x => x
  | k + 1, n, x =>
    let y := (x + n / x) / 2
    if x ≤ y then x else isqrtRun k n y

/-- floor(√n). -/
def isqrt (n : Nat) : Nat := if n = 0 then 0 else isqrtRun (Nat.log2 n + 4) n (2 ^ (Nat.log2 n / 2 + 1))

/-- √(n/d): exact when both are squares; otherwise a fraction on the same side of every rounding boundary of every
slot, all of which are multiples of 2^−1024. -/
def sqrtFrac (n d : Nat) : Nat × Nat :=
  let g := Nat.gcd n d
  let a := n / g
  let b := d / g
  if isqrt a * isqrt a = a && isqrt b * isqrt b = b then (isqrt a, isqrt b)
  else (2 * isqrt (a * 2 ^ 2048 / b) + 1, 2 ^ 1025)

/-! ### Fixed-point series: integers scaled by 2^w -/

/-- Σ ±x^(2k+1)/(2k+1) with x = 1/q, from the term t = 2^w/q^(2k+1). -/
def atanRun : Nat → Bool → Int → Int → Int → Int → Int
  | 0, _, _, _, _, acc => acc
  | n + 1, alt, q2, t, k, acc =>
    if t = 0 then acc
    else atanRun n alt q2 (t / q2) (k + 2) (if alt && k % 4 = 3 then acc - t / k else acc + t / k)

/-- arctan(1/q), or artanh(1/q), scaled by 2^w. -/
def atanInv (alt : Bool) (w q : Nat) : Int := atanRun w alt ((q * q : Nat) : Int) ((2 ^ w / q : Nat) : Int) 1 0

/-- π scaled by 2^w. -/
def piFix (w : Nat) : Int := 16 * atanInv true w 5 - 4 * atanInv true w 239

/-- ln 2 scaled by 2^w. -/
def ln2Fix (w : Nat) : Int := 2 * atanInv false w 3

/-- artanh z, z scaled by 2^w. -/
def atanhRun : Nat → Nat → Int → Int → Int → Int → Int
  | 0, _, _, _, _, acc => acc
  | n + 1, w, z2, t, k, acc => if t = 0 then acc else atanhRun n w z2 (t * z2 / 2 ^ w) (k + 2) (acc + t / k)

def atanhFix (w : Nat) (z : Int) : Int := atanhRun w w (z * z / 2 ^ w) z 1 0

/-- e^y for 0 ≤ y < 1. -/
def expRun : Nat → Nat → Int → Int → Int → Int → Int
  | 0, _, _, _, _, acc => acc
  | n + 1, w, y, t, k, acc => if t = 0 then acc else expRun n w y (t * y / 2 ^ w / k) (k + 1) (acc + t)

def expFix (w : Nat) (y : Int) : Int := expRun w w y (2 ^ w) 1 0

/-- sin and cos of a small angle: the series with term t, next divisor k(k+1). -/
def trigRun : Nat → Nat → Int → Int → Int → Int → Int
  | 0, _, _, _, _, acc => acc
  | n + 1, w, r2, t, k, acc =>
    if -1 ≤ t && t ≤ 1 then acc else trigRun n w r2 (-(t * r2 / 2 ^ w) / (k * (k + 1))) (k + 2) (acc + t)

def sinFix (w : Nat) (r : Int) : Int := trigRun w w (r * r / 2 ^ w) r 2 0
def cosFix (w : Nat) (r : Int) : Int := trigRun w w (r * r / 2 ^ w) (2 ^ w) 1 0

/-- A bound on the error of every series here at w bits, in units of 2^−w: each has at most w terms. -/
def fixErr (w : Nat) : Int := 65536 + 64 * w

/-- 2^x for a fraction x between −5000 and 5000: a centre c and exponent k with 2^x near c × 2^(k − w). -/
def exp2Fix (w : Nat) (n : Int) (d : Nat) : Int × Int :=
  let k := n / (d : Int)
  let f := (n % (d : Int)) * ln2Fix w / (d : Int)
  (expFix w f, k)

/-- log2 of a positive fraction, scaled by 2^w. -/
def log2Fix (w n d : Nat) : Int :=
  let k := log2Frac n d
  let a : Nat := if 0 ≤ k then n else n * 2 ^ (-k).toNat
  let b : Nat := if 0 ≤ k then d * 2 ^ k.toNat else d
  let z : Int := ((a : Int) - b) * 2 ^ w / ((a : Int) + b)
  k * 2 ^ w + 2 * atanhFix w z * 2 ^ w / ln2Fix w

/-- The quadrant of a fraction x and its remainder from the nearest multiple of π/2, scaled by 2^w. -/
def reduceFix (w : Nat) (n : Int) (d : Nat) : Int × Int :=
  let b := Nat.log2 (n.natAbs / d + 1) + 4
  let x := n * 2 ^ (w + b) / (d : Int)
  let h := piFix (w + b) / 2
  let q := (x + h / 2) / h
  (q, (x - q * h) / 2 ^ b)

def sinAt (w : Nat) (n : Int) (d : Nat) (shift : Int) : Int :=
  let (q, r) := reduceFix w n d
  match (q + shift) % 4 with
  | 0 => sinFix w r
  | 1 => cosFix w r
  | 2 => -sinFix w r
  | _ => -cosFix w r

/-- tanh x for 0 < x ≤ 64, scaled by 2^w: u = e^−2x gives (1 − u)/(1 + u). -/
def tanhFix (w n d : Nat) : Int :=
  let y : Int := 2 * (n : Int) * 2 ^ w * 2 ^ w / (d : Int) / ln2Fix w
  let k := y / 2 ^ w
  let f := y % 2 ^ w
  let half := expFix w (f * ln2Fix w / 2 ^ w)
  let e := half * 2 ^ k.toNat
  (e - 2 ^ w) * 2 ^ w / (e + 2 ^ w)

/-! ### Results -/

/-- A function value: an exact value with flags, or a real number enclosed at each precision by two fractions. -/
inductive FnRes where
  | val (x : Num) (fl : BitVec 5)
  | real (id : Nat) (n : Int) (d : Nat) (encl : Nat → Num × Num)

/-- (c − fixErr w) × 2^k and (c + fixErr w) × 2^k. -/
def around (w : Nat) (c k : Int) : Num × Num :=
  let at' (i : Int) : Num := .dyadic (i < 0) i.natAbs k
  (at' (c - fixErr w), at' (c + fixErr w))

/-- Round an enclosed value: at the first precision at which both ends round alike; past the last, on the side that
Config.aboveBoundary names. -/
def roundEncl (f : Fdr) (rm rnd id : Nat) (n : Int) (d : Nat) (encl : Nat → Num × Num) : List Nat → Nat × BitVec 5
  | [] => roundTo f rm rnd (if Config.aboveBoundary id n d then (encl 256).2 else (encl 256).1)
  | w :: ws =>
    let a := roundTo f rm rnd (encl w).1
    let b := roundTo f rm rnd (encl w).2
    if a = b then a else roundEncl f rm rnd id n d encl ws

/-- The precisions that are tried, in bits: each twice the one before it. -/
def precisions : List Nat := (List.range 64).map (fun i => 2 ^ (8 + i))

/-- RoundTo of a function value. -/
def roundFn (f : Fdr) (rm rnd : Nat) : FnRes → Nat × BitVec 5
  | .val x fl =>
    let (c, g) := roundTo f rm rnd x
    (c, fl ||| g)
  | .real id n d encl => roundEncl f rm rnd id n d encl precisions

/-- |x| < 2^−40: sin x and tanh x then lie within 2^−80 of x, and cos x of 1, by their size, so that one representative
between, nearer than every rounding boundary and every step of stochastic rounding, rounds as they do. -/
def tinyArg (n d : Nat) : Bool := !geTwo n d (-40)

/-- x (1 − 2^−100). -/
def justInside (s : Bool) (n d : Nat) : Num := .fin s (n * (2 ^ 100 - 1)) (d * 2 ^ 100)

def fnRcp (x : Num) : FnRes :=
  let r := divNum (.fin false 1 1) x
  .val r.1 r.2

def fnSqrt : Num → FnRes
  | .nan => .val .nan 0
  | .inf s => if s then .val .nan fNV else .val (.inf false) 0
  | .fin s n d =>
    if n = 0 then .val (.fin s 0 1) 0
    else if s then .val .nan fNV
    else .val (.fin false (sqrtFrac n d).1 (sqrtFrac n d).2) 0

def fnRsq : Num → FnRes
  | .nan => .val .nan 0
  | .inf s => if s then .val .nan fNV else .val (.fin false 0 1) 0
  | .fin s n d =>
    if n = 0 then .val (.inf s) fDZ
    else if s then .val .nan fNV
    else .val (.fin false (sqrtFrac d n).1 (sqrtFrac d n).2) 0

def fnExp2 : Num → FnRes
  | .nan => .val .nan 0
  | .inf s => if s then .val (.fin false 0 1) 0 else .val (.inf false) 0
  | .fin s n d =>
    if n = 0 then .val (.fin false 1 1) 0
    else if 5000 * d ≤ n then .val (.dyadic false 1 (if s then -5000 else 5000)) 0
    else if n % d = 0 then .val (.dyadic false 1 (if s then -((n / d : Nat) : Int) else ((n / d : Nat) : Int))) 0
    else
      .real 0 (signedNum s n) d (fun w =>
        let (c, k) := exp2Fix w (signedNum s n) d
        around w c (k - w))

def fnLog2 : Num → FnRes
  | .nan => .val .nan 0
  | .inf s => if s then .val .nan fNV else .val (.inf false) 0
  | .fin s n d =>
    if n = 0 then .val (.inf true) fDZ
    else if s then .val .nan fNV
    else
      let k := log2Frac n d
      if (quantum n d k).2.1 = 0 then .val (.ofInt k) 0
      else .real 1 n d (fun w => around w (log2Fix w n d) (-w))

def fnSin : Num → FnRes
  | .nan => .val .nan 0
  | .inf _ => .val .nan fNV
  | .fin s n d =>
    if n = 0 then .val (.fin s 0 1) 0
    else if tinyArg n d then .val (justInside s n d) 0
    else .real 2 (signedNum s n) d (fun w => around w (sinAt w (signedNum s n) d 0) (-w))

def fnCos : Num → FnRes
  | .nan => .val .nan 0
  | .inf _ => .val .nan fNV
  | .fin s n d =>
    if n = 0 then .val (.fin false 1 1) 0
    else if tinyArg n d then .val (justInside false 1 1) 0
    else .real 3 (signedNum s n) d (fun w => around w (sinAt w (signedNum s n) d 1) (-w))

def fnTanh : Num → FnRes
  | .nan => .val .nan 0
  | .inf s => .val (.fin s 1 1) 0
  | .fin s n d =>
    if n = 0 then .val (.fin s 0 1) 0
    else if tinyArg n d then .val (justInside s n d) 0
    else if 64 * d ≤ n then .val (justInside s 1 1) 0
    else .real 4 (signedNum s n) d (fun w => around w (if s then -(tanhFix w n d) else tanhFix w n d) (-w))

end Sys2Proof.Machine
end

