-- ==== Sys2Proof/Machine/Special.lean ====
section
/-! DEFINITION. The special functions (R74, R175). -/

namespace Sys2Proof.Machine

/-- A function of one source. -/
def fmt1 (s : State) (o : F1Op) (fn : Num → FnRes) : Host.Outcome State Fault Refusal :=
  fmtOp s o.g o.fs o.row o.tid true o.d [o.a] (fun f rnd xs =>
    match xs with
    | [a] => roundFn f f.rm rnd (fn a)
    | _ => (0, 0))

/-- RCP. -/
def execRcp (o : F1Op) (s : State) : Host.Outcome State Fault Refusal := fmt1 s o fnRcp
/-- RSQ. -/
def execRsq (o : F1Op) (s : State) : Host.Outcome State Fault Refusal := fmt1 s o fnRsq
/-- SQRT. -/
def execSqrt (o : F1Op) (s : State) : Host.Outcome State Fault Refusal := fmt1 s o fnSqrt
/-- EXP2. -/
def execExp2 (o : F1Op) (s : State) : Host.Outcome State Fault Refusal := fmt1 s o fnExp2
/-- LOG2. -/
def execLog2 (o : F1Op) (s : State) : Host.Outcome State Fault Refusal := fmt1 s o fnLog2
/-- SIN. -/
def execSin (o : F1Op) (s : State) : Host.Outcome State Fault Refusal := fmt1 s o fnSin
/-- COS. -/
def execCos (o : F1Op) (s : State) : Host.Outcome State Fault Refusal := fmt1 s o fnCos
/-- TANH. -/
def execTanh (o : F1Op) (s : State) : Host.Outcome State Fault Refusal := fmt1 s o fnTanh
/-- DIV. -/
def execDiv (o : F2Op) (s : State) : Host.Outcome State Fault Refusal := fmt2 s o true (fun _ a b => divNum a b)

end Sys2Proof.Machine
end

