-- ==== Sys2Proof/Machine/Dispatch.lean ====
section
/-! DEFINITION. The dispatcher: one arm per constructor of Instr, each a direct call of its meaning. -/

namespace Sys2Proof.Machine

def exec (i : Instr) (s : State) : Host.Outcome State Fault Refusal :=
  match i with
  | .nop o => Sys2Proof.Machine.execNop o s
  | .bra o => Sys2Proof.Machine.execBra o s
  | .brx o => Sys2Proof.Machine.execBrx o s
  | .bri o => Sys2Proof.Machine.execBri o s
  | .call o => Sys2Proof.Machine.execCall o s
  | .ret o => Sys2Proof.Machine.execRet o s
  | .loop o => Sys2Proof.Machine.execLoop o s
  | .exit o => Sys2Proof.Machine.execExit o s
  | .yield o => Sys2Proof.Machine.execYield o s
  | .waitf o => Sys2Proof.Machine.execWaitf o s
  | .pltab o => Sys2Proof.Machine.execPltab o s
  | .pmovTov o => Sys2Proof.Machine.execPmovTov o s
  | .pmovFromv o => Sys2Proof.Machine.execPmovFromv o s
  | .poll o => Sys2Proof.Machine.execPoll o s
  | .qltab o => Sys2Proof.Machine.execQltab o s
  | .qset o => Sys2Proof.Machine.execQset o s
  | .sadd o => Sys2Proof.Machine.execSadd o s
  | .ssub o => Sys2Proof.Machine.execSsub o s
  | .smul o => Sys2Proof.Machine.execSmul o s
  | .smulh o => Sys2Proof.Machine.execSmulh o s
  | .smad o => Sys2Proof.Machine.execSmad o s
  | .sadd64 o => Sys2Proof.Machine.execSadd64 o s
  | .sltab o => Sys2Proof.Machine.execSltab o s
  | .sshl o => Sys2Proof.Machine.execSshl o s
  | .sshr o => Sys2Proof.Machine.execSshr o s
  | .ssra o => Sys2Proof.Machine.execSsra o s
  | .smin o => Sys2Proof.Machine.execSmin o s
  | .smax o => Sys2Proof.Machine.execSmax o s
  | .sbfe o => Sys2Proof.Machine.execSbfe o s
  | .sbfi o => Sys2Proof.Machine.execSbfi o s
  | .spopc o => Sys2Proof.Machine.execSpopc o s
  | .sclz o => Sys2Proof.Machine.execSclz o s
  | .smov o => Sys2Proof.Machine.execSmov o s
  | .smovi o => Sys2Proof.Machine.execSmovi o s
  | .scmp o => Sys2Proof.Machine.execScmp o s
  | .ssel o => Sys2Proof.Machine.execSsel o s
  | .iadd o => Sys2Proof.Machine.execIadd o s
  | .isub o => Sys2Proof.Machine.execIsub o s
  | .iaddc o => Sys2Proof.Machine.execIaddc o s
  | .isubb o => Sys2Proof.Machine.execIsubb o s
  | .imul o => Sys2Proof.Machine.execImul o s
  | .imulh o => Sys2Proof.Machine.execImulh o s
  | .imad o => Sys2Proof.Machine.execImad o s
  | .imadw o => Sys2Proof.Machine.execImadw o s
  | .iadd64 o => Sys2Proof.Machine.execIadd64 o s
  | .iabs o => Sys2Proof.Machine.execIabs o s
  | .imin o => Sys2Proof.Machine.execImin o s
  | .imax o => Sys2Proof.Machine.execImax o s
  | .ltab o => Sys2Proof.Machine.execLtab o s
  | .shl o => Sys2Proof.Machine.execShl o s
  | .shr o => Sys2Proof.Machine.execShr o s
  | .sra o => Sys2Proof.Machine.execSra o s
  | .fshl o => Sys2Proof.Machine.execFshl o s
  | .fshr o => Sys2Proof.Machine.execFshr o s
  | .bfe o => Sys2Proof.Machine.execBfe o s
  | .bfi o => Sys2Proof.Machine.execBfi o s
  | .brev o => Sys2Proof.Machine.execBrev o s
  | .popc o => Sys2Proof.Machine.execPopc o s
  | .clz o => Sys2Proof.Machine.execClz o s
  | .bmix o => Sys2Proof.Machine.execBmix o s
  | .icmp o => Sys2Proof.Machine.execIcmp o s
  | .sel o => Sys2Proof.Machine.execSel o s
  | .mov o => Sys2Proof.Machine.execMov o s
  | .movi o => Sys2Proof.Machine.execMovi o s
  | .movs o => Sys2Proof.Machine.execMovs o s
  | .movxTox o => Sys2Proof.Machine.execMovxTox o s
  | .movxFromx o => Sys2Proof.Machine.execMovxFromx o s
  | .fadd o => Sys2Proof.Machine.execFadd o s
  | .fsub o => Sys2Proof.Machine.execFsub o s
  | .fmul o => Sys2Proof.Machine.execFmul o s
  | .fma o => Sys2Proof.Machine.execFma o s
  | .fmin o => Sys2Proof.Machine.execFmin o s
  | .fmax o => Sys2Proof.Machine.execFmax o s
  | .fcmp o => Sys2Proof.Machine.execFcmp o s
  | .fclass o => Sys2Proof.Machine.execFclass o s
  | .frint o => Sys2Proof.Machine.execFrint o s
  | .fscale o => Sys2Proof.Machine.execFscale o s
  | .cvt o => Sys2Proof.Machine.execCvt o s
  | .cvtef o => Sys2Proof.Machine.execCvtef o s
  | .pack o => Sys2Proof.Machine.execPack o s
  | .unpack o => Sys2Proof.Machine.execUnpack o s
  | .fdrw o => Sys2Proof.Machine.execFdrw o s
  | .fdrr o => Sys2Proof.Machine.execFdrr o s
  | .rcp o => Sys2Proof.Machine.execRcp o s
  | .rsq o => Sys2Proof.Machine.execRsq o s
  | .sqrt o => Sys2Proof.Machine.execSqrt o s
  | .exp2 o => Sys2Proof.Machine.execExp2 o s
  | .log2 o => Sys2Proof.Machine.execLog2 o s
  | .sin o => Sys2Proof.Machine.execSin o s
  | .cos o => Sys2Proof.Machine.execCos o s
  | .tanh o => Sys2Proof.Machine.execTanh o s
  | .div o => Sys2Proof.Machine.execDiv o s
  | .redl o => Sys2Proof.Machine.execRedl o s
  | .scanl o => Sys2Proof.Machine.execScanl o s
  | .matchv o => Sys2Proof.Machine.execMatchv o s
  | .bdec o => Sys2Proof.Machine.execBdec o s
  | .ld o => Sys2Proof.Machine.execLd o s
  | .st o => Sys2Proof.Machine.execSt o s
  | .ldp o => Sys2Proof.Machine.execLdp o s
  | .stp o => Sys2Proof.Machine.execStp o s
  | .stm o => Sys2Proof.Machine.execStm o s
  | .ldl o => Sys2Proof.Machine.execLdl o s
  | .stl o => Sys2Proof.Machine.execStl o s
  | .ldx o => Sys2Proof.Machine.execLdx o s
  | .stx o => Sys2Proof.Machine.execStx o s
  | .sld o => Sys2Proof.Machine.execSld o s
  | .sst o => Sys2Proof.Machine.execSst o s
  | .atom o => Sys2Proof.Machine.execAtom o s
  | .red o => Sys2Proof.Machine.execRed o s
  | .redD o => Sys2Proof.Machine.execRedD o s
  | .dflush o => Sys2Proof.Machine.execDflush o s
  | .fence o => Sys2Proof.Machine.execFence o s
  | .mwait o => Sys2Proof.Machine.execMwait o s
  | .pref o => Sys2Proof.Machine.execPref o s
  | .cctl o => Sys2Proof.Machine.execCctl o s
  | .mma o => Sys2Proof.Machine.execMma o s
  | .mtree o => Sys2Proof.Machine.execMtree o s
  | .amld o => Sys2Proof.Machine.execAmld o s
  | .amst o => Sys2Proof.Machine.execAmst o s
  | .amz o => Sys2Proof.Machine.execAmz o s
  | .amcvt o => Sys2Proof.Machine.execAmcvt o s
  | .copy o => Sys2Proof.Machine.execCopy o s
  | .cpyb o => Sys2Proof.Machine.execCpyb o s
  | .waitb o => Sys2Proof.Machine.execWaitb o s
  | .bari o => Sys2Proof.Machine.execBari o s
  | .bara o => Sys2Proof.Machine.execBara o s
  | .barw o => Sys2Proof.Machine.execBarw o s
  | .bart o => Sys2Proof.Machine.execBart o s
  | .launch o => Sys2Proof.Machine.execLaunch o s
  | .lwait o => Sys2Proof.Machine.execLwait o s
  | .trap o => Sys2Proof.Machine.execTrap o s
  | .tret o => Sys2Proof.Machine.execTret o s
  | .tkill o => Sys2Proof.Machine.execTkill o s
  | .brk o => Sys2Proof.Machine.execBrk o s
  | .srd o => Sys2Proof.Machine.execSrd o s
  | .swr o => Sys2Proof.Machine.execSwr o s
  | .sgetl o => Sys2Proof.Machine.execSgetl o s
  | .sputl o => Sys2Proof.Machine.execSputl o s
  | .sgetp o => Sys2Proof.Machine.execSgetp o s
  | .sputp o => Sys2Proof.Machine.execSputp o s
  | .clauseStart r => Sys2Proof.Machine.execClauseStart r s
  | .activeSetSwap r => Sys2Proof.Machine.execActiveSetSwap r s
  | .pendingReadyTimeout core quad => Sys2Proof.Machine.execPendingReadyTimeout core quad s
  | .loadLand r op lane => Sys2Proof.Machine.execLoadLand r op lane s
  | .storePerformed r op => Sys2Proof.Machine.execStorePerformed r op s
  | .pageWalkComplete r acc va => Sys2Proof.Machine.execPageWalkComplete r acc va s
  | .faultTimeout ctx fid => Sys2Proof.Machine.execFaultTimeout ctx fid s
  | .l1Eviction core line => Sys2Proof.Machine.execL1Eviction core line s
  | .engineCommandStart core cmd => Sys2Proof.Machine.execEngineCommandStart core cmd s
  | .mmaStepEnd core cmd => Sys2Proof.Machine.execMmaStepEnd core cmd s
  | .mmaComplete core cmd => Sys2Proof.Machine.execMmaComplete core cmd s
  | .mtreeExecute core cmd => Sys2Proof.Machine.execMtreeExecute core cmd s
  | .amMoveComplete core cmd => Sys2Proof.Machine.execAmMoveComplete core cmd s
  | .copyItemEnd core cmd item => Sys2Proof.Machine.execCopyItemEnd core cmd item s
  | .copyFinish core cmd => Sys2Proof.Machine.execCopyFinish core cmd s
  | .drbDrain fold => Sys2Proof.Machine.execDrbDrain fold s
  | .redDApply r scope gen => Sys2Proof.Machine.execRedDApply r scope gen s
  | .launchStart ctx item => Sys2Proof.Machine.execLaunchStart ctx item s
  | .stepStart launch => Sys2Proof.Machine.execStepStart launch s
  | .foldDispatch die => Sys2Proof.Machine.execFoldDispatch die s
  | .dispatchStarvationTimeout die => Sys2Proof.Machine.execDispatchStarvationTimeout die s
  | .foldRetire fold => Sys2Proof.Machine.execFoldRetire fold s
  | .foldSwapOut fold => Sys2Proof.Machine.execFoldSwapOut fold s
  | .preemptRequest die => Sys2Proof.Machine.execPreemptRequest die s
  | .sliceTimerExpiry ctx die => Sys2Proof.Machine.execSliceTimerExpiry ctx die s
  | .flockPreemptStop r => Sys2Proof.Machine.execFlockPreemptStop r s
  | .fleeceWrite fold => Sys2Proof.Machine.execFleeceWrite fold s
  | .foldRestore die => Sys2Proof.Machine.execFoldRestore die s
  | .watchdog fold => Sys2Proof.Machine.execWatchdog fold s
  | .sampleTag core quad => Sys2Proof.Machine.execSampleTag core quad s
  | .sampleRecord core quad => Sys2Proof.Machine.execSampleRecord core quad s
  | .powerAlarmRaise die => Sys2Proof.Machine.execPowerAlarmRaise die s
  | .powerAlarmClear die => Sys2Proof.Machine.execPowerAlarmClear die s
  | .engineWiden core => Sys2Proof.Machine.execEngineWiden core s
  | .thermtrip die => Sys2Proof.Machine.execThermtrip die s
  | .powerOnBoot => Sys2Proof.Machine.execPowerOnBoot s
  | .connectionSetup ep => Sys2Proof.Machine.execConnectionSetup ep s
  | .rdmaWrite ep va rkey bytes => Sys2Proof.Machine.execRdmaWrite ep va rkey bytes s
  | .rdmaRead ep va len rkey => Sys2Proof.Machine.execRdmaRead ep va len rkey s
  | .rdmaInvalidRequest ep => Sys2Proof.Machine.execRdmaInvalidRequest ep s
  | .peerAccess req => Sys2Proof.Machine.execPeerAccess req s
  | .ualinkLinkDrop port => Sys2Proof.Machine.execUalinkLinkDrop port s
  | .launchMessage m addr => Sys2Proof.Machine.execLaunchMessage m addr s
  | .copyMessage m a => Sys2Proof.Machine.execCopyMessage m a s
  | .mapInvalidate m h r => Sys2Proof.Machine.execMapInvalidate m h r s
  | .mapUnresolvable m a => Sys2Proof.Machine.execMapUnresolvable m a s
  | .contextCreate m a => Sys2Proof.Machine.execContextCreate m a s
  | .contextDestroy m a => Sys2Proof.Machine.execContextDestroy m a s
  | .contextModify m a => Sys2Proof.Machine.execContextModify m a s
  | .contextPreempt m a => Sys2Proof.Machine.execContextPreempt m a s
  | .queryL2Counters m q => Sys2Proof.Machine.execQueryL2Counters m q s
  | .queryCoreCounters m q => Sys2Proof.Machine.execQueryCoreCounters m q s
  | .queryTrace m q => Sys2Proof.Machine.execQueryTrace m q s
  | .queryPower m q => Sys2Proof.Machine.execQueryPower m q s
  | .querySoftErrors m q => Sys2Proof.Machine.execQuerySoftErrors m q s
  | .queryAttestation m q nonce => Sys2Proof.Machine.execQueryAttestation m q nonce s
  | .queryJournalHead m q => Sys2Proof.Machine.execQueryJournalHead m q s
  | .queryRoutingRead m q => Sys2Proof.Machine.execQueryRoutingRead m q s
  | .queryRoutingWrite m q masks => Sys2Proof.Machine.execQueryRoutingWrite m q masks s
  | .journal m first count ring => Sys2Proof.Machine.execJournal m first count ring s
  | .dieWithdraw m a => Sys2Proof.Machine.execDieWithdraw m a s
  | .dieReadmit m a => Sys2Proof.Machine.execDieReadmit m a s
  | .dieReset m a => Sys2Proof.Machine.execDieReset m a s
  | .dieCarve m h carve => Sys2Proof.Machine.execDieCarve m h carve s
  | .diectlStageEnd => Sys2Proof.Machine.execDiectlStageEnd s
  | .attach m a => Sys2Proof.Machine.execAttach m a s
  | .detach m a => Sys2Proof.Machine.execDetach m a s
  | .halt m a => Sys2Proof.Machine.execHalt m a s
  | .resume m a => Sys2Proof.Machine.execResume m a s
  | .step m a => Sys2Proof.Machine.execStep m a s
  | .break m a => Sys2Proof.Machine.execBreak m a s
  | .unbreak m a => Sys2Proof.Machine.execUnbreak m a s
  | .read m a => Sys2Proof.Machine.execRead m a s
  | .write m a data => Sys2Proof.Machine.execWrite m a data s
  | .pendchk m a => Sys2Proof.Machine.execPendchk m a s
  | .sample m a => Sys2Proof.Machine.execSample m a s
  | .connectionClose ep => Sys2Proof.Machine.execConnectionClose ep s
  | .softError site => Sys2Proof.Machine.execSoftError site s
  | .sidebandNewImage img => Sys2Proof.Machine.execSidebandNewImage img s

end Sys2Proof.Machine
end

