-- ==== Sys2Proof/Machine/Issue.lean ====
section
/-! DEFINITION. The issue of a bundle: head half, full bundle and pair (R79, R88, R91), and the tag of a sampled
bundle (R350). -/

namespace Sys2Proof.Machine

/-- Continue from a next state. -/
def onNext (o : Host.Outcome State Fault Refusal) (g : State → State) : Host.Outcome State Fault Refusal :=
  match o with
  | .next t => .next (g t)
  | .fault f => .fault f
  | .refused r => .refused r

/-- The split's bundle has trapped, failed its fold or stalled: it did not retire. -/
def notRetired (s t : State) : Bool :=
  match (foldAt s s.cur.fold).bind (fun f => flockAt f s.cur.flock),
        (foldAt t s.cur.fold), (foldAt t s.cur.fold).bind (fun f => flockAt f s.cur.flock) with
  | some a, some g, some b =>
    g.fail.isSome || a.handler.isSome != b.handler.isSome || b.stall.isSome
  | _, _, _ => true

/-- Put the issuing instruction's place into the state. -/
def atPos (s : State) (p : Pos) (last : Bool) : State := { s with cur := { s.cur with pos := p, last := last } }

/-- The destination register of a restricted instruction (R83). -/
def halfDst : Instr → Option Nat
  | .mov o => some o.d.toNat
  | .movi o => some o.d.toNat
  | .iadd o => some o.d.toNat
  | .isub o => some o.d.toNat
  | .imul o => some o.d.toNat
  | .imin o => some o.d.toNat
  | .imax o => some o.d.toNat
  | .iabs o => some o.d.toNat
  | .shl o => some o.d.toNat
  | .shr o => some o.d.toNat
  | .sra o => some o.d.toNat
  | .ltab o => some o.d.toNat
  | .popc o => some o.d.toNat
  | .clz o => some o.d.toNat
  | .brev o => some o.d.toNat
  | .fadd o => some o.d.toNat
  | .fsub o => some o.d.toNat
  | .fmul o => some o.d.toNat
  | .fmin o => some o.d.toNat
  | .fmax o => some o.d.toNat
  | .frint o => some o.d.toNat
  | .fscale o => some o.d.toNat
  | .cvt o => some o.d.toNat
  | .rcp o => some o.d.toNat
  | .rsq o => some o.d.toNat
  | .sqrt o => some o.d.toNat
  | .exp2 o => some o.d.toNat
  | .log2 o => some o.d.toNat
  | .sin o => some o.d.toNat
  | .cos o => some o.d.toNat
  | .tanh o => some o.d.toNat
  | .div o => some o.d.toNat
  | .fclass o => some o.d.toNat
  | _ => none

/-- The v file of the issuing flock. -/
def curV (s : State) : Cells Word :=
  match (foldAt s s.cur.fold).bind (fun f => flockAt f s.cur.flock) with
  | some fl => fl.v
  | none => []

/-- Copy one register's 64 lanes from one file to another. -/
def copyReg (src dst : Cells Word) (r : Nat) : Cells Word :=
  lanes.foldl (fun c l => cset 0 c (r * 64 + l) (cget 0 src (r * 64 + l))) dst

/-- A pair (R88): both halves read before either writes; SRCOUNT and FFLAGS pass from half 0 to half 1; a trap of
either leaves neither's effect, half 0's first. -/
def issuePair (s : State) (h0 : Instr) (h1 : Option Instr) : Host.Outcome State Fault Refusal :=
  match h1 with
  | none => exec h0 (atPos s .half0 true)
  | some i1 =>
    match exec h0 (atPos s .half0 false) with
    | .fault f => .fault f
    | .refused r => .refused r
    | .next a =>
      if notRetired s a then .next a
      else
        match exec i1 (atPos s .half1 false) with
        | .fault f => .fault f
        | .refused r => .refused r
        | .next t =>
          if notRetired s t then .next t
          else
            let old := curV s
            let new := curV a
            onNext (exec i1 (atPos (onFlock a s.cur.fold s.cur.flock (fun fl => { fl with v := old })) .half1 true))
              (fun b =>
                match halfDst h0 with
                | none => b
                | some d => onFlock b s.cur.fold s.cur.flock (fun fl => { fl with v := copyReg new fl.v d }))

/-- Where the bundle stands in its clause, for the checks of R108. -/
def placeOf (sp : Split) : Place := { av := sp.setA.isSome, bv := sp.setB.isSome, last := sp.left ≤ 1 }

/-- The head half or body bundle at which a split inside its clause stands. -/
def issueBundle (s : State) (e : Env) (w : BitVec 128) : Host.Outcome State Fault Refusal :=
  let bad (b : BadBundle) : State := takeTrap s e.fold.uid e.fi e.idx false (badPos b) (badBundle b)
  if e.sp.headDue then
    match decodeAtHead w with
    | .error b => .next (bad b)
    | .ok (.head _ (some i)) => exec i (atPos s .head true)
    | .ok _ => exec (.nop { g := .always }) (atPos s .head true)
  else
    match decodeInBody (placeOf e.sp) w with
    | .error b => .next (bad b)
    | .ok (.full i) => exec i (atPos s .full true)
    | .ok (.pair i0 i1) => issuePair s i0 i1
    | .ok (.head _ _) => .next s

/-- The bundle of the issuing split stays to be issued again: it has stalled. -/
def stillDue (e : Env) (t : State) : Bool :=
  match (foldAt t e.fold.uid).bind (fun f => flockAt f e.fi) with
  | none => false
  | some fl =>
    fl.stall.isSome || (match fl.handler with
      | some h => h.sp.wait != .none
      | none => (fl.splits[e.idx]?).any (fun sp => sp.pc == e.sp.pc && sp.wait != .none))

/-- The live split that carries the issuing split's bundle: in a handler, the trapping split. -/
def liveSplit (e : Env) : Option Split := e.fl.splits[e.idx]?

/-- What remains of the issuing split notes the clk of its bundle; the counter of ISSUED counts each clk once (R322, R353). -/
def countIssued (e : Env) (t : State) : State :=
  let now := t.clock + 1
  let mine (sp : Split) : Bool := sp.mask &&& e.mask != 0
  let t1 := onFlock t e.fold.uid e.fi (fun fl =>
    { fl with splits := fl.splits.modify ((fl.splits.findIdx? mine).getD fl.splits.length) (fun sp => { sp with issued := now }) })
  if (liveSplit e).any (fun sp => sp.issued == now) then t1
  else
    let c := coreAt t1 e.fold.core
    putCore t1 e.fold.core { c with stallClk := addCode c.stallClk e.ctx.id 0 1 }

/-- The round-robins go on behind the pair that has issued (R44). -/
def passTurn (e : Env) (t : State) : State :=
  { onQuad t e.fold.core e.fl.quad (fun q => { q with turn := (rrPlace e.fl e.idx + 1) % 64 }) with
    rrQuad := e.fold.core * 4 + e.fl.quad + 1 }

/-- The trap regs of TRET are read before it ends the handler: a bundle has trapped or failed its fold. -/
def aborted (s t : State) : Bool :=
  match (foldAt s s.cur.fold).bind (fun f => flockAt f s.cur.flock),
        (foldAt t s.cur.fold), (foldAt t s.cur.fold).bind (fun f => flockAt f s.cur.flock) with
  | some a, some g, some b => g.fail.isSome || (a.handler.isNone && b.handler.isSome)
  | _, _, _ => true

/-- The record of a bundle in a flock, where the quadrant has tagged its next one for the context (R350, R351): `e` is the
issuing split at issue, `s` the state before, `t` the state after. -/
def noteSample (s : State) (e : Env) (w : BitVec 128) (abort : Bool) (t : State) : State :=
  let c := coreAt s e.fold.core
  match c.quads[e.fl.quad]? with
  | none => t
  | some q =>
    if !q.tag.contains e.ctx.id then t
    else
      let rec' : SampleRec :=
        { ord := (if abort then 0x80000000 else 0) + e.sp.ord.setWidth 32, pc := e.sp.pc, mask := e.mask,
          clock := s.clock, stall := ((liveSplit e).map (fun sp => sp.code)).getD 0, levels := t.cur.levels,
          narrow := c.narrow, route := routeClk w }
      let t1 := onQuad t e.fold.core e.fl.quad (fun x => { x with tag := x.tag.filter (· != e.ctx.id) })
      onFlock (writeSample t1 e.fold.uid e.fi) e.fold.uid e.fi (fun fl => { fl with sample := some rec' })

/-- What the device notes of a bundle that has issued, `s` before and `t` after it. A bundle that has stalled is none; it
takes its turn all the same. -/
def noteIssue (s : State) (e : Env) (w : BitVec 128) (t : State) : State :=
  passTurn e (if stillDue e t then t else countIssued e (noteSample s e w (aborted s t) t))

/-- The lane mask of the split whose bundle has trapped: TRAPSPLIT; where the fold has failed without a trap, the issuing
split's. -/
def trappedMask (e : Env) (t : State) : LaneMask :=
  match (foldAt t e.fold.uid).bind (fun f => (flockAt f e.fi).map (fun fl => (f, fl))) with
  | some (f, fl) => if f.fail = some 0x302 then e.mask else fl.trap.split
  | none => e.mask

/-- A bundle that has trapped at its head, at its fetch or for a cause delivered there, from `s` to `t`: a tagged one is
abandoned (R351). -/
def noteAbort (s : State) (e : Env) (t : State) : State :=
  if aborted s t then
    let w := match fetchBundle s e e.sp.pc with
      | .ok (w, _) => w
      | _ => 0
    noteSample s { e with mask := trappedMask e t } w true t
  else t

/-- The issuing split after `clauseStart`, from `s` to `t`. -/
inductive HeadStart where
  /-- The clause has started and its half is due. -/
  | half
  /-- It has started and the half holds no instruction: the H bundle has issued, of a split with the mask of the merge and
  the safe point that it has started. -/
  | issued (e : Env)
  | none

def headStarted (s t : State) : HeadStart :=
  match envOf s .always, envOf t .always with
  | some a, some b =>
    if aborted s t then .none
    else if b.sp.headDue then .half
    else if b.sp.pc == a.sp.pc + 16 then .issued { b with sp := { b.sp with pc := a.sp.pc } }
    else .none
  | _, _ => .none

/-- The start of a clause as an issue: an H bundle whose half is empty has issued with it, and one that traps is
abandoned. -/
def issueHead (s : State) (e : Env) : State :=
  let t := clauseStart s
  match headStarted s t with
  | .half => t
  | .issued b => noteIssue s b 2 t
  | .none => passTurn e (noteAbort s e t)

/-- A bundle inside a clause: a waiting cause is delivered, or the bundle is fetched, checked and run (R326). -/
def issueInside (s : State) (e : Env) : Host.Outcome State Fault Refusal :=
  let trapped (t : State) : Host.Outcome State Fault Refusal := .next (noteAbort s e t)
  match asyncTrap s e.fold.uid e.fi e.idx with
  | some t => trapped t
  | none =>
    match fetchBundle s e e.sp.pc with
    | .trap t => trapped (takeTrap (noteOffline s e.ctx e.fold.core t) e.fold.uid e.fi e.idx false .full t)
    | .stall w => .next (markWait s e w)
    | .page p => .next (stallFlock s e p)
    | .ok (w, s1) => onNext (issueBundle s1 e w) (fun t => { noteIssue s1 e w t with free := t.free + 1 })

/-- A split issues: its clause starts, or its next bundle issues. -/
def issueSplit (r : SplitRef) (s0 : State) : Host.Outcome State Fault Refusal :=
  if !mayIssue s0 r then .next s0
  else
    let s := { s0 with cur := { fold := r.fold, flock := r.flock, split := r.split, pos := .full, last := true, levels := [] } }
    match envOf s .always with
    | none => .next s
    | some e =>
      if !e.sp.inside then .next (issueHead s e)
      else match pathsReady s r.fold r.flock with
        | .stop t => .next t
        | .trap t x => .next (noteAbort s e (trapAfter t r.fold r.flock r.split x))
        | .go s1 =>
          match envOf s1 .always with
          | none => .next s1
          | some e1 => issueInside s1 e1

end Sys2Proof.Machine
end

