-- ==== Sys2Proof/Machine/Moves.lean ====
section
/-! DEFINITION. One move of the device or of the outside, and the device's own choice when none is prescribed. -/

namespace Sys2Proof.Machine

/-! ### What the device may do of itself -/

/-- The steps that a flock's accesses may take next. -/
def flockEvents (f : Fold) (i : Nat) (fl : Flock) : List Instr :=
  let r : FlockRef := { fold := f.uid, flock := i }
  fl.loads.map (fun p => .loadLand r p.id ((p.words.head?.map (fun w => w.lane)).getD 0))
    ++ fl.stores.map (fun p => .storePerformed r p.id)
    ++ fl.dflags.map (fun d => .redDApply r d.2.1 d.1)
    ++ (if f.preempt then [.flockPreemptStop r] else [])
    ++ [.activeSetSwap r]

/-- The steps of a fold and its flocks. -/
def foldEvents (f : Fold) : List Instr :=
  ((List.range f.flocks.length).flatMap (fun i => match f.flocks[i]? with
    | some fl => flockEvents f i fl
    | none => []))
    ++ (if f.drb.isEmpty then [] else [.drbDrain f.uid])
    ++ [.foldRetire f.uid, .foldSwapOut f.uid, .fleeceWrite f.uid, .watchdog f.uid]

/-- The steps of an engine command of a core. -/
def cmdEvents (k : Nat) (c : Cmd) : List Instr :=
  let item := ((List.range (c.ended.length + 1)).find? (fun n => !c.ended.contains n)).getD 0
  if !c.started then [.engineCommandStart k c.id]
  else [.mmaStepEnd k c.id, .mmaComplete k c.id, .mtreeExecute k c.id, .amMoveComplete k c.id, .copyItemEnd k c.id item,
        .copyFinish k c.id]

/-- The steps of the cores. -/
def coreEvents (s : State) : List Instr :=
  (List.range s.cores.length).flatMap (fun k =>
    let c := coreAt s k
    c.cmds.flatMap (cmdEvents k) ++ (if c.narrow then [.engineWiden k] else [])
      ++ (List.range c.quads.length).flatMap (fun q => match c.quads[q]? with
          | none => []
          | some x =>
            (if x.pending.isEmpty then [] else [.pendingReadyTimeout k q])
              ++ (if s.ctxs.any (fun c => c.sampling.k != 0) then [.sampleTag k q] else [])
              ++ (if x.active.isEmpty then [] else [.sampleRecord k q])))

/-- The steps of the Shepherd, of the CPC and of power. -/
def deviceEvents (s : State) : List Instr :=
  (if s.boot == .off then [.powerOnBoot] else [])
    ++ s.ctxs.flatMap (fun c => c.faults.map (fun f => .faultTimeout c.id f.id)
        ++ (c.queue.filter (fun q => !q.started)).map (fun q => .launchStart c.id q.index)
        ++ c.timers.map (fun t => .sliceTimerExpiry c.id t.1))
    ++ s.launches.map (fun l => .stepStart l.uid)
    ++ (if s.launches.isEmpty then []
        else [0, 1, 2, 3].flatMap (fun d => [.foldRestore d, .foldDispatch d, .dispatchStarvationTimeout d,
                                             .preemptRequest d]))
    ++ (if s.dieCtl.isSome then [.diectlStageEnd] else [])
    ++ [0, 1, 2, 3].flatMap (fun d => [.powerAlarmRaise d, .powerAlarmClear d, .thermtrip d])

/-- Every step that the device might take of itself, in the order in which it tries them. -/
def background (s : State) : List Instr := s.folds.flatMap foldEvents ++ coreEvents s ++ deviceEvents s

/-- The first event that changes the state. -/
def firstEvent (s : State) : List Instr → Option Instr
  | [] => none
  | i :: r =>
    match exec i s with
    | .next t => if t = s then firstEvent s r else some i
    | _ => firstEvent s r

/-- The ready pairs whose turn it is (R44), with their quadrants. -/
def readySplits (s : State) : List (SplitRef × Nat) :=
  s.folds.flatMap (fun f =>
    ((List.range f.flocks.length).zip f.flocks).flatMap (fun x =>
      (List.range 4).filterMap (fun k =>
        let r : SplitRef := { fold := f.uid, flock := x.1, split := k }
        if pairReady s f.uid x.2 k && mayIssue s r then some (r, f.core * 4 + x.2.quad) else none)))

/-- The split that issues next: of the first quadrant from `rrQuad` on that has one. -/
def nextSplit (s : State) : Option SplitRef :=
  let far (q : Nat) : Nat := (q + 640 - s.rrQuad % 640) % 640
  match readySplits s with
  | [] => none
  | x :: r => some (r.foldl (fun b y => if far y.2 < far b.2 then y else b) x).1

/-- What the device does next of itself: a step in the background, a bundle, or a clk. -/
def autoMove (s : State) : Move :=
  match firstEvent s (background s) with
  | some i => .event i
  | none =>
    if s.clock * 4 < s.free then .tick 1
    else match nextSplit s with
      | some r => .issue r
      | none => .tick 1

/-! ### Moves -/

/-- The effect of a move. -/
def runMove (m : Move) (s : State) : Host.Outcome State Fault Refusal :=
  match m with
  | .issue r => issueSplit r s
  | .event i => onNext (exec i s) (fun t => { t with free := t.free + 1 })
  | .tick n => .next (tick n s)
  | .hostByte a b => .next { s with hostMem := cset 0 s.hostMem a b }
  | .hostDeny k deny =>
    .next { s with hostDeny := if deny then k :: s.hostDeny.filter (· != k) else s.hostDeny.filter (· != k) }
  | .peerByte a b => .next { s with peerMem := cset 0 s.peerMem a b }
  | .sensor d temp vrail mV deciA mJ =>
    .next (noteHot (putDie s d { dieAt s d with temp := temp, vrail := vrail, mV := mV, deciA := deciA,
                                                mJ := (dieAt s d).mJ + mJ }))
  | .packagePower w other => .next (noteHot { s with packPower := w, otherPower := other })
  | .loadSample r op lane => .next { loadSample r op lane s with free := s.free + 1 }
  | .walkStart d c acc va => .next (walkStart s d c acc va)
  | .tlbFill k c va => .next (tlbFill s k c va)
  | .tlbDrop d c va => .next (putDie s d { dieAt s d with tlb := tlbWithout (dieAt s d).tlb c va })
  | .coreTlbDrop k c va => .next (putCore s k { coreAt s k with tlb := tlbWithout (coreAt s k).tlb c va })
  | .board d a => .next (noteHot { s with boardAlarm := s.boardAlarm.set d a })
  | .flash k img => .next { s with flash := s.flash.set k img }

/-- One step: the first move of the agenda, or the device's own. -/
def stepMove (s : State) : Host.Outcome State Fault Refusal :=
  match s.agenda with
  | [] => runMove (autoMove s) s
  | m :: r => runMove m { s with agenda := r }

end Sys2Proof.Machine
end

