-- ==== Sys2Proof/Machine/Step.lean ====
section
/-! DEFINITION. The step function, and the placing of one bundle for the next step. -/

namespace Sys2Proof.Machine

def step (s : State) : Host.Outcome State Fault Refusal := stepMove s

/-- The state with a bundle of bits `w` where the next step fetches it; bits above `nbits` are 0. -/
def State.withFetchWord (s : State) (nbits w : Nat) : State := placeBundle s (BitVec.ofNat 128 (w % 2 ^ nbits))

end Sys2Proof.Machine
end

