-- ==== Sys2Proof/Machine/Fleece.lean ====
section
/-! DEFINITION. The bytes of a fleece: its header, flock blocks, command images and sections (R335, R336). No address reaches
them; the machine restores a fold from what its `Fold` holds. -/

namespace Sys2Proof.Machine

/-! ### Bytes -/

def wordBytes (w : Word) : List Byte := leBytes 4 w.toNat

/-- A list of bytes cut or filled up with zeros to `n`. -/
def fitTo (n : Nat) (bs : List Byte) : List Byte := (bs ++ List.replicate n 0).take n

/-- One word for each lane, in the lanes' order. -/
def wordsOfLanes (f : Nat → Word) : List Byte := lanes.flatMap (fun l => wordBytes (f l))

/-- A number with one bit set if a condition holds. -/
def bitIf (b : Bool) (n : Nat) : Nat := if b then 2 ^ n else 0

/-! ### Flock blocks (R336) -/

/-- The record of a live split. -/
def splitRecord (sp : Split) : List Byte :=
  let flag (o : Option (BitVec 4)) (at' : Nat) : Nat := match o with
    | none => 0
    | some c => (1 + 2 * c.toNat) * 2 ^ at'
  leBytes 8 sp.pc.toNat ++ leBytes 8 sp.mask.toNat
    ++ leBytes 4 (1 + bitIf sp.inside 1 + flag sp.setA 2 + flag sp.setB 7) ++ List.replicate 12 0

/-- The record of an imprecise cause, or zeros. -/
def causeRecord (fl : Flock) (cause : Nat) : List Byte :=
  match fl.records.find? (fun r => r.cause == cause) with
  | none => List.replicate 24 0
  | some r => leBytes 4 r.cause ++ leBytes 4 (recordDetail r) ++ leBytes 8 r.addr.toNat ++ leBytes 8 r.age

/-- TRAPCAUSE, TRAPDETAIL, TRAPPC and TRAPSPLIT. -/
def trapBytes (t : TrapRegs) : List Byte :=
  wordBytes t.cause ++ wordBytes t.detail ++ leBytes 8 t.pc.toNat ++ leBytes 8 t.split.toNat

/-- The first half of a flock block: scalar registers, splits, slots, flags and counters. -/
def blockHead (fl : Flock) : List Byte :=
  (List.range 128).flatMap (fun r => wordBytes (cget 0 fl.s r))
    ++ (List.range 128).flatMap (fun r => wordBytes (cget 0 fl.sh r))
    ++ fitTo 128 (fl.splits.flatMap splitRecord)
    ++ (List.range 16).flatMap (fun k => leBytes 8 (cget 0 fl.f k).toNat)
    ++ leBytes 4 fl.q.toNat
    ++ (List.range 12).flatMap (fun k => leBytes 1 (cget 0 fl.c k))
    ++ wordBytes fl.fflags
    ++ leBytes 4 (fl.batchNext.toNat + fl.batchDone.toNat * 65536)
    ++ leBytes 4 fl.dflush
    ++ leBytes 4 fl.stack.length
    ++ leBytes 4 (bitIf fl.handler.isSome 0 + bitIf (finished fl) 1)
    ++ leBytes 4 fl.shq.toNat
    ++ leBytes 8 ((fl.handler.map (fun h => h.sp.pc.toNat)).getD 0)
    ++ trapBytes fl.trap
    ++ [1, 2, 3].flatMap (causeRecord fl)

/-- The second half: what each lane has, and the top 32 entries of the pending-path stack, the top first. -/
def blockTail (fl : Flock) : List Byte :=
  wordsOfLanes (predImage fl) ++ wordsOfLanes (indexImage fl) ++ wordsOfLanes (cget 0 fl.srcount) ++ wordsOfLanes (cget 0 fl.dseq)
    ++ fitTo 512 ((fl.stack.take 32).flatMap entryBytes)

/-- The 4 KiB block of a flock. -/
def flockBlock (fl : Flock) : List Byte := fitTo 4096 (fitTo 2048 (blockHead fl) ++ blockTail fl)

/-! ### Command images (R307, R335) -/

/-- The lowest item of a copy that has not ended. -/
def lowItem (c : Cmd) : Nat := ((List.range (c.ended.length + 1)).find? (fun i => !c.ended.contains i)).getD 0

/-- The elements of an item. -/
def elemsOf (c : Cmd) (o : CopyOp) (item : Nat) : List (Nat × Nat × Nat) :=
  match (copyItems c o)[item]? with
  | none => []
  | some (res, blk) => itemElems c res blk

/-- The position under `.cmp` at the start of an item: the elements written before it. -/
def cmpPlace (c : Cmd) (o : CopyOp) (item : Nat) : Nat :=
  if o.sel = 2 then (((elemsOf c o item).map (fun x => x.1)).head?).getD c.plan.length else 0

/-- The bytes that items have written through the destination record, in ascending order. -/
def wroteOf (c : Cmd) (o : CopyOp) (items : List Nat) : List Byte :=
  let blks := items.filterMap (fun i => match (copyItems c o)[i]? with
    | some (false, b) => some b
    | _ => none)
  (c.wrote.filter (fun x => blks.contains (x.1 / 4096))).map (fun x => x.2)

/-- The source bytes of items, in ascending order. -/
def gotOf (c : Cmd) (o : CopyOp) (items : List Nat) : List Byte :=
  let a := tensorOf c.src
  let at' := (items.flatMap (elemsOf c o)).flatMap (fun x => bytesOf (a.bitPos x.2.1) a.f.w)
  (c.got.filter (fun x => at'.contains x.1)).map (fun x => x.2)

/-- The state of a checksum over bytes. -/
def crcState (on : Bool) (bs : List Byte) : Nat := if on then crcRun 0xFFFFFFFF bs else 0

/-- The progress of a copy: 0x018 to 0x037 of its image. COMPACTOVF and INDEX have no place in it (R335): the command itself
keeps them (log entry 43). -/
def progressBytes (c : Cmd) (o : CopyOp) : List Byte :=
  let n := lowItem c
  leBytes 4 n ++ leBytes 4 (cmpPlace c o n)
    ++ leBytes 4 c.fl.toNat ++ leBytes 4 c.failed.length
    ++ leBytes 4 (match c.failed with
                  | [] => 0xFFFFFFFF
                  | x :: r => r.foldl min x)
    ++ leBytes 4 (crcState o.crcd (wroteOf c o (List.range n))) ++ leBytes 4 (crcState o.crcs (gotOf c o (List.range n)))
    ++ leBytes 4 ((List.range 3).foldl (fun m i => m + bitIf (c.ended.contains (n + 1 + i)) i) 0)

/-- The partial checksums of the items in the mask. -/
def partBytes (c : Cmd) (o : CopyOp) : List Byte :=
  (List.range 3).flatMap (fun i =>
    let item := lowItem c + 1 + i
    if c.ended.contains item then
      leBytes 4 (crcState o.crcd (wroteOf c o [item])) ++ leBytes 4 (crcState o.crcs (gotOf c o [item]))
    else List.replicate 8 0)

/-- The 1 KiB image of a command: its bundle, its rows, its progress and its operands as read. -/
def commandImage (c : Cmd) : List Byte :=
  let prog := match c.instr with
    | .copy o => progressBytes c o
    | _ => List.replicate 32 0
  let part := match c.instr with
    | .copy o => partBytes c o
    | _ => List.replicate 24 0
  fitTo 1024 (fitTo 256 (leBytes 16 (((encode c.instr).map (fun w => w.toNat)).getD 0) ++ leBytes 8 c.rows.toNat
      ++ fitTo 40 prog ++ fitTo 64 (c.regs.flatMap wordBytes))
    ++ wordsOfLanes (cget 0 c.vR) ++ wordsOfLanes (cget 0 c.srcount) ++ part)

/-! ### The fleece (R335) -/

/-- The first 4 KiB. -/
def fleeceHeader (l : Launch) (f : Fold) (cs : List Cmd) : List Byte :=
  let x := sections l cs.length
  let halted := (List.range f.flocks.length).foldl (fun m i =>
    m + bitIf ((f.flocks[i]?).any haltedFlock) (16 + i)) 0
  fitTo 4096 (leBytes 4 f.foldId ++ wordBytes l.pastid ++ leBytes 4 f.step ++ leBytes 4 l.flocks ++ leBytes 4 (gRegs l)
    ++ leBytes 4 l.lsBytes ++ leBytes 4 l.amtiles ++ leBytes 4 cs.length
    ++ leBytes 4 (halted + (if f.swapped then 2 else 1)) ++ leBytes 4 0 ++ leBytes 8 f.wd ++ leBytes 8 l.kernel.toNat
    ++ leBytes 8 x.cmd ++ leBytes 8 x.am ++ leBytes 8 x.ls ++ leBytes 8 x.v
    ++ (List.range 32).flatMap (fun t => leBytes 8 (cget 0 f.ntag t).toNat))

/-- A section of `n` bytes, filled up to a 4 KiB boundary. -/
def sectionOf (n : Nat) (bs : List Byte) : List Byte := fitTo (up4k n) bs

/-- The bytes of the fleece of a fold with its command images. -/
def fleeceImage (l : Launch) (f : Fold) (cs : List Cmd) : List Byte :=
  fleeceHeader l f cs
    ++ fitTo (4096 * l.flocks) (f.flocks.flatMap flockBlock)
    ++ sectionOf (1024 * cs.length) (cs.flatMap commandImage)
    ++ fitTo (16384 * l.amtiles) ((List.range (4096 * l.amtiles)).flatMap (fun i => wordBytes (cget 0 f.tiles i)))
    ++ sectionOf l.lsBytes (cgetList 0 f.ls 0 l.lsBytes)
    ++ sectionOf (l.flocks * gRegs l * 256) (f.flocks.flatMap (fun fl =>
        (List.range (gRegs l)).flatMap (fun r => wordsOfLanes (fun lane => cget 0 fl.v (r * 64 + lane)))))

/-- The fleece of a fold that is not resident. -/
def fleeceAt (s : State) (uid : Nat) : Option (List Byte) :=
  match foldAt s uid with
  | none => none
  | some f =>
    match launchAt s f.launch, f.place with
    | some l, .fleece _ => some (fleeceImage l f f.images)
    | _, _ => none

end Sys2Proof.Machine
end

