-- ==== Sys2Proof/Safety.lean ====
section
/-! DEFINITION. What a safe run is: every step answers a next state, and memory keeps its canonical form. -/

namespace Sys2Proof

/-- The canonical form of every memory of the package. -/
def Machine.State.memWf (s : Machine.State) : Bool :=
  Machine.Memory.wf s.mem && Machine.Memory.wf s.peerMem && Machine.Memory.wf s.hostMem

/-- An instruction takes its own effect: the split that `cur` names issues it, a handler only as R329 allows, every
vector register that it names is one that the lanes have (R27), and no word that it accesses is pending under check
(R349) or holds an uncorrectable error (R332). -/
structure Machine.Ready (s : Machine.State) (g : Guard) (inHandler : Bool) (n : Machine.Names) (e : Machine.Env) :
    Prop where
  env : Machine.envOf s g = some e
  hand : e.hand = true → inHandler = true ∧ g = .always
  range : ∀ r ∈ n.regs, r < Machine.gRegs e.launch
  pend : Machine.pendReg e n = none
  err : Machine.sramErr e g n = none

/-! ### What an instruction leaves alone -/

/-- A pending load without the marks that later writes leave on its words (R96). -/
def Machine.PendLoad.unhit (p : Machine.PendLoad) : Machine.PendLoad :=
  { p with words := p.words.map (fun w => { w with hit := false }) }

/-- Two flocks differ in vector registers alone, apart from marks on pending words and error marks taken away. -/
structure Machine.VecOnly (a b : Machine.Flock) : Prop where
  rest : b = { a with v := b.v, loads := b.loads, marks := b.marks }
  loads : b.loads.map Machine.PendLoad.unhit = a.loads.map Machine.PendLoad.unhit
  marks : ∀ m ∈ b.marks, m ∈ a.marks

/-- Two flocks differ in scalar registers alone, of the bank in use, apart from the same marks. -/
structure Machine.ScalOnly (hand : Bool) (a b : Machine.Flock) : Prop where
  rest : b = { a with s := b.s, sh := b.sh, loads := b.loads, marks := b.marks }
  bank : if hand then b.s = a.s else b.sh = a.sh
  loads : b.loads.map Machine.PendLoad.unhit = a.loads.map Machine.PendLoad.unhit
  marks : ∀ m ∈ b.marks, m ∈ a.marks

/-- Two flocks differ in uniform predicates alone, of the bank in use, apart from the same marks. -/
structure Machine.UniOnly (hand : Bool) (a b : Machine.Flock) : Prop where
  rest : b = { a with q := b.q, shq := b.shq, loads := b.loads, marks := b.marks }
  bank : if hand then b.q = a.q else b.shq = a.shq
  loads : b.loads.map Machine.PendLoad.unhit = a.loads.map Machine.PendLoad.unhit
  marks : ∀ m ∈ b.marks, m ∈ a.marks

/-- The word that the bank in use holds in a scalar register. -/
def Machine.scalOf (hand : Bool) (fl : Machine.Flock) (r : Nat) : Word :=
  if hand then Machine.cget 0 fl.sh r else Machine.cget 0 fl.s r

/-- The bit that the bank in use holds in a uniform predicate. -/
def Machine.uniOf (hand : Bool) (fl : Machine.Flock) (r : Nat) : Bool :=
  if hand then fl.shq.getLsbD r else fl.q.getLsbD r

/-- The word of a lane in a vector register. -/
def Machine.vecOf (fl : Machine.Flock) (r l : Nat) : Word := Machine.cget 0 fl.v (r * 64 + l)

/-- `n` steps from `s` all answer a next state. -/
def runsFor : Nat → Machine.State → Prop
  | 0, _ => True
  | n + 1, s => ∃ t, Machine.step s = .next t ∧ runsFor n t

end Sys2Proof
end

