-- ==== Sys2Proof/WellFormed.lean ====
section
/-! DEFINITION. Which instructions are well formed: every operand within the limits that R80 to R109 and the
instruction's own description state. An ill-formed instruction has no encoding. Events are well formed when
their numbers lie in the ranges the device has. -/

namespace Sys2Proof

/-- A vector register, pair or group of the given alignment (R87, R181). -/
def Reg.okV (n : Nat) (r : Reg) : Bool := r.toNat % n == 0
/-- A scalar register, pair or group of the given alignment (R87). -/
def Reg.okS (n : Nat) (r : Reg) : Bool := r.toNat < 128 && r.toNat % n == 0
/-- A predicate p0 to p23 (R87). -/
def Reg.okP (r : Reg) : Bool := r.toNat < 24
/-- A uniform predicate q0 to q7 (R87). -/
def Reg.okQ (r : Reg) : Bool := r.toNat < 8
/-- An index register x0 to x3 (R87). -/
def Reg.okX (r : Reg) : Bool := r.toNat < 4
/-- A format slot f0 to f15 (R87). -/
def Reg.okF (r : Reg) : Bool := r.toNat < 16
/-- An accumulator tile a0 to a31 (R87). -/
def Reg.okA (r : Reg) : Bool := r.toNat < 32

/-- A guard names p0 to p23, or is absent (R80, R85). -/
def Guard.ok : Guard → Bool
  | .always => true
  | .pred p _ => p.okP

/-- A routing modifier holds no reserved value (R99). -/
def Route.ok (m : Route) : Bool :=
  let seg := m.extractLsb' 6 3
  let dist := m.extractLsb' 0 6
  match (m.extractLsb' 9 3).toNat with
  | 0 => seg == 0 && dist == 0
  | 4 => seg != 7 && dist.extractLsb' 2 4 == 0
  | 7 => seg != 7 && dist == 0
  | _ => seg != 7

/-- The kinds of source a position accepts. -/
structure Accepts where
  v : Bool := false
  s : Bool := false
  imm : Bool := false
  imm16 : Bool := false
  route : Bool := true
  align : Nat := 1
  deriving DecidableEq, Repr

/-- A source is one the position accepts (R81, R87, R99, R101, R154). -/
def Src.ok (k : Accepts) : Src → Bool
  | .v r m => k.v && r.okV k.align && m.ok && (k.route || m == 0)
  | .s r => k.s && r.okS k.align
  | .imm _ => k.imm
  | .imm16 _ => k.imm16

/-- A format-slot source (R102): an immediate of the full form has no NEG or ABS. -/
def FSrc.ok (k : Accepts) (f : FSrc) : Bool :=
  f.src.ok k && (match f.src with
                 | .imm _ => !f.neg && !f.abs
                 | _ => true)

def acV (n : Nat := 1) : Accepts := { v := true, align := n }
def acS (n : Nat := 1) : Accepts := { s := true, align := n }
def acSI (n : Nat := 1) : Accepts := { s := true, imm := true, align := n }
def acVS (n : Nat := 1) : Accepts := { v := true, s := true, align := n }
def acVSI (n : Nat := 1) : Accepts := { v := true, s := true, imm := true, align := n }
/-- `vsi` in an instruction with a short form: also a 16-bit immediate. -/
def acVSIh : Accepts := { v := true, s := true, imm := true, imm16 := true }

def optOk (k : Accepts) : Option Src → Bool
  | none => true
  | some s => s.ok k

/-- In the restricted form of a binary short opcode, DST is source A and the guard is all else it names (R107). -/
def shortBinary (d : Reg) (a b : Src) : Bool :=
  match b with
  | .imm16 _ => a == .v d 0
  | _ => true

/-- The same for the format-slot shapes: no NEG or ABS on A, and no tensor identifier. -/
def shortBinaryF (d : Reg) (a b : FSrc) (tid : Option (BitVec 5)) : Bool :=
  match b.src with
  | .imm16 _ => a == ⟨.v d 0, false, false⟩ && tid.isNone
  | _ => true

/-- A code of SCOPE is not reserved (R182). -/
def scopeOk (s : BitVec 4) : Bool := s.toNat < 12

/-- ORD and SCOPE of a load or store (R182). -/
def orderOk (ord : BitVec 2) (s : BitVec 4) : Bool := scopeOk s && ord != 3 && (ord != 0 || s == 0)

/-- SIZE of a load or store (R181). -/
def sizeOk (store : Bool) (n : BitVec 3) : Bool := n != 7 && !(store && (n == 1 || n == 3))

def sizeAlign (n : BitVec 3) : Nat := if n == 5 then 2 else if n == 6 then 4 else 1

/-- The number names a system register, and the register's width in words (R144). -/
def sysregWidth (n : BitVec 8) : Option Nat :=
  match n.toNat with
  | 0x00 | 0x01 | 0x02 | 0x03 | 0x04 | 0x05 | 0x06 | 0x07 | 0x08 | 0x09 | 0x0A => some 1
  | 0x0B => some 2
  | 0x10 => some 2
  | 0x11 | 0x12 | 0x13 | 0x14 | 0x15 => some 1
  | 0x16 => some 2
  | 0x20 | 0x21 => some 1
  | 0x22 | 0x23 => some 2
  | _ => none

def Tab3Op.ok (k : Reg → Bool) (o : Tab3Op) : Bool := o.g.ok && k o.d && k o.a && k o.b && k o.c
def S2Op.ok (n : Nat) (o : S2Op) : Bool := o.g.ok && o.d.okS n && o.a.okS n && o.b.ok (acSI n)
def S2UOp.ok (o : S2UOp) : Bool := o.g.ok && o.d.okS 1 && o.a.okS 1 && o.b.ok acSI
def S3Op.ok (o : S3Op) : Bool := o.g.ok && o.d.okS 1 && o.a.okS 1 && o.b.okS 1 && o.c.ok acSI
def V1Op.ok (o : V1Op) : Bool := o.g.ok && o.a.ok acVS
def V2Op.ok (o : V2Op) : Bool := o.g.ok && o.a.ok acVS && o.b.ok acVSI
def V2Op.okShort (o : V2Op) : Bool := o.g.ok && o.a.ok acVS && o.b.ok acVSIh && shortBinary o.d o.a o.b
def V2UOp.ok (o : V2UOp) : Bool := o.g.ok && o.a.ok acVS && o.b.ok acVSI
def V2UOp.okShort (o : V2UOp) : Bool := o.g.ok && o.a.ok acVS && o.b.ok acVSIh && shortBinary o.d o.a o.b
def V3Op.ok (o : V3Op) : Bool := o.g.ok && o.a.ok acVS && o.b.ok acVS && o.c.ok acVSI
def VCarryOp.ok (o : VCarryOp) : Bool :=
  o.g.ok && o.a.ok acVS && o.b.ok acVS && o.po.all Reg.okP && o.pi.all Reg.okP
def F1Op.ok (o : F1Op) : Bool :=
  o.g.ok && o.a.ok acVSIh && (!(match o.a.src with
                                | .imm16 _ => true
                                | _ => false) || o.tid.isNone)
def F2Op.okFull (o : F2Op) : Bool := o.g.ok && o.a.ok acVS && o.b.ok acVSIh && shortBinaryF o.d o.a o.b o.tid
def MemOp.ok (store : Bool) (o : MemOp) : Bool :=
  o.g.ok && sizeOk store o.size && orderOk o.ord o.scope && o.hint != 3 && o.d.okV (sizeAlign o.size)
    && o.a.okS 2 && o.idx.ok acVS && optOk acSI o.off
def SMemOp.ok (store : Bool) (o : SMemOp) : Bool :=
  o.g.ok && sizeOk store o.size && orderOk o.ord o.scope && o.hint != 3 && o.d.okS (sizeAlign o.size)
    && o.a.okS 2 && optOk acSI o.off
def PMemOp.ok (o : PMemOp) : Bool :=
  o.g.ok && orderOk o.ord o.scope && o.hint != 3 && o.a.okS 2 && o.b.okS 1 && optOk acSI o.count
def LMemOp.ok (store : Bool) (o : LMemOp) : Bool :=
  o.g.ok && sizeOk store o.size && orderOk o.ord o.scope && o.d.okV (sizeAlign o.size) && o.a.ok acVS
    && optOk acSI o.off
def XMemOp.ok (store : Bool) (o : XMemOp) : Bool :=
  o.g.ok && sizeOk store o.size && orderOk o.ord o.scope && o.d.okV (sizeAlign o.size) && o.k.ok acVS
    && o.a.ok acVS && optOk acSI o.off

def AtomFn.isFloat : AtomFn → Bool
  | .fadd | .fmin | .fmax => true
  | _ => false

/-- The operand of an atomic: a vector group for CAS, a pair for `.64` (R196). -/
def atomOperandOk (fn : AtomFn) (wide : Bool) (c : Src) : Bool :=
  if fn = .cas then c.ok (acV (if wide then 4 else 2)) else c.ok (acVSI (if wide then 2 else 1))

/-- FS and WIDTH by the operation (R196). -/
def atomFormOk (fn : AtomFn) (wide : Bool) (fs : BitVec 4) (hint : BitVec 2) : Bool :=
  hint != 3 && (if fn.isFloat then !wide else fs == 0)

def BarwOp.ok (o : BarwOp) : Bool := o.g.ok && o.d.okQ && o.a.okS 1 && o.p.okS 1
def NOp.ok (o : NOp) : Bool := o.g.ok
def Msg.ok (m : Msg) : Bool := m.ep < 257
def isMode (m : BitVec 3) : Bool := m.toNat < 6

/-- The instruction is well formed. -/
def Instr.wf : Instr → Bool
  | .nop o => o.g.ok
  | .bra o =>
    o.g.ok && o.disp.extractLsb' 0 4 == 0 && (match o.cond with
                                              | none => true
                                              | some (q, _) => q.okQ)
  | .brx o => o.g.ok && o.p.okP && o.disp.extractLsb' 0 4 == 0
  | .bri o => o.g.ok && o.a.okS 2
  | .call o => o.g.ok && o.d.okV 2 && o.disp.extractLsb' 0 4 == 0
  | .ret o => o.g.ok && o.a.okV 2
  | .loop o => o.g.ok && o.d.okS 1 && o.disp.extractLsb' 0 4 == 0
  | .exit o => o.g.ok
  | .yield o => o.g.ok
  | .waitf o => o.g.ok
  | .pltab o => o.ok Reg.okP
  | .pmovTov o => o.g.ok
  | .pmovFromv o => o.g.ok && o.rt.ok
  | .poll o =>
    o.g.ok && o.a.okP && (match o.mode with
                          | .mask => o.d.okS 2
                          | .count => o.d.okS 1
                          | _ => o.d.okQ)
  | .qltab o => o.ok Reg.okQ
  | .qset o => o.g.ok && o.d.okQ && o.a.ok acSI
  | .sadd o => o.ok 1
  | .ssub o => o.ok 1
  | .smul o => o.ok 1
  | .smulh o => o.ok
  | .smad o => o.ok
  | .sadd64 o => o.ok 2
  | .sltab o => o.g.ok && o.d.okS 1 && o.a.okS 1 && o.b.okS 1 && o.c.ok acSI
  | .sshl o => o.ok 1
  | .sshr o => o.ok 1
  | .ssra o => o.ok 1
  | .smin o => o.ok
  | .smax o => o.ok
  | .sbfe o => o.ok
  | .sbfi o => o.ok
  | .spopc o => o.g.ok && o.d.okS 1 && o.a.ok acSI
  | .sclz o => o.g.ok && o.d.okS 1 && o.a.ok acSI
  | .smov o => o.g.ok && o.d.okS 1 && o.a.ok acVS
  | .smovi o => o.g.ok && o.d.okS 1
  | .scmp o => o.g.ok && o.d.okQ && o.a.okS 1 && o.b.ok acSI
  | .ssel o => o.g.ok && o.d.okS 1 && o.c.okQ && o.a.okS 1 && o.b.ok acSI
  | .iadd o => o.okShort
  | .isub o => o.okShort
  | .iaddc o => o.ok
  | .isubb o => o.ok
  | .imul o => o.okShort
  | .imulh o => o.ok
  | .imad o => o.ok
  | .imadw o => o.g.ok && o.d.okV 2 && o.a.ok acVS && o.b.ok acVS && o.c.ok (acVSI 2)
  | .iadd64 o => o.g.ok && o.d.okV 2 && o.a.ok (acVS 2) && o.b.ok (acVSI 2)
  | .iabs o => o.ok
  | .imin o => o.okShort
  | .imax o => o.okShort
  | .ltab o =>
    o.g.ok && o.b.ok acVS
      && (match o.c with
          | .imm16 w =>
            w == 0 && (if o.lut == 0x33 then o.a == .imm16 0
                       else (o.lut == 0x88 || o.lut == 0xEE || o.lut == 0x66 || o.lut == 0x22) && o.a == .v o.d 0)
          | c => o.a.ok acVS && c.ok acVSI)
  | .shl o => o.okShort
  | .shr o => o.okShort
  | .sra o => o.okShort
  | .fshl o => o.ok
  | .fshr o => o.ok
  | .bfe o => o.ok
  | .bfi o => o.ok
  | .brev o => o.ok
  | .popc o => o.ok
  | .clz o => o.ok
  | .bmix o => o.ok
  | .icmp o => o.g.ok && o.d.okP && o.a.ok acVS && o.b.ok acVSI
  | .sel o => o.g.ok && o.c.okP && o.a.ok acVS && o.b.ok acVSI
  | .mov o => o.g.ok && o.rt.ok
  | .movi o => o.g.ok && o.a.ok { imm := true, imm16 := true }
  | .movs o => o.g.ok && o.a.okS (if o.pair then 2 else 1) && (!o.pair || o.d.okV 2)
  | .movxTox o => o.g.ok && o.d.okX && o.rt.ok
  | .movxFromx o => o.g.ok && o.a.okX
  | .fadd o => o.okFull
  | .fsub o => o.okFull
  | .fmul o => o.okFull
  | .fma o => o.g.ok && o.a.ok acVS && o.b.ok acVS && o.c.ok acVSI
  | .fmin o => o.okFull
  | .fmax o => o.okFull
  | .fcmp o => o.g.ok && o.d.okP && o.a.ok acVS && o.b.ok acVSI
  | .fclass o => o.g.ok && o.a.ok acVS
  | .frint o => o.g.ok && o.a.ok acVS && o.mode.all isMode
  | .fscale o =>
    o.g.ok && o.a.ok acVS && o.b.ok acVSIh && shortBinaryF o.d o.a ⟨o.b, false, false⟩ o.tid
  | .cvt o =>
    o.g.ok && o.a.ok acVS && o.scrt.ok && optOk acSI o.tid && (o.row || o.part == 0)
      && (!o.short || (o.part == 0 && o.sc == 0 && o.scrt == 0 && o.tid.isNone))
  | .cvtef o =>
    o.g.ok && o.d.okV 2 && o.a.ok acVS && o.scrt.ok && optOk acSI o.tid && (o.row || o.part == 0)
  | .pack o => o.g.ok && o.rt.ok
  | .unpack o => o.g.ok && o.rt.ok
  | .fdrw o => o.g.ok && o.a.ok (acSI 2)
  | .fdrr o => o.g.ok && o.d.okS 2
  | .rcp o => o.ok
  | .rsq o => o.ok
  | .sqrt o => o.ok
  | .exp2 o => o.ok
  | .log2 o => o.ok
  | .sin o => o.ok
  | .cos o => o.ok
  | .tanh o => o.ok
  | .div o => o.okFull
  | .redl o =>
    o.g.ok && o.a.ok acVS && o.seg != 7 && (o.fs == 0 || o.op = .fadd || o.op = .fmin || o.op = .fmax)
  | .scanl o =>
    o.g.ok && o.a.ok acVS && o.seg != 7 && (o.fs == 0 || o.op = .fadd || o.op = .fmin || o.op = .fmax)
  | .matchv o => o.g.ok && o.d.okV 2 && o.a.okV (if o.pair then 2 else 1) && o.rt.ok && o.pe.all Reg.okP
  | .bdec o => o.g.ok && o.a.okS 1 && o.width.ok { v := true, imm := true }
  | .ld o => o.ok false
  | .st o => o.ok true
  | .ldp o => o.ok
  | .stp o => o.ok
  | .stm o =>
    o.g.ok && orderOk o.ord o.scope && o.hint != 3 && o.a.okS 2 && o.b.ok acVS && o.m.ok acVSI
  | .ldl o => o.ok false
  | .stl o => o.ok true
  | .ldx o => o.ok false
  | .stx o => o.ok true
  | .sld o => o.ok false
  | .sst o => o.ok true
  | .atom o =>
    o.g.ok && scopeOk o.scope && atomFormOk o.fn o.wide o.fs o.hint && o.d.okV (if o.wide then 2 else 1)
      && o.a.okS 2 && o.idx.ok acVS && atomOperandOk o.fn o.wide o.c
  | .red o =>
    o.g.ok && scopeOk o.scope && atomFormOk o.fn o.wide o.fs o.hint && o.fn ≠ .swap && o.fn ≠ .cas
      && (o.ord == 0 || o.ord == 2) && o.a.okS 2 && o.idx.ok acVS && atomOperandOk o.fn o.wide o.c
  | .redD o =>
    o.g.ok && atomFormOk o.fn o.wide o.fs o.hint && o.fn ≠ .swap && o.fn ≠ .cas && o.a.okS 2 && o.idx.ok acVS
      && atomOperandOk o.fn o.wide o.c
  | .dflush o => o.g.ok && o.scope.toNat < 3
  | .fence o => o.g.ok && scopeOk o.scope && o.ord != 0
  | .mwait o => o.g.ok && scopeOk o.scope && o.d.all (Reg.okS 2) && o.a.okS 2 && o.e.ok (acSI 2)
  | .pref o => o.g.ok && o.level != 3 && o.a.okS 2 && o.idx.ok acVS && optOk acSI o.off
  | .cctl o =>
    o.g.ok && o.op.toNat < 4
      && (match o.addr with
          | none => o.op == 0
          | some (a, idx, off) => o.op != 0 && a.okS 2 && idx.ok acVS && optOk acSI off)
  | .mma o =>
    o.g.ok && o.d.okA && o.p.okS 16 && o.fb.okF && (if o.mode = .acc then o.c.okA else o.c == 0)
      && !(o.msk && o.mode = .node) && (o.msk || !o.mv)
  | .mtree o => o.g.ok && o.d.okA && o.w.okA && (if o.mode = .acc then o.c.okA else o.c == 0)
  | .amld o => o.g.ok && o.d.okA && o.a.okS 1 && o.t.all (Reg.okS 2)
  | .amst o => o.g.ok && o.a.okS 1 && o.s.okA
  | .amz o => o.g.ok && o.d.okA
  | .amcvt o => o.g.ok && o.a.okS 1 && o.s.okA && optOk acSI o.t
  | .copy o =>
    o.g.ok && scopeOk o.scope && o.p.okS 8 && (!o.ef || (o.cvt && o.p.toNat ≤ 112)) && o.sel != 3
      && (o.mode == 0 || (!o.cvt && !o.tr && !o.ef && o.sel == 0)) && o.bar.all (Reg.okS 1)
  | .cpyb o => o.g.ok && o.d.all (Reg.okS 1)
  | .waitb o => o.g.ok && o.a.ok acSI
  | .bari o => o.g.ok && o.a.okS 1 && o.n.ok acSI
  | .bara o => o.g.ok && o.d.okS 1 && o.a.okS 1 && optOk acSI o.b
  | .barw o => o.ok && o.flg = .none
  | .bart o => o.ok
  | .launch o => o.g.ok && o.d.okS 2 && o.a.okS 2
  | .lwait o => o.g.ok && o.a.all (Reg.okS 1)
  | .trap o => o.ok
  | .tret o => o.g.ok
  | .tkill o => o.ok
  | .brk o => o.ok
  | .srd o =>
    o.g.ok && (match sysregWidth o.n with
               | none => false
               | some w => if o.vec then o.d.okV w else o.d.okS w)
  | .swr o =>
    o.g.ok && (sysregWidth o.n).isSome
      && o.a.ok { v := o.n == 0x11, s := true, imm := true, route := false }
  | .sgetl o => o.g.ok && o.d.okS 1 && o.a.ok { v := true, s := true, route := false } && o.l.ok acSI
  | .sputl o => o.g.ok && (if o.own then o.d.okS 1 else true) && o.a.okS 1 && o.l.ok acSI
  | .sgetp o => o.g.ok && o.d.okS 1 && (o.which = .uniform || o.l.isSome) && optOk acSI o.l
  | .sputp o => o.g.ok && o.a.okS 1 && (o.which = .uniform || o.l.isSome) && optOk acSI o.l
  -- events: the numbers name units the device has (R9, R12, R355)
  | .pendingReadyTimeout core quad => core < 160 && quad < 4
  | .loadLand _ _ lane => lane < 64
  | .l1Eviction core _ => core < 160
  | .engineCommandStart core _ => core < 160
  | .mmaStepEnd core _ => core < 160
  | .mmaComplete core _ => core < 160
  | .mtreeExecute core _ => core < 160
  | .amMoveComplete core _ => core < 160
  | .copyItemEnd core _ _ => core < 160
  | .copyFinish core _ => core < 160
  | .redDApply _ scope _ => scope.toNat < 3
  | .foldDispatch die => die < 4
  | .dispatchStarvationTimeout die => die < 4
  | .preemptRequest die => die < 4
  | .sliceTimerExpiry ctx die => ctx < 256 && die < 4
  | .foldRestore die => die < 4
  | .sampleTag core quad => core < 160 && quad < 4
  | .sampleRecord core quad => core < 160 && quad < 4
  | .powerAlarmRaise die => die < 4
  | .powerAlarmClear die => die < 4
  | .engineWiden core => core < 160
  | .thermtrip die => die < 4
  | .connectionSetup ep => ep < 257
  | .connectionClose ep => ep < 257
  | .ualinkLinkDrop port => port < 64
  | .launchStart ctx _ => ctx < 256
  | .launchMessage m _ => m.ok
  | .copyMessage m _ => m.ok
  | .mapInvalidate m _ _ => m.ok
  | .mapUnresolvable m _ => m.ok
  | .contextCreate m _ => m.ok
  | .contextDestroy m _ => m.ok
  | .contextModify m _ => m.ok
  | .contextPreempt m _ => m.ok
  | .queryL2Counters m _ => m.ok
  | .queryCoreCounters m _ => m.ok
  | .queryTrace m _ => m.ok
  | .queryPower m _ => m.ok
  | .querySoftErrors m _ => m.ok
  | .queryAttestation m _ _ => m.ok
  | .queryJournalHead m _ => m.ok
  | .queryRoutingRead m _ => m.ok
  | .queryRoutingWrite m _ _ => m.ok
  | .journal m _ _ _ => m.ok
  | .dieWithdraw m _ => m.ok
  | .dieReadmit m _ => m.ok
  | .dieReset m _ => m.ok
  | .dieCarve m _ _ => m.ok
  | .attach m _ => m.ok
  | .detach m _ => m.ok
  | .halt m _ => m.ok
  | .resume m _ => m.ok
  | .step m _ => m.ok
  | .break m _ => m.ok
  | .unbreak m _ => m.ok
  | .read m _ => m.ok
  | .write m _ _ => m.ok
  | .pendchk m _ => m.ok
  | .sample m _ => m.ok
  | .clauseStart _ => true
  | .activeSetSwap _ => true
  | .storePerformed _ _ => true
  | .pageWalkComplete r _ _ => r.die < 4 && r.ctx < 257
  | .faultTimeout ctx _ => ctx < 256
  | .drbDrain _ => true
  | .stepStart _ => true
  | .foldRetire _ => true
  | .foldSwapOut _ => true
  | .flockPreemptStop _ => true
  | .fleeceWrite _ => true
  | .watchdog _ => true
  | .powerOnBoot => true
  | .rdmaWrite ep _ _ _ => ep < 257
  | .rdmaRead ep _ _ _ => ep < 257
  | .rdmaInvalidRequest ep => ep < 257
  | .peerAccess _ => true
  | .diectlStageEnd => true
  | .softError _ => true
  | .sidebandNewImage _ => true

end Sys2Proof
end

