-- ==== Sys2Proof/Certificates/Slice0/Obligations.lean ====
section
/-! DEFINITION. The statements about the model. Each docstring names the rule of spec/ that it formalises. `Ready`
(Safety.lean) says when an instruction has its own effect; a row below gives, for each instruction of one shape, its
guard, the registers it names, its destination and the value that the rule gives. -/

namespace Sys2Proof.Slice0

open Machine

/-- The state that an instruction of one flock leaves: the flock put back, the bundle retired. -/
def left (s : State) (e : Env) (fl : Flock) : State := retire (storeFlock s e fl) e

/-! ### Rows -/

/-- One result in the scalar file, or one bit in the uniform predicates. -/
structure Row (α : Type) where
  g : Guard
  /-- A handler may use the form (R329). -/
  ih : Bool
  names : Names
  d : Nat
  val : α

/-- The shift amount of R140 and R158: the low 8 bits. -/
def amount (b : Word) : Nat := b.toNat % 256

/-- The high word of the exact product (R140, R158). -/
def highWord (u : Bool) (a b : Word) : Word :=
  if u then BitVec.ofNat 32 (a.toNat * b.toNat / 2 ^ 32) else BitVec.ofInt 32 (a.toInt * b.toInt / 2 ^ 32)

/-- The smaller and the larger word, as unsigned or signed integers. -/
def smaller (u : Bool) (a b : Word) : Word :=
  if u then BitVec.ofNat 32 (min a.toNat b.toNat) else BitVec.ofInt 32 (min a.toInt b.toInt)
def larger (u : Bool) (a b : Word) : Word :=
  if u then BitVec.ofNat 32 (max a.toNat b.toNat) else BitVec.ofInt 32 (max a.toInt b.toInt)

/-- The conditions of R143 on integers. -/
def holds : ICond → Word → Word → Bool
  | .eq, a, b => decide (a = b)
  | .ne, a, b => decide (a ≠ b)
  | .lt, a, b => decide (a.toInt < b.toInt)
  | .le, a, b => decide (a.toInt ≤ b.toInt)
  | .gt, a, b => decide (b.toInt < a.toInt)
  | .ge, a, b => decide (b.toInt ≤ a.toInt)
  | .ltu, a, b => decide (a.toNat < b.toNat)
  | .leu, a, b => decide (a.toNat ≤ b.toNat)
  | .gtu, a, b => decide (b.toNat < a.toNat)
  | .geu, a, b => decide (b.toNat ≤ a.toNat)

/-- POWSTAT of a die (R376). -/
def power (s : State) (die : Nat) : BitVec 32 :=
  let d := dieAt s die
  let narrow := ((s.cores.drop (die * Config.coresPerDie)).take Config.coresPerDie).any (fun c => c.narrow)
  0#12 ++ (d.temp ++ (d.vrail ++ (0#2 ++ (BitVec.ofBool d.alarm ++ BitVec.ofBool narrow))))

/-- The contents of a system register as a lane of the issuing split sees it, from the table of R144; FFLAGS has clauses of
its own. -/
def content (s : State) (e : Env) (l : Nat) : Nat → Option DWord
  | 0x00 => some (BitVec.ofNat 64 l)
  | 0x01 => some 64
  | 0x02 => some 2048
  | 0x03 => some (BitVec.ofNat 64 (e.fi % 2 ^ 32))
  | 0x04 => some (BitVec.ofNat 64 (e.fold.foldId % 2 ^ 32))
  | 0x05 => some (BitVec.ofNat 64 (e.fold.foldId / e.launch.drove % 2 ^ 32))
  | 0x06 => some (e.launch.pastid.setWidth 64)
  | 0x07 => some (BitVec.ofNat 64 (e.fold.step % 2 ^ 32))
  | 0x08 => some (BitVec.ofNat 64 (e.fold.die % 2 ^ 32))
  | 0x09 => some (BitVec.ofNat 64 (e.fold.core % 2 ^ 32))
  | 0x0A => some (BitVec.ofNat 64 (e.launch.depth % 2 ^ 32))
  | 0x0B => some e.mask
  | 0x10 => some e.launch.srseed
  | 0x11 => some ((cget 0 e.fl.srcount l).setWidth 64)
  | 0x12 => some (e.fl.batchNext.setWidth 64)
  | 0x13 => some (e.fl.batchDone.setWidth 64)
  | 0x15 => some ((power s e.fold.die).setWidth 64)
  | 0x16 => some (BitVec.ofNat 64 s.clock)
  | 0x20 => some (e.fl.trap.cause.setWidth 64)
  | 0x21 => some (e.fl.trap.detail.setWidth 64)
  | 0x22 => some e.fl.trap.pc
  | 0x23 => some e.fl.trap.split
  | _ => none

/-- FFLAGS with the flags of the atomics in flight, and a flock whose FFLAGS holds them (R76). -/
def allFlags (fl : Flock) : Word := fl.loads.foldl (fun x p => x ||| p.flags.setWidth 32) fl.fflags
def drained (fl : Flock) : Flock :=
  { fl with fflags := allFlags fl, loads := fl.loads.map (fun p => { p with flags := 0 }) }

def sRow2 (e : Env) (o : S2Op) (f : Word → Word → Word) : Row Word :=
  ⟨o.g, true, { srcNames 1 [.s o.a, o.b] with sw := [o.d.toNat] }, o.d.toNat, f (readS e 0 o.a.toNat) (srcS e 1 o.b)⟩

def sRow2u (e : Env) (o : S2UOp) (f : Word → Word → Word) : Row Word :=
  ⟨o.g, true, { srcNames 1 [.s o.a, o.b] with sw := [o.d.toNat] }, o.d.toNat, f (readS e 0 o.a.toNat) (srcS e 1 o.b)⟩

def sRow3 (e : Env) (g : Guard) (d a b : Reg) (c : Src) (f : Word → Word → Word → Word) : Row Word :=
  ⟨g, true, { srcNames 1 [.s a, .s b, c] with sw := [d.toNat] }, d.toNat,
   f (readS e 0 a.toNat) (readS e 1 b.toNat) (srcS e 2 c)⟩

def sRow1 (e : Env) (g : Guard) (d : Reg) (a : Src) (f : Word → Word) : Row Word :=
  ⟨g, true, { srcNames 1 [a] with sw := [d.toNat] }, d.toNat, f (srcS e 0 a)⟩

/-- The instructions with one scalar word as their result (R140 to R142, R152, R139, R145). -/
def scalRow (s : State) (e : Env) : Instr → Option (Row Word)
  | .sadd o => some (sRow2 e o (fun a b => a + b))
  | .ssub o => some (sRow2 e o (fun a b => a - b))
  | .smul o => some (sRow2 e o (fun a b => a * b))
  | .smulh o => some (sRow2u e o (highWord o.u))
  | .smad o => some (sRow3 e o.g o.d o.a o.b o.c (fun a b c => a * b + c))
  | .sltab o => some (sRow3 e o.g o.d o.a o.b o.c (lutWord o.lut))
  | .sshl o => some (sRow2 e o (fun a b => a <<< amount b))
  | .sshr o => some (sRow2 e o (fun a b => a >>> amount b))
  | .ssra o => some (sRow2 e o (fun a b => a.sshiftRight (amount b)))
  | .smin o => some (sRow2u e o (smaller o.u))
  | .smax o => some (sRow2u e o (larger o.u))
  | .sbfe o => some (sRow2u e o (bfeW o.u))
  | .sbfi o => some (sRow3 e o.g o.d o.a o.b o.c bfiW)
  | .spopc o => some (sRow1 e o.g o.d o.a popW)
  | .sclz o => some (sRow1 e o.g o.d o.a clzW)
  | .smovi o => some (sRow1 e o.g o.d (.imm o.imm) (fun a => a))
  | .smov o =>
    (match o.a with
     | .v r rt =>
       let l := lowestLane e.act
       some ⟨o.g, false, { vx := [(l, r.toNat, routeLane e rt l)], vn := [r.toNat],
                           xl := (routeIdx rt).map (fun x => (x, l)), sw := [o.d.toNat] }, o.d.toNat,
             readV e 0 r.toNat (routeLane e rt l)⟩
     | x => some ⟨o.g, true, { s := sOf 1 x, sw := [o.d.toNat] }, o.d.toNat, srcS e 0 x⟩)
  | .ssel o =>
    some ⟨o.g, true, { srcNames 1 [.s o.a, o.b] with s := (srcNames 1 [.s o.a, o.b]).s ++ [qKey o.c.toNat],
                                                        sw := [o.d.toNat] }, o.d.toNat,
          if rdQ e o.c.toNat != o.neg then readS e 0 o.a.toNat else srcS e 1 o.b⟩
  | .poll o =>
    (match o.mode with
     | .count => some ⟨o.g, false, { sw := [o.d.toNat], pr := [o.a.toNat] }, o.d.toNat,
                       BitVec.ofNat 32 (laneCount (e.act &&& (if o.neg then ~~~(cget 0 e.fl.p o.a.toNat)
                                                              else cget 0 e.fl.p o.a.toNat)))⟩
     | _ => none)
  | .srd o =>
    if o.vec || sysWide o.n.toNat then none
    else (content s e (lowestLane e.act) o.n.toNat).map (fun v =>
      ⟨o.g, true, { sw := [o.d.toNat] }, o.d.toNat, loWord v⟩)
  | .sgetl o =>
    (match o.a with
     | .v r _ =>
       let l := (srcS e 1 o.l).toNat % 64
       some ⟨o.g, true, { vx := [(l, r.toNat, l)], vn := [r.toNat], s := sOf 1 o.l, sw := [o.d.toNat] }, o.d.toNat,
             readV e 0 r.toNat l⟩
     | .s r =>
       some ⟨o.g, true, { os := [r.toNat], s := sOf 1 o.l, sw := [o.d.toNat] }, o.d.toNat, readOwn e 0 r.toNat⟩
     | _ => none)
  | .sgetp o =>
    let l := (optS e 0 o.l).toNat % 64
    let n : Names := { s := (optSrc o.l).flatMap (sOf 1), sw := [o.d.toNat] }
    (match o.which with
     | .preds => some ⟨o.g, true, { n with pl := (List.range 24).map (fun r => (r, l)) }, o.d.toNat, predImage e.fl l⟩
     | .index => some ⟨o.g, true, { n with xl := (List.range 4).map (fun r => (r, l)) }, o.d.toNat, indexImage e.fl l⟩
     | .uniform => some ⟨o.g, true, { n with os := (List.range 8).map qKey }, o.d.toNat, ownQ e⟩)
  | _ => none

/-- Two flocks agree in every scalar register of the bank in use but `d`, which holds `w` where Active is not empty. -/
def ScalarIs (e : Env) (fl : Flock) (d : Nat) (w : Word) : Prop :=
  ScalOnly e.hand e.fl fl ∧
    ∀ r, scalOf e.hand fl r = if e.act ≠ 0 ∧ r = d then w else scalOf e.hand e.fl r

/-- The instructions with one pair of scalar words as their result (R140, R174, R139, R145). -/
def pairRow (s : State) (e : Env) : Instr → Option (Row DWord)
  | .sadd64 o =>
    some ⟨o.g, true, { srcNames 2 [.s o.a, o.b] with sw := [o.d.toNat, o.d.toNat + 1] }, o.d.toNat,
          readS2 e 0 o.a.toNat + srcS2 e 1 o.b⟩
  | .fdrr o => some ⟨o.g, false, { sw := [o.d.toNat, o.d.toNat + 1] }, o.d.toNat, cget 0 e.fl.f o.fs.toNat⟩
  | .poll o =>
    (match o.mode with
     | .mask => some ⟨o.g, false, { sw := [o.d.toNat, o.d.toNat + 1], pr := [o.a.toNat] }, o.d.toNat,
                      e.act &&& (if o.neg then ~~~(cget 0 e.fl.p o.a.toNat) else cget 0 e.fl.p o.a.toNat)⟩
     | _ => none)
  | .srd o =>
    if o.vec || !sysWide o.n.toNat then none
    else (content s e (lowestLane e.act) o.n.toNat).map (fun v =>
      ⟨o.g, true, { sw := [o.d.toNat, o.d.toNat + 1] }, o.d.toNat, v⟩)
  | _ => none

/-- The instructions with one uniform predicate as their result (R138, R139, R143). -/
def uniRow (e : Env) : Instr → Option (Row Bool)
  | .scmp o =>
    some ⟨o.g, true, { srcNames 1 [.s o.a, o.b] with sw := [qKey o.d.toNat] }, o.d.toNat,
          holds o.cond (readS e 0 o.a.toNat) (srcS e 1 o.b)⟩
  | .qltab o =>
    some ⟨o.g, true, { s := [qKey o.a.toNat, qKey o.b.toNat, qKey o.c.toNat], sw := [qKey o.d.toNat] }, o.d.toNat,
          o.lut.getLsbD ((rdQ e o.a.toNat).toNat + 2 * (rdQ e o.b.toNat).toNat + 4 * (rdQ e o.c.toNat).toNat)⟩
  | .qset o =>
    some ⟨o.g, true, { srcNames 1 [o.a] with sw := [qKey o.d.toNat] }, o.d.toNat, decide (srcS e 0 o.a ≠ 0)⟩
  | .poll o =>
    let p := if o.neg then ~~~(cget 0 e.fl.p o.a.toNat) else cget 0 e.fl.p o.a.toNat
    (match o.mode with
     | .every => some ⟨o.g, false, { sw := [qKey o.d.toNat], pr := [o.a.toNat] }, o.d.toNat, decide (e.act &&& p = e.act)⟩
     | .some => some ⟨o.g, false, { sw := [qKey o.d.toNat], pr := [o.a.toNat] }, o.d.toNat, decide (e.act &&& p ≠ 0)⟩
     | .same => some ⟨o.g, false, { sw := [qKey o.d.toNat], pr := [o.a.toNat] }, o.d.toNat,
                      decide (e.act &&& p = e.act ∨ e.act &&& p = 0)⟩
     | _ => none)
  | _ => none

/-! ### Vector results -/

def vRow2 (e : Env) (g : Guard) (d : Reg) (a b : Src) (f : Word → Word → Word) : Row (Nat → Word) :=
  ⟨g, false, { srcNames 1 [a, b] with vw := [d.toNat] }, d.toNat, fun l => f (srcV e 0 a l) (srcV e 1 b l)⟩

def vRow3 (e : Env) (g : Guard) (d : Reg) (a b c : Src) (f : Word → Word → Word → Word) : Row (Nat → Word) :=
  ⟨g, false, { srcNames 1 [a, b, c] with vw := [d.toNat] }, d.toNat,
   fun l => f (srcV e 0 a l) (srcV e 1 b l) (srcV e 2 c l)⟩

def vRow1 (e : Env) (g : Guard) (d : Reg) (a : Src) (f : Word → Word) : Row (Nat → Word) :=
  ⟨g, false, { srcNames 1 [a] with vw := [d.toNat] }, d.toNat, fun l => f (srcV e 0 a l)⟩

/-- The funnel amount of R161: at most 32. -/
def funnelAmt (c : Word) : Nat := min (c.toNat % 256) 32

/-- The vector instructions with one word for each lane as their result (R138, R145, R158, R161, R162, R166, R173). -/
def vecRow (s : State) (e : Env) : Instr → Option (Row (Nat → Word))
  | .iadd o => some (vRow2 e o.g o.d o.a o.b (fun a b => a + b))
  | .isub o => some (vRow2 e o.g o.d o.a o.b (fun a b => a - b))
  | .imul o => some (vRow2 e o.g o.d o.a o.b (fun a b => a * b))
  | .imulh o => some (vRow2 e o.g o.d o.a o.b (highWord o.u))
  | .imad o => some (vRow3 e o.g o.d o.a o.b o.c (fun a b c => a * b + c))
  | .iabs o => some (vRow1 e o.g o.d o.a (fun a => BitVec.ofInt 32 |a.toInt|))
  | .imin o => some (vRow2 e o.g o.d o.a o.b (smaller o.u))
  | .imax o => some (vRow2 e o.g o.d o.a o.b (larger o.u))
  | .ltab o => some (vRow3 e o.g o.d o.a o.b o.c (lutWord o.lut))
  | .shl o => some (vRow2 e o.g o.d o.a o.b (fun a b => a <<< amount b))
  | .shr o => some (vRow2 e o.g o.d o.a o.b (fun a b => a >>> amount b))
  | .sra o => some (vRow2 e o.g o.d o.a o.b (fun a b => a.sshiftRight (amount b)))
  | .fshl o =>
    some (vRow3 e o.g o.d o.a o.b o.c (fun a b c =>
      BitVec.ofNat 32 ((a.toNat * 2 ^ 32 + b.toNat) * 2 ^ funnelAmt c / 2 ^ 32)))
  | .fshr o =>
    some (vRow3 e o.g o.d o.a o.b o.c (fun a b c => BitVec.ofNat 32 ((a.toNat * 2 ^ 32 + b.toNat) / 2 ^ funnelAmt c)))
  | .bfe o => some (vRow2 e o.g o.d o.a o.b (bfeW o.u))
  | .bfi o => some (vRow3 e o.g o.d o.a o.b o.c bfiW)
  | .brev o => some (vRow1 e o.g o.d o.a brevW)
  | .popc o => some (vRow1 e o.g o.d o.a popW)
  | .clz o => some (vRow1 e o.g o.d o.a clzW)
  | .bmix o => some (vRow3 e o.g o.d o.a o.b o.c bmixW)
  | .sel o =>
    some ⟨o.g, false, { srcNames 1 [o.a, o.b] with vw := [o.d.toNat], pr := [o.c.toNat] }, o.d.toNat,
          fun l => if rdP e.fl o.c.toNat l != o.neg then srcV e 0 o.a l else srcV e 1 o.b l⟩
  | .mov o => some (vRow1 e o.g o.d (.v o.a o.rt) (fun a => a))
  | .movi o => some (vRow1 e o.g o.d o.a (fun a => a))
  | .movs o =>
    if o.pair then none
    else some ⟨o.g, false, { srcNames 1 [.s o.a] with vw := [o.d.toNat] }, o.d.toNat, fun _ => readS e 0 o.a.toNat⟩
  | .movxFromx o =>
    some ⟨o.g, false, { vw := [o.d.toNat], xr := [o.a.toNat] }, o.d.toNat,
          fun l => (cget 0 e.fl.x (o.a.toNat * 64 + l)).setWidth 32⟩
  | .pmovTov o => some ⟨o.g, false, { vw := [o.d.toNat], pr := List.range 24 }, o.d.toNat, predImage e.fl⟩
  | .fclass o =>
    some ⟨o.g, false, { srcNames 1 [o.a.src] with vw := [o.d.toNat] }, o.d.toNat,
          fun l => classMask (slotFdr e o.fs) o.a.neg o.a.abs (srcCode e (slotFdr e o.fs) false 0 o.a.src l)⟩
  | .unpack o =>
    let w := (slotFdr e o.fs).w
    let held := (actLanes e).filter (fun l => o.k.toNat * 64 + l < 2048 / w)
    let xs := held.flatMap (fun l => (rowLanes w [o.k.toNat * 64 + l]).map (fun m => (l, m)))
    some ⟨o.g, false, { routedReads e o.a o.rt xs with vw := [o.d.toNat] }, o.d.toNat, fun l =>
      let c := rowElem (routedRow e 0 o.a o.rt) w (o.k.toNat * 64 + l)
      if 2048 / w ≤ o.k.toNat * 64 + l then 0
      else if o.sext && decide (2 ^ (w - 1) ≤ c) then BitVec.ofInt 32 ((c : Int) - 2 ^ w) else BitVec.ofNat 32 c⟩
  | .srd o =>
    if !o.vec || sysWide o.n.toNat || (content s e 0 o.n.toNat).isNone then none
    else some ⟨o.g, false, { vw := [o.d.toNat] }, o.d.toNat, fun l => loWord ((content s e l o.n.toNat).getD 0)⟩
  | _ => none

/-- The vector instructions with a pair for each lane as their result (R145, R160, R162). -/
def vecPairRow (s : State) (e : Env) : Instr → Option (Row (Nat → DWord))
  | .imadw o =>
    some ⟨o.g, false, { (srcNames 1 [o.a, o.b]).also (srcNames 2 [o.c]) with vw := [o.d.toNat, o.d.toNat + 1] },
          o.d.toNat, fun l =>
            let a := srcV e 0 o.a l
            let b := srcV e 1 o.b l
            (if o.u then BitVec.ofNat 64 (a.toNat * b.toNat) else BitVec.ofInt 64 (a.toInt * b.toInt)) + srcV2 e 2 o.c l⟩
  | .iadd64 o =>
    some ⟨o.g, false, { srcNames 2 [o.a, o.b] with vw := [o.d.toNat, o.d.toNat + 1] }, o.d.toNat,
          fun l => srcV2 e 0 o.a l + srcV2 e 1 o.b l⟩
  | .movs o =>
    if o.pair then
      some ⟨o.g, false, { srcNames 2 [.s o.a] with vw := [o.d.toNat, o.d.toNat + 1] }, o.d.toNat,
            fun _ => readS2 e 0 o.a.toNat⟩
    else none
  | .srd o =>
    if !o.vec || !sysWide o.n.toNat then none
    else some ⟨o.g, false, { vw := [o.d.toNat, o.d.toNat + 1] }, o.d.toNat,
               fun l => (content s e l o.n.toNat).getD 0⟩
  | _ => none

/-- The instructions with one predicate bit for each lane as their result (R138, R162, R165). -/
def predRow (e : Env) : Instr → Option (Row (Nat → Bool))
  | .icmp o =>
    some ⟨o.g, false, srcNames 1 [o.a, o.b], o.d.toNat, fun l => holds o.cond (srcV e 0 o.a l) (srcV e 1 o.b l)⟩
  | .fcmp o =>
    let f := slotFdr e o.fs
    some ⟨o.g, false, srcNames 1 [o.a.src, o.b.src], o.d.toNat,
          fun l => condNum o.cond (srcNum e f false 0 o.a l) (srcNum e f false 1 o.b l)⟩
  | .pltab o =>
    some ⟨o.g, false, { pr := [o.a.toNat, o.b.toNat, o.c.toNat] }, o.d.toNat, fun l =>
      o.lut.getLsbD ((rdP e.fl o.a.toNat l).toNat + 2 * (rdP e.fl o.b.toNat l).toNat
                       + 4 * (rdP e.fl o.c.toNat l).toNat)⟩
  | _ => none

end Sys2Proof.Slice0

section

open Sys2Proof Sys2Proof.Machine Sys2Proof.Slice0

/-- R76, R140 to R142, R144, R152, R174, R376: every instruction with one scalar word or one pair of scalar words as
its result completes, writes it where Active is not empty, and leaves every other register alone. The pairs are those
of SADD64, FDRR and the forms of POLL and SRD. SRD reads what the tables of R144 and R376 give; FFLAGS with the flags
of the atomics in flight, which no longer raise them. CLOCK reads alike in every core (the model's choice, log entry
3). -/
def Obligations.ScalarWordResults : Prop :=
  (∀ (i : Instr) (s : State) (e : Env) (row : Row Word), scalRow s e i = some row → Ready s row.g row.ih row.names e →
    ∃ fl, exec i s = .next (left s e fl) ∧ ScalarIs e fl row.d row.val) ∧
  (∀ (o : SrdOp) (s : State) (e : Env), o.n = 0x14 → o.vec = false → Ready s o.g true { sw := [o.d.toNat] } e →
    (e.act = 0 → exec (.srd o) s = .next (left s e e.fl)) ∧
    (e.act ≠ 0 → ∃ fl, exec (.srd o) s = .next (left s e fl) ∧ ScalarIs { e with fl := drained e.fl } fl o.d.toNat (allFlags e.fl))) ∧
  ∀ (i : Instr) (s : State) (e : Env) (row : Row DWord), pairRow s e i = some row → Ready s row.g row.ih row.names e →
    ∃ fl, exec i s = .next (left s e fl) ∧ ScalOnly e.hand e.fl fl ∧
      ∀ r, scalOf e.hand fl r
        = if e.act ≠ 0 ∧ r = row.d then loWord row.val
          else if e.act ≠ 0 ∧ r = row.d + 1 then hiWord row.val else scalOf e.hand e.fl r

/-- R138, R139, R143, R162, R165: SCMP, QLTAB, QSET and the forms of POLL that write a uniform predicate write that
one, where Active is not empty; ICMP, FCMP and PLTAB write one predicate in the lanes of Active. -/
def Obligations.PredicateResults : Prop :=
  (∀ (i : Instr) (s : State) (e : Env) (row : Row Bool), uniRow e i = some row → row.d < 8 →
    Ready s row.g row.ih row.names e →
    ∃ fl, exec i s = .next (left s e fl) ∧ UniOnly e.hand e.fl fl ∧
      ∀ r, uniOf e.hand fl r = if e.act ≠ 0 ∧ r = row.d then row.val else uniOf e.hand e.fl r) ∧
  ∀ (i : Instr) (s : State) (e : Env) (row : Row (Nat → Bool)), predRow e i = some row →
    Ready s row.g row.ih row.names e →
    ∃ fl, exec i s = .next (left s e fl) ∧ fl = { e.fl with p := fl.p, marks := fl.marks } ∧
      (∀ m ∈ fl.marks, m ∈ e.fl.marks) ∧
      ∀ r l, l < 64 → rdP fl r l = if r = row.d ∧ inMask e.act l then row.val l else rdP e.fl r l

/-- R76, R144, R158, R160 to R162, R376: every vector instruction with one word or one pair of words for each lane as
its result completes; each lane of Active takes its own, and every other lane and register keeps its own. The pairs
are those of IMADW, IADD64 and the forms of MOVS and SRD; SRD as for a scalar destination. CLOCK reads alike in every
core (the model's choice, log entry 3). -/
def Obligations.VectorWordResults : Prop :=
  (∀ (i : Instr) (s : State) (e : Env) (row : Row (Nat → Word)), vecRow s e i = some row →
    Ready s row.g row.ih row.names e →
    ∃ fl, exec i s = .next (left s e fl) ∧ VecOnly e.fl fl ∧
      ∀ r l, l < 64 → vecOf fl r l = if r = row.d ∧ inMask e.act l then row.val l else vecOf e.fl r l) ∧
  (∀ (o : SrdOp) (s : State) (e : Env), o.n = 0x14 → o.vec = true → Ready s o.g false { vw := [o.d.toNat] } e →
    (e.act = 0 → exec (.srd o) s = .next (left s e e.fl)) ∧
    (e.act ≠ 0 → ∃ fl, exec (.srd o) s = .next (left s e fl) ∧ VecOnly (drained e.fl) fl ∧
      ∀ r l, l < 64 → vecOf fl r l = if r = o.d.toNat ∧ inMask e.act l then allFlags e.fl else vecOf e.fl r l)) ∧
  ∀ (i : Instr) (s : State) (e : Env) (row : Row (Nat → DWord)), vecPairRow s e i = some row →
    Ready s row.g row.ih row.names e →
    ∃ fl, exec i s = .next (left s e fl) ∧ VecOnly e.fl fl ∧
      ∀ r l, l < 64 → vecOf fl r l
        = if r = row.d ∧ inMask e.act l then loWord (row.val l)
          else if r = row.d + 1 ∧ inMask e.act l then hiWord (row.val l) else vecOf e.fl r l

end

namespace Sys2Proof.Slice0

open Machine

/-! ### Carries, elements and conversions -/

/-- IADDC and ISUBB (R159): the word and the carry of a lane. -/
def carryRow : Instr → Option (VCarryOp × (Word → Word → Bool → Word × Bool))
  | .iaddc o =>
    some (o, fun a b c => (a + b + (if c then 1 else 0), decide (2 ^ 32 ≤ a.toNat + b.toNat + c.toNat)))
  | .isubb o => some (o, fun a b c => (a - b - (if c then 1 else 0), decide (a.toNat < b.toNat + c.toNat)))
  | _ => none

/-- A format-slot instruction: its slot, its mode, whether it draws random bits, and the code and flags of each
element (R155, R156, R163). -/
structure ElemRow where
  g : Guard
  names : Names
  fs : BitVec 4
  row : Bool
  stoch : Bool
  d : Nat
  val : Nat → Nat × BitVec 5

/-- The random word of an element, where the slot rounds stochastically. -/
def drawn (e : Env) (stoch : Bool) (tid : Option (BitVec 5)) (row : Bool) (w i : Nat) : Nat :=
  if stoch then rndWord e (tidWord e tid) row w i else 0

def elem2 (s : State) (e : Env) (o : F2Op) (op : Fdr → Machine.Num → Machine.Num → Machine.Num × BitVec 5) : ElemRow :=
  let f := slotFdr e o.fs
  ⟨o.g, fmtNames s o.g o.fs o.row o.tid o.d [o.a.src, o.b.src], o.fs, o.row, f.rm == 5, o.d.toNat, fun i =>
    rounded f (drawn e (f.rm == 5) o.tid o.row f.w i) (op f (srcNum e f o.row 0 o.a i) (srcNum e f o.row 1 o.b i))⟩

def elem1 (s : State) (e : Env) (o : F1Op) (fn : Machine.Num → FnRes) : ElemRow :=
  let f := slotFdr e o.fs
  ⟨o.g, fmtNames s o.g o.fs o.row o.tid o.d [o.a.src], o.fs, o.row, f.rm == 5, o.d.toNat, fun i =>
    roundFn f f.rm (drawn e (f.rm == 5) o.tid o.row f.w i) (fn (srcNum e f o.row 0 o.a i))⟩

def elemMin (s : State) (e : Env) (o : F2Op) (max : Bool) : ElemRow :=
  let f := slotFdr e o.fs
  ⟨o.g, fmtNames s o.g o.fs o.row none o.d [o.a.src, o.b.src], o.fs, o.row, false, o.d.toNat, fun i =>
    roundTo f (if f.rm = 5 then 0 else f.rm) 0
      (minNum max (srcNum e f o.row 0 o.a i) (srcNum e f o.row 1 o.b i))⟩

/-- The format-slot instructions with a code for each element as their result (R163, R164, R167, R168, R175). -/
def elemRow (s : State) (e : Env) : Instr → Option ElemRow
  | .fadd o => some (elem2 s e o (fun f a b => addNum (f.rm == 3) a b))
  | .fsub o => some (elem2 s e o (fun f a b => addNum (f.rm == 3) a b.negate))
  | .fmul o => some (elem2 s e o (fun _ a b => mulNum a b))
  | .div o => some (elem2 s e o (fun _ a b => divNum a b))
  | .fma o =>
    let f := slotFdr e o.fs
    some ⟨o.g, fmtNames s o.g o.fs o.row o.tid o.d [o.a.src, o.b.src, o.c.src], o.fs, o.row, f.rm == 5, o.d.toNat,
      fun i => rounded f (drawn e (f.rm == 5) o.tid o.row f.w i)
        (fmaNum (f.rm == 3) (srcNum e f o.row 0 o.a i) (srcNum e f o.row 1 o.b i) (srcNum e f o.row 2 o.c i))⟩
  | .fmin o => some (elemMin s e o false)
  | .fmax o => some (elemMin s e o true)
  | .frint o =>
    let f := slotFdr e o.fs
    let rm := frintMode f o.mode
    let n := Machine.elemNames e o.row f.w o.d.toNat [o.a.src]
    if rm = 5 ∧ f.srw = 0 then none
    else some ⟨o.g, { n with s := n.s ++ (if rm = 5 then (o.tid.map (fun r => r.toNat)).toList else []) }, o.fs, o.row, rm == 5, o.d.toNat,
      fun i => frintNum f rm (drawn e (rm == 5) o.tid o.row f.w i) (srcNum e f o.row 0 o.a i)⟩
  | .fscale o =>
    let f := slotFdr e o.fs
    some ⟨o.g, fmtNames s o.g o.fs o.row o.tid o.d [o.a.src, o.b], o.fs, o.row, f.rm == 5, o.d.toNat,
      fun i => roundTo f f.rm (drawn e (f.rm == 5) o.tid o.row f.w i)
        (scaleNum (scaleInt e f o.row o.b i) (srcNum e f o.row 0 o.a i))⟩
  | .rcp o => some (elem1 s e o fnRcp)
  | .rsq o => some (elem1 s e o fnRsq)
  | .sqrt o => some (elem1 s e o fnSqrt)
  | .exp2 o => some (elem1 s e o fnExp2)
  | .log2 o => some (elem1 s e o fnLog2)
  | .sin o => some (elem1 s e o fnSin)
  | .cos o => some (elem1 s e o fnCos)
  | .tanh o => some (elem1 s e o fnTanh)
  | _ => none

/-- The fields of CVT and CVTEF. -/
def cvtArgs : Instr → Option CvtArgs
  | .cvt o =>
    some { g := o.g, fs := o.fs, row := o.row, cs := o.cs, part := o.part.toNat, d := o.d.toNat, a := o.a, sc := o.sc,
           scrt := o.scrt, tid := o.tid, short := o.short, res := none }
  | .cvtef o =>
    some { g := o.g, fs := o.fs, row := o.row, cs := o.cs, part := o.part.toNat, d := o.d.toNat, a := o.a, sc := o.sc,
           scrt := o.scrt, tid := o.tid, short := false, res := some o.res }
  | _ => none

/-- The converted elements: index, place in the destination, code and flags, residue code and flags (R170 to R172). -/
def converted (e : Env) (o : CvtArgs) : List (Nat × Nat × (Nat × BitVec 5) × (Nat × BitVec 5)) :=
  let fd := slotFdr e o.fs
  let fs := slotFdr e o.cs
  let sf := slotFdr e ((scaledSlot fd fs o.fs o.cs).getD 0)
  let sc := slotFdr e (BitVec.ofNat 4 sf.scslot)
  let scaled := fd.blk != 0 || fs.blk != 0
  let srow := if scaled then routedRow e 2 o.sc o.scrt else 0
  (cvtIdx e o.row o.part fs.w fd.w).map (fun x =>
    let scale := if scaled then decodeNum sc (rowElem srow sc.w ((if fd.blk != 0 then x.2.2 else x.2.1) / sf.block))
                 else .zero
    let rnd := if fd.rm = 5 then rndWord e (optS e 7 o.tid) o.row fd.w x.2.2 else 0
    (x.1, x.2.2, cvtElem fd fs (slotFdr e (o.res.getD 0)) scale rnd (srcCode e fs o.row 0 o.a x.2.1)))

/-- The flock after a conversion: residues first, then the results. -/
def afterCvt (e : Env) (o : CvtArgs) : Flock :=
  let fd := slotFdr e o.fs
  let fr := slotFdr e (o.res.getD 0)
  let res := if o.res.isSome then
      (converted e o).filter (fun x => !o.row || (x.1 < 2048 / fr.w && elemActive e.act fr.w x.1))
    else []
  putElems e (putElems e e.fl o.row false fr.w (o.d + 1) (res.map (fun x => (x.1, x.2.2.2.1, x.2.2.2.2))))
    o.row (fd.rm == 5) fd.w o.d ((converted e o).map (fun x => (x.2.1, x.2.2.1.1, x.2.2.1.2)))

/-! ### Lanes together -/

/-- The lanes of Active in the segment of lane `l`, ascending. -/
def segment (e : Env) (seg : BitVec 3) (l : Nat) : List Nat :=
  lanes.filter (fun j => decide (j / segLanes seg = l / segLanes seg) && inMask e.act j)

/-- The word of a source in a lane, as REDL and SCANL take it. -/
def redWord (e : Env) (fs : BitVec 4) (op : RedOp) (a : Src) (l : Nat) : Word :=
  if redFloat op then lowBits (slotFdr e fs).w (srcV e 0 a l) else srcV e 0 a l

/-- The word of REDL in the segment of lane `l` (R176). -/
def redValue (e : Env) (o : RedlOp) (l : Nat) : Word :=
  let n := segLanes o.seg
  let leaf (j : Nat) : Option Word := if inMask e.act j then some (redWord e o.fs o.op o.a j) else none
  ((redTree (slotFdr e o.fs) o.op (Nat.log2 n) ((List.range n).map (fun i => leaf (l / n * n + i)))).1).getD 0

/-- The word of SCANL in lane `l` (R177): the words before it folded one after another, its own last. -/
def scanValue (e : Env) (o : ScanlOp) (l : Nat) : Word :=
  let f := slotFdr e o.fs
  let word (j : Nat) : Word := redWord e o.fs o.op o.a j
  let before := (segment e o.seg l).filter (fun j => decide (j < l))
  let all := if o.excl then before else before ++ [l]
  match all.map word with
  | [] => redIdentity f o.op
  | w :: r => r.foldl (fun x y => (redOp f o.op x y).1) w

/-! ### What no instruction of the register file touches -/

/-- The instructions that act on the registers, flags, predicates, slots and splits of their flock alone. -/
def registerOnly : Instr → Bool
  | .nop _ | .bra _ | .bri _ | .loop _ | .waitf _ => true
  | .pltab _ | .pmovTov _ | .pmovFromv _ | .poll _ | .qltab _ | .qset _ => true
  | .sadd _ | .ssub _ | .smul _ | .smulh _ | .smad _ | .sadd64 _ | .sltab _ | .sshl _ | .sshr _ | .ssra _ => true
  | .smin _ | .smax _ | .sbfe _ | .sbfi _ | .spopc _ | .sclz _ | .smov _ | .smovi _ | .scmp _ | .ssel _ => true
  | .iadd _ | .isub _ | .iaddc _ | .isubb _ | .imul _ | .imulh _ | .imad _ | .imadw _ | .iadd64 _ | .iabs _ => true
  | .imin _ | .imax _ | .ltab _ | .shl _ | .shr _ | .sra _ | .fshl _ | .fshr _ | .bfe _ | .bfi _ | .brev _ => true
  | .popc _ | .clz _ | .bmix _ | .icmp _ | .sel _ | .mov _ | .movi _ | .movs _ | .movxTox _ | .movxFromx _ => true
  | .fadd _ | .fsub _ | .fmul _ | .fma _ | .fmin _ | .fmax _ | .fcmp _ | .fclass _ | .frint _ | .fscale _ => true
  | .cvt _ | .cvtef _ | .pack _ | .unpack _ | .fdrw _ | .fdrr _ | .rcp _ | .rsq _ | .sqrt _ | .exp2 _ | .log2 _ => true
  | .sin _ | .cos _ | .tanh _ | .div _ | .redl _ | .scanl _ | .matchv _ | .trap _ | .tret _ | .tkill _ => true
  | .srd _ | .swr _ | .sgetl _ | .sputl _ | .sgetp _ | .sputp _ => true
  | _ => false

/-! ### Control -/

/-- The state in which the whole issuing split stands at an address, outside any clause. -/
def moved (s : State) (e : Env) (fl : Flock) (pc : DWord) : State :=
  storeFlock s e (putSplit e fl (outside e.sp pc))

/-- The address of the next bundle (R127), and a direct target (R125). -/
def next (e : Env) : DWord := e.sp.pc + 16
def target (e : Env) (disp : BitVec 32) : DWord := e.sp.pc + disp.signExtend 64

/-- Bits [3:0] cleared (R129, R132). -/
def aligned (a : DWord) : DWord := a &&& 0xFFFFFFFFFFFFFFF0

/-- A push has room: in the hardware entries, or the oldest of them goes to a spill address that can be written (R40). -/
def pushRoom (s : State) (e : Env) (fl : Flock) : Prop :=
  fl.stack.length < 256 ∧
    (fl.hw < 32 ∨
      ∃ sp, spillAccess s e.fold e.launch e.ctx .write (spillAddr e.ctx e.fold fl (fl.stack.length - 32)) = .ok sp)

/-- How R39 leaves a flock: the issuing split keeps the taken lanes at the target, and the others go on at the next
bundle in a split of their own or on the stack. -/
def Divided (s : State) (e : Env) (fl : Flock) (taken : LaneMask) (dest : DWord) (t : State) : Prop :=
  let rest := e.mask &&& ~~~taken
  let keep := fl.splits.set e.idx { outside e.sp dest with mask := taken }
  if rest = 0 then t = moved s e fl dest
  else if taken = 0 then t = moved s e fl (next e)
  else if fl.splits.length < 4 then
    t = storeFlock s e { fl with splits := keep ++ [childSplit e.sp (next e) rest] }
  else flockOf t e.fold.uid e.fi
      = some { fl with splits := keep, stack := { pc := next e, mask := rest, path := e.sp.path, pass := false } :: fl.stack,
                       hw := if fl.hw < 32 then fl.hw + 1 else fl.hw }

/-- BRX and CALL: guard, names, the flock after the link, the taken lanes, the target (R130, R131). -/
def divideRow (e : Env) : Instr → Option (Guard × Names × Flock × LaneMask × DWord)
  | .brx o =>
    some (o.g, { pr := [o.p.toNat] }, e.fl,
          e.act &&& (if o.neg then ~~~(cget 0 e.fl.p o.p.toNat) else cget 0 e.fl.p o.p.toNat), target e o.disp)
  | .call o =>
    some (o.g, { vw := [o.d.toNat, o.d.toNat + 1] }, setLanes2 e.fl o.d.toNat e.act (fun _ => next e), e.act,
          target e o.disp)
  | _ => none

/-- The address to which RET sends a lane (R132). -/
def retAddr (e : Env) (a : Reg) (l : Nat) : Nat :=
  if inMask e.act l then (aligned (pair (readV e 0 a.toNat l) (readV e 0 (a.toNat + 1) l))).toNat else (next e).toNat

/-- The lanes of SplitMask that RET sends to an address. -/
def retLanes (e : Env) (a : Reg) (x : Nat) : LaneMask := maskOf (fun l => inMask e.mask l && retAddr e a l == x)

/-- The address of the group that the issuing split keeps. -/
def retKeep (e : Env) (a : Reg) : Nat :=
  if e.act = 0 then (next e).toNat else retAddr e a (lowestLane e.act)

/-- The addresses of the other groups, ascending. -/
def retRest (e : Env) (a : Reg) : List Nat :=
  (ascAddrs ((lanes.filter (inMask e.mask)).map (retAddr e a))).filter (· != retKeep e a)

/-- The flock of a RET before its pushes, and what it pushes. -/
def retFlock (e : Env) (a : Reg) : Flock :=
  let room := 4 - e.fl.splits.length
  { e.fl with
    splits := e.fl.splits.set e.idx
        { outside e.sp (BitVec.ofNat 64 (retKeep e a)) with mask := retLanes e a (retKeep e a) }
      ++ ((retRest e a).take room).map (fun x => childSplit e.sp (BitVec.ofNat 64 x) (retLanes e a x)) }

def retPush (e : Env) (a : Reg) : List PathEntry :=
  (((retRest e a).drop (4 - e.fl.splits.length)).reverse).map (fun x =>
    { pc := BitVec.ofNat 64 x, mask := retLanes e a x, path := e.sp.path, pass := false })

/-! ### What EXIT ends -/

/-- A load of a flock that has no word left to land. -/
def landed (p : PendLoad) : Bool := p.words.isEmpty

/-- How many loads that end name a flag. -/
def endings (fl : Flock) (c : Nat) : Nat :=
  ((fl.loads.filter landed).filter (fun p => p.flag.map (fun x => x.toNat) == some c)).length

/-! ### Loads and stores -/

/-- A vector load: its guard, names, flag, size, order, scope, destination, and the access of each lane. -/
structure LoadRow where
  g : Guard
  names : Names
  flg : FlagSel
  size : BitVec 3
  ord : BitVec 2
  scope : BitVec 4
  hint : BitVec 2
  d : Nat
  piece : Nat → Piece

/-- LD, LDL and LDX (R190, R193, R194): the address is the base, the index and the offset of R183, or an offset in the
local store of the fold or of a rank of its drove. -/
def loadRow (s : State) (e : Env) : Instr → Option LoadRow
  | .ld o =>
    some ⟨o.g, { addrNames o.a o.idx o.off with vw := regsFrom o.d.toNat (Machine.sizeRegs o.size) }, o.flg, o.size, o.ord, o.scope,
          o.hint, o.d.toNat, fun l =>
            pieceMem s e .read l (addrOf (readS2 e 0 o.a.toNat) (srcV e 1 o.idx l) (optS e 2 o.off)) (sizeBytes o.size)⟩
  | .ldl o =>
    some ⟨o.g, { srcNames 1 (o.a :: optSrc o.off) with vw := regsFrom o.d.toNat (Machine.sizeRegs o.size) }, o.flg, o.size, o.ord,
          o.scope, 0, o.d.toNat, fun l => pieceLocal e l (srcV e 0 o.a l + optS e 1 o.off).toNat (sizeBytes o.size)⟩
  | .ldx o =>
    some ⟨o.g, { srcNames 1 (o.k :: o.a :: optSrc o.off) with vw := regsFrom o.d.toNat (Machine.sizeRegs o.size) }, o.flg, o.size,
          o.ord, o.scope, 0, o.d.toNat, fun l =>
            pieceRank s e l (srcV e 0 o.k l).toNat (srcV e 1 o.a l + optS e 2 o.off).toNat (sizeBytes o.size)⟩
  | _ => none

/-- The state after the load `id` of order `ord`: an acquire holds the later accesses of its path until that load has
returned, and acts then (R285, R288); in a handler it acts at once. -/
def acquired (s : State) (e : Env) (ord : BitVec 2) (sc : BitVec 4) (id : Nat) : State :=
  if ord ≠ 2 then s
  else if e.hand then acquireAt s e.fold.core sc
  else addFence s e { id := 0, flag := none, scope := sc, acq := true, rel := false, acqOn := [id], relOn := [] }

/-- A load of order `ord` with a flag (R182, R187). -/
def loadKind (e : Env) (flg : FlagSel) (ord : BitVec 2) : LoadKind := { flg := flagOf e flg, strong := decide (ord ≠ 0) }

/-- Every access is aligned (R184). -/
def Aligned (ps : List Piece) : Prop := ∀ p ∈ ps, p.va % p.n = 0

/-- A store: its guard, whether a handler may use it, its names, flag, order, scope, the accesses that R184 checks, and
the bytes that it writes. -/
structure StoreRow where
  g : Guard
  ih : Bool
  names : Names
  flg : FlagSel
  ord : BitVec 2
  scope : BitVec 4
  hint : BitVec 2
  checked : List Piece
  puts : List Put

/-- A vector store of whole registers: one access for each lane of Active. -/
def wholeStore (e : Env) (g : Guard) (names : Names) (flg : FlagSel) (size : BitVec 3) (ord : BitVec 2) (sc : BitVec 4)
    (hint : BitVec 2) (d : Reg) (piece : Nat → Piece) : StoreRow :=
  let words (l : Nat) : List Word := (regsFrom d.toNat (Machine.sizeRegs size)).map (fun r => readV e 6 r l)
  ⟨g, false, (dataNames d (Machine.sizeRegs size)).also names, flg, ord, sc, hint, (actLanes e).map piece,
   (actLanes e).flatMap (fun l => putsOf (piece l) (storeBytes size (words l)))⟩

/-- The words of the row that STP reads, and that LDP writes. -/
def rowRead (e : Env) (o : PMemOp) : Names :=
  { vx := (packedLanes e o).map (fun l => (l, o.d.toNat, l)), vn := [o.d.toNat] }
def rowWritten (e : Env) (o : PMemOp) : Names :=
  { wx := (packedLanes e o).map (fun l => (l, o.d.toNat, l)), vn := [o.d.toNat] }

/-- What is seen of a word in flight: its lane, its place, its value and the bits that it writes. -/
def shown (w : PendWord) : Nat × Nat × Word × Word × Bool := (w.lane, w.key, w.value, w.bits, w.hit)

/-- The words of a load in flight are those of `want`, and each byte of them may still take a later value. -/
def LandsAs (ws want : List PendWord) : Prop :=
  ws.map shown = want.map shown ∧ ∀ w ∈ ws, ∀ b ∈ w.src, b.more = true

/-- The places whose bytes the words of a load in flight come from. -/
def placesOf (ws : List PendWord) : List (Option Nat × Nat) := ws.flatMap (fun w => w.src.map (fun b => (b.fold, b.place)))

/-- ST, SST, STL, STX, STP and STM (R190 to R194). -/
def storeRow (s : State) (e : Env) : Instr → Option StoreRow
  | .st o =>
    some (wholeStore e o.g (addrNames o.a o.idx o.off) o.flg o.size o.ord o.scope o.hint o.d (fun l =>
      pieceMem s e .write l (addrOf (readS2 e 0 o.a.toNat) (srcV e 1 o.idx l) (optS e 2 o.off)) (sizeBytes o.size)))
  | .stl o =>
    some (wholeStore e o.g (srcNames 1 (o.a :: optSrc o.off)) o.flg o.size o.ord o.scope 0 o.d (fun l =>
      pieceLocal e l (srcV e 0 o.a l + optS e 1 o.off).toNat (sizeBytes o.size)))
  | .stx o =>
    some (wholeStore e o.g (srcNames 1 (o.k :: o.a :: optSrc o.off)) o.flg o.size o.ord o.scope 0 o.d (fun l =>
      pieceRank s e l (srcV e 0 o.k l).toNat (srcV e 1 o.a l + optS e 2 o.off).toNat (sizeBytes o.size)))
  | .sst o =>
    let p := pieceMem s e .write 255 (addrOf (readS2 e 0 o.a.toNat) 0 (optS e 2 o.off)) (sizeBytes o.size)
    some ⟨o.g, o.flg == .none,
          { s := [o.a.toNat, o.a.toNat + 1] ++ (optSrc o.off).flatMap (sOf 1) ++ regsFrom o.d.toNat (Machine.sizeRegs o.size) },
          o.flg, o.ord, o.scope, o.hint, [p],
          putsOf p (storeBytes o.size ((regsFrom o.d.toNat (Machine.sizeRegs o.size)).map (readS e 6)))⟩
  | .stm o =>
    some ⟨o.g, false,
          (dataNames o.d 1).also
            { srcNames 1 [o.b, o.m] with s := [o.a.toNat, o.a.toNat + 1] ++ sOf 1 o.b ++ sOf 1 o.m },
          o.flg, o.ord, o.scope, o.hint, [],
          (actLanes e).flatMap (fun l =>
            let a := addrOf (readS2 e 0 o.a.toNat) (srcV e 1 o.b l) 0
            (List.range 4).filterMap (fun k =>
              if (srcV e 2 o.m l).getLsbD k then
                some { p := pieceMem s e .write l ((a + k) % 2 ^ 64) 1,
                       v := (readV e 6 o.d.toNat l).extractLsb' (8 * k) 8, m := 0xFF : Put }
              else none))⟩
  | .stp o =>
    let f := slotFdr e o.fs
    let el := packedElems e f o.count
    let bit0 := packedBase e o.a o.b
    let at' (i : Nat) : Nat := bit0 + i * f.w - 8 * (bit0 / 8)
    let row := rowNat (fun l => readV e 6 o.d.toNat l)
    let val := el.foldl (fun v i => v + rowElem row f.w i * 2 ^ at' i) 0
    let msk := el.foldl (fun v i => v + (2 ^ f.w - 1) * 2 ^ at' i) 0
    some ⟨o.g, false, (rowRead e o).also (packedNames o), o.flg, o.ord, o.scope, o.hint, [],
          (packedBytes bit0 f.w el).map (fun x =>
            { p := pieceMem s e .write x.2 (x.1 % 2 ^ 64) 1,
              v := BitVec.ofNat 8 (val / 2 ^ (8 * (x.1 - bit0 / 8))),
              m := BitVec.ofNat 8 (msk / 2 ^ (8 * (x.1 - bit0 / 8))) })⟩
  | _ => none

/-- A byte of a home as its core's own accesses make it: what the core has written and not yet given up, or what the
home holds. -/
def ownView (s : State) (k a : Nat) : Byte :=
  match l1Find s k (a / 128) with
  | some x => if x.dirty.getLsbD (a % 128) then lineByte x.data (a % 128) else homeByte s a
  | none => homeByte s a

/-- A byte of a local store after the bytes of a store, in order. -/
def lsAfter (xs : List Put) (u off : Nat) (old : Byte) : Byte :=
  xs.foldl (fun b x => if x.p.spot = .ok (.ls u off) then (b &&& ~~~x.m) ||| (x.v &&& x.m) else b) old

/-- A byte of memory after the bytes of a store, in order. -/
def memAfter (xs : List Put) (a : Nat) (old : Byte) : Byte :=
  xs.foldl (fun b x => match x.p.spot with
    | .ok (.mem h _) => if h = a then (b &&& ~~~x.m) ||| (x.v &&& x.m) else b
    | _ => b) old

/-- The homes to which the bytes of a store go. -/
def homesOf (xs : List Put) : List Nat :=
  xs.filterMap (fun x => match x.p.spot with
    | .ok (.mem h _) => some h
    | _ => none)

/-! ### The other memory instructions -/

/-- The fields of ATOM and RED. -/
def atomArgs (o : AtomOp) : RmwArgs :=
  { flg := o.flg, fs := o.fs, fn := o.fn, wide := o.wide, ord := o.ord, scope := o.scope, a := o.a, idx := o.idx, c := o.c }
def redArgs (o : RedMemOp) : RmwArgs :=
  { flg := o.flg, fs := o.fs, fn := o.fn, wide := o.wide, ord := o.ord, scope := o.scope, a := o.a, idx := o.idx, c := o.c }

/-- An atomic or reduction: its guard, names, fields, whether it is a release, and whether a launch with DET refuses its
float operations. -/
structure RmwRow where
  g : Guard
  names : Names
  a : RmwArgs
  rel : Bool
  det : Bool

/-- ATOM, RED and RED.D (R196, R199). -/
def rmwRow : Instr → Option RmwRow
  | .atom o =>
    some ⟨o.g, { atomNames o.a o.idx o.c o.fn o.wide with vw := regsFrom o.d.toNat (if o.wide then 2 else 1) }, atomArgs o,
          o.ord == 2 || o.ord == 3, true⟩
  | .red o => some ⟨o.g, atomNames o.a o.idx o.c o.fn o.wide, redArgs o, o.ord == 2 || o.ord == 3, true⟩
  | .redD o =>
    some ⟨o.g, atomNames o.a o.idx o.c o.fn o.wide,
          { flg := o.flg, fs := o.fs, fn := o.fn, wide := o.wide, ord := 0, scope := 0, a := o.a, idx := o.idx, c := o.c },
          false, false⟩
  | _ => none

/-- MISALIGN of a lane at an address (R184, R324). -/
def misaligned (s : State) (e : Env) (lane va : Nat) : State :=
  takeTrap s e.fold.uid e.fi e.idx false e.pos { cause := 0x17, detail := lane, addr := BitVec.ofNat 64 va }

/-- A store that counts in a flag and has no bytes left to perform. -/
def counted (s : State) (e : Env) (flg : FlagSel) (sc : BitVec 4) (weak : Bool) : State :=
  addStore s e (doneStore (flagOf e flg) sc weak)

/-! ### Engines -/

/-- An engine command: its guard, names, traps in order, the command, and what else its issue does to its flock. -/
structure EngineRow where
  g : Guard
  names : Names
  traps : List (Option TrapInfo)
  cmd : Cmd
  post : Flock → Flock := id

/-- MMA, MTREE, the accumulator moves and COPY (R212, R217, R224 to R228). -/
def engineRow (e : Env) : Instr → Option EngineRow
  | .mma o =>
    let regs := (List.range 16).map (fun i => readS e i (o.p.toNat + i))
    let slot (n : Nat) : DWord := slotOf e.fl n
    let fb := o.fb.toNat % 16
    let slots := [slot o.fs.toNat, slot (slotFdr e o.fs).scslot, slot fb, slot (slotFdr e (BitVec.ofNat 4 fb)).scslot]
    some { g := o.g, names := { s := mmaRegs e o }, traps := mmaTraps e o regs slots,
           cmd := newCmd (.flock e.fold.uid e.fi) (.mma o) e.act regs slots (flagOf e o.flg)
             (if o.tfua || o.tfub then 5 else 1) e.launch.srseed }
  | .mtree o =>
    some { g := o.g, names := {},
           traps := [amRange e ([(o.d.toNat, 1), (o.w.toNat, o.n1.toNat + 1)]
             ++ (if o.mode == .acc then [(o.c.toNat, 1)] else []))],
           cmd := newCmd (.flock e.fold.uid e.fi) (.mtree o) e.act [] [] (flagOf e o.flg) 1 0 }
  | .amld o =>
    let off := (readS e 0 o.a.toNat).toNat
    let tag : DWord := match o.t with
      | some t => readS2 e 1 t.toNat
      | none => 0
    some { g := o.g,
           names := { s := o.a.toNat :: (match o.t with
                                         | some t => [t.toNat, t.toNat + 1]
                                         | none => []) },
           traps := [trapIf (badTag tag) 0x1A 15, offAlign off 4, trapIf (e.launch.lsBytes < off + 16384) 0x18 255,
                     amRange e [(o.d.toNat, 1)]],
           cmd := newCmd (.flock e.fold.uid e.fi) (.amld o) e.act [BitVec.ofNat 32 off, loWord tag, hiWord tag] []
             (flagOf e o.flg) 1 0 }
  | .amst o =>
    let off := (readS e 0 o.a.toNat).toNat
    some { g := o.g, names := { s := [o.a.toNat] },
           traps := [offAlign off 4, trapIf (e.launch.lsBytes < off + 16384) 0x18 255, amRange e [(o.s.toNat, 1)]],
           cmd := newCmd (.flock e.fold.uid e.fi) (.amst o) e.act [BitVec.ofNat 32 off] [] (flagOf e o.flg) 1 0 }
  | .amz o =>
    some { g := o.g, names := {}, traps := [amRange e [(o.d.toNat, 1)]],
           cmd := newCmd (.flock e.fold.uid e.fi) (.amz o) e.act [] [] (flagOf e o.flg) 1 0 }
  | .amcvt o =>
    let off := (readS e 0 o.a.toNat).toNat
    let f := slotFdr e o.fs
    let vR := match o.rs with
      | none => []
      | some r => lanes.foldl (fun m l => cset 0 m l (readV e 1 r.toNat l)) []
    some { g := o.g,
           names := { s := o.a.toNat :: (o.t.map (sOf 1)).getD [],
                      vr := (o.rs.map (fun r => [(r.toNat, (0 : BitVec 12))])).getD [] },
           traps := [trapIf (e.launch.lsBytes < off + 512 * f.w) 0x18 255, amRange e [(o.s.toNat, 1)]],
           cmd := { newCmd (.flock e.fold.uid e.fi) (.amcvt o) e.act [BitVec.ofNat 32 off, optS e 2 o.t]
                      [slotOf e.fl o.fs.toNat] (flagOf e o.flg) 1 e.launch.srseed with vR := vR, srcount := e.fl.srcount },
           post := fun fl => if f.rm = 5 then bumpSrcount fl e.act else fl }
  | .copy o =>
    let n := if o.ef then 10 else 8
    let used (i : Nat) : Bool := !(o.mode == 3 && i < 2) && !(o.mode == 0 && o.sel == 0 && (i == 6 || i == 7))
    let regs := (List.range 10).map (fun i => if i < n then readS e i (o.p.toNat + i) else 0)
    let bar : Word := match o.bar with
      | some b => readS e 10 b.toNat
      | none => 0
    let status := (pair ((regs[4]?).getD 0) ((regs[5]?).getD 0)).toNat
    some { g := o.g,
           names := { s := ((List.range n).filter used).map (fun i => o.p.toNat + i)
                        ++ (o.bar.map (fun b => [b.toNat])).getD [] },
           traps := [trapIf (status % 32 != 0) 0x1A 4, if o.bar.isSome then offAlign bar.toNat 16 else none,
                     trapIf (o.bar.isSome && e.launch.lsBytes < bar.toNat + 16) 0x18 255],
           cmd := newCmd (.flock e.fold.uid e.fi) (.copy o) e.act (regs ++ [bar]) [] (flagOf e o.flg) o.scope
             e.launch.srseed }
  | _ => none

/-- The guard, the use in a handler, and the names of every memory and engine instruction. -/
def memNames (s : State) (e : Env) (i : Instr) : Option (Guard × Bool × Names) :=
  match loadRow s e i, storeRow s e i, engineRow e i, i with
  | some r, _, _, _ => some (r.g, false, r.names)
  | none, some r, _, _ => some (r.g, r.ih, r.names)
  | none, none, some r, _ => some (r.g, false, r.names)
  | none, none, none, .sld o =>
    some (o.g, o.flg == .none,
      { s := [o.a.toNat, o.a.toNat + 1] ++ (optSrc o.off).flatMap (sOf 1), sw := regsFrom o.d.toNat (Machine.sizeRegs o.size) })
  | none, none, none, .ldp o => some (o.g, false, (rowWritten e o).also (packedNames o))
  | none, none, none, .bdec o =>
    some (o.g, false, { srcNames 1 [o.width] with vw := [o.d.toNat], s := [o.a.toNat] ++ sOf 1 o.width })
  | none, none, none, .atom o =>
    some (o.g, false,
      { atomNames o.a o.idx o.c o.fn o.wide with vw := regsFrom o.d.toNat (if o.wide then 2 else 1) })
  | none, none, none, .red o => some (o.g, false, atomNames o.a o.idx o.c o.fn o.wide)
  | none, none, none, .redD o => some (o.g, false, atomNames o.a o.idx o.c o.fn o.wide)
  | none, none, none, .dflush o => some (o.g, false, {})
  | none, none, none, .fence o => some (o.g, o.flg == .none, {})
  | none, none, none, .mwait o =>
    some (o.g, false,
      { s := [o.a.toNat, o.a.toNat + 1] ++ sOf 2 o.e, sw := (o.d.map (fun d => [d.toNat, d.toNat + 1])).getD [] })
  | none, none, none, .pref o => some (o.g, false, addrNames o.a o.idx o.off)
  | none, none, none, .cctl o =>
    some (o.g, false, match o.addr with
      | none => {}
      | some (a, idx, off) => addrNames a idx off)
  | none, none, none, .cpyb o => some (o.g, false, { sw := (o.d.map (fun d => [d.toNat])).getD [] })
  | none, none, none, .waitb o => some (o.g, false, { s := sOf 1 o.a })
  | none, none, none, .bari o => some (o.g, false, { s := o.a.toNat :: sOf 1 o.n })
  | none, none, none, .bara o =>
    some (o.g, false, { s := o.a.toNat :: (optSrc o.b).flatMap (sOf 1), sw := [o.d.toNat] })
  | none, none, none, .barw o => some (o.g, false, { s := [o.a.toNat, o.p.toNat], sw := [qKey o.d.toNat] })
  | none, none, none, .bart o => some (o.g, false, { s := [o.a.toNat, o.p.toNat], sw := [qKey o.d.toNat] })
  | none, none, none, .launch o =>
    some (o.g, false, { s := [o.a.toNat, o.a.toNat + 1], sw := [o.d.toNat, o.d.toNat + 1] })
  | none, none, none, .lwait o => some (o.g, false, { s := (o.a.map (fun a => [a.toNat])).getD [] })
  | _, _, _, _ => none

/-! ### The registers that an instruction names -/

/-- The guard, the use in a handler, and the names of every instruction that names a register of the vector unit: results a
lane, predicates, elements, conversions, moves, reductions, CALL and RET, and the memory and engine instructions. -/
def namedBy (s : State) (e : Env) (i : Instr) : Option (Guard × Bool × Names) :=
  let row {α : Type} (r : Row α) : Guard × Bool × Names := (r.g, r.ih, r.names)
  match i with
  | .srd o =>
    let regs := regsFrom o.d.toNat (if sysWide o.n.toNat then 2 else 1)
    some (o.g, !o.vec, if o.vec then { vw := regs } else { sw := regs })
  | .iaddc o | .isubb o =>
    some (o.g, false, { srcNames 1 [o.a, o.b] with vw := [o.d.toNat], pr := (o.pi.map (fun p => p.toNat)).toList })
  | .pack o =>
    let w := (slotFdr e o.fs).w
    let ls := packLanes e w (o.k.toNat * 64)
    some (o.g, false, (rowWrites w o.d.toNat (ls.map (fun l => o.k.toNat * 64 + l))).also
      (routedReads e o.a o.rt (ls.map (fun l => (l, l)))))
  | .fdrw o => some (o.g, false, srcNames 2 [o.a])
  | .redl o => some (o.g, false, { srcNames 1 [o.a] with vw := [o.d.toNat] })
  | .scanl o => some (o.g, false, { srcNames 1 [o.a] with vw := [o.d.toNat] })
  | .matchv o =>
    some (o.g, false, { srcNames (if o.pair then 2 else 1) [.v o.a o.rt] with vw := [o.d.toNat, o.d.toNat + 1] })
  | .ret o => some (o.g, false, { vr := [(o.a.toNat, 0), (o.a.toNat + 1, 0)] })
  | .pmovFromv o => some (o.g, false, srcNames 1 [.v o.a o.rt])
  | .movxTox o => some (o.g, false, srcNames 1 [.v o.a o.rt])
  | .swr o => some (o.g, true, srcNames 1 [o.a])
  | .sputl o =>
    some (o.g, true,
      { wx := if o.own then [] else [(laneOf e 1 o.l, o.d.toNat, laneOf e 1 o.l)],
        vn := if o.own then [] else [o.d.toNat], s := o.a.toNat :: sOf 1 o.l,
        osw := if o.own then [o.d.toNat] else [] })
  | i =>
    ((scalRow s e i).map row).or <| ((vecRow s e i).map row).or <| ((vecPairRow s e i).map row).or <|
      ((predRow e i).map row).or <| ((elemRow s e i).map (fun r => (r.g, false, r.names))).or <|
      ((cvtArgs i).map (fun o => (o.g, false, cvtNames s o))).or <|
      ((divideRow e i).map (fun r => (r.1, false, r.2.1))).or (memNames s e i)

/-! ### Exact operations -/

/-- The sign of a value. -/
def sgn (neg : Bool) : ℚ := if neg then -1 else 1

/-- The number that a finite value stands for. -/
def ratOf : Machine.Num → Option ℚ
  | .fin neg n d => some (sgn neg * (n / d))
  | _ => none

/-- No fraction with the denominator 0. -/
def Proper : Machine.Num → Prop
  | .fin _ _ d => 0 < d
  | _ => True

/-- A pair of a value and its flags is the finite number `x`, with no flag. -/
def IsExactly (r : Machine.Num × BitVec 5) (x : ℚ) : Prop := ratOf r.1 = some x ∧ r.2 = 0

end Sys2Proof.Slice0

section

open Sys2Proof Sys2Proof.Machine Sys2Proof.Slice0

/-- R159: IADDC and ISUBB write the word and the carry of each lane of Active; a carry-in that is also the carry-out
is read before it is written. -/
def Obligations.CarryResults : Prop :=
  ∀ (i : Instr) (s : State) (e : Env) (o : VCarryOp) (f : Word → Word → Bool → Word × Bool),
    carryRow i = some (o, f) →
    Ready s o.g false { srcNames 1 [o.a, o.b] with vw := [o.d.toNat], pr := (o.pi.map (fun p => p.toNat)).toList } e →
    let r (l : Nat) : Word × Bool := f (srcV e 0 o.a l) (srcV e 1 o.b l) (match o.pi with
      | none => false
      | some p => rdP e.fl p.toNat l)
    ∃ fl, exec i s = .next (left s e fl) ∧ VecOnly e.fl { fl with p := e.fl.p } ∧
      (∀ d l, l < 64 → vecOf fl d l = if d = o.d.toNat ∧ inMask e.act l then (r l).1 else vecOf e.fl d l) ∧
      ∀ p l, l < 64 → rdP fl p l
        = if o.po.map (fun x => x.toNat) = some p ∧ inMask e.act l then (r l).2 else rdP e.fl p l

/-- R57, R74, R163, R164, R167, R168, R175: every format-slot instruction completes, and the elements in which it acts
take the rounded results of the exact operation: the sum, product, quotient, fused and scaled value and the lesser and
greater of the numbers decoded, with the invalid cases of R57 and the signs of a zero sum. FRINT that would draw
random bits from a slot without SRW is not among them. The numbers at the edges of a format, FSCALE by more than 8192
either way, and the side on which an unsettled special function lies are the model's choices (log entries 27 and 10).
-/
def Obligations.ElementResults : Prop :=
  (∀ (a b c : Machine.Num) (x y z : ℚ) (down : Bool), Proper a → Proper b → Proper c → ratOf a = some x →
    ratOf b = some y → ratOf c = some z →
    IsExactly (addNum down a b) (x + y) ∧ IsExactly (mulNum a b) (x * y) ∧ IsExactly (fmaNum down a b c) (x * y + z) ∧
    (y ≠ 0 → IsExactly (divNum a b) (x / y)) ∧
    (y = 0 → x ≠ 0 → ∃ neg, divNum a b = (.inf neg, fDZ)) ∧ (y = 0 → x = 0 → divNum a b = (.nan, fNV)) ∧
    (∀ n : Int, -8192 ≤ n → n ≤ 8192 → ratOf (scaleNum n a) = some (x * (2 : ℚ) ^ n)) ∧
    (∀ big, ratOf (minNum big a b) = some (if big then max x y else min x y)) ∧
    (x + y = 0 → x ≠ 0 → ∃ d, (addNum down a b).1 = .fin down 0 d)) ∧
  (∀ (a b : Machine.Num) (down : Bool), a = .nan ∨ b = .nan →
    addNum down a b = (.nan, 0) ∧ mulNum a b = (.nan, 0) ∧ divNum a b = (.nan, 0) ∧
      ∀ big, minNum big a b = (if a = .nan then b else a)) ∧
  (∀ (n d m c : Nat) (p q down : Bool),
    addNum down (.inf p) (.inf q) = (if p = q then .inf p else .nan, if p = q then 0 else fNV) ∧
    addNum down (.inf p) (.fin q n d) = (.inf p, 0) ∧ addNum down (.fin q n d) (.inf p) = (.inf p, 0) ∧
    mulNum (.inf p) (.inf q) = (.inf (p ^^ q), 0) ∧
    mulNum (.inf p) (.fin q n d) = (if n = 0 then .nan else .inf (p ^^ q), if n = 0 then fNV else 0) ∧
    mulNum (.fin q n d) (.inf p) = (if n = 0 then .nan else .inf (p ^^ q), if n = 0 then fNV else 0) ∧
    divNum (.inf p) (.inf q) = (.nan, fNV) ∧ divNum (.inf p) (.fin q n d) = (.inf (p ^^ q), 0) ∧
    divNum (.fin q n d) (.inf p) = (.fin (p ^^ q) 0 1, 0) ∧
    (0 < d → 0 < c → ∃ k, (mulNum (.fin p n d) (.fin q m c)).1 = .fin (p ^^ q) (n * m) k) ∧
    (∀ big, minNum big (.fin true 0 1) (.fin false 0 1) = .fin (!big) 0 1 ∧
      minNum big (.fin false 0 1) (.fin true 0 1) = .fin (!big) 0 1)) ∧
  ∀ (i : Instr) (s : State) (e : Env) (row : ElemRow), elemRow s e i = some row →
    Ready s row.g false row.names e →
    exec i s = .next (left s e (putElems e e.fl row.row row.stoch (slotFdr e row.fs).w row.d
      ((elemIdx e row.row (slotFdr e row.fs).w).map (fun k => (k, row.val k)))))

/-- R67, R68, R76, R155: what the results of a format-slot instruction leave: in lane mode each lane of Active its
word, in row mode each bit of an active element its own, every other bit as it was; the flags are ORed into FFLAGS,
and SRCOUNT advances by one in the lanes of Active where bits are drawn. -/
def Obligations.ElementsWritten : Prop :=
  ∀ (e : Env) (fl : Flock) (row stoch : Bool) (w d : Nat) (val : Nat → Nat × BitVec 5), w ≤ 32 →
    let xs := (elemIdx e row w).map (fun k => (k, val k))
    let u := putElems e fl row stoch w d xs
    (∃ v x c, u = { fl with v := v, fflags := x, srcount := c, loads := u.loads, marks := u.marks }) ∧
    u.fflags = fl.fflags ||| (xs.foldl (fun a x => a ||| x.2.2) (0 : BitVec 5)).setWidth 32 ∧
    (∀ l, l < 64 → cget 0 u.srcount l = if stoch ∧ inMask e.act l then cget 0 fl.srcount l + 1 else cget 0 fl.srcount l) ∧
    (∀ r l, l < 64 → r ≠ d → vecOf u r l = vecOf fl r l) ∧
    (row = false → ∀ l, l < 64 →
      vecOf u d l = if inMask e.act l then BitVec.ofNat 32 (val l).1 else vecOf fl d l) ∧
    (row = true → ∀ l b, l < 64 → b < 32 →
      (vecOf u d l).getLsbD b
        = if (32 * l + b) / w < 2048 / w ∧ elemActive e.act w ((32 * l + b) / w)
          then (val ((32 * l + b) / w)).1.testBit ((32 * l + b) % w) else (vecOf fl d l).getLsbD b)

/-- R170 to R173: CVT and CVTEF complete, or take FORMAT with the slot that R171 names where a lane is active. PACK
puts the low w bits of the word of each lane of Active into the element k × 64 + l of its destination, where that
element is active; every other bit is as it was. The model's choices are those of log entry 27 for the numbers at the
edges of a format, and the kinds that PACK takes (log entry 50). -/
def Obligations.ConversionResults : Prop :=
  (∀ (i : Instr) (s : State) (e : Env) (o : CvtArgs), cvtArgs i = some o → Ready s o.g false (cvtNames s o) e →
    let bad := cvtFormat e o (cvtIdx e o.row o.part (slotFdr e o.cs).w (slotFdr e o.fs).w)
    (e.act = 0 ∨ bad = none → exec i s = .next (left s e (afterCvt e o))) ∧
    ∀ z, e.act ≠ 0 → bad = some z →
      exec i s = .next (takeTrap s e.fold.uid e.fi e.idx false e.pos (plainTrap 0x15 z.toNat))) ∧
  ∀ (o : PackOp) (s : State) (e : Env),
    let w := (slotFdr e o.fs).w
    let ls := packLanes e w (o.k.toNat * 64)
    Ready s o.g false
      ((rowWrites w o.d.toNat (ls.map (fun l => o.k.toNat * 64 + l))).also
        (routedReads e o.a o.rt (ls.map (fun l => (l, l))))) e →
    w ≤ 32 →
    let elem (l b : Nat) : Nat := (32 * l + b) / w
    ∃ fl, exec (.pack o) s = .next (left s e fl) ∧ VecOnly e.fl fl ∧
      ∀ r l b, l < 64 → b < 32 →
        (vecOf fl r l).getLsbD b
          = if r = o.d.toNat ∧ o.k.toNat * 64 ≤ elem l b ∧ elem l b < o.k.toNat * 64 + 64 ∧ elem l b < 2048 / w ∧
                inMask e.act (elem l b - o.k.toNat * 64) ∧ elemActive e.act w (elem l b)
            then (srcV e 0 (.v o.a o.rt) (elem l b - o.k.toNat * 64)).getLsbD ((32 * l + b) % w)
            else (vecOf e.fl r l).getLsbD b

/-- R176 to R178: REDL gives every lane of Active the value of its segment's tree, and SCANL the fold of its segment's
lanes up to it; only an operation in a format slot may raise flags. MATCH writes to each lane of Active the mask of
the lanes of Active whose values equal its own, and its predicate where all do. RM 101 at FMIN and FMAX and the
identity of SCANL in a slot with no zero are the model's choices (log entry 27). -/
def Obligations.CrossLaneResults : Prop :=
  ((∀ (o : RedlOp) (s : State) (e : Env), o.seg ≠ 7 →
      Ready s o.g false { srcNames 1 [o.a] with vw := [o.d.toNat] } e →
    ∃ fl, exec (.redl o) s = .next (left s e fl) ∧ VecOnly e.fl { fl with fflags := e.fl.fflags } ∧
      (redFloat o.op = false → fl.fflags = e.fl.fflags) ∧
      ∀ r l, l < 64 → vecOf fl r l = if r = o.d.toNat ∧ inMask e.act l then redValue e o l else vecOf e.fl r l) ∧
  ∀ (o : ScanlOp) (s : State) (e : Env), o.seg ≠ 7 →
      Ready s o.g false { srcNames 1 [o.a] with vw := [o.d.toNat] } e →
    ∃ fl, exec (.scanl o) s = .next (left s e fl) ∧ VecOnly e.fl { fl with fflags := e.fl.fflags } ∧
      (redFloat o.op = false → fl.fflags = e.fl.fflags) ∧
      ∀ r l, l < 64 → vecOf fl r l = if r = o.d.toNat ∧ inMask e.act l then scanValue e o l else vecOf e.fl r l) ∧
  ∀ (o : MatchOp) (s : State) (e : Env),
    Ready s o.g false
      { srcNames (if o.pair then 2 else 1) [.v o.a o.rt] with vw := [o.d.toNat, o.d.toNat + 1] } e →
    let same (l j : Nat) : Bool :=
      if o.pair then srcV2 e 0 (.v o.a o.rt) j == srcV2 e 0 (.v o.a o.rt) l
      else srcV e 0 (.v o.a o.rt) j == srcV e 0 (.v o.a o.rt) l
    ∃ fl, exec (.matchv o) s = .next (left s e fl) ∧ VecOnly e.fl { fl with p := e.fl.p } ∧
      (∀ r l j, l < 64 → j < 32 →
        (vecOf fl r l).getLsbD j
          = if r = o.d.toNat ∧ inMask e.act l then inMask e.act j && same l j
            else if r = o.d.toNat + 1 ∧ inMask e.act l then inMask e.act (j + 32) && same l (j + 32)
            else (vecOf e.fl r l).getLsbD j) ∧
      ∀ p l, l < 64 → rdP fl p l
        = if o.pe.map (fun x => x.toNat) = some p ∧ inMask e.act l
          then lanes.all (fun j => !inMask e.act j || same l j) else rdP e.fl p l

/-- R138, R162: PMOV.FROMV and MOVX write predicates and index registers in the lanes of Active. -/
def Obligations.SmallFileMoves : Prop :=
  (∀ (o : VOp) (s : State) (e : Env),
    Ready s o.g false (srcNames 1 [.v o.a o.rt]) e →
    ∃ fl, exec (.pmovFromv o) s = .next (left s e fl) ∧ fl = { e.fl with p := fl.p, marks := fl.marks } ∧
      (∀ m ∈ fl.marks, m ∈ e.fl.marks) ∧
      ∀ k l, l < 64 → rdP fl k l
        = if k < 24 ∧ inMask e.act l then (srcV e 0 (.v o.a o.rt) l).getLsbD k else rdP e.fl k l) ∧
  ∀ (o : DVOp) (s : State) (e : Env), Ready s o.g false (srcNames 1 [.v o.a o.rt]) e →
    ∃ fl, exec (.movxTox o) s = .next (left s e fl) ∧ fl = { e.fl with x := fl.x, marks := fl.marks } ∧
      (∀ m ∈ fl.marks, m ∈ e.fl.marks) ∧
      ∀ r l, l < 64 → cget 0 fl.x (r * 64 + l)
        = if r = o.d.toNat ∧ inMask e.act l then (srcV e 0 (.v o.a o.rt) l).setWidth 8
          else cget 0 e.fl.x (r * 64 + l)

/-- R146, R152, R153, R174: SWR writes SRCOUNT in the lanes of Active or FFLAGS and no other register; SPUTL writes
one word of the named lane, or the flock's own scalar register; SPUTP writes the image of the named lane, or the
flock's uniform predicates; FDRW writes a legal image to its slot, with bits [63:47] forced to 0, and an illegal one
takes FORMAT. -/
def Obligations.SystemWrites : Prop :=
  ((∀ (o : SwrOp) (s : State) (e : Env), Ready s o.g true (srcNames 1 [o.a]) e →
    ∃ fl, exec (.swr o) s = .next (left s e fl) ∧
      fl = { e.fl with srcount := fl.srcount, fflags := fl.fflags, loads := fl.loads } ∧
      fl.loads = (if o.n = 0x14 ∧ e.act ≠ 0 then (drained e.fl).loads else e.fl.loads) ∧
      (∀ l, l < 64 → cget 0 fl.srcount l
        = if o.n = 0x11 ∧ inMask e.act l then srcV e 0 o.a l else cget 0 e.fl.srcount l) ∧
      fl.fflags = if o.n = 0x14 ∧ e.act ≠ 0 then srcS e 0 o.a &&& 31 else e.fl.fflags) ∧
  (∀ (o : SputlOp) (s : State) (e : Env),
    Ready s o.g true
      { wx := if o.own then [] else [(laneOf e 1 o.l, o.d.toNat, laneOf e 1 o.l)],
        vn := if o.own then [] else [o.d.toNat], s := o.a.toNat :: sOf 1 o.l,
        osw := if o.own then [o.d.toNat] else [] } e →
    ∃ fl, exec (.sputl o) s = .next (left s e fl) ∧
      (o.own = false → VecOnly e.fl fl ∧
        ∀ r l, l < 64 → vecOf fl r l
          = if e.act ≠ 0 ∧ r = o.d.toNat ∧ l = (srcS e 1 o.l).toNat % 64 then readS e 0 o.a.toNat else vecOf e.fl r l) ∧
      (o.own = true → ScalOnly false e.fl fl ∧
        ∀ r, cget 0 fl.s r = if e.act ≠ 0 ∧ r = o.d.toNat then readS e 0 o.a.toNat else cget 0 e.fl.s r)) ∧
  ∀ (o : SputpOp) (s : State) (e : Env),
    Ready s o.g true { s := o.a.toNat :: (optSrc o.l).flatMap (sOf 1), osw := qKeys o.which } e →
    let lane := (optS e 1 o.l).toNat % 64
    let w := readS e 0 o.a.toNat
    ∃ fl, exec (.sputp o) s = .next (left s e fl) ∧
      fl = { e.fl with p := fl.p, x := fl.x, q := fl.q, loads := fl.loads, marks := fl.marks } ∧
      (∀ k l, l < 64 → rdP fl k l
        = if o.which = .preds ∧ e.act ≠ 0 ∧ k < 24 ∧ l = lane then w.getLsbD k else rdP e.fl k l) ∧
      (∀ k l, l < 64 → cget 0 fl.x (k * 64 + l)
        = if o.which = .index ∧ e.act ≠ 0 ∧ k < 4 ∧ l = lane then w.extractLsb' (8 * k) 8
          else cget 0 e.fl.x (k * 64 + l)) ∧
      fl.q = if o.which = .uniform ∧ e.act ≠ 0 then w.setWidth 8 else e.fl.q) ∧
  ∀ (o : FdrwOp) (s : State) (e : Env), Ready s o.g false (srcNames 2 [o.a]) e → e.act ≠ 0 →
    let raw : DWord := match o.a with
      | .imm w => w.setWidth 64
      | x => srcS2 e 0 x
    let img : DWord := raw &&& 0x7FFFFFFFFFFF
    if (fdrOf img).legal then
      ∃ fl, exec (.fdrw o) s = .next (left s e fl) ∧ fl = { e.fl with f := fl.f } ∧
        ∀ n, slotOf fl n = if n = o.fs.toNat then img else slotOf e.fl n
    else exec (.fdrw o) s = .next (takeTrap s e.fold.uid e.fi e.idx false e.pos (plainTrap 0x15 o.fs.toNat))

/-- R6, R86, R150, R328: the control, predicate, scalar, vector, format-slot and system-register instructions change
nothing but folds: not memory, not a cache, not a launch, and nothing that any other unit holds. -/
def Obligations.RegisterOnlyFrame : Prop :=
  ∀ (i : Instr) (s t : State), registerOnly i → exec i s = .next t →
    t = { s with folds := t.folds } ∧
      (∀ a, homeByte t a = homeByte s a) ∧ ∀ k a, l1Byte t k a = l1Byte s k a

/-- R129: BRA and BRI move the whole issuing split, to the target or to the next bundle. -/
def Obligations.BranchResults : Prop :=
  (∀ (o : BraOp) (s : State) (e : Env),
    Ready s o.g true { s := (o.cond.map (fun c => [qKey c.1.toNat])).getD [] } e →
    let cond := e.act ≠ 0 ∧ (match o.cond with
      | none => True
      | some (q, neg) => (rdQ e q.toNat ^^ neg) = true)
    (cond → exec (.bra o) s = .next (moved s e e.fl (target e o.disp))) ∧
      (¬ cond → exec (.bra o) s = .next (moved s e e.fl (next e)))) ∧
  ∀ (o : AOp) (s : State) (e : Env), Ready s o.g true { s := [o.a.toNat, o.a.toNat + 1] } e →
    exec (.bri o) s
      = .next (moved s e e.fl (if e.act ≠ 0 then aligned (pair (readS e 0 o.a.toNat) (readS e 0 (o.a.toNat + 1)))
                               else next e))

/-- R133: LOOP decrements a flock-wide counter and branches while it is nonzero. With Active empty it moves on and
writes nothing; the counter wraps modulo 2^32; the whole split moves. -/
def Obligations.LoopResults : Prop :=
  ∀ (o : DDispOp) (s : State) (e : Env), Ready s o.g true { s := [o.d.toNat], sw := [o.d.toNat] } e →
    (e.act = 0 → exec (.loop o) s = .next (moved s e e.fl (next e))) ∧
    (e.act ≠ 0 →
      let n := readS e 0 o.d.toNat - 1
      ∃ fl, exec (.loop o) s = .next (moved s e fl (if n ≠ 0 then target e o.disp else next e)) ∧
        ScalarIs e fl o.d.toNat n)

/-- R39, R130, R131: BRX and CALL divide the issuing split between the target and the next bundle; CALL writes its
link in the taken lanes; a push onto a full stack takes PATHSTACK. -/
def Obligations.DivideResults : Prop :=
  ∀ (i : Instr) (s : State) (e : Env) (g : Guard) (n : Names) (fl : Flock) (taken : LaneMask) (dest : DWord),
    divideRow e i = some (g, n, fl, taken, dest) → Ready s g false n e → e.fold.fail = none →
    (fl.splits.length < 4 ∨ pushRoom s e fl → ∃ t, exec i s = .next t ∧ Divided s e fl taken dest t) ∧
    (4 ≤ fl.splits.length → 256 ≤ fl.stack.length → taken ≠ 0 → e.mask &&& ~~~taken ≠ 0 →
      exec i s = .next (takeTrap s e.fold.uid e.fi e.idx false e.pos (plainTrap 0x1B 0)))

/-- R132, R40: RET keeps the group of the lowest lane of Active, makes the other groups live splits in ascending order
of address while fewer than four live, and pushes the rest so that the lowest address pops first; without room for
them it takes PATHSTACK. Entries that are pushed stand on the stack in that order, the last on top; the hardware holds
the top 32 at most, and what leaves it is written at its spill address. How the entries lie in the spill area is the
model's choice (PRESUMED, log entry 33). -/
def Obligations.ReturnResults : Prop :=
  (∀ (s t : State) (e : Env) (fl u : Flock) (xs : List PathEntry), pushPaths s e fl xs = .ok (t, u) → fl.hw ≤ 32 →
    (u = { fl with stack := xs.reverse ++ fl.stack, hw := min 32 (fl.hw + xs.length) } ∧
      (fl.hw + xs.length ≤ 32 → t = s)) ∨
    (∃ s1 u1, t = failFold s1 e.fold.uid 0x302 ∧ u = stopFlock u1)) ∧
  (∀ (s : State) (e : Env) (fl : Flock) (x old : PathEntry) (sp : Spot), fl.hw = 32 →
    spillAccess s e.fold e.launch e.ctx .write (spillAddr e.ctx e.fold fl (fl.stack.length - 32)) = .ok sp →
    fl.stack[31]? = some old →
    pushPaths s e fl [x] = .ok (spillWrite s e.fold.die old sp, { fl with stack := x :: fl.stack })) ∧
  (∀ (s : State) (e : Env) (fl : Flock), foldAt s e.fold.uid = some e.fold → flockAt e.fold e.fi ≠ none →
    e.fold.fail = none → flockOf (afterPush s e fl) e.fold.uid e.fi = some fl) ∧
  ∀ (o : AOp) (s : State) (e : Env),
    Ready s o.g false { vr := [(o.a.toNat, 0), (o.a.toNat + 1, 0)] } e →
    (e.fl.stack.length + (retPush e o.a).length ≤ 256 → ∀ r, pushPaths s e (retFlock e o.a) (retPush e o.a) = .ok r →
      exec (.ret o) s = .next (tidyFlock (afterPush r.1 e r.2) e.fold.uid e.fi)) ∧
    (256 < e.fl.stack.length + (retPush e o.a).length →
      exec (.ret o) s = .next (takeTrap s e.fold.uid e.fi e.idx false e.pos (plainTrap 0x1B 0)))

/-- R134 to R137: EXIT takes the lanes of Active from the split and leaves the others at the next bundle; the words
that were to land in the lanes are discarded, and a load that no word is left of completes: its flag decrements, and
the flags of an ATOM are ORed into FFLAGS; a half of a fence that waited on it alone completes too, and with both its
flag decrements (that a fence has two halves, and what each waits on, is the model's reading, log entry 40). YIELD
swaps its flock with the pending flock that has been ready longest, if there is one; WAITF goes on once every flag
that it names counts `n` or less; NOP has no effect. -/
def Obligations.PassingControl : Prop :=
  (∀ (fl : Flock) (m : LaneMask), let u := dropPending fl m
    u = { fl with loads := u.loads } ∧ u.loads.map (fun p => { p with words := [] }) = fl.loads.map (fun p => { p with words := [] }) ∧
    ∀ (k : Nat) (p q : PendLoad), fl.loads[k]? = some p → u.loads[k]? = some q →
      ∀ w, w ∈ q.words ↔ w ∈ p.words ∧ (p.scalar = true ∨ inMask m w.lane = false)) ∧
  (∀ (s : State) (f : Fold) (fi : Nat) (fl : Flock), foldAt s f.uid = some f → flockAt f fi = some fl →
    ∃ u, flockOf (settleFlock s f.uid fi) f.uid fi = some u ∧
      u.loads = fl.loads.filter (fun p => !landed p) ∧
      u.fflags = (fl.loads.filter landed).foldl (fun x p => x ||| p.flags.setWidth 32) fl.fflags ∧
      (∀ r ∈ u.fences, ∃ q ∈ fl.fences, q.id = r.id ∧ (r.acq = true → q.acq = true) ∧ (r.rel = true → q.rel = true)) ∧
      (fl.fences = [] → ∀ c, cget 0 u.c c = cget 0 fl.c c - endings fl c) ∧
      ∀ r, fl.fences = [r] → wider r.scope = false → reachesPeers r.scope = false →
        let left : Flock := { fl with loads := fl.loads.filter (fun p => !landed p) }
        let waits (ids : List Nat) : Bool := ids.any (fun i => i ∈ opsInFlight left)
        let acq := r.acq && waits r.acqOn
        let rel := r.rel && waits r.relOn
        u.fences = (if acq || rel then [{ r with acq := acq, rel := rel }] else []) ∧
          ∀ c, cget 0 u.c c
            = cget 0 fl.c c - endings fl c - (if (acq || rel) = false ∧ r.flag.map (fun x => x.toNat) = some c then 1 else 0)) ∧
  (∀ (s : State) (k q uid fi : Nat) (c : Core) (x : Quadrant), s.cores[k]? = some c → c.quads[q]? = some x →
    (x.active.contains (uid, fi) = false ∨ longestReady s x = none → swapOut s k q uid fi = s) ∧
    ∀ y, x.active.contains (uid, fi) = true → longestReady s x = some y →
      ∃ d, (swapOut s k q uid fi).cores[k]? = some d ∧ d.quads[q]? = some
        { x with active := x.active.filter (· != (uid, fi)) ++ [(y.1, y.2.1)],
                 pending := x.pending.filter (· != y) ++ [(uid, fi, s.clock)], lastLeft := s.clock }) ∧
  (∀ (s : State) (x : Quadrant) (y : Nat × Nat × Nat), longestReady s x = some y →
    y ∈ x.pending ∧ (flockOf s y.1 y.2.1).any (flockReady s y.1) = true ∧
      ∀ z ∈ x.pending, (flockOf s z.1 z.2.1).any (flockReady s z.1) = true → y.2.2 ≤ z.2.2) ∧
  (∀ (o : GOp) (s : State) (e : Env), Ready s o.g false {} e →
    exec (.exit o) s
      = .next (tidyFlock (settleFlock
          (storeFlock s e (dropPending
            (putSplit e e.fl { outside e.sp (next e) with mask := e.mask &&& ~~~e.act }) e.act))
          e.fold.uid e.fi) e.fold.uid e.fi)) ∧
  (∀ (o : YieldOp) (s : State) (e : Env), Ready s o.g false {} e →
    exec (.yield o) s
      = .next (retire (if o.swap ∧ e.act ≠ 0 then swapOut s e.fold.core e.fl.quad e.fold.uid e.fi else s) e)) ∧
  (∀ (o : WaitfOp) (s : State) (e : Env), Ready s o.g true {} e →
    ((e.act = 0 ∨ ∀ k, k < 12 → o.mask.getLsbD k → cget 0 e.fl.c k ≤ o.n.toNat) →
      exec (.waitf o) s = .next (left s e e.fl)) ∧
    (∀ k, k < 12 → e.act ≠ 0 → o.mask.getLsbD k → o.n.toNat < cget 0 e.fl.c k →
      exec (.waitf o) s = .next (markWait s e (.flag o.mask o.n.toNat)))) ∧
  ∀ (o : GOp) (s : State) (e : Env), Ready s o.g true {} e → exec (.nop o) s = .next (retire s e)

/-- R40, R42, R274: while fewer than four splits live, entries that stand in hardware become live splits from the top
of the stack, with the path that was pushed with them, and splits with no lane end; a flock under a focused STEP pops
none, also once its focused split has ended (the model's choice, log entry 45). Where every entry that was spilled can
be read, four splits live, or the stack is empty, and the hardware holds the top 32 entries: spilling changes nothing
that a program sees. -/
def Obligations.PathsPopped : Prop :=
  (∀ (s : State) (f : Fold) (fi : Nat) (fl : Flock) (l : Launch) (c : Context), foldAt s f.uid = some f →
    flockAt f fi = some fl → launchAt s f.launch = some l → ctxOf s f = some c → fl.focus = false → fl.hw ≤ 32 →
    fl.splits.length ≤ 4 → fl.hw ≤ fl.stack.length → (∀ x ∈ fl.stack, x.mask ≠ 0) →
    (∀ n, n < fl.stack.length →
      ∀ t, t = onFlock s f.uid fi tidySplits → ∀ g u, foldAt t f.uid = some g → flockAt g fi = some u →
        ∃ sp, spillAccess t g l c .read (spillAddr c g u n) = .ok sp) →
    ∃ u, flockOf (tidyFlock s f.uid fi) f.uid fi = some u ∧ (u.stack = [] ∨ u.splits.length = 4) ∧
      u.hw = min 32 u.stack.length ∧
      (∃ n, u.stack = fl.stack.drop n ∧
        (u.splits.drop (fl.splits.filter (fun sp => sp.mask != 0)).length).map (fun sp => (sp.pc, sp.mask, sp.path))
          = (fl.stack.take n).map (fun x => (x.pc, x.mask, x.path)))) ∧
  ∀ (fl : Flock),
    let live := fl.splits.filter (fun sp => sp.mask != 0)
    let n := if fl.focus then 0 else min (4 - live.length) (min fl.stack.length fl.hw)
    let u := tidySplits fl
    u = { fl with splits := u.splits, stack := fl.stack.drop n, hw := fl.hw - n } ∧
      u.splits.take live.length = live ∧
      (u.splits.drop live.length).map (fun sp => (sp.pc, sp.mask, sp.path, sp.pass))
        = (fl.stack.take n).map (fun x => (x.pc, x.mask, x.path, x.pass)) ∧
      ∀ sp ∈ u.splits.drop live.length, sp.inside = false ∧ sp.halted = false ∧ sp.wait = .none

/-- R148, R149, R330: TRAP takes USER with its number; outside a handler TRET takes NOTINTRAP; inside one it ends the
handler, and the trapping split issues its bundle again or goes on after it. Where TRET.NEXT goes at a clause head
that has not started is the model's choice (log entry 23). -/
def Obligations.TrapGroupResults : Prop :=
  (∀ (o : NOp) (s : State) (e : Env), Ready s o.g false {} e →
    (e.act = 0 → exec (.trap o) s = .next (left s e e.fl)) ∧
    (e.act ≠ 0 →
      exec (.trap o) s = .next (takeTrap s e.fold.uid e.fi e.idx false e.pos (plainTrap 0x20 o.n.toNat)))) ∧
  (∀ (o : TretOp) (s : State) (e : Env), Ready s o.g true {} e → e.hand = false →
    (e.act = 0 → exec (.tret o) s = .next (moved s e e.fl (next e))) ∧
    (e.act ≠ 0 → exec (.tret o) s = .next (takeTrap s e.fold.uid e.fi e.idx false e.pos (plainTrap 0x12 0)))) ∧
  ∀ (o : TretOp) (s : State) (e : Env) (sp : Split), Ready s o.g true {} e → e.hand = true →
    e.fl.splits[e.idx]? = some sp →
    ∃ fl dest, exec (.tret o) s = .next (storeFlock s e fl) ∧
      fl = { e.fl with handler := none, splits := e.fl.splits.set e.idx dest } ∧
      (o.next = false → dest = sp) ∧
      (o.next = true → sp.inside = true → dest = advance sp) ∧
      (o.next = true → sp.inside = false → dest.inside = false ∧ dest.mask = sp.mask ∧
        (if noHeader e.fl.trap then dest.pc = sp.pc + 16 else dest.pc = sp.pc ∧ dest.first = true))

/-- R150, R151: TKILL fails every fold of its drove, its own with the code `n` and the others with 0x301; none of them
issues again, and no other fold changes. BRK has no effect while no debugger is attached or Active is empty; else the
split halts at once, from inside the clause of its safe point, or notes that it halts at the next. That the number of
a second BRK takes the place of the first, and that a BRK in a STOP clause whose head is no safe point waits for the
next safe point, are the model's choices (log entries 45 and 36). -/
def Obligations.KillAndBreakResults : Prop :=
  (∀ (o : NOp) (s : State) (e : Env), Ready s o.g true {} e →
    (e.hand = false → e.act = 0 → exec (.tkill o) s = .next (moved s e e.fl (next e))) ∧
    (e.hand = true ∨ e.act ≠ 0 → ∃ t, exec (.tkill o) s = .next t ∧ t = { s with folds := t.folds } ∧
      t.folds.length = s.folds.length ∧
      ∀ (k : Nat) (f : Fold), s.folds[k]? = some f → ∃ g, t.folds[k]? = some g ∧
        (f.uid = e.fold.uid → f.fail = none → g.fail = some o.n.toNat) ∧
        (f.uid ≠ e.fold.uid → f.uid ∈ (droveFolds s e.fold).map (fun x => x.uid) → f.fail = none →
          g.fail = some 0x301) ∧
        (f.uid ≠ e.fold.uid → f.uid ∉ (droveFolds s e.fold).map (fun x => x.uid) → g = f) ∧
        (f.uid = e.fold.uid ∨ f.uid ∈ (droveFolds s e.fold).map (fun x => x.uid) →
          ∀ r : SplitRef, r.fold = f.uid → mayIssue t r = false))) ∧
  ∀ (o : NOp) (s : State) (e : Env), Ready s o.g false {} e →
    (e.act = 0 ∨ e.ctx.attached = false → exec (.brk o) s = .next (retire s e)) ∧
    (e.act ≠ 0 → e.ctx.attached = true →
      (∀ ord, e.sp.stop = some ord → e.sp.first = true → isSafePoint s e.ctx e.launch (e.sp.pc - 16) ord = true →
        exec (.brk o) s = .next (retire (haltReport
          (onFlock s e.fold.uid e.fi (fun fl =>
            { fl with halting := true,
                      splits := fl.splits.set e.idx { e.sp with halted := true, stepping := false } }))
          e ord (e.sp.pc - 16) (3 + 256 * o.n.toNat + 65536)) e)) ∧
      (e.sp.stop = none ∨ e.sp.first = false ∨
        (∃ ord, e.sp.stop = some ord ∧ isSafePoint s e.ctx e.launch (e.sp.pc - 16) ord = false) →
        exec (.brk o) s = .next (retire (onFlock s e.fold.uid e.fi (fun fl =>
          { fl with splits := fl.splits.set e.idx { e.sp with brk := some o.n } })) e)))

/-- R325, R328, R329: taking a trap writes TRAPCAUSE, TRAPDETAIL, TRAPPC and TRAPSPLIT and the shadow pair s1:s0, and
starts the handler at TRAPBASE in the trapping split's place; every other register, split and flock keeps its value.
With TRAPBASE 0 a trap fails the fold with 0x100 + CAUSE; a trap of a handler's own bundle fails it with 0x200 +
CAUSE. -/
def Obligations.TrapEntry : Prop :=
  (∀ (s : State) (f : Fold) (fl : Flock) (l : Launch) (c : Context) (sp : Split) (fi idx : Nat) (async : Bool)
    (pos : Pos) (t : TrapInfo),
    foldAt s f.uid = some f → flockAt f fi = some fl → launchAt s f.launch = some l → ctxAt s l.ctx = some c →
    fl.handler = none → fl.splits[idx]? = some sp → c.trapbase ≠ 0 → t.cause < 256 →
    ∃ u : Flock, takeTrap s f.uid fi idx async pos t = putFold s (putFlock f fi u) ∧
      u = { fl with trap := u.trap, sh := u.sh, handler := u.handler, splits := u.splits, verdicts := u.verdicts } ∧
      u.trap.cause.toNat = (if async then 2 ^ 15 else 2 ^ 13 * posCode pos) + t.cause ∧
      u.trap.detail = BitVec.ofNat 32 t.detail ∧ u.trap.pc = sp.pc ∧ u.trap.split = sp.mask ∧
      (∀ r, cget 0 u.sh r = if r = 0 then loWord t.addr else if r = 1 then hiWord t.addr else cget 0 fl.sh r) ∧
      (∃ h, u.handler = some h ∧ h.index = idx ∧ h.sp.pc = c.trapbase ∧ h.sp.mask = sp.mask ∧ h.sp.inside = false) ∧
      u.splits[idx]? = some { sp with wait := .none } ∧ (∀ j, j ≠ idx → u.splits[j]? = fl.splits[j]?) ∧
      ∀ v, v ∈ u.verdicts ↔ v ∈ fl.verdicts ∧ ¬ (t.cause = 0x1E ∧ v = (pageBase t.addr.toNat, t.detail % 16))) ∧
  ∀ (s : State) (f : Fold) (fl : Flock) (l : Launch) (c : Context) (fi idx : Nat) (async : Bool) (pos : Pos)
    (t : TrapInfo),
    foldAt s f.uid = some f → flockAt f fi = some fl → launchAt s f.launch = some l → ctxAt s l.ctx = some c →
    f.fail = none →
    (fl.handler.isSome = true →
      (foldAt (takeTrap s f.uid fi idx async pos t) f.uid).bind (fun g => g.fail) = some (0x200 + t.cause)) ∧
    (fl.handler = none → idx < fl.splits.length → c.trapbase = 0 →
      (foldAt (takeTrap s f.uid fi idx async pos t) f.uid).bind (fun g => g.fail) = some (0x100 + t.cause))

/-- R27, R329: an instruction that names a vector register at or above G takes REGRANGE with the first such register,
where a handler may issue it or none runs; a handler that issues one that it may not, or any under a guard, fails its
fold with 0x210. That REGRANGE is tested whatever Active is, destinations first, is the model's choice (log entry 22).
-/
def Obligations.VectorNamesChecked : Prop :=
  ∀ (i : Instr) (s : State) (e : Env) (g : Guard) (ih : Bool) (n : Names), namedBy s e i = some (g, ih, n) →
    envOf s g = some e →
    (e.hand = true → ih = false ∨ g ≠ .always → exec i s = .next (failFold s e.fold.uid 0x210)) ∧
    (∀ r, e.hand = false ∨ (ih = true ∧ g = .always) → n.regs.find? (fun r => gRegs e.launch ≤ r) = some r →
      exec i s = .next (takeTrap s e.fold.uid e.fi e.idx false e.pos (plainTrap 0x13 (r % 256))))

end

namespace Sys2Proof.Slice0

open Machine

/-! ### Values of a format slot -/

/-- A format that a legal image gives (R53). -/
def IsSlot (f : Fdr) : Prop := f.legal = true ∧ ∃ img, fdrOf img = f

/-- The number that a code of a slot stands for. -/
def valueOf (f : Fdr) (c : Nat) : Option ℚ := ratOf (decodeNum f c)

/-- Some code of the slot stands for the number. -/
def Rep (f : Fdr) (v : ℚ) : Prop := ∃ c, c < 2 ^ f.w ∧ valueOf f c = some v

/-- The finite number of the slot that lies farthest on one side. -/
def Extreme (f : Fdr) (neg : Bool) (y : ℚ) : Prop := Rep f y ∧ ∀ v, Rep f v → if neg then y ≤ v else v ≤ y

/-- 2^Emin (R56). -/
def minNormal (f : Fdr) : ℚ := 2 ^ (if f.zc = 2 then -f.bias else 1 - f.bias)

/-- The sign, exponent and mantissa fields of a code (R56). -/
def signOf (f : Fdr) (c : Nat) : Bool := f.s == 1 && c.testBit (f.w - 1)
def expOf (f : Fdr) (c : Nat) : Nat := c / 2 ^ f.m % 2 ^ f.e
def manOf (f : Fdr) (c : Nat) : Nat := c % 2 ^ f.m

/-- The codes of R56 that are NaN, and those that are an infinity. -/
def isNanCode (f : Fdr) (c : Nat) : Prop :=
  (f.nc = 1 ∧ expOf f c = 2 ^ f.e - 1 ∧ manOf f c ≠ 0) ∨
    (f.nc = 2 ∧ expOf f c = 2 ^ f.e - 1 ∧ manOf f c = 2 ^ f.m - 1) ∨
    (f.nc = 3 ∧ signOf f c = true ∧ expOf f c = 0 ∧ manOf f c = 0)
def isInfCode (f : Fdr) (c : Nat) : Prop := f.ic = 1 ∧ expOf f c = 2 ^ f.e - 1 ∧ manOf f c = 0

/-- The number of a finite code (R56). -/
def codeValue (f : Fdr) (c : Nat) : ℚ :=
  let frac : ℚ := (manOf f c : ℚ) / 2 ^ f.m
  if expOf f c = 0 ∧ f.zc = 2 then sgn (signOf f c) * (1 + frac) * (2 : ℚ) ^ (-f.bias)
  else if expOf f c = 0 ∧ (manOf f c = 0 ∨ f.zc = 1) then 0
  else if expOf f c = 0 then sgn (signOf f c) * frac * (2 : ℚ) ^ (1 - f.bias)
  else sgn (signOf f c) * (1 + frac) * (2 : ℚ) ^ ((expOf f c : ℤ) - f.bias)

/-- An integer that a rounding mode may give for a number (R58, R60). -/
def IntRounded (rm : Nat) (x : ℚ) (i : ℤ) : Prop :=
  (rm = 0 → |(i : ℚ) - x| ≤ 1 / 2 ∧ (|(i : ℚ) - x| = 1 / 2 → i % 2 = 0)) ∧
  (rm = 1 → |(i : ℚ)| ≤ |x| ∧ |(i : ℚ) - x| < 1) ∧
  (rm = 2 → x ≤ i ∧ (i : ℚ) < x + 1) ∧
  (rm = 3 → (i : ℚ) ≤ x ∧ x < i + 1) ∧
  (rm = 4 → |(i : ℚ) - x| ≤ 1 / 2 ∧ (|(i : ℚ) - x| = 1 / 2 → |x| < |(i : ℚ)|)) ∧
  (rm = 5 → |(i : ℚ) - x| < 1)

/-- The outcome of the overflow policy (R59) for a sign. -/
def Overflowed (f : Fdr) (rm : Nat) (neg : Bool) (c : Nat) : Prop :=
  if f.sat = true ∨ rm = 1 ∨ (rm = 2 ∧ neg = true) ∨ (rm = 3 ∧ neg = false) then
    ∃ y, valueOf f c = some y ∧ Extreme f neg y
  else if f.ic = 1 then decodeNum f c = .inf neg
  else if f.nc ≠ 0 then decodeNum f c = .nan
  else ∃ y, valueOf f c = some y ∧ Extreme f neg y

end Sys2Proof.Slice0

section

open Sys2Proof Sys2Proof.Machine Sys2Proof.Slice0

/-- R56, R58: Decode gives each code of a legal slot the class and the number of its table, and ignores the bits above
it; RoundTo of the value of a finite code other than a flushed one gives that value back, with no flag. -/
def Obligations.FormatDecoding : Prop :=
  (∀ (f : Fdr) (c : Nat), IsSlot f → f.kind = 0 → c < 2 ^ f.w →
    (isNanCode f c → decodeNum f c = .nan) ∧
    (¬ isNanCode f c → isInfCode f c → decodeNum f c = .inf (signOf f c)) ∧
    (¬ isNanCode f c → ¬ isInfCode f c →
      ∃ n d, decodeNum f c = .fin (signOf f c) n d ∧ 0 < d ∧ valueOf f c = some (codeValue f c))) ∧
  (∀ (f : Fdr) (c : Nat), IsSlot f → f.kind ≠ 0 → c < 2 ^ f.w →
    valueOf f c = some (if f.kind = 2 ∧ 2 ^ (f.w - 1) ≤ c then (c : ℚ) - 2 ^ f.w else c)) ∧
  (∀ (f : Fdr) (c k : Nat), decodeNum f (c + 2 ^ f.w * k) = decodeNum f c) ∧
  ∀ (f : Fdr) (c rm rnd : Nat) (y : ℚ), IsSlot f → rm ≤ 5 → c < 2 ^ f.w → valueOf f c = some y →
    valueOf f (roundTo f rm rnd (decodeNum f c)).1 = some y ∧ (roundTo f rm rnd (decodeNum f c)).2 = 0 ∧
      (y ≠ 0 → (roundTo f rm rnd (decodeNum f c)).1 = c)

/-- R58, R59: RoundTo of a finite nonzero number in a float slot. Where it does not overflow and lies on the slot's
grid of numbers, the result is a nearest number of the slot, with an even code in a tie under RM 000 and the greater
magnitude under 100, or the next number in the direction of RM 001, 010 and 011, or under 101 one of the two beside
it; inexact is raised just where the result differs, and underflow where it differs and the number lies below 2^Emin.
Where it overflows, the number exceeds every number of the slot, and the policy of R59 applies; a number of 2^Emin and
more that is at least twice the greatest of the slot overflows. Below 2^Emin a slot with no zero gives 2^Emin, and one
that flushes gives 0 or 2^Emin. That the NaN of a slot with ZC 10 and NC 011 stands in place of -2^Emin is the model's
choice (log entry 27). -/
def Obligations.FormatRounding : Prop :=
  ∀ (f : Fdr) (rm rnd n d : Nat) (neg : Bool), IsSlot f → f.kind = 0 → rm ≤ 5 → rnd < 2 ^ 32 → 0 < n → 0 < d →
    (f.s = 1 ∨ neg = false) →
    let x : ℚ := sgn neg * (n / d)
    let r := roundTo f rm rnd (.fin neg n d)
    (∀ y, valueOf f r.1 = some y → r.2.getLsbD 2 = false → f.zc = 0 ∨ minNormal f ≤ |x| →
      (rm = 0 ∨ rm = 4 → ∀ v, Rep f v → |y - x| ≤ |v - x| ∧
        (|y - x| = |v - x| → v ≠ y → if rm = 0 then r.1 % 2 = 0 else |v| < |y|)) ∧
      (rm = 1 → |y| ≤ |x| ∧ ∀ v, Rep f v → |v| ≤ |x| → |v| ≤ |y|) ∧
      (rm = 2 → x ≤ y ∧ ∀ v, Rep f v → x ≤ v → y ≤ v) ∧
      (rm = 3 → y ≤ x ∧ ∀ v, Rep f v → v ≤ x → v ≤ y) ∧
      (rm = 5 → ∀ v, Rep f v → ¬ (min x y < v ∧ v < max x y)) ∧
      (r.2.getLsbD 4 = true ↔ y ≠ x) ∧ (r.2.getLsbD 3 = true ↔ |x| < minNormal f ∧ y ≠ x)) ∧
    (r.2.getLsbD 2 = true → (∀ v, Rep f v → |v| < |x|) ∧ r.2.getLsbD 4 = true ∧ Overflowed f rm neg r.1) ∧
    (minNormal f ≤ |x| → (∀ v, Rep f v → 2 * |v| ≤ |x|) → r.2.getLsbD 2 = true) ∧
    (r.2.getLsbD 2 = false → (valueOf f r.1).isSome = true ∨ (f.zc = 2 ∧ f.nc = 3 ∧ neg = true)) ∧
    (f.zc = 2 → |x| < minNormal f → f.nc ≠ 3 ∨ neg = false →
      valueOf f r.1 = some (sgn neg * minNormal f) ∧ r.2 = fUF ||| fNX) ∧
    (f.zc = 1 → |x| < minNormal f → r.2.getLsbD 2 = false →
      ∃ y, valueOf f r.1 = some y ∧ (y = 0 ∨ y = sgn neg * minNormal f) ∧
        (|x| ≤ (1 - 1 / 2 ^ f.m) * minNormal f → y = 0) ∧ r.2 = fUF ||| fNX)

/-- R58, R60: the special cases of RoundTo in a float slot, and RoundTo in an integer slot: the number is rounded to
an integer, which saturates or wraps where it lies outside the slot. -/
def Obligations.RoundingSpecialCases : Prop :=
  (∀ (f : Fdr) (rm rnd : Nat), IsSlot f → f.kind = 0 → rm ≤ 5 →
    let nan : Nat × BitVec 5 := roundTo f rm rnd .nan
    (f.nc ≠ 0 → decodeNum f nan.1 = .nan ∧ nan.2 = 0) ∧
    (f.nc = 0 → (∃ y, valueOf f nan.1 = some y ∧ Extreme f false y) ∧ nan.2 = fNV) ∧
    (f.s = 0 → ∀ n d, 0 < n → roundTo f rm rnd (.fin true n d) = (nan.1, fNV)) ∧
    (f.s = 0 → roundTo f rm rnd (.inf true) = (nan.1, fNV)) ∧
    (∀ neg, f.s = 1 ∨ neg = false →
      let inf := roundTo f rm rnd (.inf neg)
      (f.ic = 1 → decodeNum f inf.1 = .inf neg ∧ inf.2 = 0) ∧
      (f.ic = 0 → Overflowed f rm neg inf.1 ∧ inf.2 = fOF ||| fNX)) ∧
    ∀ neg d, 0 < d →
      let z := roundTo f rm rnd (.fin neg 0 d)
      (f.zc ≠ 2 → decodeNum f z.1 = .fin (neg && f.s == 1 && f.nc != 3) 0 1 ∧ z.2 = 0) ∧
      (f.zc = 2 → valueOf f z.1 = some (minNormal f) ∧ z.2 = fUF ||| fNX)) ∧
  ∀ (f : Fdr) (rm rnd : Nat), IsSlot f → f.kind ≠ 0 → rm ≤ 5 → rnd < 2 ^ 32 →
    let lo : ℤ := if f.kind = 1 then 0 else -(2 ^ f.m)
    let hi : ℤ := 2 ^ f.m - 1
    let code (i : ℤ) : Nat := (i % 2 ^ f.w).toNat
    roundTo f rm rnd .nan = (code hi, fNV) ∧
    (∀ neg, roundTo f rm rnd (.inf neg) = (code (if neg then lo else hi), fOF)) ∧
    ∀ (neg : Bool) (n d : Nat), 0 < d →
      let x : ℚ := sgn neg * (n / d)
      let r := roundTo f rm rnd (.fin neg n d)
      ∃ i : ℤ, IntRounded rm x i ∧
        r.1 = code (if i < lo ∧ f.sat = true then lo else if hi < i ∧ f.sat = true then hi else i) ∧
        (r.2.getLsbD 4 = true ↔ (i : ℚ) ≠ x) ∧ (r.2.getLsbD 2 = true ↔ i < lo ∨ hi < i) ∧ r.2 &&& 11 = 0

/-- R176, R177: what the operations of REDL and SCANL give for two words, and their identities; in each segment the
tree of IADD, AND, OR and XOR gives the word that combining the lanes of Active one after another gives. The identity
of FADD in a slot with no zero, the identity 0 of FMAX in a slot without sign, also where it has an infinity, and that
FMIN and FMAX take RM 101 as RNE, are the model's choices (log entry 27). -/
def Obligations.ReductionOperations : Prop :=
  (∀ (e : Env) (o : RedlOp) (l : Nat), l < 64 → inMask e.act l →
     o.op ∈ [RedOp.iadd, .and, .or, .xor] →
     redValue e o l
       = (segment e o.seg l).foldl (fun x j => (redOp (slotFdr e o.fs) o.op x (srcV e 0 o.a j)).1)
           (if o.op = .and then BitVec.allOnes 32 else 0)) ∧
  (∀ (f : Fdr) (a b : Word),
    redOp f .iadd a b = (a + b, 0) ∧ redOp f .iminS a b = (smaller false a b, 0) ∧
    redOp f .iminU a b = (smaller true a b, 0) ∧ redOp f .imaxS a b = (larger false a b, 0) ∧
    redOp f .imaxU a b = (larger true a b, 0) ∧ redOp f .and a b = (a &&& b, 0) ∧
    redOp f .or a b = (a ||| b, 0) ∧ redOp f .xor a b = (a ^^^ b, 0)) ∧
  (∀ (f : Fdr) (a b : Word), IsSlot f →
    let rm := if f.rm = 5 then 0 else f.rm
    (∃ x fl, redOp f .fadd a b = (BitVec.ofNat 32 (roundTo f rm 0 x).1, fl ||| (roundTo f rm 0 x).2) ∧
      (decodeNum f a.toNat = .nan ∨ decodeNum f b.toNat = .nan → x = .nan ∧ fl = 0) ∧
      (∀ p, decodeNum f a.toNat = .inf p → decodeNum f b.toNat = .inf (!p) → x = .nan ∧ fl = fNV) ∧
      ∀ v w, valueOf f a.toNat = some v → valueOf f b.toNat = some w → ratOf x = some (v + w) ∧ fl = 0) ∧
    ∀ big : Bool, ∃ x, redOp f (if big then .fmax else .fmin) a b
        = (BitVec.ofNat 32 (roundTo f rm 0 x).1, (roundTo f rm 0 x).2) ∧
      (decodeNum f a.toNat = .nan → x = decodeNum f b.toNat) ∧
      (decodeNum f a.toNat ≠ .nan → decodeNum f b.toNat = .nan → x = decodeNum f a.toNat) ∧
      ∀ v w, valueOf f a.toNat = some v → valueOf f b.toNat = some w →
        ratOf x = some (if big then max v w else min v w)) ∧
  ∀ (f : Fdr), IsSlot f →
    (∀ op ∈ [RedOp.iadd, .or, .xor, .imaxU], redIdentity f op = 0) ∧
    (∀ op ∈ [RedOp.and, .iminU], redIdentity f op = 0xFFFFFFFF) ∧
    redIdentity f .iminS = 0x7FFFFFFF ∧ redIdentity f .imaxS = 0x80000000 ∧
    redIdentity f .fadd
      = (if f.kind = 0 ∧ f.s = 1 ∧ f.nc ≠ 3 ∧ f.zc ≠ 2 then BitVec.ofNat 32 (2 ^ (f.w - 1)) else 0) ∧
    (f.ic = 1 → decodeNum f (redIdentity f .fmin).toNat = .inf false) ∧
    (f.ic = 0 → ∃ y, valueOf f (redIdentity f .fmin).toNat = some y ∧ Extreme f false y) ∧
    (f.kind = 0 → f.s = 0 → redIdentity f .fmax = 0) ∧
    (f.s = 1 → f.ic = 1 → decodeNum f (redIdentity f .fmax).toNat = .inf true) ∧
    ((f.s = 1 ∨ f.kind = 1) → f.ic = 0 → ∃ y, valueOf f (redIdentity f .fmax).toNat = some y ∧ Extreme f true y)

end



section

open Sys2Proof Sys2Proof.Machine Sys2Proof.Slice0

/-- R86, R180, R211: a memory or engine instruction with no lane in Active has no effect but its bundle's retirement.
-/
def Obligations.NoLaneNoEffect : Prop :=
  ∀ (i : Instr) (s : State) (e : Env) (g : Guard) (ih : Bool) (n : Names), memNames s e i = some (g, ih, n) →
    Ready s g ih n e → e.act = 0 → exec i s = .next (retire s e)

/-- R179, R181, R190, R191, R193, R194: LD, LDL, LDX, SLD, LDP and BDEC, where every access is aligned and can be
made, complete: the words read are left to land in the destination of each lane of Active, with the flag raised, and
an acquire holds its path until they have. LDP changes the bits of the accessed elements, which it takes from memory
from bit 8 × A + B on; BDEC takes the bits of a field from the local store. That a byte may take, until it lands,
another value that comes to stand, is the model's choice (log entry 11). -/
def Obligations.LoadResults : Prop :=
  (∀ (i : Instr) (s : State) (e : Env) (o : LoadRow) (r : State × List (List Byte)), loadRow s e i = some o →
    let ps := (actLanes e).map o.piece
    Ready s o.g false o.names e → e.act ≠ 0 → holdUp e (flagOf e o.flg) false false = none → Aligned ps →
    readPieces s e (howOf o.ord o.scope o.hint) ps = .ok r →
    ∃ ws, exec i s
        = .next (retire (acquired (addLoad r.1 e (loadKind e o.flg o.ord) ws) e o.ord o.scope r.1.nextUid) e) ∧
      LandsAs ws (((actLanes e).zip r.2).flatMap (fun x => laneWords o.d x.1 (loadWords o.size x.2))) ∧
      placesOf ws = ps.flatMap (fun p => spotPlaces p.spot p.n)) ∧
  (∀ (o : SMemOp) (s : State) (e : Env) (r : State × List (List Byte)),
    let p := scalarPiece s e .read o.a o.off (sizeBytes o.size)
    Ready s o.g (o.flg == .none)
      { s := [o.a.toNat, o.a.toNat + 1] ++ (optSrc o.off).flatMap (sOf 1), sw := regsFrom o.d.toNat (Machine.sizeRegs o.size) } e →
    e.act ≠ 0 → holdUp e (flagOf e o.flg) false false = none → Aligned [p] →
    readPieces s e (howOf o.ord o.scope o.hint) [p] = .ok r →
    ∃ ws, exec (.sld o) s
        = .next (retire (acquired (putScalars r.1 e (flagOf e o.flg) (o.ord != 0) ws) e o.ord o.scope r.1.nextUid) e) ∧
      LandsAs ws (scalarWords o.d.toNat (loadWords o.size (r.2.headD []))) ∧
      placesOf ws = spotPlaces p.spot p.n) ∧
  (∀ (o : PMemOp) (s : State) (e : Env) (r : State × List (List Byte)),
    let w := (slotFdr e o.fs).w
    let el := packedElems e (slotFdr e o.fs) o.count
    let bit0 := packedBase e o.a o.b
    let bytes := packedBytes bit0 w el
    Ready s o.g false ((rowWritten e o).also (packedNames o)) e → e.act ≠ 0 →
    holdUp e (flagOf e o.flg) false false = none →
    readPieces s e (howOf o.ord o.scope o.hint) (bytes.map (fun x => pieceMem s e .read x.2 (x.1 % 2 ^ 64) 1)) = .ok r →
    ∃ ws, exec (.ldp o) s
        = .next (retire (acquired (addLoad r.1 e (loadKind e o.flg o.ord) ws) e o.ord o.scope r.1.nextUid) e) ∧
      (∀ x ∈ ws, x.lane < 64 ∧ x.key = o.d.toNat * 64 + x.lane ∧ x.bits ≠ 0) ∧
      (∀ l < 64, ∀ j < 32, (32 * l + j) / w ∈ el → ∃ x ∈ ws, x.lane = l ∧ x.bits.getLsbD j = true) ∧
      (∀ x ∈ ws, ∀ j < 32, x.bits.getLsbD j = true → (32 * x.lane + j) / w ∈ el ∧
        ∃ y ∈ bytes.zip r.2, y.1.1 = (bit0 + 32 * x.lane + j) / 8 ∧
          x.value.getLsbD j = (y.2.headD 0).getLsbD ((bit0 + 32 * x.lane + j) % 8)) ∧
      ∀ x ∈ ws, ∀ b ∈ x.src, b.more = true → ∃ y ∈ bytes,
        (b.fold, b.place) ∈ spotPlaces (pieceMem s e .read y.2 (y.1 % 2 ^ 64) 1).spot 1) ∧
  ∀ (o : BdecOp) (s : State) (e : Env),
    let width (l : Nat) : Nat := min ((srcV e 1 o.width l).toNat % 64) 32
    let fields := bdecFields width (actLanes e) (readS e 0 o.a.toNat).toNat
    let size (x : Nat × Nat × Nat) : Nat := if x.2.2 = 0 then 0 else (x.2.1 + x.2.2 - 1) / 8 - x.2.1 / 8 + 1
    let bits (x : Nat × Nat × Nat) : Nat :=
      leNat (lsBytes s e.fold.uid (x.2.1 / 8) (size x)) / 2 ^ (x.2.1 % 8) % 2 ^ x.2.2
    let word (x : Nat × Nat × Nat) : Word :=
      if x.2.2 = 0 then 0
      else if o.sext ∧ 2 ^ (x.2.2 - 1) ≤ bits x then BitVec.ofInt 32 ((bits x : Int) - 2 ^ x.2.2)
      else BitVec.ofNat 32 (bits x)
    let places := fields.flatMap (fun x => (List.range (size x)).map (fun i => (some e.fold.uid, x.2.1 / 8 + i)))
    Ready s o.g false { srcNames 1 [o.width] with vw := [o.d.toNat], s := [o.a.toNat] ++ sOf 1 o.width } e → e.act ≠ 0 →
    holdUp e (flagOf e o.flg) false false = none → e.fold.lsMarks = [] →
    (∀ x ∈ fields, x.2.2 ≠ 0 → x.2.1 + x.2.2 ≤ 8 * e.launch.lsBytes) →
    ∃ ws, exec (.bdec o) s
        = .next (retire (addLoad (settlePlaces s e.fold.uid e.fi places) e { flg := flagOf e o.flg } ws) e) ∧
      LandsAs ws (fields.flatMap (fun x => laneWords o.d.toNat x.1 [word x])) ∧ placesOf ws = places

/-- R188, R251, R276: the bytes that a read gives. A local store gives its own; a wide access of memory gives the
coherent byte, with what the core itself has written and not given up; a narrower one may give the copy of the core's
L1 instead. A byte of a parameter block that changed may read as it was (R24; which, for each lane, is a free value,
log entry 32); that everything beyond the L1s is one coherent byte is the model's choice (log entry 11). The flock has
no store outstanding, and the home can be reached. -/
def Obligations.LoadedBytes : Prop :=
  ∀ (s : State) (e : Env) (how : How) (ps : List Piece) (r : State × List (List Byte)),
    e.fl.stores = [] → readPieces s e how ps = .ok r →
    r.2.length = ps.length ∧
      ∀ (i : Nat) (p : Piece) (bs : List Byte), ps[i]? = some p → r.2[i]? = some bs →
        bs.length = p.n ∧
        (∀ u off, p.spot = .ok (.ls u off) → bs = lsBytes s u off p.n) ∧
        ∀ (h : Nat) (lf : Leaf) (j : Nat) (b : Byte), p.spot = .ok (.mem h lf) → h + p.n ≤ peerKey → bs[j]? = some b →
          homeOffline s (128 * ((h + j) / 128)) = false →
          let own := paramByte s p.lane (h + j) (ownView s e.fold.core (h + j))
          (how.wide = true → h % 128 + p.n ≤ 128 → b = own) ∧
          (how.wide = false → b = paramByte s p.lane (h + j) (l1Byte s e.fold.core (h + j)) ∨ b = own)

/-- R188, R190 to R194: every store, where every access is aligned and can be made, completes. -/
def Obligations.StoreResults : Prop :=
  ∀ (i : Instr) (s : State) (e : Env) (o : StoreRow) (t : State), storeRow s e i = some o →
    Ready s o.g o.ih o.names e → e.act ≠ 0 → holdUp e (flagOf e o.flg) true (o.ord == 2) = none → Aligned o.checked →
    writePieces s e (flagOf e o.flg) (howOf o.ord o.scope o.hint) (o.ord == 2) o.scope o.puts = .ok t →
    exec i s = .next (retire t e)

/-- R187, R189, R193, R251: what a store leaves. A byte of a local store takes its new value at once; of a store that
is weak or of a narrow scope, every byte stands where its core reads it, the bits outside the mask as they stood, and
its flag counts it; of a wide one, memory and caches are as before and its bytes wait to be performed, with the bits
outside the mask as its core saw them, and after what is on its path where it releases. No earlier store of the flock
is outstanding. When the bytes of a wide store are performed, and that a part of a byte is written with the bits that
stood at issue, are the model's choices (log entry 11). -/
def Obligations.StoredBytes : Prop :=
  ∀ (s t : State) (e : Env) (g : Guard) (flg : Option (BitVec 4)) (how : How) (rel : Bool) (sc : BitVec 4)
    (xs : List Put), envOf s g = some e → e.fl.stores = [] → writePieces s e flg how rel sc xs = .ok t →
    (∀ u off, (foldAt s u).isSome → lsByte t u off = lsAfter xs u off (lsByte s u off)) ∧
    (how.wide = false → e.fold.core < s.cores.length →
      ∀ a ∈ homesOf xs, a < peerKey → homeOffline s (128 * (a / 128)) = false →
        l1Byte t e.fold.core a = memAfter xs a (l1Byte s e.fold.core a) ∨
          l1Byte t e.fold.core a = memAfter xs a (ownView s e.fold.core a)) ∧
    (how.wide = true → e.hand = false → (∀ x ∈ xs, ∃ h lf, x.p.spot = .ok (.mem h lf)) →
      let s1 := settlePlaces s e.fold.uid e.fi (xs.flatMap (fun x => spotPlaces x.p.spot 1))
      let old (h : Nat) : Byte := if peerKey ≤ h then homeByte s1 h else l1Byte s1 e.fold.core h
      t = { s1 with folds := t.folds, nextUid := s.nextUid + 1, cur := t.cur } ∧
      ∃ p, (flockOf t e.fold.uid e.fi).map (fun fl => fl.stores) = some [p] ∧ p.flag = flg ∧ p.scope = sc ∧
        p.release = rel ∧ p.weak = !how.strong ∧ p.waitFault = none ∧ p.after = (if rel then e.sp.path else []) ∧
        p.bytes.map (fun b => (b.addr, b.va, b.lane, b.value, b.mask)) = xs.filterMap (fun x => match x.p.spot with
          | .ok (.mem h _) => some (h, x.p.va, x.p.lane, (old h &&& ~~~x.m) ||| (x.v &&& x.m), (0xFF : Byte))
          | _ => none)) ∧
    (e.hand = false → (flockOf t e.fold.uid e.fi).map (fun fl => fl.c) = some (flagUp e.fl flg).c)

/-- R6, R188, R251: what a store leaves alone, whether it completes, stalls or traps: every byte of a local store and
every byte of memory that it does not name. The home of such a byte can only take what the core had written before. -/
def Obligations.StoreFrame : Prop :=
  ∀ (i : Instr) (s t : State) (e : Env) (o : StoreRow), storeRow s e i = some o → envOf s o.g = some e →
    e.fl.stores = [] → exec i s = .next t →
    (∀ u off, (∀ x ∈ o.puts, x.p.spot ≠ .ok (.ls u off)) → lsByte t u off = lsByte s u off) ∧
    ∀ a, a ∉ homesOf o.puts →
      (homeByte t a = homeByte s a ∨ homeByte t a = ownView s e.fold.core a) ∧
        ∀ k, l1Byte t k a = l1Byte s k a ∨ l1Byte t k a = homeByte s a ∨ l1Byte t k a = ownView s e.fold.core a

/-- R179, R184, R186, R193, R196, R199, R206, R326: a misaligned access of LD, SLD, LDL, LDX, ST, STL, STX, SST, ATOM,
RED, RED.D or MWAIT takes MISALIGN with its lane (255 for a scalar form) and its address; a slot that an atomic
refuses, and a float atomic in a launch with DET, come before it; an offset beyond the local store of LDL, LDX, STL,
STX or BDEC takes LSRANGE, with its lane or, for BDEC's fields, 255. -/
def Obligations.AccessTraps : Prop :=
  (∀ (i : Instr) (s : State) (e : Env) (o : LoadRow) (p : Piece), loadRow s e i = some o →
    Ready s o.g false o.names e → e.act ≠ 0 → holdUp e (flagOf e o.flg) false false = none →
    ((actLanes e).map o.piece).find? (fun p => p.va % p.n != 0) = some p →
    exec i s = .next (takeTrap s e.fold.uid e.fi e.idx false e.pos
      { cause := 0x17, detail := p.lane, addr := BitVec.ofNat 64 p.va })) ∧
  (∀ (i : Instr) (s : State) (e : Env) (o : StoreRow) (p : Piece), storeRow s e i = some o →
    Ready s o.g o.ih o.names e → e.act ≠ 0 → holdUp e (flagOf e o.flg) true (o.ord == 2) = none →
    o.checked.find? (fun p => p.va % p.n != 0) = some p →
    exec i s = .next (takeTrap s e.fold.uid e.fi e.idx false e.pos
      { cause := 0x17, detail := p.lane, addr := BitVec.ofNat 64 p.va })) ∧
  (∀ (i : Instr) (s : State) (e : Env) (o : LoadRow) (p : Piece), loadRow s e i = some o →
    Ready s o.g false o.names e → e.act ≠ 0 → holdUp e (flagOf e o.flg) false false = none →
    Aligned ((actLanes e).map o.piece) →
    ((actLanes e).map o.piece).find? (fun p => p.spot = .error .range) = some p →
    exec i s = .next (takeTrap s e.fold.uid e.fi e.idx false e.pos (plainTrap 0x18 p.lane))) ∧
  (∀ (i : Instr) (s : State) (e : Env) (o : StoreRow) (x : Put), storeRow s e i = some o →
    Ready s o.g o.ih o.names e → e.act ≠ 0 → holdUp e (flagOf e o.flg) true (o.ord == 2) = none → Aligned o.checked →
    o.puts.find? (fun x => x.p.spot = .error .range) = some x →
    exec i s = .next (takeTrap s e.fold.uid e.fi e.idx false e.pos (plainTrap 0x18 x.p.lane))) ∧
  (∀ (o : SMemOp) (s : State) (e : Env),
    let p := scalarPiece s e .read o.a o.off (sizeBytes o.size)
    Ready s o.g (o.flg == .none)
      { s := [o.a.toNat, o.a.toNat + 1] ++ (optSrc o.off).flatMap (sOf 1), sw := regsFrom o.d.toNat (Machine.sizeRegs o.size) } e →
    e.act ≠ 0 → holdUp e (flagOf e o.flg) false false = none → p.va % p.n ≠ 0 →
    exec (.sld o) s = .next (misaligned s e 255 p.va)) ∧
  (∀ (i : Instr) (s : State) (e : Env) (o : RmwRow), rmwRow i = some o → Ready s o.g false o.names e → e.act ≠ 0 →
    holdUp e (flagOf e o.a.flg) true o.rel = none →
    let f := slotFdr e o.a.fs
    let n := atomBits o.a.fn o.a.wide f / 8
    let va (l : Nat) : Nat := addrOf (readS2 e 0 o.a.a.toNat) (srcV e 1 o.a.idx l) 0
    (atomBadSlot o.a.fn f = true →
      exec i s = .next (takeTrap s e.fold.uid e.fi e.idx false e.pos (plainTrap 0x15 o.a.fs.toNat))) ∧
    (atomBadSlot o.a.fn f = false → o.det = true → e.launch.det = true → atomFloat o.a.fn = true →
      exec i s = .next (takeTrap s e.fold.uid e.fi e.idx false e.pos (plainTrap 0x16 0))) ∧
    ∀ l, atomBadSlot o.a.fn f = false → (o.det && e.launch.det && atomFloat o.a.fn) = false →
      (actLanes e).find? (fun l => va l % n != 0) = some l → exec i s = .next (misaligned s e l (va l))) ∧
  (∀ (o : MwaitOp) (s : State) (e : Env),
    Ready s o.g false
      { s := [o.a.toNat, o.a.toNat + 1] ++ sOf 2 o.e, sw := (o.d.map (fun d => [d.toNat, d.toNat + 1])).getD [] } e →
    e.act ≠ 0 → holdUp e none false false = none → (readS2 e 0 o.a.toNat).toNat % 8 ≠ 0 →
    exec (.mwait o) s = .next (misaligned s e 255 (readS2 e 0 o.a.toNat).toNat)) ∧
  ∀ (o : BdecOp) (s : State) (e : Env) (x : Nat × Nat × Nat),
    Ready s o.g false { srcNames 1 [o.width] with vw := [o.d.toNat], s := [o.a.toNat] ++ sOf 1 o.width } e → e.act ≠ 0 →
    holdUp e (flagOf e o.flg) false false = none →
    x ∈ bdecFields (fun l => min ((srcV e 1 o.width l).toNat % 64) 32) (actLanes e) (readS e 0 o.a.toNat).toNat →
    x.2.2 ≠ 0 → 8 * e.launch.lsBytes < x.2.1 + x.2.2 →
    exec (.bdec o) s = .next (takeTrap s e.fold.uid e.fi e.idx false e.pos (plainTrap 0x18 255))

/-- R196, R197: ATOM and RED, where no lane meets a trap, complete: ATOM leaves the old values to land in its
destination, RED counts in its flag. The order of the lanes is free (log entry 28); the width of the container of a
float contribution and that the home acts at issue are the model's choices (log entries 46 and 11). -/
def Obligations.AtomicResults : Prop :=
  (∀ (o : AtomOp) (s : State) (e : Env) (r : List (Nat × Nat) × BitVec 5 × State),
    Ready s o.g false
      { atomNames o.a o.idx o.c o.fn o.wide with vw := regsFrom o.d.toNat (if o.wide then 2 else 1) } e →
    e.act ≠ 0 → rmwLanes s e (atomArgs o) = .ok r →
    exec (.atom o) s = .next (retire (addLoad r.2.2 e { flg := flagOf e o.flg, strong := true, fflags := r.2.1 }
      (r.1.flatMap (fun x => laneWords o.d.toNat x.1
        (if o.wide then [BitVec.ofNat 32 x.2, BitVec.ofNat 32 (x.2 / 2 ^ 32)] else [BitVec.ofNat 32 x.2])))) e)) ∧
  ∀ (o : RedMemOp) (s : State) (e : Env) (r : List (Nat × Nat) × BitVec 5 × State),
    Ready s o.g false (atomNames o.a o.idx o.c o.fn o.wide) e → e.act ≠ 0 → rmwLanes s e (redArgs o) = .ok r →
    exec (.red o) s = .next (retire (counted r.2.2 e o.flg o.scope false) e)

/-- R196: the new value of a 32-bit or 64-bit container under each integer operation. -/
def Obligations.AtomicValues : Prop :=
  ∀ (w : Nat) (f : Fdr) (m c : BitVec w) (new : Nat), w = 32 ∨ w = 64 →
    let r (fn : AtomFn) : Nat := (atomNew fn w f m.toNat c.toNat new).1
    r .swap = c.toNat ∧ r .cas = (if m = c then new else m.toNat) ∧ r .add = (m + c).toNat ∧
      r .minS = (if c.toInt < m.toInt then c else m).toNat ∧ r .maxS = (if m.toInt < c.toInt then c else m).toNat ∧
      r .minU = min m.toNat c.toNat ∧ r .maxU = max m.toNat c.toNat ∧
      r .and = (m &&& c).toNat ∧ r .or = (m ||| c).toNat ∧ r .xor = (m ^^^ c).toNat ∧
      ∀ fn, fn ∈ [AtomFn.swap, .cas, .add, .minS, .minU, .maxS, .maxU, .and, .or, .xor] →
        (atomNew fn w f m.toNat c.toNat new).2 = 0

/-- R197, R283: a read-modify-write is performed at the home: it reads what the core itself sees written, writes the
new bytes there, leaves no copy of the line in the core's L1, and changes no byte outside its line; a byte of a
parameter block that changed may read as it was (log entry 32). That it is performed at the instant of issue is the
model's choice (log entry 11). -/
def Obligations.AtomicAtHome : Prop :=
  ∀ (s : State) (e : Env) (lane h n : Nat) (lf : Leaf) (f : Nat → Nat × BitVec 5), h + n ≤ peerKey → n ≠ 0 →
    h % 128 + n ≤ 128 → homeOffline s (128 * (h / 128)) = false →
    let old := leNat ((List.range n).map (fun i => paramByte s lane (h + i) (ownView s e.fold.core (h + i))))
    let r := rmwAt s e lane (.mem h lf) n f
    r.1 = old ∧ r.2.1 = (f old).2 ∧ l1Find r.2.2 e.fold.core (h / 128) = none ∧
      ∀ a, homeByte r.2.2 a
        = if h ≤ a ∧ a < h + n then BitVec.ofNat 8 ((f old).1 / 256 ^ (a - h))
          else if a / 128 = h / 128 then ownView s e.fold.core a else homeByte s a

/-- R199, R200, R203: RED.D puts one contribution for each lane of Active into its fold's buffer, in lane order, each
with its home, operation, slot image, operand and key, of which the lane's own sequence number advances; DFLUSH counts
its flock's arrival and drains the buffer of its core. That DFLUSH performs the flock's earlier accesses and cleans
its core's L1 as it issues (log entries 9 and 11), and the width of a container (log entry 46), are the model's
choices. -/
def Obligations.ContributionResults : Prop :=
  (∀ (o : RedDOp) (s : State) (e : Env),
    Ready s o.g false (atomNames o.a o.idx o.c o.fn o.wide) e → e.act ≠ 0 →
    holdUp e (flagOf e o.flg) true false = none → atomBadSlot o.fn (slotFdr e o.fs) = false →
    let va (l : Nat) : Nat := addrOf (readS2 e 0 o.a.toNat) (srcV e 1 o.idx l) 0
    let at' (l : Nat) : Except Reason (Nat × Leaf) :=
      translate s (some e.fold.core) e.ctx.id e.ctx.ptroot.toNat .rmw (va l)
    (∀ l ∈ actLanes e, va l % (atomBits o.fn o.wide (slotFdr e o.fs) / 8) = 0 ∧ apertureOff e.ctx (va l) = none ∧
        ∃ h lf, at' l = .ok (h, lf) ∧ h < peerKey) →
    drbUse s e.fold.core + laneCount e.act ≤ Config.drbSize →
    ∃ t f fl cs, exec (.redD o) s = .next (retire t e) ∧ foldAt t e.fold.uid = some f ∧ flockAt f e.fi = some fl ∧
      f.drb = e.fold.drb ++ cs ∧ cs.map (fun x => x.lane) = actLanes e ∧
      (∀ x ∈ cs, x.dseq = (cget 0 e.fl.dseq x.lane).toNat ∧ x.foldId = e.fold.foldId ∧ x.flock = e.fi ∧
        x.c = BitVec.ofNat 64 (atomOperand e o.fn o.wide (slotFdr e o.fs) o.c x.lane) ∧
        (∃ lf, at' x.lane = .ok (x.home, lf) ∧ x.comp = lf.comp) ∧ x.fn = o.fn ∧ x.slot = slotOf e.fl o.fs.toNat ∧
        8 * x.width = atomBits o.fn o.wide (slotFdr e o.fs) ∧ x.launch = e.launch.uid ∧ x.step = e.fold.step ∧
        x.fold = e.fold.uid ∧ x.gen = e.fl.dflush) ∧
      (∀ l, l < 64 → cget 0 fl.dseq l = if inMask e.act l then cget 0 e.fl.dseq l + 1 else cget 0 e.fl.dseq l) ∧
      t.mem = s.mem ∧ t.cores = s.cores) ∧
  ∀ (o : DflushOp) (s : State) (e : Env), Ready s o.g false {} e → e.act ≠ 0 →
    holdUp e (flagOf e o.flg) true true = none →
    let before := releaseAt (drainStores (settleAll s e.fold.uid e.fi) e.fold.uid e.fi) e.fold.core o.scope
    exec (.dflush o) s = .next (retire (drainCore (onFlock before e.fold.uid e.fi (fun fl =>
      flagUp { fl with dflush := fl.dflush + 1, dflags := fl.dflags ++ [(fl.dflush + 1, o.scope, flagOf e o.flg)] }
        (flagOf e o.flg))) e.fold.core) e)

/-- R205 to R208, R288: FENCE leaves a fence on its path whose release half waits for every access in flight there and
whose acquire half for the strong and atomic reads among them; until they complete, the one holds later stores and
atomics of the path, the other every later access. MWAIT returns the value once it is at least the one expected, and
waits otherwise; PREF only fills caches (a line that leaves an L1 for a home that cannot be reached records its weak
stores' faults); CCTL acts on the lines of its addresses, or on the whole L1. The lines that PREF and CCTL move
between caches are the model's choice, and so is the moment at which CCTL acts (log entries 11, 17 and 44); so is the
path that the model keeps for a split (log entry 40). -/
def Obligations.CacheControlResults : Prop :=
  (∀ (o : FenceOp) (s : State) (e : Env), Ready s o.g (o.flg == .none) {} e → e.act ≠ 0 → e.hand = false →
    flagFull e.fl (flagOf e o.flg) = false →
    let acq := decide (o.ord = 1 ∨ o.ord = 3)
    let rel := decide (o.ord = 2 ∨ o.ord = 3)
    let reads := e.sp.path.filter (fun i => e.fl.loads.any (fun p => p.id == i && p.strong))
    let all := e.sp.path.filter (fun i => e.fl.loads.any (fun p => p.id == i) || e.fl.stores.any (fun p => p.id == i)
      || e.fl.records.any (fun r => r.stores.contains i))
    let r : FenceRec := { id := s.nextUid, flag := flagOf e o.flg, scope := o.scope, acq := acq, rel := rel,
                          acqOn := reads, relOn := if rel then all else [] }
    exec (.fence o) s = .next (retire (settleFences (onFlock { s with nextUid := s.nextUid + 1 } e.fold.uid e.fi (fun fl =>
      flagUp { fl with fences := fl.fences ++ [r],
                       splits := fl.splits.modify e.idx (fun sp => { sp with path := sp.path ++ [s.nextUid] }) }
        (flagOf e o.flg))) e.fold.uid e.fi) e)) ∧
  (∀ (i : Instr) (s : State) (e : Env) (o : LoadRow) (f : FenceRec), loadRow s e i = some o →
    Ready s o.g false o.names e → e.act ≠ 0 → flagFull e.fl (flagOf e o.flg) = false →
    (∀ p ∈ e.fl.stores, p.waitFault = none) → (∀ r ∈ e.fl.records, r.stores = []) →
    f ∈ e.fl.fences → f.id ∈ e.sp.path → f.acq = true → exec i s = .next (markWait s e .interlock)) ∧
  (∀ (i : Instr) (s : State) (e : Env) (o : StoreRow) (f : FenceRec), storeRow s e i = some o →
    Ready s o.g o.ih o.names e → e.act ≠ 0 → flagFull e.fl (flagOf e o.flg) = false →
    (∀ p ∈ e.fl.stores, p.waitFault = none) → (∀ r ∈ e.fl.records, r.stores = []) →
    f ∈ e.fl.fences → f.id ∈ e.sp.path → f.acq = true ∨ f.rel = true → exec i s = .next (markWait s e .interlock)) ∧
  (∀ (o : MwaitOp) (s : State) (e : Env) (r : State × List (List Byte)),
    let p := pieceMem s e .read 255 (readS2 e 0 o.a.toNat).toNat 8
    Ready s o.g false
      { s := [o.a.toNat, o.a.toNat + 1] ++ sOf 2 o.e, sw := (o.d.map (fun d => [d.toNat, d.toNat + 1])).getD [] } e →
    e.act ≠ 0 → holdUp e none false false = none → Aligned [p] → readPieces s e { strong := true, wide := wider o.scope, hint := 0 } [p] = .ok r →
    let v := leNat (r.2.headD [])
    (v < (srcS2 e 1 o.e).toNat → exec (.mwait o) s = .next (markWait s e (mwaitFor p (wider o.scope) (srcS2 e 1 o.e).toNat))) ∧
    ((srcS2 e 1 o.e).toNat ≤ v → exec (.mwait o) s = .next (retire (acquireAt (match o.d with
      | none => r.1
      | some d => putScalars r.1 e none true (scalarWords d.toNat [BitVec.ofNat 32 v, BitVec.ofNat 32 (v / 2 ^ 32)])) e.fold.core o.scope) e))) ∧
  (∀ (o : PrefOp) (s : State) (e : Env), Ready s o.g false (addrNames o.a o.idx o.off) e →
    ∃ t, exec (.pref o) s = .next (retire t e) ∧ t.ctxs = s.ctxs ∧
      ((∀ x ∈ (coreAt s e.fold.core).l1, x.dirty ≠ 0 → homeOffline s (128 * x.line) = false) → t.folds = s.folds) ∧
      ∀ a, homeByte t a = homeByte s a ∨ homeByte t a = ownView s e.fold.core a) ∧
  ∀ (o : CctlOp) (s : State) (e : Env) (n : Names),
    memNames s e (.cctl o) = some (o.g, false, n) → Ready s o.g false n e → e.act ≠ 0 →
    holdUp e (flagOf e o.flg) false false = none →
    (o.addr = none → exec (.cctl o) s = .next (retire (counted (l1Drop s e.fold.core) e o.flg 0 true) e)) ∧
    ∀ a idx off, o.addr = some (a, idx, off) →
      let ps := (actLanes e).map (fun l =>
        pieceMem s e .read l (addrOf (readS2 e 0 a.toNat) (srcV e 1 idx l) (optS e 2 off)) 1)
      (∀ p ∈ ps, ∃ sp, p.spot = .ok sp) →
      exec (.cctl o) s = .next (retire (counted
        ((ps.filterMap (fun p => match p.spot with
            | .ok (.mem h _) => some h
            | _ => none)).foldl (fun u h => cctlLine u e.fold.core o.op h) (drainStores s e.fold.uid e.fi))
        e o.flg 0 true) e)

/-- R211, R296, R297: an engine command that meets no trap is accepted where its queue and the scoreboard have room:
it joins the core's commands and the open batch, and its flag rises; without room it takes ENGINEQ's stall, and a trap
comes first in the order of its row. Acceptance goes round-robin over the quadrants from the one accepted last; a copy
that the CPC has placed takes its turn as the fifth. That turn, and what is read at acceptance, are the model's
choices (log entries 51 and 30), and so is the order of an instruction's own traps (log entry 22). -/
def Obligations.EngineAcceptance : Prop :=
  ∀ (i : Instr) (s : State) (e : Env) (o : EngineRow), engineRow e i = some o → Ready s o.g false o.names e →
    e.act ≠ 0 → holdUp e o.cmd.flag true true = none →
    let room := hasRoom s e.fold.core (isCopy o.cmd) && engineTurn s e.fold.core e.fl.quad
    (∀ t, o.traps.findSome? id = some t → exec i s = .next (takeTrap s e.fold.uid e.fi e.idx false e.pos t)) ∧
    (o.traps.findSome? id = none → (e.fold.preempt || !room) = true →
      exec i s = .next (markWait s e (.engineq (isCopy o.cmd)))) ∧
    (o.traps.findSome? id = none → e.fold.preempt = false → room = true →
      e.fold.core < s.cores.length →
      ∃ t id fl, exec i s = .next (retire t e) ∧
        (coreAt t e.fold.core).cmds = (coreAt s e.fold.core).cmds ++ [{ o.cmd with id := id }] ∧
        (coreAt t e.fold.core).turn = e.fl.quad ∧
        flockOf t e.fold.uid e.fi = some fl ∧ fl.openCmds = e.fl.openCmds ++ [id] ∧
        fl.c = (flagUp e.fl o.cmd.flag).c ∧ fl.srcount = (o.post e.fl).srcount ∧ fl.v = e.fl.v ∧ fl.s = e.fl.s)

/-- R236, R237: CPYB closes the open batch under BATCHNEXT, which advances, and returns its number; WAITB waits while
more batches are outstanding than its operand allows. That CPYB closes the batch at issue and that WAITB acquires as
for SYSTEM are the model's choices (log entry 30). -/
def Obligations.BatchResults : Prop :=
  (∀ (o : CpybOp) (s : State) (e : Env), Ready s o.g false { sw := (o.d.map (fun d => [d.toNat])).getD [] } e →
    e.act ≠ 0 → flagFull e.fl (flagOf e o.flg) = false → batchesOut e.fl < 256 →
    let closed := settleBatches (flagUp
      { e.fl with batchNext := e.fl.batchNext + 1, openCmds := [],
                  batches := e.fl.batches ++ [{ num := e.fl.batchNext, cmds := e.fl.openCmds, flag := flagOf e o.flg }] }
      (flagOf e o.flg))
    let u := storeFlock s e closed
    exec (.cpyb o) s = .next (retire (match o.d with
      | none => u
      | some d => putScalars u e none false (scalarWords d.toNat [e.fl.batchNext.setWidth 32])) e)) ∧
  ∀ (o : WaitbOp) (s : State) (e : Env), Ready s o.g false { s := sOf 1 o.a } e → e.act ≠ 0 →
    let n := srcS e 0 o.a
    let waits := if o.le then n.toNat < batchesOut e.fl
                 else ((n.setWidth 16 - e.fl.batchDone).toNat < batchesOut e.fl)
    (waits → exec (.waitb o) s = .next (markWait s e (.batch o.le n))) ∧
      (¬ waits → exec (.waitb o) s = .next (retire (acquireAt s e.fold.core 11) e))

/-- R238 to R242: the barrier instructions on an object that lies aligned in the fold's local store and holds no
error: BARI writes a fresh object; BARA counts an arrival and returns the phase; BARW waits until the phase of `p` has
completed; BART only tests it. The object is 128 bits; a phase completes when neither arrivals nor bytes are pending,
and it counts as done for 2^31 phases after it. -/
def Obligations.BarrierResults : Prop :=
  ((∀ (o : BariOp) (s : State) (e : Env) (u : Nat), Ready s o.g false { s := o.a.toNat :: sOf 1 o.n } e → e.act ≠ 0 →
    holdUp e (flagOf e o.flg) true false = none →
    barObject s e o.drove (readS e 0 o.a.toNat).toNat = .ok u →
    let n := (srcS e 1 o.n).toNat
    (n = 0 ∨ 65535 < n → exec (.bari o) s
      = .next (takeTrap s e.fold.uid e.fi e.idx false e.pos (plainTrap 0x1A 15))) ∧
    (n ≠ 0 → n ≤ 65535 → exec (.bari o) s = .next (retire (counted (putBar s u (readS e 0 o.a.toNat).toNat
      { trapen := o.trap, ovr := false, phase := 0, pending := BitVec.ofNat 16 n, expected := BitVec.ofNat 16 n,
        bytes := 0 }) e o.flg 0 false) e))) ∧
  (∀ (o : BaraOp) (s : State) (e : Env) (u : Nat),
    Ready s o.g false { s := o.a.toNat :: (optSrc o.b).flatMap (sOf 1), sw := [o.d.toNat] } e → e.act ≠ 0 →
    holdUp e (flagOf e o.flg) true true = none →
    let off := (readS e 0 o.a.toNat).toNat
    barObject s e o.drove off = .ok u →
    let n := (optS e 1 o.b).toNat
    let b := barAt s u off
    (b.pending = 0 ∨ 2 ^ 32 ≤ b.bytes.toNat + n →
      exec (.bara o) s = .next (takeTrap s e.fold.uid e.fi e.idx false e.pos (plainTrap 0x1C 0))) ∧
    (b.pending ≠ 0 → b.bytes.toNat + n < 2 ^ 32 → barSram s u off = none →
      exec (.bara o) s = .next (retire (putScalars (putBar
        (releaseAt (drainStores (settleAll s e.fold.uid e.fi) e.fold.uid e.fi) e.fold.core (barScope o.drove)) u off
        (barComplete { b with bytes := b.bytes + BitVec.ofNat 32 n, pending := b.pending - 1 }))
        e (flagOf e o.flg) true (scalarWords o.d.toNat [b.phase])) e))) ∧
  (∀ (o : BarwOp) (s : State) (e : Env) (u : Nat),
    Ready s o.g false { s := [o.a.toNat, o.p.toNat], sw := [qKey o.d.toNat] } e → e.act ≠ 0 →
    holdUp e none false false = none → barObject s e o.drove (readS e 0 o.a.toNat).toNat = .ok u →
    let b := barAt s u (readS e 0 o.a.toNat).toNat
    let done := barDone b (readS e 1 o.p.toNat)
    let err := barSram s u (readS e 0 o.a.toNat).toNat
    (done = false → err = none →
      exec (.barw o) s = .next (markWait s e (.barrier u (readS e 0 o.a.toNat).toNat (readS e 1 o.p.toNat)))) ∧
    (done = true → b.ovr = true → b.trapen = true →
      exec (.barw o) s = .next (takeTrap s e.fold.uid e.fi e.idx false e.pos (plainTrap 0x1D 0))) ∧
    (∀ x, err = some x → (done && b.ovr && b.trapen) = false →
      exec (.barw o) s = .next (takeTrap s e.fold.uid e.fi e.idx false e.pos x)) ∧
    (done = true → (b.ovr && b.trapen) = false → err = none →
      exec (.barw o) s = .next (retire (acquireAt (putScalars s e none true (scalarWords (qKey o.d.toNat) [if b.ovr then 1 else 0]))
        e.fold.core (barScope o.drove)) e))) ∧
  ∀ (o : BarwOp) (s : State) (e : Env) (u : Nat),
    Ready s o.g false { s := [o.a.toNat, o.p.toNat], sw := [qKey o.d.toNat] } e → e.act ≠ 0 →
    holdUp e (flagOf e o.flg) false false = none → barObject s e o.drove (readS e 0 o.a.toNat).toNat = .ok u →
    let b := barAt s u (readS e 0 o.a.toNat).toNat
    let done := barDone b (readS e 1 o.p.toNat)
    let t := putScalars s e (flagOf e o.flg) true (scalarWords (qKey o.d.toNat) [if done then 1 else 0])
    ((done && b.ovr && b.trapen) = true →
      exec (.bart o) s = .next (takeTrap s e.fold.uid e.fi e.idx false e.pos (plainTrap 0x1D 0))) ∧
    ((done && b.ovr && b.trapen) = false → barSram s u (readS e 0 o.a.toNat).toNat = none →
      exec (.bart o) s = .next (retire (if done then acquireAt t e.fold.core (barScope o.drove) else t) e))) ∧
  (∀ b : Barrier, unpackBar (packBar b) = b) ∧ (∀ w : BitVec 128, packBar (unpackBar w) = w &&& BitVec.ofNat 128 (2 ^ 98 - 1)) ∧
  (∀ b : Barrier, barComplete b
    = if b.pending = 0 ∧ b.bytes = 0 then { b with phase := b.phase + 1, pending := b.expected } else b) ∧
  (∀ (b : Barrier) (n : Nat), n ≤ b.bytes.toNat →
    (barCount b n).ovr = b.ovr ∧ (n < b.bytes.toNat → (barCount b n).bytes.toNat = b.bytes.toNat - n)) ∧
  (∀ (b : Barrier) (n : Nat), b.bytes.toNat < n → (barCount b n).ovr = true ∧ (barCount b n).bytes = 0) ∧
  ∀ (b : Barrier) (k : Nat), k < 2 ^ 32 → (barDone b (b.phase - BitVec.ofNat 32 k) = true ↔ 1 ≤ k ∧ k ≤ 2 ^ 31)

/-- R243, R244, R313: LAUNCH releases at TREE and returns the status of its record and, where it is accepted, the
PASTID of a child that has started; LWAIT waits while such a child of its fold is live. -/
def Obligations.LaunchResults : Prop :=
  (∀ (o : LaunchOp) (s : State) (e : Env),
    Ready s o.g false { s := [o.a.toNat, o.a.toNat + 1], sw := [o.d.toNat, o.d.toNat + 1] } e → e.act ≠ 0 →
    holdUp e (flagOf e o.flg) true true = none →
    let a := (readS2 e 0 o.a.toNat).toNat
    let r := launchChild (noteAccept (releaseAt (drainStores (settleAll s e.fold.uid e.fi) e.fold.uid e.fi) e.fold.core 7) e.ctx a e.fold.core) e a
    exec (.launch o) s
      = .next (retire (putScalars r.2.2 e (flagOf e o.flg) false (scalarWords o.d.toNat [BitVec.ofNat 32 r.1, r.2.1])) e)) ∧
  (∀ (s : State) (e : Env) (a : Nat), let r := launchChild s e a
    (r.1 ≠ 0 → r.2.1 = 0 ∧ r.2.2 = s) ∧
    (r.1 = 0 → ∃ l, r.2.2.launches = s.launches ++ [l] ∧ l.pastid = r.2.1 ∧ l.parent = some e.fold.uid ∧
      l.started = true ∧ l.depth = e.launch.depth + 1 ∧ l.ctx = e.ctx.id ∧ l.prio = e.launch.prio ∧ launchStatus l = 0)) ∧
  ∀ (o : LwaitOp) (s : State) (e : Env), Ready s o.g false { s := (o.a.map (fun a => [a.toNat])).getD [] } e →
    e.act ≠ 0 →
    let p := o.a.map (fun a => readS e 0 a.toNat)
    let live := ∃ l ∈ s.launches, l.parent = some e.fold.uid ∧ ∀ q, p = some q → l.pastid = q
    (live → exec (.lwait o) s = .next (markWait s e (.lwait p))) ∧
      (¬ live → exec (.lwait o) s = .next (retire (acquireAt s e.fold.core 7) e))

end

namespace Sys2Proof.Slice0

open Machine

/-! ### The machine as a whole -/

/-- The steps of the units, of the host and of the board, which no bundle encodes. -/
def isEvent : Instr → Bool
  | .clauseStart _ | .activeSetSwap _ | .pendingReadyTimeout _ _ | .loadLand _ _ _ | .storePerformed _ _ => true
  | .pageWalkComplete _ _ _ | .faultTimeout _ _ | .l1Eviction _ _ | .engineCommandStart _ _ => true
  | .mmaStepEnd _ _ | .mmaComplete _ _ | .mtreeExecute _ _ | .amMoveComplete _ _ | .copyItemEnd _ _ _ => true
  | .copyFinish _ _ | .drbDrain _ | .redDApply _ _ _ | .launchStart _ _ | .stepStart _ | .foldDispatch _ => true
  | .dispatchStarvationTimeout _ | .foldRetire _ | .foldSwapOut _ | .preemptRequest _ => true
  | .sliceTimerExpiry _ _ | .flockPreemptStop _ | .fleeceWrite _ | .foldRestore _ | .watchdog _ => true
  | .sampleTag _ _ | .sampleRecord _ _ | .powerAlarmRaise _ | .powerAlarmClear _ | .engineWiden _ => true
  | .thermtrip _ | .powerOnBoot | .connectionSetup _ | .rdmaWrite _ _ _ _ | .rdmaRead _ _ _ _ => true
  | .rdmaInvalidRequest _ | .peerAccess _ | .ualinkLinkDrop _ | .launchMessage _ _ | .copyMessage _ _ => true
  | .mapInvalidate _ _ _ | .mapUnresolvable _ _ | .contextCreate _ _ | .contextDestroy _ _ => true
  | .contextModify _ _ | .contextPreempt _ _ | .queryL2Counters _ _ | .queryCoreCounters _ _ => true
  | .queryTrace _ _ | .queryPower _ _ | .querySoftErrors _ _ | .queryAttestation _ _ _ => true
  | .queryJournalHead _ _ | .queryRoutingRead _ _ | .queryRoutingWrite _ _ _ | .journal _ _ _ _ => true
  | .dieWithdraw _ _ | .dieReadmit _ _ | .dieReset _ _ | .dieCarve _ _ _ | .diectlStageEnd | .attach _ _ => true
  | .detach _ _ | .halt _ _ | .resume _ _ | .step _ _ | .break _ _ | .unbreak _ _ | .read _ _ => true
  | .write _ _ _ | .pendchk _ _ | .sample _ _ | .connectionClose _ | .softError _ | .sidebandNewImage _ => true
  | _ => false

/-- Every memory is in its canonical form. -/
def MemoryForm (s : State) : Prop := s.memWf = true

/-- The package has its 160 cores and four dies, every fold lies on one of them, so does every share of a step, and no two
folds have one number. -/
structure PlacesForm (s : State) : Prop where
  cores : s.cores.length = 160
  dies : s.dies.length = 4
  folds : ∀ f ∈ s.folds, f.core < 160 ∧ f.die < 4
  uids : (s.folds.map (fun f => f.uid)).Nodup
  below : ∀ f ∈ s.folds, f.uid < s.nextUid
  shares : ∀ l ∈ s.launches, ∀ x ∈ l.running.getD [], x.die < 4

/-- The state in which the split of a reference issues. -/
def issuing (s : State) (r : SplitRef) : State :=
  { s with cur := { fold := r.fold, flock := r.flock, split := r.split, pos := .full, last := true, levels := [] } }

/-- What issue adds to an instruction: a free value is used up, and a bundle that retires or traps is counted, sampled, and
passes the round-robins on (R44, R322, R350). -/
def issued (s : State) (e : Env) (w : BitVec 128) (o : Host.Outcome State Fault Refusal) :
    Host.Outcome State Fault Refusal :=
  match o with
  | .next t => .next { noteIssue s e w t with free := t.free + 1 }
  | .fault f => .fault f
  | .refused r => .refused r

/-- A split inside its clause is about to issue the bundle `w` in the state `s2`, and nothing comes before it (R40,
R326). -/
structure Fetched (s0 s1 s2 : State) (r : SplitRef) (rest : List Move) (e0 e : Env) (w : BitVec 128) : Prop where
  agenda : s0.agenda = .issue r :: rest
  may : mayIssue { s0 with agenda := rest } r = true
  first : envOf (issuing { s0 with agenda := rest } r) .always = some e0
  inside : e0.sp.inside = true
  paths : pathsReady (issuing { s0 with agenda := rest } r) r.fold r.flock = .go s1
  env : envOf s1 .always = some e
  quiet : asyncTrap s1 e.fold.uid e.fi e.idx = none
  word : fetchBundle s1 e e.sp.pc = .ok (w, s2)

end Sys2Proof.Slice0

section

open Sys2Proof Sys2Proof.Machine Sys2Proof.Slice0

/-- R10, R94, R147, R262, R368: at reset every memory, register file, cache, queue and table is empty, no die has a
carve-out, both invariants hold, and the first step of the device by itself is the boot ROM's, which finds no image.
The reset values that the manual does not give are the model's choice (log entries 4 to 6), and so is the order of its
own moves (log entry 1). -/
def Obligations.ResetState : Prop :=
  let r := State.reset
  MemoryForm r ∧ PlacesForm r ∧ r.boot = .off ∧ r.clock = 0 ∧
    (∀ a, homeByte r a = 0 ∧ cget 0 r.hostMem a = 0 ∧ cget 0 r.cmeta a = 0) ∧
    r.mem = [] ∧ r.peerMem = [] ∧ r.hostMem = [] ∧ r.cmeta = [] ∧ r.lost = [] ∧ r.badFill = [] ∧
    r.ctxs = [] ∧ r.launches = [] ∧ r.folds = [] ∧ r.sent = [] ∧ r.replies = [] ∧ r.routing = [] ∧ r.portDown = [] ∧
    r.hostDeny = [] ∧ r.dieCtl = none ∧ r.peer = none ∧ r.agenda = [] ∧ (∀ img ∈ r.flash, img = none) ∧
    (∀ n, let e := endpointAt r n
      e.up = false ∧ e.accepted = [] ∧ e.journal = [] ∧ e.copies = [] ∧ e.nextIndex = 0 ∧ e.h = 0) ∧
    (∀ d, let x := dieAt r d
      x.state = .admitted ∧ x.carve = 0 ∧ x.l2.tags = [] ∧ x.l2.entries = [] ∧ x.l2.satref = 0 ∧ x.l2.unshr = 0 ∧
        x.mantle = [] ∧ x.staging = [] ∧ x.tlb = [] ∧ x.walks = [] ∧ x.soft = [] ∧ x.starve = none ∧ x.starved = [] ∧
        x.record = none ∧ x.thermtrip = false ∧ x.alarm = false) ∧
    (∀ k, let c := coreAt r k
      c.l1 = [] ∧ c.tlb = [] ∧ c.cmds = [] ∧ c.stallClk = [] ∧ c.narrow = false ∧
        c.meBusy = 0 ∧ c.ceBusy = 0 ∧ c.narrowClk = 0 ∧ c.tfuPins = 0 ∧ c.tfuCopies = 0 ∧
        ∀ q ∈ c.quads, q.active = [] ∧ q.pending = [] ∧ q.tag = []) ∧
    step r = .next { r with boot := .recovery, free := 1 }

/-- Every step keeps the canonical form of device, peer and host memory. -/
def Obligations.StepKeepsMemoryForm : Prop :=
  ∀ s t : State, MemoryForm s → step s = .next t → MemoryForm t

/-- Every step keeps the number of cores and dies, every fold and every share of a step on one of them, and the folds'
numbers apart. -/
def Obligations.StepKeepsPlaces : Prop :=
  ∀ s t : State, PlacesForm s → step s = .next t → PlacesForm t

/-- R78 to R84, R106, R107: every well-formed instruction has an encoding, and decoding it gives the instruction back,
with every operand at every value that the encoding admits. -/
def Obligations.EncodingRoundTrip : Prop :=
  ∀ i : Instr, isEvent i = false → i.wf = true →
    ∃ w, encode i = some w ∧
      (decodeInBody ⟨true, true, true⟩ w = .ok (.full i) ∨ decodeInBody ⟨true, true, true⟩ w = .ok (.pair i none))

/-- R78 to R90: the encoded bundles that the manual prints decode to the instructions that it prints beside them. -/
def Obligations.PrintedBundles : Prop :=
  decodeAtHead 0x0000000000000000000000111044024A#128
    = .ok (.head { len := 2, wait := 0x009, setA := some 1, setB := none, stop := some 17, yld := false, rcv := false }
        none) ∧
  decodeInBody ⟨true, true, true⟩ 0x00000007000006240105_0000047C1B0C#128
    = .ok (.full (.fma { g := .always, fs := 3, row := false, tid := none, d := 4, a := ⟨.v 5 0x401, true, false⟩,
                         b := ⟨.v 6 0, false, false⟩, c := ⟨.v 7 0, false, false⟩ })) ∧
  decodeInBody ⟨true, true, true⟩ 0x0002C1030013E3610000000A004BE00D#128
    = .ok (.pair (.iadd { g := .always, d := 9, a := .v 9 0, b := .v 10 0 })
        (some (.fmul { g := .always, fs := 3, row := false, tid := none, d := 2, a := ⟨.v 2 0, false, false⟩,
                       b := ⟨.v 3 0x2C1, false, false⟩ }))) ∧
  decodeTableWord 128 0xFFFFFFC0000000800003400000_7C0008
    = some (.brx { g := .always, p := 3, neg := false, disp := 0xFFFFFFC0 }) ∧
  decodeTableWord 128 0x00000000000000000009_0028087C0D00
    = some (.redl { g := .always, fs := 1, op := .fadd, seg := 2, d := 8, a := .v 9 0 }) ∧
  decodeTableWord 128 0x00000000000016400004_0400017D0580
    = some (.ld { g := .always, flg := .a, size := 4, ord := 0, scope := 0, hint := 0, d := 1, a := 4, idx := .v 22 0,
                  off := none }) ∧
  decodeTableWord 128 0x00800002400020800004_0005047D1680
    = some (.mma { g := .always, flg := .a, fs := 2, mode := .acc, bs := false, tfua := false, tfub := false, msk := true,
                   mv := false, d := 4, c := 4, p := 32, fb := 2 })

/-- R79, R88, R91: a step that issues a bundle runs the instruction that the bundle at the program counter decodes to,
in the head half, in a full bundle or in a half; a step that takes an event runs the event. The agenda of moves, and
the placing of a program by hand, are the model's own (log entries 1, 2 and 20), and so is that a head's half is
checked with its header (log entry 50). -/
def Obligations.StepRunsInstruction : Prop :=
  (∀ (s0 s1 s2 : State) (r : SplitRef) (rest : List Move) (e0 e : Env) (w : BitVec 128), Fetched s0 s1 s2 r rest e0 e w →
    (∀ i, e.sp.headDue = false → decodeInBody (placeOf e.sp) w = .ok (.full i) →
      step s0 = issued s2 e w (exec i (atPos s2 .full true))) ∧
    (∀ i, e.sp.headDue = false → decodeInBody (placeOf e.sp) w = .ok (.pair i none) →
      step s0 = issued s2 e w (exec i (atPos s2 .half0 true))) ∧
    (∀ i j, e.sp.headDue = false → decodeInBody (placeOf e.sp) w = .ok (.pair i (some j)) →
      step s0 = issued s2 e w (issuePair s2 i (some j))) ∧
    (∀ h i, e.sp.headDue = true → decodeAtHead w = .ok (.head h (some i)) →
      step s0 = issued s2 e w (exec i (atPos s2 .head true)))) ∧
  (∀ (s : State) (i : Instr) (rest : List Move), s.agenda = .event i :: rest →
    (∀ t, exec i { s with agenda := rest } = .next t → step s = .next { t with free := t.free + 1 }) ∧
    (∀ f, exec i { s with agenda := rest } = .fault f → step s = .fault f) ∧
    ∀ f, exec i { s with agenda := rest } = .refused f → step s = .refused f) ∧
  ∀ (s : State) (nbits w : Nat), ∃ r, (s.withFetchWord nbits w).agenda = [.issue r] ∧
    cgetList 0 (s.withFetchWord nbits w).mem 0x1000 16 = leBytes 16 (w % 2 ^ nbits % 2 ^ 128)

/-- R88: a pair of halves. Where one of them does not retire, its trap or stall is all that the bundle leaves, half
0's first. Two halves with one word a lane each as their results read their sources before either writes: each
register takes the words of its own half, every other keeps its own, and the bundle retires once. -/
def Obligations.PairResults : Prop :=
  (∀ (s a : State) (i j : Instr), exec i (atPos s .half0 false) = .next a → notRetired s a = true →
    issuePair s i (some j) = .next a) ∧
  (∀ (s a t : State) (i j : Instr), exec i (atPos s .half0 false) = .next a → notRetired s a = false →
    exec j (atPos s .half1 false) = .next t → notRetired s t = true → issuePair s i (some j) = .next t) ∧
  ∀ (s : State) (i j : Instr) (e0 e1 : Env) (r0 r1 : Row (Nat → Word)),
    vecRow (atPos s .half0 false) e0 i = some r0 → Ready (atPos s .half0 false) r0.g r0.ih r0.names e0 →
    vecRow (atPos s .half1 true) e1 j = some r1 → Ready (atPos s .half1 true) r1.g r1.ih r1.names e1 →
    halfDst i = some r0.d → halfDst j = some r1.d → r0.d ≠ r1.d → e0.fold.fail = none → e0.fl.stall = none →
    ∃ fl, issuePair s i (some j) = .next (left (atPos s .half1 true) e1 fl) ∧ VecOnly e0.fl fl ∧
      ∀ r l, l < 64 → vecOf fl r l
        = if r = r0.d ∧ inMask e0.act l then r0.val l
          else if r = r1.d ∧ inMask e1.act l then r1.val l else vecOf e0.fl r l

end

namespace Sys2Proof.Slice0

open Machine

/-! ### Steps of the memory pipeline -/

/-- A split that starts a clause without a stop (R91): its head half is due, or it stands at the first body bundle, or,
in an empty clause, at the next head. -/
def started (sp : Split) (h : Header) (half : Bool) : Split :=
  if half then
    { sp with inside := true, headDue := true, setA := h.setA, setB := h.setB, left := h.len.toNat, stop := none,
              first := false, wait := .none, pass := false }
  else if h.len = 0 then
    { sp with pc := sp.pc + 16, inside := false, headDue := false, setA := none, setB := none, left := 0, stop := none,
              first := false, wait := .none, pass := false }
  else
    { sp with pc := sp.pc + 16, inside := true, headDue := false, setA := h.setA, setB := h.setB, left := h.len.toNat,
              stop := none, first := true, wait := .none, pass := false }

/-- The flock `y` of the pending set takes the place of `a` in the active set, and may issue after 8 clk (R46). -/
def Swapped (s t : State) (k n : Nat) (a : Nat × Nat) (y : Nat × Nat × Nat) : Prop :=
  (∃ q r, (coreAt s k).quads[n]? = some q ∧ (coreAt t k).quads[n]? = some r ∧
    r.active = q.active.filter (· != a) ++ [(y.1, y.2.1)] ∧
    r.pending = q.pending.filter (· != y) ++ [(a.1, a.2, s.clock)] ∧ r.lastLeft = s.clock) ∧
  flockOf t y.1 y.2.1 = (flockOf s y.1 y.2.1).map (fun fl => { fl with fromClk := s.clock + 8 }) ∧
  ∀ u i, (u, i) ≠ (y.1, y.2.1) → flockOf t u i = flockOf s u i

/-- The value of a word of a load in flight when it lands: of each byte that may still take a later value, the one that it
has read or the one that stands now; of a read past the L1, with what its own core had written (R281). -/
def LandsWith (s : State) (f : Fold) (fl : Flock) (w : PendWord) (v : Word) : Prop :=
  ((∀ b ∈ w.src, b.more = false) → v = w.value) ∧
  ((∃ b ∈ w.src, b.more = true) → ∃ bs : List Byte, bs.length = w.src.length ∧
    (∀ (i : Nat) (b : SrcByte) (x : Byte), w.src[i]? = some b → bs[i]? = some x →
      x = b.val ∨ (b.more = true ∧ (x = nowByte s f fl b ∨ x = ownByte fl b.place (ownView s f.core b.place)))) ∧
    v = wordOf bs w.shift w.take w.sext &&& w.bits)

/-- A home byte once the lines of a list have left a core's L1 for good. -/
def flushed (s : State) (k : Nat) (ls : List Nat) (a : Nat) : Byte :=
  if a / 128 ∈ ls then ownView s k a else homeByte s a

/-! ### Steps of the engines -/

/-- The tail of a copy in which every write that is still due can be made (R235): the state, and the command. -/
def tailRun (k : Nat) (o : CopyOp) (items : Nat) : List Nat → State → Cmd → Option (State × Cmd)
  | [], s, c => some (s, c)
  | n :: r, s, c =>
    let d := { c with step := n + 1 }
    match tailDo s k c o items n with
    | .ok t => tailRun k o items r (putCmd t k d) d
    | _ => none

/-- The bytes of a place where an engine writes. -/
def spotByte (s : State) : Spot → Byte
  | .ls u off => lsByte s u off
  | .mem h _ => homeByte s h

/-- What an element of a copy gives to the destination or to the residue, where every byte of its source can be read and
none of them is written by the command itself (R230, R231). -/
def copiedCode (s : State) (k : Nat) (c : Cmd) (o : CopyOp) (res : Bool) (x : Nat × Nat × Nat) : Nat :=
  let a := tensorOf c.src
  let p := a.bitPos x.2.1
  let byte (q : Nat) : Byte := match sourceByte s k c q with
    | .ok b => b
    | _ => 0
  let raw := if o.mode = 3 then 0 else leNat ((bytesOf p a.f.w).map byte) / 2 ^ (p % 8) % 2 ^ a.f.w
  let r := elemCodes c o x.1 raw
  if res then r.2.1 else r.1.1

/-- What a copy writes, in the order of its stream: whether to the residue, and the byte with its bits and their mask; the
destination of an element comes before its residue (R230, R231). -/
def streamWrites (c : Cmd) (o : CopyOp) : List (Bool × Nat × Byte × Byte) :=
  c.plan.flatMap (fun x => (if o.ef then [false, true] else [false]).flatMap (fun q =>
    let t := tensorOf (if q then c.res else c.dst)
    (elemParts (t.bitPos x.1) t.f.w 0).map (fun y => (q, y))))

/-- The place lies in the barrier object at an offset of a fold's local store. -/
def inObject (u off : Nat) : Spot → Bool
  | .ls v a => u == v && decide (off ≤ a ∧ a < off + 16)
  | .mem _ _ => false

/-- CRC-32C (R233): reflected, polynomial 0x1EDC6F41, with all ones at its start and end. -/
def crcOf (bs : List Byte) : BitVec 32 :=
  let bit (c : BitVec 32) : BitVec 32 := (c >>> 1) ^^^ (if c.getLsbD 0 then 0x82F63B78 else 0)
  ~~~(bs.foldl (fun c b => bit (bit (bit (bit (bit (bit (bit (bit (c ^^^ b.setWidth 32))))))))) 0xFFFFFFFF)

/-- A command as an MMA leaves it that has only fetched lines. -/
def fetchedOnly (c d : Cmd) : Prop := d = { c with pins := d.pins, reads := d.reads, copies := d.copies, fetched := d.fetched }

/-! ### Steps of the Shepherd -/

/-- A flock as R28 leaves it at the start of its fold. -/
structure FlockStart (l : Launch) (fl : Flock) : Prop where
  v : ∀ r i, vecOf fl r i = 0
  s : ∀ r, cget 0 fl.s r = if r = 0 then loWord l.param else if r = 1 then hiWord l.param
                           else if r = 2 then l.paramBytes else 0
  p : ∀ r, cget 0 fl.p r = 0
  q : fl.q = 0
  x : ∀ r, cget 0 fl.x r = 0
  f : ∀ n, slotOf fl n = (l.fdr[n]?).getD 0
  c : ∀ n, cget 0 fl.c n = 0
  rest : fl.fflags = 0 ∧ (∀ i, cget 0 fl.srcount i = 0) ∧ (∀ i, cget 0 fl.dseq i = 0) ∧ fl.batchNext = 0 ∧
    fl.batchDone = 0 ∧ fl.trap = { cause := 0, detail := 0, pc := 0, split := 0 } ∧ fl.stack = [] ∧ fl.handler = none
  split : ∃ sp, fl.splits = [sp] ∧ sp.pc = l.kernel + BitVec.ofNat 64 l.entry ∧ sp.mask = BitVec.allOnes 64 ∧
    sp.inside = false

end Sys2Proof.Slice0

section

open Sys2Proof Sys2Proof.Machine Sys2Proof.Slice0

/-- R41, R45, R46, R91, R96, R187, R279: splits that stand at one clause head merge; a clause starts once its WAIT
flags are zero; a load lands, a store is performed, a line leaves an L1, and flocks change places in the active set.
When a load lands, whether a byte of it takes a value that came to stand after issue (R281), and when a store is
performed or a line leaves, are the model's choices (log entries 1, 11 and 44), and so is what a merged split keeps
(log entry 45). -/
def Obligations.PipelineSteps : Prop :=
  (∀ (r : SplitRef) (s s1 s2 : State) (e : Env) (w : BitVec 128) (h : Header) (i : Option Instr),
    mayIssue s r = true → pathsReady (issuing s r) r.fold r.flock = .go s1 →
    envOf (mergeHere s1) .always = some e → e.sp.inside = false → e.fl.stall = none →
    asyncTrap (mergeHere s1) e.fold.uid e.fi e.idx = none → fetchBundle (mergeHere s1) e e.sp.pc = .ok (w, s2) →
    e.sp.first = false → decodeAtHead w = .ok (.head h i) → h.stop = none →
    (flagsAtMost e.fl h.wait 0 = true → exec (.clauseStart r) s
      = .next (onFlock s2 e.fold.uid e.fi (fun fl => putSplit e { fl with pendChk := e.ctx.pendChk }
          (started e.sp h i.isSome)))) ∧
    (flagsAtMost e.fl h.wait 0 = false → exec (.clauseStart r) s = .next (markWait s2 e (.flag h.wait 0)))) ∧
  (∀ (s : State) (e : Env), envOf s .always = some e → e.hand = false → e.sp.inside = false → e.fl.stack = [] →
    atHead s e = true → (∀ x ∈ e.fl.splits, x.mask ≠ 0) →
    ∃ fl sp, flockOf (mergeHere s) e.fold.uid e.fi = some fl ∧ fl.splits[(mergeHere s).cur.split]? = some sp ∧
      sp.pc = e.sp.pc ∧
      (∀ l, inMask sp.mask l = true ↔ ∃ x ∈ e.fl.splits, (x = e.sp ∨ mergeable e.sp x = true) ∧ inMask x.mask l = true) ∧
      (∀ n ∈ sp.path, ∃ x ∈ e.fl.splits, (x = e.sp ∨ mergeable e.sp x = true) ∧ n ∈ x.path) ∧
      (∀ x ∈ e.fl.splits, mergeable e.sp x = true → ∀ n ∈ x.path, n ∈ sp.path) ∧
      ∀ x ∈ fl.splits, x = sp ∨ (x ∈ e.fl.splits ∧ mergeable e.sp x = false)) ∧
  (∀ (r : FlockRef) (lane : Nat) (s : State) (f : Fold) (fl : Flock) (p : PendLoad) (a b : List PendLoad),
    foldAt s r.fold = some f → flockAt f r.flock = some fl → fl.fences = [] → fl.loads = a ++ p :: b →
    (∀ q ∈ a ++ b, q.id ≠ p.id ∧ q.words ≠ []) → p.scalar = false → (∀ w ∈ p.words, w.hit = false) →
    p.words.Pairwise (fun x y => x.key ≠ y.key) → (∃ w ∈ p.words, w.lane = lane) →
    ∃ t u, exec (.loadLand r p.id lane) s = .next t ∧ flockOf t r.fold r.flock = some u ∧
      (∀ w ∈ p.words, w.lane = lane → ∃ v, LandsWith s f fl w v ∧
        cget 0 u.v w.key = (cget 0 fl.v w.key &&& ~~~w.bits) ||| (v &&& w.bits)) ∧
      (∀ k, (∀ w ∈ p.words, w.lane = lane → w.key ≠ k) → cget 0 u.v k = cget 0 fl.v k) ∧ u.s = fl.s ∧ u.q = fl.q ∧
      ((∀ w ∈ p.words, w.lane = lane) → u.loads = a ++ b ∧ u.c = (flagDown fl p.flag).c ∧
        u.fflags = fl.fflags ||| p.flags.setWidth 32) ∧
      (∀ w ∈ p.words, w.lane ≠ lane → u.c = fl.c ∧ u.fflags = fl.fflags ∧
        u.loads = a ++ { p with words := p.words.filter (fun x => x.lane != lane) } :: b)) ∧
  (∀ (r : FlockRef) (lane : Nat) (s : State) (f : Fold) (fl : Flock) (p : PendLoad) (a b : List PendLoad),
    foldAt s r.fold = some f → flockAt f r.flock = some fl → fl.fences = [] → fl.loads = a ++ p :: b →
    (∀ q ∈ a ++ b, q.id ≠ p.id ∧ q.words ≠ []) → p.scalar = true → p.words ≠ [] → (∀ w ∈ p.words, w.hit = false) →
    p.words.Pairwise (fun x y => x.key ≠ y.key) → (∀ w ∈ p.words, w.key < 1032) →
    ∃ t u, exec (.loadLand r p.id lane) s = .next t ∧ flockOf t r.fold r.flock = some u ∧ u.v = fl.v ∧
      (∀ w ∈ p.words, w.key < 1024 → ∃ v, LandsWith s f fl w v ∧
        cget 0 u.s w.key = (cget 0 fl.s w.key &&& ~~~w.bits) ||| (v &&& w.bits)) ∧
      (∀ w ∈ p.words, ∀ k, w.key = 1024 + k → ∃ v, LandsWith s f fl w v ∧ u.q.getLsbD k = v.getLsbD 0) ∧
      (∀ k, k < 1024 → (∀ w ∈ p.words, w.key ≠ k) → cget 0 u.s k = cget 0 fl.s k) ∧
      u.loads = a ++ b ∧ u.c = (flagDown fl p.flag).c) ∧
  (∀ (r : FlockRef) (s : State) (f : Fold) (fl : Flock) (p : PendStore) (a b : List PendStore),
    foldAt s r.fold = some f → flockAt f r.flock = some fl → fl.fences = [] → fl.stores = a ++ p :: b →
    (∀ q ∈ a ++ b, q.id ≠ p.id) → p.waitFault = none → p.release = false →
    (∀ q ∈ a, ∀ x ∈ q.bytes, ∀ y ∈ p.bytes, x.addr ≠ y.addr) → p.bytes.Pairwise (fun x y => x.addr ≠ y.addr) →
    (∀ x ∈ p.bytes, x.addr < peerKey ∧ homeOffline s x.addr = false) →
    ∃ t u, exec (.storePerformed r p.id) s = .next t ∧ flockOf t r.fold r.flock = some u ∧ u.stores = a ++ b ∧
      u.c = (flagDown fl p.flag).c ∧ (∀ x ∈ p.bytes, homeByte t x.addr = x.value) ∧
      ∀ h, (∀ x ∈ p.bytes, x.addr ≠ h) → homeByte t h = flushed s f.core (p.bytes.map (fun x => x.addr / 128)) h) ∧
  (∀ (k l : Nat) (s : State), k < s.cores.length → 128 * l < peerKey → homeOffline s (128 * l) = false →
    ∃ t, exec (.l1Eviction k l) s = .next t ∧ l1Find t k l = none ∧ (∀ h, homeByte t h = flushed s k [l] h) ∧
      t.folds = s.folds) ∧
  (∀ (r : FlockRef) (s : State) (f : Fold) (fl : Flock) (q : Quadrant) (y : Nat × Nat × Nat),
    foldAt s r.fold = some f → flockAt f r.flock = some fl → fl.handler = none → fl.splits ≠ [] →
    (∀ sp ∈ fl.splits, longWait s r.fold fl sp = true) → f.core < s.cores.length →
    (coreAt s f.core).quads[fl.quad]? = some q → (r.fold, r.flock) ∈ q.active → longestReady s q = some y →
    ∃ t, exec (.activeSetSwap r) s = .next t ∧ Swapped s t f.core fl.quad (r.fold, r.flock) y) ∧
  ∀ (k n : Nat) (s : State) (q : Quadrant) (a : Nat × Nat) (rest : List (Nat × Nat)) (y : Nat × Nat × Nat),
    k < s.cores.length → (coreAt s k).quads[n]? = some q → q.active = a :: rest → longestReady s q = some y →
    y.2.2 + 4096 ≤ s.clock → q.lastLeft + 4096 ≤ s.clock →
    ∃ t, exec (.pendingReadyTimeout k n) s = .next t ∧ Swapped s t k n a y

/-- R200, R201, R203, R204, R270, R331: a walker reads the tables, and when its walk completes its die's L2 TLB holds
the leaf, or the fault is reported; a fault that times out releases the flocks that stall on it with its verdict; a
full buffer of a core drains to the staging areas, or fails a launch; and a generation whose flocks have all arrived
is applied, container by container in key order. When a walk starts and completes and a buffer drains is the model's
choice (log entries 1 and 8), and so are what counts as a full buffer and as an arrival (log entries 29 and 9). -/
def Obligations.FaultAndReductionSteps : Prop :=
  (∀ (die ctx va : Nat) (acc : Access) (s : State) (rest : List Move) (c : Context),
    s.agenda = .walkStart die ctx acc va :: rest → ctxAt s ctx = some c → apertureOff c va = none → die < s.dies.length → die < 4 → va < 2 ^ 52 →
    (dieAt s die).walks.length < 32 → (∀ w ∈ (dieAt s die).walks, w.ctx = ctx → pageBase w.va ≠ pageBase va) →
    ∃ t w, step s = .next t ∧ (dieAt t die).walks = (dieAt s die).walks ++ [w] ∧ w.ctx = ctx ∧ w.va = va ∧ w.acc = acc ∧
      (∀ lf, walk s c.ptroot.toNat va = .ok lf → w.found = .inl lf) ∧
      ∀ q, walk s c.ptroot.toNat va = .error q → w.found = .inr q) ∧
  (∀ (r : WalkRef) (va : Nat) (acc : Access) (s : State) (c : Context) (w : Walk),
    ctxAt s r.ctx = some c → r.die < s.dies.length →
    (dieAt s r.die).walks.find? (fun x => x.ctx == r.ctx && x.va == va && x.acc == acc) = some w →
    (∀ lf, w.found = .inl lf →
      ∃ t, exec (.pageWalkComplete r acc va) s = .next t ∧ t.folds = s.folds ∧ t.mem = s.mem ∧ t.cores = s.cores ∧
        (dieAt t r.die).walks = (dieAt s r.die).walks.filter (fun x => x != w) ∧
        (dieAt t r.die).tlb
          = tlbPut (dieAt s r.die).tlb { ctx := r.ctx, page := va / lf.size * lf.size, leaf := lf }) ∧
    ∀ q, w.found = .inr q →
      let u := putDie s r.die { dieAt s r.die with walks := (dieAt s r.die).walks.filter (fun x => x != w) }
      exec (.pageWalkComplete r acc va) s
        = .next (if resolvable q then (reportFault u r.ctx { page := pageBase va, reason := q, acc := acc }).2 else u)) ∧
  (∀ (ctx fid : Nat) (s : State) (c : Context) (r : FaultRec),
    ctxAt s ctx = some c → c.faults.find? (fun x => x.id == fid) = some r →
    r.since + (if c.faultto = 0 then 2000000 else c.faultto * 20000) ≤ s.clock →
    (∀ f ∈ s.folds, ∀ fl ∈ f.flocks, ∀ p ∈ fl.stores, p.waitFault = none) →
    ∃ t, exec (.faultTimeout ctx fid) s = .next t ∧
      ctxAt t ctx = some { c with faults := c.faults.filter (fun x => x.id != fid) } ∧
      ∀ (u i : Nat) (f : Fold) (l : Launch) (fl : Flock), foldAt s u = some f → launchAt s f.launch = some l →
        l.ctx = ctx → flockAt f i = some fl → fl.stall = some fid →
        flockOf t u i = some { fl with stall := none, verdicts := fl.verdicts ++ [(r.page, r.reason)] }) ∧
  (∀ (fold : Nat) (s : State) (f : Fold), foldAt s fold = some f → Config.drbSize < drbUse s f.core + 64 →
    (s.folds.map (fun g => g.uid)).Nodup →
    let mine := s.folds.filter (fun g => g.core == f.core && g.place == .core)
    let goes (d : Nat) (g : Fold) : List (Nat × Contribution) :=
      (g.drb.filter (fun x => dieOfHome x.home == d)).map (fun x => (((ctxOf s g).map (fun c => c.id)).getD 0, x))
    (∀ g ∈ mine, (ctxOf s g).isSome ∧ (∀ l, launchAt s g.launch = some l → l.stopped = false) ∧
      ∀ x ∈ g.drb, homeOffline s x.home = false ∧ dieOfHome x.home < s.dies.length) →
    (∀ g ∈ mine, ∀ c d, ctxOf s g = some c →
      ((mine.flatMap (goes d)).filter (fun x => x.1 == c.id)).length ≤ stageRoom s c d) →
    ∃ t, exec (.drbDrain fold) s = .next t ∧ t.mem = s.mem ∧ (∀ g ∈ mine, foldAt t g.uid = some { g with drb := [] }) ∧
      ∀ d, (dieAt t d).staging = (dieAt s d).staging ++ mine.flatMap (goes d)) ∧
  (∀ (fold : Nat) (s : State) (f : Fold) (c : Context) (l0 : Launch) (x : Contribution) (rest : List Contribution),
    foldAt s fold = some f → ctxOf s f = some c → launchAt s f.launch = some l0 → l0.stopped = false → f.place = .core →
    Config.drbSize < drbUse s f.core + 64 → f.drb = x :: rest →
    (∀ g ∈ s.folds, g.core = f.core → g.place = .core → g.uid ≠ fold → g.drb = []) →
    homeOffline s x.home = false → stageRoom s c (dieOfHome x.home) = 0 →
    ∃ t, exec (.drbDrain fold) s = .next t ∧ (∀ g ∈ t.folds, g.launch = f.launch → g.fail ≠ none) ∧
      ∀ l, launchAt t f.launch = some l → l.stopped = true) ∧
  (∀ (r : FlockRef) (scope : BitVec 4) (gen : Nat) (s : State) (f : Fold) (fl : Flock) (flag : Option (BitVec 4)),
    foldAt s r.fold = some f → flockAt f r.flock = some fl → (r.fold, r.flock) ∈ dflushUnit s f r.flock scope →
    fl.dflags.filter (fun d => d.1 == gen && d.2.1 == scope) = [(gen, scope, flag)] →
    (∀ x ∈ dflushUnit s f r.flock scope, ∀ z, flockOf s x.1 x.2 = some z → gen ≤ z.dflush ∨ finished z = true) →
    let s0 := (((dflushUnit s f r.flock scope).filterMap (fun x => (foldAt s x.1).map (fun g => g.core))).dedup).foldl
      drainCore s
    (launchAt s0 f.launch).any (fun l => l.stopped) = false →
    let covered (k : Contribution) : Bool :=
      (dflushUnit s f r.flock scope).contains (k.fold, k.flock) && decide (k.gen < gen)
    ∃ t u, exec (.redDApply r scope gen) s = .next t ∧ flockOf t r.fold r.flock = some u ∧
      u.c = (flagDown fl flag).c ∧ u.dflags = fl.dflags.filter (fun d => !(d.1 == gen && d.2.1 == scope)) ∧
      (∀ d, (dieAt t d).staging = (dieAt s0 d).staging.filter (fun x => !covered x.2)) ∧
      ((∀ k, ∀ y ∈ (coreAt s k).l1, y.dirty = 0) → t.mem = (applyStaged s0 covered).mem)) ∧
  ∀ (s : State) (p : Contribution → Bool) (b n : Nat),
    let cs := ((s.dies.flatMap (fun d => d.staging.map (fun x => x.2))).filter p)
    cs ≠ [] → (∀ x ∈ cs, x.home = b ∧ x.width = n) → n ≠ 0 → b + n ≤ peerKey → b % 128 + n ≤ 128 →
    let new := (sortBy keyLe cs).foldl (fun m x => (atomNew x.fn (8 * n) (fdrOf x.slot) m x.c.toNat 0).1)
      (leNat (cgetList 0 s.mem b n))
    ∀ h, homeByte (applyStaged s p) h
      = if b ≤ h ∧ h < b + n then BitVec.ofNat 8 (new / 256 ^ (h - b)) else homeByte s h

/-- R220 to R226, R230 to R235, R241, R299, R302, R304, R306, R307: an engine starts its next command; an MMA finishes
a step, each sum of which is that of its exact products, and completes; a tree, an accumulator move, an item of a copy
and a copy complete, with the bytes that each writes; of what several elements of a copy write the last in the stream
stands, an item that ends counts its bytes in the copy's barrier, and the status word holds the CRCs asked for; the
engine widens. When an engine takes a step, and which items of a copy are in flight, are the model's choices (log
entries 1 and 30), and so is what a copy does with records, bitmaps and bytes that it cannot read (log entries 31, 32
and 49). -/
def Obligations.EngineSteps : Prop :=
  (∀ (k id : Nat) (s : State) (c : Cmd), cmdAt s k id = some c → k < s.cores.length → canStart s k c = true →
    (isCopy c = false → (∀ o, c.instr ≠ .mma o) →
      ∃ t, exec (.engineCommandStart k id) s = .next t ∧ cmdAt t k id = some { c with started := true } ∧
        t.folds = s.folds ∧ t.mem = s.mem) ∧
    (∀ o, c.instr = .mma o →
      ∃ t d, exec (.engineCommandStart k id) s = .next t ∧ cmdAt t k id = some d ∧
        fetchedOnly { c with started := true } d ∧ t.folds = s.folds ∧ t.mem = s.mem ∧
        (o.tfua = false → o.tfub = false → d.pins = c.pins ∧ d.reads = c.reads ∧ d.copies = c.copies)) ∧
    (∀ o, c.instr = .copy o → c.valid = true →
      ∃ t, exec (.engineCommandStart k id) s = .next t ∧ cmdAt t k id = some { c with started := true }) ∧
    ∀ (o : CopyOp) (ra rb rr : List Byte) (xs : List (Byte × Nat)), c.instr = .copy o → c.valid = false →
      (if o.mode = 3 then ra = List.replicate 64 0 else readRecord s k c 0 = .ok ra) → readRecord s k c 1 = .ok rb →
      (if o.ef then readRecord s k c 2 = .ok rr else rr = List.replicate 64 0) →
      hostDest s c (tensorOf rb) = false → hostTensor s c (tensorOf rr) = false → hostStamp s c (tensorOf rr) = false →
      hostSource s c o (tensorOf ra) (tensorOf rb) = false →
      readList s k c (opndAddr c) (listBytes o (tensorOf ra) (tensorOf rb)) = .ok xs →
      ∃ t d, exec (.engineCommandStart k id) s = .next t ∧ cmdAt t k id = some d ∧ d.started = true ∧ d.valid = true ∧
        d.src = ra ∧ d.dst = rb ∧ d.res = rr ∧
        d.bad = (if (tensorOf rb).ok o.stamp = false then 3
                 else if o.ef = true ∧ (tensorOf rr).ok false = false then 4
                 else if o.mode ≠ 3 ∧ (tensorOf ra).ok false = false then 1
                 else if badShape o (tensorOf ra) (tensorOf rb) (tensorOf rr) then 2 else c.bad) ∧
        (d.bad = 0 → d.plan = (copyPlan o (tensorOf ra) (tensorOf rb) xs).elems)) ∧
  (∀ (k id : Nat) (s : State) (c : Cmd) (o : MmaOp) (f : Fold), cmdAt s k id = some c → c.instr = .mma o →
    cmdFold s c = some f → k < s.cores.length → c.started = true → c.step < mmaSteps c.regs → c.faults = [] →
    f.place = .core → stepSram f c o c.step = false →
    stepFault s k c o c.step = none →
    let r := fetchStep s k c o c.step
    ∃ t d, exec (.mmaStepEnd k id) s = .next t ∧ cmdAt t k id = some d ∧ t.folds = s.folds ∧ t.mem = s.mem ∧
      (f.preempt = true → d.started = false ∧ d.step = 0 ∧ d.sums = [] ∧ d.pins = [] ∧ d.copies = []) ∧
      (f.preempt = false → d.step = c.step + 1 ∧
        ∀ m n, m < 64 → n < 64 → inMask c.rows m = true →
          cget 0 d.sums (c.step * 4096 + 64 * m + n)
            = stepSum (((stepValues (opByte r.1 k r.2 f o.tfua) (opndA o c.regs c.slots) (mmaSteps c.regs) m c.step).zip
                (stepValues (opByte r.1 k r.2 f o.tfub) (opndB o c.regs c.slots) (mmaSteps c.regs) n c.step)).map
                  (fun y => (mulNum y.1 y.2).1)))) ∧
  (∀ ps : List Machine.Num, (.nan ∈ ps ∨ (.inf true ∈ ps ∧ .inf false ∈ ps) → stepSum ps = 0x7FC00000) ∧
    ∀ p, .nan ∉ ps → .inf p ∈ ps → .inf (!p) ∉ ps → stepSum ps = (if p then 0xFF800000 else 0x7F800000)) ∧
  (∀ xs : List (Bool × Nat × Nat), (∀ x ∈ xs, 0 < x.2.2) →
    let ps : List Machine.Num := xs.map (fun x => .fin x.1 x.2.1 x.2.2)
    let mag (x : Bool × Nat × Nat) : ℚ := (x.2.1 : ℚ) / x.2.2
    ((∀ x ∈ xs, x.2.1 = 0) → stepSum ps = if ∀ x ∈ xs, x.1 = true then 0x80000000 else 0) ∧
    ∀ E : ℤ, (∃ x ∈ xs, (2 : ℚ) ^ E ≤ mag x) → (∀ x ∈ xs, mag x < (2 : ℚ) ^ (E + 1)) →
      let T : ℤ := (xs.map (fun x => (if x.1 then -1 else 1) * ⌊mag x * (2 : ℚ) ^ (62 - E)⌋)).sum
      (T = 0 → stepSum ps = 0) ∧
      (T ≠ 0 → ∃ v, Proper v ∧ ratOf v = some (T * (2 : ℚ) ^ (E - 62)) ∧ stepSum ps = fp32 v)) ∧
  (∀ (k id : Nat) (s : State) (c : Cmd) (o : MmaOp) (f : Fold), cmdAt s k id = some c → c.instr = .mma o →
    cmdFold s c = some f → k < s.cores.length → c.started = true → c.step = mmaSteps c.regs → f.place = .core →
    f.lsMarks = [] → f.tileMarks = [] →
    let leaves (m n : Nat) : List Word := (List.range c.step).map (fun j => cget 0 c.sums (j * 4096 + 64 * m + n))
    let tree (m n : Nat) : Word := canonTree (mmaG0 c.regs) (leaves m n)
    let masked (m n : Nat) : Bool := o.msk && maskBit f (regAt c 12).toNat m n
    ∃ t g, exec (.mmaComplete k id) s = .next t ∧ cmdAt t k id = none ∧ foldAt t f.uid = some g ∧
      (o.mode ≠ .node → ∀ d m n, m < 64 → n < 64 →
        tileWord g d m n
          = if d = o.d.toNat ∧ inMask c.rows m = true then
              (if masked m n then (if o.mv then regAt c 13 else 0xFF800000)
               else if o.mode = .acc then add32 (tree m n) (tileWord f o.c.toNat m n) else tree m n)
            else tileWord f d m n) ∧
      (o.mode ≠ .node → cget 0 g.ntag o.d.toNat = 0) ∧
      (o.mode = .node → ∀ j x m n, (mmaPieces c.regs)[j]? = some x → m < 64 → n < 64 → inMask c.rows m = true →
        tileWord g (o.d.toNat + j) m n
            = canonTree 0 (((leaves m n).drop (x.2 - mmaG0 c.regs)).take (2 ^ x.1)) ∧
          cget 0 g.ntag (o.d.toNat + j) = nodeTag x.1 (x.2 / 2 ^ x.1))) ∧
  (∀ (k id : Nat) (s : State) (c : Cmd) (o : MtreeOp) (f : Fold) (u i : Nat), cmdAt s k id = some c →
    c.instr = .mtree o → c.owner = .flock u i → cmdFold s c = some f → c.started = true → f.place = .core →
    f.tileMarks = [] → badTree f o.w.toNat (o.n1.toNat + 1) = none →
    (∀ q, q ≤ o.n1.toNat → tagLevel (cget 0 f.ntag (o.w.toNat + q)) ≤ 32) →
    let covers (l j : Nat) : Prop := ∀ q, q ≤ o.n1.toNat → j * 2 ^ l ≤ tagStart (cget 0 f.ntag (o.w.toNat + q)) ∧
      tagEnd (cget 0 f.ntag (o.w.toNat + q)) ≤ (j + 1) * 2 ^ l
    ∃ t g l j, exec (.mtreeExecute k id) s = .next t ∧ cmdAt t k id = none ∧ foldAt t f.uid = some g ∧
      covers l j ∧ (∀ l' j', covers l' j' → l ≤ l') ∧
      (∀ d m n, m < 64 → n < 64 →
        tileWord g d m n
          = if d = o.d.toNat ∧ inMask c.rows m = true then
              (let v := (treeNode ((List.range (o.n1.toNat + 1)).map (fun q =>
                  (tagLevel (cget 0 f.ntag (o.w.toNat + q)), tagIndex (cget 0 f.ntag (o.w.toNat + q)),
                   tileWord f (o.w.toNat + q) m n))) l j).getD 0
               if o.mode = .acc then add32 v (tileWord f o.c.toNat m n) else v)
            else tileWord f d m n) ∧
      (o.mode = .node → cget 0 g.ntag o.d.toNat = nodeTag l j) ∧ (o.mode ≠ .node → cget 0 g.ntag o.d.toNat = 0)) ∧
  (∀ (k id : Nat) (s : State) (c : Cmd) (f : Fold) (u i : Nat), cmdAt s k id = some c → c.owner = .flock u i →
    cmdFold s c = some f → c.started = true → f.place = .core → f.lsMarks = [] → f.tileMarks = [] →
    let off := (regAt c 0).toNat
    (∀ o, c.instr = .amld o → ∃ t g, exec (.amMoveComplete k id) s = .next t ∧ cmdAt t k id = none ∧
      foldAt t f.uid = some g ∧ cget 0 g.ntag o.d.toNat = pair (regAt c 1) (regAt c 2) ∧
      ∀ d m n, m < 64 → n < 64 → tileWord g d m n
        = if d = o.d.toNat ∧ inMask c.rows m = true then
            BitVec.ofNat 32 (leNat (cgetList 0 f.ls (off + 4 * (64 * m + n)) 4)) else tileWord f d m n) ∧
    (∀ o, c.instr = .amst o → ∃ t g, exec (.amMoveComplete k id) s = .next t ∧ cmdAt t k id = none ∧
      foldAt t f.uid = some g ∧ g.tiles = f.tiles ∧
      (∀ m n j, m < 64 → n < 64 → j < 4 → cget 0 g.ls (off + 4 * (64 * m + n) + j)
        = if inMask c.rows m = true then (tileWord f o.s.toNat m n).extractLsb' (8 * j) 8
          else cget 0 f.ls (off + 4 * (64 * m + n) + j)) ∧
      ∀ a, a < off ∨ off + 16384 ≤ a → cget 0 g.ls a = cget 0 f.ls a) ∧
    (∀ o, c.instr = .amz o → ∃ t g, exec (.amMoveComplete k id) s = .next t ∧ cmdAt t k id = none ∧
      foldAt t f.uid = some g ∧ cget 0 g.ntag o.d.toNat = 0 ∧
      ∀ d m n, m < 64 → n < 64 → tileWord g d m n
        = if d = o.d.toNat ∧ inMask c.rows m = true then 0 else tileWord f d m n) ∧
    ∀ o, c.instr = .amcvt o → ∃ t g, exec (.amMoveComplete k id) s = .next t ∧ cmdAt t k id = none ∧
      foldAt t f.uid = some g ∧ g.tiles = f.tiles ∧
      let w := (fdrOf ((c.slots[0]?).getD 0)).w
      ∀ m n, m < 64 → n < 64 → bitsFrom (fun a => cget 0 g.ls a) (8 * off + (64 * m + n) * w) w
        = if inMask c.rows m = true then amcvtCode f c o i m n % 2 ^ w
          else bitsFrom (fun a => cget 0 f.ls a) (8 * off + (64 * m + n) * w) w) ∧
  (∀ (k id item : Nat) (s : State) (c c1 : Cmd) (o : CopyOp) (res : Bool) (blk u i : Nat),
    cmdAt s k id = some c → k < s.cores.length → c.instr = .copy o → c.owner = .flock u i → copyRuns s c = true →
    (copyItems c o)[item]? = some (res, blk) → item ∉ c.ended → startItems s k c item = some c1 →
    let s1 := putCmd s k c1
    let acc := itemAcc s1 k c1 o res blk
    let off := (regAt c 10).toNat
    acc.wait = none → acc.reason = 0 → (∀ x ∈ acc.out, ∃ sp, targetByte s1 k c1 res x.1 = .ok (some sp)) →
    ∃ t d, exec (.copyItemEnd k id item) s = .next t ∧ cmdAt t k id = some d ∧ d.ended = c.ended ++ [item] ∧
      d.failed = c.failed ∧ d.fl = c.fl ||| acc.fl ∧ item ∉ d.flight ∧
      (∀ (before after : Cells (Byte × Byte × Byte)) (x : Nat × Byte × Byte × Byte) (sp : Spot),
        acc.out = before ++ x :: after → targetByte s1 k c1 res x.1 = .ok (some sp) → o.bar = none ∨ inObject u off sp = false →
        (∀ y ∈ before ++ after, ∀ sp', targetByte s1 k c1 res y.1 = .ok (some sp') → spotKey sp' ≠ spotKey sp) →
        let m := cget 0 (lastBits s1 k c1 o res blk) (spotKey sp) &&& x.2.2.1
        spotByte t sp = (engByte s1 k sp &&& ~~~m) ||| (x.2.1 &&& m)) ∧
      (o.bar ≠ none → (∀ x ∈ acc.out, ∀ sp, targetByte s1 k c1 res x.1 = .ok (some sp) → inObject u off sp = false) →
        barAt t u off = barCount (barAt s u off) acc.out.length)) ∧
  (∀ (k : Nat) (s : State) (c : Cmd) (o : CopyOp) (res : Bool) (blk : Nat) (before after : List (Bool × Nat × Byte × Byte))
      (y : Bool × Nat × Byte × Byte) (sp : Spot) (j : Nat),
    streamWrites c o = before ++ y :: after → targetByte s k c y.1 y.2.1 = .ok (some sp) → y.2.2.2.getLsbD j = true →
    (∀ z ∈ after, ∀ sp', targetByte s k c z.1 z.2.1 = .ok (some sp') → spotKey sp' = spotKey sp →
      z.2.2.2.getLsbD j = false) →
    spotKey sp ∈ writeKeys s k c res blk (itemElems c res blk) →
    (cget 0 (lastBits s k c o res blk) (spotKey sp)).getLsbD j = (y.1 == res && y.2.1 / 4096 == blk)) ∧
  (∀ (k : Nat) (s : State) (c : Cmd) (o : CopyOp) (res : Bool) (blk : Nat) (before after : List (Nat × Nat × Nat))
      (x : Nat × Nat × Nat) (j : Nat),
    let b := tensorOf (if res then c.res else c.dst)
    let p := b.bitPos x.1 + j
    itemElems c res blk = before ++ x :: after → j < b.f.w → p / 8 / 4096 = blk →
    (∀ y ∈ after, p < b.bitPos y.1 ∨ b.bitPos y.1 + b.f.w ≤ p) → (itemAcc s k c o res blk).wait = none →
    (itemAcc s k c o res blk).reason = 0 →
    (∀ r ∈ readKeys s k c o (itemElems c res blk), r ∉ writeKeys s k c res blk (itemElems c res blk) ∧
      ∀ z ∈ c.was, z.1 ≠ r) →
    ∃ y ∈ (itemAcc s k c o res blk).out, y.1 = p / 8 ∧ y.2.2.1.getLsbD (p % 8) = true ∧
      y.2.1.getLsbD (p % 8) = (copiedCode s k c o res x).testBit j) ∧
  (∀ (k : Nat) (s t : State) (c : Cmd) (va : Nat) (bs : List Byte), tailWrite s k c va bs = .ok t →
    ∀ (n : Nat) (b : Byte) (sp : Spot), bs[n]? = some b → engWritable s k c (va + n) = .ok sp →
      (∀ m sp', m < bs.length → m ≠ n → engWritable s k c (va + m) = .ok sp' → spotKey sp' ≠ spotKey sp) →
      spotByte t sp = b) ∧
  (∀ (k : Nat) (s : State) (c : Cmd) (o : CopyOp) (items : Nat), fromHost c = false → (o.ef = true → c.res ≠ []) →
    let count (r : List Byte) : Nat := (recField r 0x30 4 + 1) % 2 ^ 32
    let w := statusWord c o items
    tailStep s k c o items 0 = .ok (if c.bad = 3 then none else some (dstAddr c + 0x30, leBytes 4 (count c.dst))) ∧
    tailStep s k c o items 1
      = .ok (if o.ef = false ∨ c.bad = 3 then none else some (resAddr c + 0x30, leBytes 4 (count c.res))) ∧
    tailStep s k c o items 2 = .ok (if statusAddr c = 0 then none else some (statusAddr c, w)) ∧
    tailStep s k c o items 3
      = .ok (if o.stamp = false ∨ c.bad = 3 then none else some (recField c.dst 0x38 8, leBytes 8 (count c.dst))) ∧
    w.length = 32 ∧ recField w 4 4 = items % 2 ^ 32 ∧ recField w 8 4 = c.failed.length % 2 ^ 32 ∧
    recField w 0x10 4 = (if o.crcd then (crcOf (c.wrote.map (fun x => x.2))).toNat else 0) ∧
    recField w 0x14 4 = (if o.crcs then (crcOf (c.got.map (fun x => x.2))).toNat else 0) ∧
    (c.failed = [] → recField w 0xC 4 = 0xFFFFFFFF) ∧
    (∀ m ∈ c.failed, (∀ n ∈ c.failed, m ≤ n) → recField w 0xC 4 = m % 2 ^ 32) ∧
    recField w 0x18 4 = (if c.bad = 3 then 0 else count c.dst) ∧ recField w 0x1C 4 = 0 ∧
    (BitVec.ofNat 32 (recField w 0 4)).getLsbD 0 = true ∧
    (BitVec.ofNat 32 (recField w 0 4)).getLsbD 1 = !c.failed.isEmpty ∧
    (BitVec.ofNat 32 (recField w 0 4)).getLsbD 2 = decide (c.bad = 1 ∨ 3 ≤ c.bad) ∧
    (BitVec.ofNat 32 (recField w 0 4)).getLsbD 3 = decide (c.bad = 2) ∧
    (BitVec.ofNat 32 (recField w 0 4)).getLsbD 4 = c.idxErr ∧ (BitVec.ofNat 32 (recField w 0 4)).getLsbD 5 = c.ovf ∧
    (BitVec.ofNat 32 (recField w 0 4)).extractLsb' 8 5 = c.fl) ∧
  (∀ (k id : Nat) (s t1 : State) (c c1 : Cmd) (o : CopyOp) (u i : Nat) (f : Fold),
    cmdAt s k id = some c → c.instr = .copy o → c.owner = .flock u i → foldAt s u = some f → f.place = .core →
    c.started = true → c.valid = true → c.faults = [] → c.step ≤ 4 →
    (∀ n, n < (copyItems c o).length → n ∈ c.ended) →
    tailRun k o (copyItems c o).length (List.range' c.step (4 - c.step)) s c = some (t1, c1) →
    ∃ t, exec (.copyFinish k id) s = .next t ∧ cmdAt t k id = none ∧ t.mem = t1.mem ∧
      ∀ fl, flockOf t u i = some fl → id ∉ fl.openCmds ∧ ∀ b ∈ fl.batches, id ∉ b.cmds) ∧
  ∀ (k : Nat) (s : State), k < s.cores.length → (coreAt s k).narrow = true → (dieAt s (dieOfCore k)).alarm = false →
    (dieAt s (dieOfCore k)).clearedAt + 200000 ≤ s.clock →
    (∀ c ∈ (coreAt s k).cmds, ∀ o, c.instr = .mma o → c.started = true → mmaSteps c.regs ≤ c.step) →
    ∃ t, exec (.engineWiden k) s = .next t ∧ coreAt t k = { coreAt s k with narrow := false } ∧ t.folds = s.folds

end

namespace Sys2Proof.Slice0

open Machine

/-- A fold lies in its fleece. -/
def Saved (t : State) (u : Nat) (swapped : Bool) : Prop :=
  ∃ g b, foldAt t u = some g ∧ g.place = .fleece b ∧ g.swapped = swapped ∧ g.preempt = false

/-- Every fold that `t` has selected for pre-emption and `s` had not belongs to a launch that meets `p`. -/
def OnlySelects (s t : State) (p : Launch → Prop) : Prop :=
  ∀ u g, foldAt t u = some g → g.preempt = true →
    ∃ f, foldAt s u = some f ∧ (f.preempt = true ∨ ∃ l, launchAt s f.launch = some l ∧ p l)

/-- On core `k`, `n` victims in their order, with their droves, are selected for a candidate, which then fits, and which did
not fit without the last of them (R315). -/
def Picks (s t : State) (k n : Nat) (c : Cand) (p : Launch → Bool) : Prop :=
  ∃ vs : List Fold, vs.length = n ∧ vs.Sublist (victimsOn s k p) ∧
    (∀ u g, foldAt t u = some g → (g.preempt = true ↔
      ∃ f, foldAt s u = some f ∧ (f.preempt = true ∨ ∃ v ∈ vs, f ∈ droveFolds s v))) ∧
    coreTakes t k c.launch (c.restore.map (fun f => f.images)) (fun f => f.preempt) = true ∧
    (∀ v, vs.getLast? = some v → coreTakes s k c.launch (c.restore.map (fun f => f.images)) (fun f =>
      f.preempt || vs.dropLast.any (fun x => (droveFolds s x).any (fun y => y.uid == f.uid))) = false) ∧
    ((∀ v ∈ victimsOn s k p, droveFolds s v = [v] ∧ v.room = none) →
      ∀ last before after v, vs.getLast? = some last → victimsOn s k p = before ++ last :: after → v ∈ before → v ∉ vs →
        reserve t v.uid = none)

/-- The folds that must go for a candidate on core `k` of a state, in their number: none where it cannot be freed. -/
def goes (s : State) (c : Cand) (p : Launch → Bool) (k : Nat) : Option Nat :=
  (selectOn k c.launch (c.restore.map (fun f => f.images)) (victimsOn s k p) 0 s).map (fun x => x.1)

/-- `n` cores of `ks` are freed for a candidate one after another, each the one on which the fewest folds must go, the lowest
among equals; `js` are left (R315). -/
def Frees (c : Cand) (p : Launch → Bool) : Nat → List Nat → State → List Nat → State → Prop
  | 0, ks, s, js, t => js = ks ∧ t = s
  | n + 1, ks, s, js, t =>
    ∃ k m u, k ∈ ks ∧ goes s c p k = some m ∧ (∀ j ∈ ks, ∀ x, goes s c p j = some x → m ≤ x ∧ (j < k → m < x)) ∧
      Picks s u k m c p ∧ Frees c p n (ks.filter (· != k)) u js t

/-- For a candidate the folds of as many cores are selected as its drove has folds, and none where that cannot be (R315,
R316). -/
def SelectsFor (s t : State) (die : Nat) (c : Cand) (p : Launch → Bool) : Prop :=
  (∃ js, Frees c p c.launch.drove (dieCores die) s js t) ∨
  (t.folds = s.folds ∧ ∃ n js u, n < c.launch.drove ∧ Frees c p n (dieCores die) s js u ∧ ∀ k ∈ js, goes u c p k = none)

/-- Of two victims of a core the first goes first: the one of lower priority, the one dispatched later among equals (R315). -/
def GoesFirst (s : State) (a b : Fold) : Prop :=
  ∀ l m, launchAt s a.launch = some l → launchAt s b.launch = some m →
    l.prio < m.prio ∨ (l.prio = m.prio ∧ b.order ≤ a.order)

/-- A candidate ranks before another, or beside it (R320). -/
def RanksBefore (a b : Cand) : Prop :=
  b.launch.prio < a.launch.prio ∨ (a.launch.prio = b.launch.prio ∧
    ((a.restore ≠ [] ∧ b.restore = []) ∨ ((a.restore = [] ↔ b.restore = []) ∧ a.launch.order ≤ b.launch.order)))

/-- A candidate is held back by one of its priority or above that has starved (R320); of two that have starved, by the one
that ranks before it (log entry 53). -/
def Held (s : State) (die : Nat) (x : Cand) : Prop :=
  ∃ y ∈ ranked s die, y.launch.uid ∈ (dieAt s die).starved ∧ y.launch.uid ≠ x.launch.uid ∧ x.launch.prio ≤ y.launch.prio ∧
    ¬ (x.launch.uid ∈ (dieAt s die).starved ∧ RanksBefore x y)

/-- One core comes before another, or is it: more free flock slots, then fewer resident folds, then the lower index (R321). -/
def CoreFirst (s : State) (skip : Fold → Bool) (k j : Nat) : Prop :=
  freeSlots s j skip < freeSlots s k skip ∨ (freeSlots s j skip = freeSlots s k skip ∧
    ((residents s k skip).length < (residents s j skip).length ∨
      ((residents s k skip).length = (residents s j skip).length ∧ k ≤ j)))

/-- Bytes that fleeces hold of the Mantle of a die, or of a context's save area there (R334). -/
def fleeceUse (s : State) (die : Nat) (save : Bool) (p : Launch → Bool) : Nat :=
  ((s.folds.filter (fun f => f.die == die && (!save || (launchAt s f.launch).any p))).map (fun f => match f.room with
    | some (b, n) => if b = save then n else 0
    | none => 0)).sum

/-- The message is an EVENT of the management endpoint of a kind, for a die (R359). -/
def IsEvent (m : OutMsg) (kind die : Nat) : Prop :=
  m.ep = 0 ∧ m.type = 0x83 ∧ m.payload.take 8 = leBytes 4 kind ++ leBytes 4 die

/-- One more event is sent where the management connection is up. -/
def Reports (s t : State) (kind die : Nat) : Prop :=
  if s.mgmt.up then ∃ m, t.sent = s.sent ++ [m] ∧ IsEvent m kind die else t.sent = s.sent

end Sys2Proof.Slice0

section

open Sys2Proof Sys2Proof.Machine Sys2Proof.Slice0

/-- R28, R33 to R36, R48, R310, R311, R318 to R321: launches, copies and steps start, a launch's droves are dispatched
and retire, and one that starves is noted. When an event happens is the model's choice (log entry 1), and so are the
PASTIDs, the images that a drove brings along, and which candidates a starved one holds back (log entries 16, 39 and
53). -/
def Obligations.DispatchSteps : Prop :=
  (∀ (ctx item u : Nat) (s : State) (c : Context) (it : QueueItem) (l : Launch),
    ctxAt s ctx = some c → c.queue.find? (fun x => x.index == item) = some it → mayStart s c.queue it = true →
    it.launch = some u → launchAt s u = some l →
    ∃ t d, exec (.launchStart ctx item) s = .next t ∧ launchAt t u = some { l with started := true } ∧
      ctxAt t ctx = some d ∧ ∀ x ∈ d.queue, x.index = item → x.started = true) ∧
  (∀ (ctx item die : Nat) (s : State) (c : Context) (it : QueueItem) (a : CopyArgs),
    ctxAt s ctx = some c → c.queue.find? (fun x => x.index == item) = some it → mayStart s c.queue it = true →
    it.launch = none → it.copy = some a →
    (copyDie s c a = some die → copyCore s die ∈ dieCores die ∧ ∀ j ∈ dieCores die,
      queued (coreAt s (copyCore s die)).cmds true ≤ queued (coreAt s j).cmds true ∧
      (j < copyCore s die → queued (coreAt s (copyCore s die)).cmds true < queued (coreAt s j).cmds true)) ∧
    ∀ k, ((it.placed = none ∧ copyDie s c a = some die ∧ k = copyCore s die) ∨
        (it.placed = some k ∧ admitted s (dieOfCore k) = true)) →
      (hasRoom s k true = true → engineTurn s k 4 = true → k < s.cores.length →
        ∃ t x, exec (.launchStart ctx item) s = .next t ∧ (coreAt t k).cmds = (coreAt s k).cmds ++ [x] ∧
          (coreAt t k).turn = 4 ∧ x.owner = .host ctx item ∧ x.instr = .copy (copyOpOf a) ∧ x.recs = a.recs ∧
          x.started = false) ∧
      ((hasRoom s k true && engineTurn s k 4) = false →
        exec (.launchStart ctx item) s = .next (putCtx s { c with
          queue := c.queue.map (fun x => if x.index == item then { x with placed := some k } else x) }))) ∧
  (∀ (u : Nat) (s : State) (l : Launch) (c : Context), launchAt s u = some l → ctxAt s l.ctx = some c →
    l.started = true → l.stopped = false → l.running = none → l.step < l.steps →
    let avail := [0, 1, 2, 3].filter (available s c)
    let n := min l.dieMax avail.length
    l.dieMin ≤ avail.length →
    ∃ t sh, exec (.stepStart u) s = .next t ∧ launchAt t u = some { l with running := some sh } ∧ sh.length = n ∧
      sh.Pairwise (fun x y => x.die < y.die) ∧ (∀ x ∈ sh, x.die ∈ avail) ∧
      (∀ x ∈ sh, ∀ d ∈ avail, (∀ y ∈ sh, y.die ≠ d) → waitingOn s x.die ≤ waitingOn s d ∧
        (waitingOn s x.die = waitingOn s d → x.die < d)) ∧
      ∀ j x, sh[j]? = some x → x.next = j * (foldCount l / l.drove) / n ∧
        x.last = (j + 1) * (foldCount l / l.drove) / n) ∧
  (∀ (die : Nat) (s : State), (ranked s die).Pairwise RanksBefore ∧
    (∀ x ∈ ranked s die, x.launch ∈ s.launches ∧ x.launch.started = true ∧ x.launch.stopped = false ∧
      (∀ f ∈ x.restore, f ∈ s.folds ∧ f.launch = x.launch.uid) ∧
      (x.restore = [] → ∃ sh r, x.launch.running = some r ∧ sh ∈ r ∧ sh.die = die ∧ sh.next < sh.last ∧
        x.drove = sh.next)) ∧
    (∀ l ∈ s.launches, ∀ r, l.started = true → l.stopped = false → l.running = some r → toRestore s l die = [] →
      (∃ sh ∈ r, sh.die = die ∧ sh.next < sh.last) → ∃ x ∈ ranked s die, x.launch = l ∧ x.restore = []) ∧
    (chooseCand s die = none → ∀ x ∈ ranked s die, Held s die x ∨ candCores s die x (fun _ => false) = none) ∧
    ∀ c ks, chooseCand s die = some (c, ks) → ¬ Held s die c ∧ candCores s die c (fun _ => false) = some ks ∧
      ∃ a b, ranked s die = a ++ c :: b ∧ ∀ x ∈ a, Held s die x ∨ candCores s die x (fun _ => false) = none) ∧
  (∀ (die : Nat) (s : State) (c : Cand) (skip : Fold → Bool),
    let takes (k : Nat) : Bool := coreTakes s k c.launch (c.restore.map (fun f => f.images)) skip
    (candCores s die c skip = none ↔ ((dieCores die).filter takes).length < c.launch.drove) ∧
    ∀ ks, candCores s die c skip = some ks → ks.length = c.launch.drove ∧ ks.Pairwise (fun j k => j < k) ∧
      ∃ cs : List Nat, cs.Perm ks ∧ ∀ i k, cs[i]? = some k → k ∈ dieCores die ∧ takes k = true ∧
        ∀ j ∈ dieCores die, takes j = true → j ∉ cs.take i → CoreFirst s skip k j) ∧
  (∀ (die : Nat) (s : State), s.clock < (dieAt (noteStarve s die) die).nextPlace →
    exec (.foldDispatch die) s = .next (noteStarve s die) ∧ exec (.foldRestore die) s = .next (noteStarve s die)) ∧
  (∀ (die : Nat) (s : State) (c : Cand) (ks : List Nat) (x : Context),
    (dieAt (noteStarve s die) die).nextPlace ≤ s.clock → chooseCand (noteStarve s die) die = some (c, ks) →
    c.restore = [] → ctxAt s c.launch.ctx = some x → (∀ f ∈ s.folds, f.uid < s.nextUid) →
    ∃ t old new, exec (.foldDispatch die) s = .next t ∧ t.folds = old ++ new ∧
      old.map (fun f => f.uid) = s.folds.map (fun f => f.uid) ∧ new.map (fun f => f.core) = ks ∧
      new.map (fun f => f.foldId) = (List.range ks.length).map (fun i => c.drove * c.launch.drove + i) ∧
      (∀ f ∈ new, f.launch = c.launch.uid ∧ f.step = c.launch.step ∧ f.die = die ∧ f.place = .core ∧ f.fail = none ∧
        f.dieMask = x.dieMask ∧ f.wdog = x.wdog ∧ (∀ a, cget 0 f.ls a = 0) ∧ f.drb = [] ∧ f.wd = 0 ∧
        f.flocks.length = c.launch.flocks) ∧
      (die < s.dies.length → (dieAt t die).nextPlace = s.clock + 32 ∧ c.launch.uid ∉ (dieAt t die).starved) ∧
      ((∀ k ∈ ks, ∀ y ∈ (coreAt s k).l1, y.dirty = 0) →
        old = s.folds ∧ ∀ f ∈ new, ∀ fl ∈ f.flocks, FlockStart c.launch fl)) ∧
  (∀ (die u since : Nat) (s : State), die < s.dies.length →
    (dieAt (noteStarve s die) die).starve = some (u, since) → since + 200000 ≤ s.clock →
    ∃ t, exec (.dispatchStarvationTimeout die) s = .next t ∧ t.folds = s.folds ∧
      ∀ x, x ∈ (dieAt t die).starved ↔ x = u ∨ x ∈ (dieAt (noteStarve s die) die).starved) ∧
  (∀ (fold : Nat) (s : State) (f : Fold) (l : Launch) (r : ImpRecord), foldAt s fold = some f →
    launchAt s f.launch = some l → f.place = .core → f.fail = none → f.flocks.all finished = true →
    oldestRecord f = some r → hasCmds s f = true → (s.folds.map (fun g => g.uid)).Nodup →
    (∀ g ∈ droveFolds s f, g.uid ≠ fold → g.flocks.all finished = false) →
    exec (.foldRetire fold) s = .next (failFold s fold (0x100 + r.cause))) ∧
  ∀ (fold : Nat) (s : State) (f : Fold) (l : Launch), foldAt s fold = some f → launchAt s f.launch = some l →
    (∀ g ∈ droveFolds s f, endReady s g = true) → (s.folds.map (fun g => g.uid)).Nodup →
    ∃ t, exec (.foldRetire fold) s = .next t ∧
      (∀ g ∈ t.folds, g.uid ∉ (droveFolds s f).map (fun x => x.uid)) ∧
      (∀ g ∈ s.folds, g.uid ∉ (droveFolds s f).map (fun x => x.uid) → ∃ h ∈ t.folds, h.uid = g.uid) ∧
      ((∀ g ∈ s.folds, g.drb = []) → (∀ g ∈ s.folds, g.launch = l.uid → g ∈ droveFolds s f) →
        l.stopped = false → (∃ r, l.running = some r ∧ ∀ x ∈ r, x.last ≤ x.next) →
        if l.step + 1 < l.steps then
          ∃ ids, launchAt t l.uid = some { l with running := none, step := l.step + 1, retired := l.retired ++ ids } ∧
            ids.Sublist ((droveFolds s f).map (fun g => g.foldId))
        else launchAt t l.uid = none)

/-- R46, R49, R209, R315, R316, R333, R334, R337, R338: droves are swapped out, selected for pre-emption, stopped,
saved and restored, a slice ends, and a watchdog runs out. How the droves of a core are stopped, saved and counted is
the model's choice where the manual leaves it open (log entries 39, 53 and 54), and so is the moment of each event
(log entries 1 and 3). -/
def Obligations.SaveSteps : Prop :=
  (∀ (fold : Nat) (s t0 : State) (f : Fold), foldAt s fold = some f →
    (∀ g ∈ droveFolds s f, g.place = .core ∧ g.fail = none ∧ g.preempt = false ∧ allLwait g = true ∧
      engineBusy s g = false) → (∀ g ∈ s.folds, g.drb = []) → stillWaits s (droveFolds s f) = true →
    reserveAll s ((droveFolds s f).map (fun g => g.uid)) = some t0 → (s.folds.map (fun g => g.uid)).Nodup →
    ∃ t, exec (.foldSwapOut fold) s = .next t ∧ ∀ g ∈ droveFolds s f, Saved t g.uid true) ∧
  (∀ (die : Nat) (s : State) (c : Cand) (rest : List Cand), ranked s die = c :: rest →
    (s.folds.map (fun g => g.uid)).Nodup →
    ∃ t, exec (.preemptRequest die) s = .next t ∧ OnlySelects s t (fun l => l.prio < c.launch.prio) ∧
      (c.launch.drove = 1 → t = s ∨ (candCores t die c (fun f => f.preempt)).isSome) ∧
      ((candCores s die c (fun f => f.preempt)).isSome → t = s) ∧
      (candCores s die c (fun f => f.preempt) = none → SelectsFor s t die c (fun l => l.prio < c.launch.prio))) ∧
  (∀ (s : State) (k : Nat) (p : Launch → Bool), (victimsOn s k p).Pairwise (GoesFirst s) ∧
    ∀ f, f ∈ victimsOn s k p ↔ f ∈ s.folds ∧ f.place = .core ∧ f.core = k ∧ f.preempt = false ∧ f.fail = none ∧
      ∃ l, launchAt s f.launch = some l ∧ p l = true) ∧
  (∀ (s : State) (u : Nat) (f : Fold) (l : Launch) (c : Context), foldAt s u = some f → launchAt s f.launch = some l →
    ctxOf s f = some c →
    let n := (sections l (foldCmds s f).length).size
    reserve s u = (if fleeceUse s f.die false (fun _ => true) + n ≤ 96 * 2 ^ 20 then
        some (putFold s { f with room := some (false, n) })
      else if fleeceUse s f.die true (fun m => m.ctx == c.id) + n ≤ c.saveSize.toNat then
        some (putFold s { f with room := some (true, n) })
      else none)) ∧
  (∀ (ctx die since sl : Nat) (s : State) (c : Context), ctxAt s ctx = some c →
    c.timers.find? (fun x => x.1 == die) = some (die, since, sl) → since + sl * 500000 ≤ s.clock →
    (s.folds.map (fun g => g.uid)).Nodup →
    let d : Context := { c with timers := c.timers.map (fun x => if x.1 == die then (die, s.clock, x.2.2) else x) }
    let s1 := putCtx s d
    ∃ t, exec (.sliceTimerExpiry ctx die) s = .next t ∧ ctxAt t ctx = some d ∧
      OnlySelects s t (fun l => l.ctx = ctx ∧ ∃ x, (ranked s1 die).head? = some x ∧ x.launch.ctx ≠ ctx ∧
        l.prio = x.launch.prio) ∧
      ∀ x, (ranked s1 die).head? = some x → x.launch.ctx ≠ ctx → candCores s1 die x (fun f => f.preempt) = none →
        SelectsFor s1 t die x (fun l => l.ctx == ctx && l.prio == x.launch.prio)) ∧
  (∀ (r : FlockRef) (s : State) (f : Fold) (fl : Flock), foldAt s r.fold = some f → flockAt f r.flock = some fl →
    f.preempt = true → f.place = .core → (∀ p ∈ fl.loads, ∀ w ∈ p.words, w.lane < 64) →
    ∃ t u, exec (.flockPreemptStop r) s = .next t ∧ flockOf t r.fold r.flock = some u ∧ u.stopped = true ∧
      u.loads = [] ∧ ∀ p ∈ u.stores, p.waitFault = none → p.bytes = []) ∧
  (∀ (fold : Nat) (s : State) (f : Fold), foldAt s fold = some f → (s.folds.map (fun g => g.uid)).Nodup →
    (∀ g ∈ s.folds, g.drb = []) → (∀ g ∈ droveFolds s f, g.preempt = true ∧ g.place = .core ∧ g.fail = none ∧ engineBusy s g = false ∧
      ∀ fl ∈ g.flocks, fl.stopped = true ∨ finished fl = true) →
    ∃ t, exec (.fleeceWrite fold) s = .next t ∧ ∀ g ∈ droveFolds s f, Saved t g.uid false) ∧
  (∀ (die : Nat) (s : State) (c : Cand) (ks : List Nat),
    (dieAt (noteStarve s die) die).nextPlace ≤ s.clock → chooseCand (noteStarve s die) die = some (c, ks) →
    c.restore ≠ [] → (c.restore.map (fun f => f.uid)).Nodup → (∀ f ∈ c.restore, f.fleeceMark = false) →
    (∀ k ∈ ks, k < s.cores.length) →
    ∃ t, exec (.foldRestore die) s = .next t ∧ ∀ f k, (f, k) ∈ c.restore.zip ks →
      (∀ x ∈ f.images, x ∈ (coreAt t k).cmds) ∧
      ∃ g, foldAt t f.uid = some g ∧ g.place = .core ∧ g.core = k ∧ g.swapped = false ∧ g.images = [] ∧ g.ls = f.ls ∧
        g.tiles = f.tiles ∧ g.ntag = f.ntag ∧ g.flocks.map (fun x => (x.v, x.s, x.p, x.q, x.x, x.f, x.c))
          = f.flocks.map (fun x => (x.v, x.s, x.p, x.q, x.x, x.f, x.c))) ∧
  (∀ (fold : Nat) (s : State) (f : Fold), foldAt s fold = some f → f.wdog ≠ 0 → f.wdog * 2 ^ 24 ≤ f.wd →
    f.place = .core → f.fail = none → (∀ fl ∈ f.flocks, finished fl = true ∨ allWait fl = false) →
    ∃ t g, exec (.watchdog fold) s = .next t ∧ foldAt t fold = some g ∧ g.wd = 0 ∧
      g.flocks = f.flocks.map (fun fl => if finished fl then fl else { fl with watchdog := true })) ∧
  ∀ (fold : Nat) (s : State) (f : Fold) (fl : Flock), foldAt s fold = some f → f.wdog ≠ 0 → f.wdog * 2 ^ 24 ≤ f.wd →
    f.place = .core → f.fail = none → f.flocks = [fl] → allWait fl = true → fl.stall = none → fl.records = [] →
    fl.watchdog = false →
    exec (.watchdog fold) s
      = .next (takeTrap (putFold s { f with wd := 0 }) fold 0 (earliest fl) true .full (plainTrap 0x04 0))

/-- R304, R332, R350 to R352, R368, R376 to R378: sampling, the power alarm, THERMTRIP, boot, a new image, and soft
errors. Sensors are inputs (log entry 19); free or the model's choice are the draws of the sampler and what becomes of
an untranslatable record (log entry 18), signatures and digests (log entry 15), and how long an error stays (log entry
34). -/
def Obligations.PowerAndErrorSteps : Prop :=
  (∀ (k n : Nat) (s : State) (q : Quadrant) (c : Context), k < s.cores.length → (coreAt s k).quads[n]? = some q →
    sampleDue s q = [c] →
    ∃ t r, exec (.sampleTag k n) s = .next t ∧ (coreAt t k).quads[n]? = some r ∧ (∀ i, i ∈ r.tag ↔ i = c.id ∨ i ∈ q.tag) ∧
      r.active = q.active ∧ r.pending = q.pending ∧ cget 0 r.drawn c.id = s.clock / 2 ^ c.sampling.k + 1) ∧
  (∀ (s t : State) (e : Env) (w : BitVec 128) (abort : Bool) (q : Quadrant) (fl : Flock),
    (coreAt s e.fold.core).quads[e.fl.quad]? = some q → e.ctx.id ∈ q.tag → flockOf t e.fold.uid e.fi = some fl →
    ∃ r gl, flockOf (noteSample s e w abort t) e.fold.uid e.fi = some gl ∧ gl.sample = some r ∧
      r.ord.toNat = e.sp.ord.toNat + (if abort then 2 ^ 31 else 0) ∧ r.pc = e.sp.pc ∧ r.mask = e.mask ∧
      r.clock = s.clock ∧ (∀ sp, e.fl.splits[e.idx]? = some sp → r.stall = sp.code) ∧ r.levels = t.cur.levels ∧
      r.narrow = (coreAt s e.fold.core).narrow ∧ r.route = routeClk w) ∧
  (∀ (s : State) (f : Fold) (l : Launch) (i : Nat) (r : SampleRec),
    let b := sampleBytes s f l i r
    b.length = 64 ∧ recField b 0 4 = l.kernid.toNat ∧ recField b 4 4 = r.ord.toNat ∧
      BitVec.ofNat 32 (recField b 8 4) = (r.pc - l.kernel).setWidth 32 ∧ recField b 0xC 4 = f.foldId % 2 ^ 32 ∧
      recField b 0x10 4 = l.pastid.toNat ∧ recField b 0x14 2 = i % 2 ^ 16 ∧ recField b 0x16 2 = f.core % 2 ^ 16 ∧
      recField b 0x18 8 = r.mask.toNat ∧ recField b 0x20 8 = r.clock % 2 ^ 64 ∧ recField b 0x32 1 % 16 = r.stall % 16 ∧
      ((∀ v ∈ r.levels, v < 8) → (r.levels = [] ∧ recField b 0x32 1 / 16 % 8 = 0) ∨ recField b 0x32 1 / 16 % 8 ∈ r.levels) ∧
      ((∀ v ∈ r.levels, v < 8) → (128 ≤ recField b 0x32 1 ↔ r.narrow = true)) ∧ recField b 0x33 1 = r.route % 256 ∧
      ∀ j, 0x34 ≤ j → j < 64 → b[j]? = some 0) ∧
  (∀ (k n i : Nat) (s : State) (f : Fold) (fl : Flock) (r : SampleRec) (rest : List (Fold × Nat × SampleRec)),
    sampledIn s k n = (f, i, r) :: rest → foldAt s f.uid = some f → flockAt f i = some fl → fl.sample = some r →
    ∃ t, exec (.sampleRecord k n) s = .next t ∧ flockOf t f.uid i = some { fl with sample := none } ∧
      ∀ l c h lf, launchAt s f.launch = some l → ctxOf s f = some c → c.sampling.wp < c.sampling.size →
        apertureOff c (c.sampling.buf + c.sampling.wp) = none →
        translate s none c.id c.ptroot.toNat .write (c.sampling.buf + c.sampling.wp) = .ok (h, lf) →
        homeOffline s h = false → h + 64 ≤ peerKey → h % 64 = 0 →
        ctxAt t c.id = some { c with sampling := { c.sampling with wp := c.sampling.wp + 64 } } ∧
          (sampleBytes s f l i r).length = 64 ∧
          ∀ j, j < 64 → some (homeByte t (h + j)) = (sampleBytes s f l i r)[j]?) ∧
  (∀ (d : Nat) (s : State), d < 4 → s.dies.length = 4 → (dieAt s d).alarm = false →
    (7500 < (dieAt s d).deciA ∨ 105 ≤ (dieAt s d).temp.toNat ∨ s.boardAlarm[d]? = some true ∨ 1800000 < s.packPower) →
    ∃ t, exec (.powerAlarmRaise d) s = .next t ∧ (dieAt t d).alarm = true ∧ Reports s t 2 d) ∧
  (∀ (d : Nat) (s : State), d < 4 → s.dies.length = 4 → (dieAt s d).alarm = true → (dieAt s d).deciA ≤ 7000 →
    (dieAt s d).temp.toNat < 105 → s.boardAlarm[d]? ≠ some true → s.packPower ≤ 1800000 →
    (dieAt s d).lastHot + 20000 ≤ s.clock →
    ∃ t, exec (.powerAlarmClear d) s = .next t ∧ (dieAt t d).alarm = false ∧ (dieAt t d).clearedAt = s.clock ∧
      Reports s t 2 d) ∧
  (∀ (d : Nat) (s : State), d < 4 → s.dies.length = 4 → 115 ≤ (dieAt s d).temp.toNat →
    exec (.thermtrip d) s = .next (putDie s d { dieAt s d with thermtrip := true })) ∧
  (∀ (a b : Option BootImage) (s : State), s.flash = [a, b] → s.boot ≠ .running →
    (∀ x, a = some x → slotOk s x = true →
      ∃ t, exec .powerOnBoot s = .next t ∧ t.boot = .running ∧ t.version = x.version ∧
        t.meas.head? = some (sha3 (List.replicate 32 0 ++ x.digest))) ∧
    (∀ x, (∀ y, a = some y → slotOk s y = false) → b = some x → slotOk s x = true →
      ∃ t, exec .powerOnBoot s = .next t ∧ t.boot = .running ∧ t.version = x.version) ∧
    ((∀ y, a = some y → slotOk s y = false) → (∀ y, b = some y → slotOk s y = false) →
      exec .powerOnBoot s = .next { s with boot := .recovery })) ∧
  (∀ (img : BootImage) (s : State), s.boot = .recovery →
    exec (.sidebandNewImage img) s = .next { s with flash := s.flash.set 0 (some img) }) ∧
  (∀ (d cls : Nat) (s : State), d < s.dies.length → d < 4 → 1 ≤ cls → cls ≤ 7 →
    ∃ t, exec (.softError (.corrected d cls)) s = .next t ∧
      (∀ k, cget 0 (dieAt t d).soft k = cget 0 (dieAt s d).soft k + (if k = 2 * cls then 1 else 0)) ∧
      Reports s t 4 d ∧ t.folds = s.folds ∧ t.mem = s.mem) ∧
  (∀ (u : Nat) (s : State) (f : Fold), foldAt s u = some f → f.place ≠ .core →
    ∃ t g, exec (.softError (.fleece u)) s = .next t ∧ foldAt t u = some g ∧ g = { f with fleeceMark := true }) ∧
  ∀ (r : FlockRef) (s : State) (f : Fold) (fl : Flock), foldAt s r.fold = some f → flockAt f r.flock = some fl →
    f.place = .core →
    (∀ reg lane, reg < 256 → lane < 64 → ∃ t u, exec (.softError (.vreg r reg lane)) s = .next t ∧
      flockOf t r.fold r.flock = some u ∧ RegMark.v reg lane ∈ u.marks ∧ u = { fl with marks := u.marks }) ∧
    (∀ reg, reg < 128 → ∃ t u, exec (.softError (.sreg r reg)) s = .next t ∧
      flockOf t r.fold r.flock = some u ∧ RegMark.s reg ∈ u.marks ∧ u = { fl with marks := u.marks }) ∧
    (∀ reg lane, reg < 24 → lane < 64 → ∃ t u, exec (.softError (.pred r reg lane)) s = .next t ∧
      flockOf t r.fold r.flock = some u ∧ RegMark.p reg lane ∈ u.marks ∧ u = { fl with marks := u.marks }) ∧
    (∀ reg lane, reg < 4 → lane < 64 → ∃ t u, exec (.softError (.index r reg lane)) s = .next t ∧
      flockOf t r.fold r.flock = some u ∧ RegMark.x reg lane ∈ u.marks ∧ u = { fl with marks := u.marks }) ∧
    (∀ reg, reg < 128 → ∃ t u, exec (.softError (.shadow r reg)) s = .next t ∧
      flockOf t r.fold r.flock = some u ∧ RegMark.sh reg ∈ u.marks ∧ u = { fl with marks := u.marks }) ∧
    (∀ reg, reg < 8 → ∃ t u, exec (.softError (.shadowQ r reg)) s = .next t ∧
      flockOf t r.fold r.flock = some u ∧ RegMark.sh (qKey reg) ∈ u.marks ∧ u = { fl with marks := u.marks }) ∧
    (∀ reg, reg < 8 → ∃ t u, exec (.softError (.uniform r reg)) s = .next t ∧
      flockOf t r.fold r.flock = some u ∧ RegMark.s (qKey reg) ∈ u.marks ∧ u = { fl with marks := u.marks }) ∧
    (∀ w, ∃ t g, exec (.softError (.localStore r.fold w)) s = .next t ∧ foldAt t r.fold = some g ∧ w ∈ g.lsMarks) ∧
    (∀ w, ∃ t g, exec (.softError (.tile r.fold w)) s = .next t ∧ foldAt t r.fold = some g ∧ w ∈ g.tileMarks) ∧
    ∀ cls die l, 4 ≤ cls → cls ≤ 7 → die < 4 → 128 * l < peerKey →
      (∃ t, exec (.softError (.line cls die l true)) s = .next t ∧ l ∈ t.lost) ∧
      (6 ≤ cls → ∃ t, exec (.softError (.line cls die l false)) s = .next t ∧ l ∈ t.badFill) ∧
      (cls ≤ 5 → ∀ dirty, die < s.dies.length → ∃ t, exec (.softError (.line cls die l dirty)) s = .next t ∧
        cget 0 (dieAt t die).soft (2 * cls + 1) = cget 0 (dieAt s die).soft (2 * cls + 1) + 1) ∧
      (cls = 4 → ∃ t, exec (.softError (.line cls die l false)) s = .next t ∧
        ∀ k y, k < 160 → dieOfCore k = die → l1Find t k l = some y → y.dirty ≠ 0) ∧
      (cls = 5 → ∃ t, exec (.softError (.line cls die l false)) s = .next t ∧
        ∀ y, tagOf (l2At t die) l = some y → y.dirty = true)

/-- R290, R291, R355, R359, R364, R371, R372: connections open and close, the host and peers read and write device
memory, a peer's read-modify-write answers the old value, and a link drops. That a request is performed at one
instant, and the pictures of peer and host memory, are the model's choices (log entries 41 and 12), and so is where a
ring's copies stand (log entry 47). -/
def Obligations.HostAccessSteps : Prop :=
  (∀ (ep : Nat) (s : State), s.boot = .running → (ep ≠ 0 → ctxAt s (ep - 1) ≠ none) →
    ∃ t, exec (.connectionSetup ep) s = .next t ∧ endpointAt t ep = { endpointAt s ep with up := true } ∧
      t.folds = s.folds ∧ t.sent.length = s.sent.length
        + (if ep = 0 then 0 else ((ctxAt s (ep - 1)).map (fun c => c.faults.length)).getD 0)) ∧
  (∀ (ep : Nat) (s : State), (endpointAt s ep).up = true →
    ∃ t, exec (.connectionClose ep) s = .next t ∧ endpointAt t ep = { endpointAt s ep with up := false }) ∧
  (∀ (ep : Nat) (s : State), s.boot = .running →
    exec (.rdmaInvalidRequest ep) s = .next { s with replies := s.replies ++ [.nakInvalid ep] }) ∧
  (∀ (ep va : Nat) (rkey : BitVec 32) (bytes : List Byte) (s : State) (c : Context) (hs : List (Nat × Leaf)),
    s.boot = .running → rdmaCtx s ep = some c → inWindow c va bytes.length rkey 1 = true →
    apertureHit c va bytes.length = false → rangeHomes s c.id c.ptroot.toNat .write va bytes.length = .ok hs →
    (hs.map (fun x => x.1)).Nodup →
    ∃ t, exec (.rdmaWrite ep va rkey bytes) s = .next t ∧ t.replies = s.replies ++ [.ack ep] ∧
      (∀ (i : Nat) (x : Nat × Leaf), hs[i]? = some x → some (homeByte t x.1) = bytes[i]?) ∧
      ∀ h, h ∉ hs.map (fun x : Nat × Leaf => x.1) → homeByte t h = homeByte s h) ∧
  (∀ (ep va len : Nat) (rkey : BitVec 32) (s : State) (c : Context) (hs : List (Nat × Leaf)),
    s.boot = .running → rdmaCtx s ep = some c → inWindow c va len rkey 0 = true → apertureHit c va len = false →
    rangeHomes s c.id c.ptroot.toNat .read va len = .ok hs →
    exec (.rdmaRead ep va len rkey) s
      = .next { s with replies := s.replies ++ [.data ep (hs.map (fun x : Nat × Leaf => homeByte s x.1))] }) ∧
  (∀ (s : State) (p : PeerContext) (hs : List (Nat × Leaf)), s.peer = some p →
    (∀ va len, rangeHomes s peerCtxId p.ptroot.toNat .read va len = .ok hs →
      exec (.peerAccess (.read va len)) s
        = .next { s with replies := s.replies ++ [.peerData (hs.map (fun x : Nat × Leaf => homeByte s x.1))] }) ∧
    (∀ va bytes, rangeHomes s peerCtxId p.ptroot.toNat .write va bytes.length = .ok hs →
      (hs.map (fun x => x.1)).Nodup →
      ∃ t, exec (.peerAccess (.write va bytes)) s = .next t ∧ t.replies = s.replies ++ [.peerData []] ∧
        (∀ (i : Nat) (x : Nat × Leaf), hs[i]? = some x → some (homeByte t x.1) = bytes[i]?) ∧
        ∀ h, h ∉ hs.map (fun x : Nat × Leaf => x.1) → homeByte t h = homeByte s h) ∧
    ∀ fn wide va slot cv new rs, (atomFloat fn = false ∨ Config.peerAccepts s.free = true) →
      rangeHomes s peerCtxId p.ptroot.toNat .rmw va (atomBits fn wide (fdrOf slot) / 8) = .ok hs →
      rangeHomes s peerCtxId p.ptroot.toNat .read va (atomBits fn wide (fdrOf slot) / 8) = .ok rs →
      (hs.map (fun x => x.1)).Nodup →
      let n := atomBits fn wide (fdrOf slot) / 8
      let old := hs.map (fun x : Nat × Leaf => homeByte s x.1)
      ∃ t, exec (.peerAccess (.atomic fn wide va slot cv new)) s = .next t ∧
        t.replies = s.replies ++ [.peerData old] ∧
        ∀ (i : Nat) (x : Nat × Leaf), hs[i]? = some x → homeByte t x.1 = BitVec.ofNat 8
          ((atomNew fn (8 * n) (fdrOf slot) (leNat old) (cv.toNat % 2 ^ (8 * n)) (new.toNat % 2 ^ (8 * n))).1 / 256 ^ i)) ∧
  ∀ (port : Nat) (s : State), port < 64 → port ∉ s.portDown →
    exec (.ualinkLinkDrop port) s = .next { s with portDown := s.portDown ++ [port] }

end

namespace Sys2Proof.Slice0

open Machine

/-- The message is a command that its endpoint takes: the device runs, the connection is up, SEQ is the next one and
fewer than 4,096 commands are outstanding (R355, R358). The endpoint's records and commands carry earlier numbers. -/
def Takes (s : State) (m : Msg) : Prop :=
  s.boot = .running ∧ (endpointAt s m.ep).up = true ∧ m.seq = (endpointAt s m.ep).h + 1 ∧
    outstanding (endpointAt s m.ep) < 4096 ∧
    (∀ r ∈ (endpointAt s m.ep).journal, r.index < (endpointAt s m.ep).nextIndex) ∧
    ∀ a ∈ (endpointAt s m.ep).accepted, a.index < (endpointAt s m.ep).nextIndex

/-- The INDEX that the command receives. -/
def indexOf (s : State) (m : Msg) : Nat := (endpointAt s m.ep).nextIndex

/-- H has advanced, and the command's record stands in the ring with its type, STATE and STATUS. -/
def Recorded (s t : State) (m : Msg) (type state status : Nat) : Prop :=
  (endpointAt t m.ep).h = m.seq ∧ (endpointAt t m.ep).nextIndex = indexOf s m + 1 ∧
    ∃ r, recordAt t m.ep (indexOf s m) = some r ∧ r.index = indexOf s m ∧ r.seq = m.seq ∧ r.tag = m.tag ∧
      r.type = type ∧ r.state = state ∧ r.status = status ∧ r.times.1 = s.clock

/-- ACCEPT with a status and the INDEX. -/
def acceptOf (s : State) (m : Msg) (status : Nat) : OutMsg :=
  { ep := m.ep, type := 0x81, seq := m.seq, tag := m.tag, status := status, payload := leBytes 8 (indexOf s m) }

/-- COMPLETE with status OK, the INDEX and what follows it. -/
def completeOf (s : State) (m : Msg) (bs : List Byte) : OutMsg :=
  { ep := m.ep, type := 0x82, seq := m.seq, tag := m.tag, status := 0, payload := leBytes 8 (indexOf s m) ++ bs }

/-- DATA. -/
def dataOf (m : Msg) (status : Nat) (bs : List Byte) : OutMsg :=
  { ep := m.ep, type := 0x84, seq := m.seq, tag := m.tag, status := status, payload := bs }

/-- A command of a type ran at once: it is recorded as complete, and ACCEPT and COMPLETE were sent. -/
def RanAtOnce (s t : State) (m : Msg) (type : Nat) : Prop :=
  Recorded s t m type 3 0 ∧ t.sent = s.sent ++ [acceptOf s m 0, completeOf s m []]

/-- A command was rejected with a status: ACCEPT alone was sent. -/
def Rejected (s t : State) (m : Msg) (type status : Nat) : Prop :=
  Recorded s t m type 4 status ∧ t.sent = s.sent ++ [acceptOf s m status]

/-- A query was answered by one DATA. -/
def Answered (s t : State) (m : Msg) (type status : Nat) (bs : List Byte) : Prop :=
  Recorded s t m type (if status = 0 then 3 else 4) status ∧ t.sent = s.sent ++ [dataOf m status bs] ∧
    t.folds = s.folds

/-- No store of any flock waits for a fault. -/
def NoWaitingStore (s : State) : Prop := ∀ f ∈ s.folds, ∀ fl ∈ f.flocks, ∀ p ∈ fl.stores, p.waitFault = none

/-- A message that is refused outright: ACCEPT with a status and no INDEX. -/
def refusalOf (m : Msg) (status : Nat) : OutMsg :=
  { ep := m.ep, type := 0x81, seq := m.seq, tag := m.tag, status := status, payload := leBytes 8 (2 ^ 64 - 1) }

/-- SEL of a row: its number, CLEAR and WRITE (R379). -/
def selWord (n : Nat) (clear write : Bool) : BitVec 32 :=
  BitVec.ofNat 32 (n + (if write then 2 ^ 30 else 0) + (if clear then 2 ^ 31 else 0))

/-- A DEBUG command of an operation, with its header and the words that must be 0 (R342). -/
def DbgOp (m : Msg) (a : DbgArgs) (op n : Nat) : Prop :=
  headBad m 8 n = false ∧ a.op = BitVec.ofNat 32 op ∧ a.zero24 = 0 ∧ a.zero38 = 0

/-- Every split of the flock has gone on from a halt. -/
def Going (fl : Flock) : Prop := fl.haltReq = false ∧ fl.halting = false ∧ ∀ sp ∈ fl.splits, sp.halted = false

/-- A halted flock has gone on (R346): its splits run, and while fewer than four live, entries of the stack have become
live splits, the top first; where every entry stands in hardware, and where the reads of the spill area meet no fault
(`kept`: the launch and the context of the fold are there), that goes on until four live or no entry is left. -/
def GoneOn (fl x : Flock) (stepping : Bool) (kept : Prop) : Prop :=
  let live := fl.splits.filter (fun sp => sp.mask != 0)
  x.haltReq = false ∧ x.halting = false ∧ x.focus = false ∧ x.later = none ∧
    x.splits.length ≤ max 4 live.length ∧
    (fl.stack.length ≤ fl.hw ∨ kept ∧ x.stall = none ∧ fl.verdicts = [] → 4 ≤ x.splits.length ∨ x.stack = []) ∧
    ∃ n, min (4 - live.length) (min fl.hw fl.stack.length) ≤ n ∧ x.stack = fl.stack.drop n ∧
      x.splits.filter (fun sp => sp.mask != 0)
        = ((live ++ (fl.stack.take n).map (fun (y : PathEntry) => { freshSplit y.pc y.mask y.path with pass := y.pass })).map (fun (sp : Split) =>
            { sp with halted := false, stepping := stepping })).filter (fun sp => sp.mask != 0)

/-- How the endpoint of a message refuses it (R355 to R358): it is down, the message is malformed (`well` is false), its
4,096 commands are outstanding, SEQ leaves a gap, or it is one that the endpoint has taken before. Nothing else changes. -/
def Refuses (s : State) (m : Msg) (i : Instr) (well : Prop) : Prop :=
  s.boot = .running →
    let e := endpointAt s m.ep
    (e.up = false → exec i s = .next { s with replies := s.replies ++ [.nakInvalid m.ep] }) ∧
    (e.up = true →
      (¬ well → exec i s = .next { s with sent := s.sent ++ [refusalOf m 0x13] }) ∧
      (well → m.seq = e.h + 1 → 4096 ≤ outstanding e → exec i s = .next { s with sent := s.sent ++ [refusalOf m 0x12] }) ∧
      (well → (m.seq = 0 ∨ e.h + 1 < m.seq ∨ m.seq + 8191 < e.h) →
        exec i s = .next { s with sent := s.sent ++ [refusalOf m 0x11] }) ∧
      ∀ x, well → 1 ≤ m.seq → m.seq ≤ e.h → e.h ≤ m.seq + 8191 → e.accepted.find? (fun y => y.seq == m.seq) = some x →
        exec i s = .next { s with sent := s.sent
          ++ [{ ep := m.ep, type := 0x81, seq := m.seq, tag := m.tag, status := 0x10, payload := leBytes 8 x.index }]
          ++ (x.done.map (fun p => ({ ep := m.ep, type := 0x82, seq := m.seq, tag := m.tag, status := x.status,
                                      payload := p } : OutMsg))).toList })

/-- An item of a space of R347, of a flock with no load in flight. -/
def itemOf (f : Fold) (fl : Flock) (space lane i : Nat) : List Byte :=
  let w (x : Word) : List Byte := leBytes 4 x.toNat
  match space with
  | 1 => if lane = 255 then (List.range 64).flatMap (fun l => w (cget 0 fl.v (i * 64 + l)))
         else w (cget 0 fl.v (i * 64 + lane))
  | 2 => w (cget 0 fl.s i)
  | 3 => w (cget 0 fl.sh i)
  | 4 => leBytes 4 (((List.range 24).map (fun r => if (cget 0 fl.p r).getLsbD lane then 2 ^ r else 0)).sum)
  | 5 => (List.range 4).map (fun r => cget 0 fl.x (r * 64 + lane))
  | 6 => leBytes 4 fl.q.toNat
  | 7 => leBytes 1 (cget 0 fl.c i)
  | 8 => w fl.fflags
  | 9 => leBytes 8 (cget 0 fl.f i).toNat
  | 10 => w (cget 0 fl.srcount lane)
  | 11 => [cget 0 f.ls i]
  | 12 => w (cget 0 f.tiles i)
  | _ => w fl.trap.cause ++ w fl.trap.detail ++ leBytes 8 fl.trap.pc.toNat ++ leBytes 8 fl.trap.split.toNat

/-- The word at a place of the data of a WRITE. -/
def wordAt (data : List Byte) (off : Nat) : Word := BitVec.ofNat 32 (leNat ((data.drop off).take 4))

end Sys2Proof.Slice0

section

open Sys2Proof Sys2Proof.Machine Sys2Proof.Slice0

/-- R25, R26, R310, R331, R355 to R363, R372: the LAUNCH, COPY, MAP and CONTEXT commands. A command taken is recorded
and answered, and has its effect; one that is not taken is refused and changes nothing. The model's choices: log
entries 3, 16, 37, 53, 54 and 55. -/
def Obligations.HostCommands : Prop :=
  (∀ (m : Msg) (addr : DWord) (s : State) (c : Context) (l : Launch), Takes s m → headBad m 1 8 = false →
    msgCtx s m = some c → hostLaunch s m c addr.toNat = .ok l →
    let l1 : Launch := { l with uid := s.nextUid, order := s.nextUid, pastid := newPastid s c, index := indexOf s m,
                                paramWas := paramNow s c l }
    ∃ t, exec (.launchMessage m addr) s = .next t ∧ Recorded s t m 1 1 0 ∧ t.sent = s.sent ++ [acceptOf s m 0] ∧
      t.launches = s.launches ++ [l1] ∧
      ∃ d, ctxAt t c.id = some d ∧ d.nextPast = newPastid s c + 1 ∧ d.queue = c.queue ++
        [{ queue := m.queue.toNat % 64, index := indexOf s m, launch := some s.nextUid, copy := none, prio := l.prio,
           placed := none, started := false, done := false }]) ∧
  (∀ (m : Msg) (addr : DWord) (s : State), Takes s m → headBad m 1 8 = false → m.ep ≠ 0 →
    (msgCtx s m = none → ∃ t, exec (.launchMessage m addr) s = .next t ∧ Rejected s t m 1 0x14 ∧ t.launches = s.launches) ∧
    ∀ c, msgCtx s m = some c →
      (addr.toNat % 64 ≠ 0 →
        ∃ t, exec (.launchMessage m addr) s = .next t ∧ Rejected s t m 1 1 ∧ t.launches = s.launches) ∧
      ∀ st, hostLaunch s m c addr.toNat = .error st → st ≠ 0 →
        ∃ t, exec (.launchMessage m addr) s = .next t ∧ Rejected s t m 1 st ∧ t.launches = s.launches) ∧
  (∀ (m : Msg) (a : CopyArgs) (s : State) (c : Context), Takes s m → headBad m 2 224 = false → copyBad a = false →
    msgCtx s m = some c →
    ∃ t, exec (.copyMessage m a) s = .next t ∧ Recorded s t m 2 1 0 ∧ t.sent = s.sent ++ [acceptOf s m 0] ∧
      ctxAt t c.id = some { c with queue := c.queue ++
        [{ queue := m.queue.toNat % 64, index := indexOf s m, launch := none, copy := some a,
           prio := m.queue.toNat / 256 % 8, placed := none, started := false, done := false }] }) ∧
  (∀ (m : Msg) (h : MapHead) (r : MapRange) (s : State) (c : Context), Takes s m → headBad m 3 24 = false →
    h.op = 1 → h.rsv = 0 → msgCtx s m = some c → c.faults = [] →
    let gone (x : TlbEntry) : Bool := x.ctx == c.id && meetsPage r.base.toNat r.len.toNat x.page x.leaf.size
    ∃ t, exec (.mapInvalidate m h r) s = .next t ∧ RanAtOnce s t m 3 ∧
      (∀ k, (coreAt t k).tlb = (coreAt s k).tlb.filter (fun x => !gone x)) ∧
      ∀ d, (dieAt t d).tlb = (dieAt s d).tlb.filter (fun x => !gone x) ∧
        (dieAt t d).walks = (dieAt s d).walks.filter (fun w => w.ctx != c.id)) ∧
  (∀ (m : Msg) (h : MapHead) (g : MapRange) (s : State) (c : Context) (r : FaultRec), Takes s m →
    headBad m 3 24 = false → h.op = 1 → h.rsv = 0 → msgCtx s m = some c → c.faults = [r] →
    meetsPage g.base.toNat g.len.toNat r.page 0x10000 = true →
    faultGone (invalidateRange s c.id g.base.toNat g.len.toNat) c r = true → NoWaitingStore s →
    ∃ t, exec (.mapInvalidate m h g) s = .next t ∧ Recorded s t m 3 3 0 ∧
      ctxAt t c.id = some { c with faults := [] } ∧
      (∀ k x, x ∈ (coreAt t k).cmds → ownerCtx s x = some c.id → r.id ∉ x.faults) ∧
      ∀ u i f l fl, foldAt s u = some f → launchAt s f.launch = some l → l.ctx = c.id → flockOf s u i = some fl →
        fl.stall = some r.id → flockOf t u i = some { fl with stall := none }) ∧
  (∀ (m : Msg) (a : MapArgs) (s : State) (c : Context), Takes s m → headBad m 3 24 = false → a.op = 2 → a.rsv = 0 →
    a.lo.toNat < 2 ^ 32 → a.hi = 0 → msgCtx s m = some c → NoWaitingStore s →
    (∀ r, c.faults.find? (fun x => x.id == a.lo.toNat) = some r →
      ∃ t, exec (.mapUnresolvable m a) s = .next t ∧ Recorded s t m 3 3 0 ∧
        ctxAt t c.id = some { c with faults := c.faults.filter (fun x => x.id != a.lo.toNat) } ∧
        ∀ u i f l fl, foldAt s u = some f → launchAt s f.launch = some l → l.ctx = c.id → flockOf s u i = some fl →
          fl.stall = some a.lo.toNat →
          flockOf t u i = some { fl with stall := none, verdicts := fl.verdicts ++ [(r.page, r.reason)] }) ∧
    (c.faults.find? (fun x => x.id == a.lo.toNat) = none →
      ∃ t, exec (.mapUnresolvable m a) s = .next t ∧ Rejected s t m 3 0x15 ∧ t.folds = s.folds)) ∧
  (∀ (m : Msg) (a : CtxArgs) (s : State), Takes s m → headBad m 4 (ctxLen a) = false → ctxBad m a 1 = false →
    createBad s a = false →
    (a.ctx < 256 → ctxAt s a.ctx = none →
      ∃ t, exec (.contextCreate m a) s = .next t ∧ RanAtOnce s t m 4 ∧ t.ctxs = s.ctxs ++ [newContext a] ∧
        endpointAt t (a.ctx + 1) = Endpoint.empty) ∧
    (a.ctx < 256 → ctxAt s a.ctx ≠ none →
      ∃ t, exec (.contextCreate m a) s = .next t ∧ Rejected s t m 4 0x14 ∧ t.ctxs = s.ctxs) ∧
    (a.ctx = 2 ^ 31 → s.peer = none →
      ∃ t, exec (.contextCreate m a) s = .next t ∧ RanAtOnce s t m 4 ∧ t.peer = some { ptroot := a.ptroot } ∧
        t.ctxs = s.ctxs)) ∧
  (∀ (m : Msg) (a : CtxArgs) (s : State), Takes s m → headBad m 4 (ctxLen a) = false → ctxBad m a 2 = false →
    schedBad a.sched false = false → a.ctx < 256 →
    (ctxAt s a.ctx = none → ∃ t, exec (.contextDestroy m a) s = .next t ∧ Rejected s t m 4 0x14 ∧ t.ctxs = s.ctxs) ∧
    (ctxAt s a.ctx ≠ none →
    (ctxBusy s a.ctx = false →
      ∃ t, exec (.contextDestroy m a) s = .next t ∧ RanAtOnce s t m 4 ∧ ctxAt t a.ctx = none ∧
        t.ctxs = s.ctxs.filter (fun c => c.id != a.ctx) ∧ endpointAt t (a.ctx + 1) = Endpoint.empty ∧
        (∀ k, (coreAt t k).tlb = (coreAt s k).tlb.filter (fun x => x.ctx != a.ctx)) ∧
        ∀ d, (dieAt t d).tlb = (dieAt s d).tlb.filter (fun x => x.ctx != a.ctx)) ∧
    (ctxBusy s a.ctx = true →
      ∃ t, exec (.contextDestroy m a) s = .next t ∧ Rejected s t m 4 0x14 ∧ t.ctxs = s.ctxs))) ∧
  (∀ (m : Msg) (a : CtxArgs) (s : State), Takes s m → headBad m 4 (ctxLen a) = false → modifyBad m a = false →
    a.ctx < 256 → ctxAt s a.ctx = none →
    (a.sched.getLsbD 24 = false →
      ∃ t, exec (.contextModify m a) s = .next t ∧ Rejected s t m 4 0x14 ∧ t.ctxs = s.ctxs) ∧
    (a.sched.getLsbD 24 = true →
      ∃ t, exec (.contextPreempt m a) s = .next t ∧ Rejected s t m 4 0x14 ∧ t.ctxs = s.ctxs ∧ t.folds = s.folds)) ∧
  (∀ (m : Msg) (a : CtxArgs) (s : State) (c : Context), Takes s m → headBad m 4 (ctxLen a) = false →
    modifyBad m a = false → a.ctx < 256 → ctxAt s a.ctx = some c →
    let d : Context := { c with dieMask := a.sched.extractLsb' 0 4, slice := a.sched.toNat / 2 ^ 8 % 2 ^ 8 + 1,
                                wdog := a.sched.toNat / 2 ^ 16 % 2 ^ 8, faultto := a.faultto.toNat, wins := a.wins }
    (a.sched.getLsbD 24 = false →
      ∃ t, exec (.contextModify m a) s = .next t ∧ RanAtOnce s t m 4 ∧ ctxAt t a.ctx = some d ∧ t.folds = s.folds) ∧
    (a.sched.getLsbD 24 = true → (s.folds.map (fun f => f.uid)).Nodup →
      let here (f : Fold) : Prop := f ∈ s.folds ∧ f.place = .core ∧ f.fail = none ∧
        ∃ l, launchAt s f.launch = some l ∧ l.ctx = a.ctx
      ∃ t, exec (.contextPreempt m a) s = .next t ∧
        (∀ u g, foldAt t u = some g → g.preempt = true →
          ∃ f, foldAt s u = some f ∧ (f.preempt = true ∨ ∃ v, here v ∧ f ∈ droveFolds s v)) ∧
        ((∀ d, mantleUse s d + ((s.folds.filter (fun f => f.die == d)).map (fleeceBytes s)).sum ≤ Config.fleeceRegion) →
          (∀ f, here f → ∃ g, foldAt t f.uid = some g ∧ g.preempt = true) ∧
          ((∃ f, here f) → Recorded s t m 4 2 0 ∧ t.sent = s.sent ++ [acceptOf s m 0] ∧
            ∃ us, ctxAt t a.ctx = some { d with faultto := c.faultto,
                                                preempts := c.preempts ++ [(indexOf s m, us, a.faultto.toNat)] } ∧
              ∀ f ∈ s.folds, f.uid ∈ us ↔ here f)) ∧
        (∀ f, here f → (∀ v, here v → v = f) → f.preempt = false → droveFolds s f = [f] →
          Config.fleeceRegion < mantleUse s f.die + fleeceBytes s f →
          c.saveSize.toNat < saveUse s a.ctx f.die + fleeceBytes s f →
          RanAtOnce s t m 4 ∧ ctxAt t a.ctx = some d ∧ t.folds = s.folds ∧
            (recordAt t m.ep (indexOf s m)).map (fun r => (r.fails, r.first)) = some (1, [(f.foldId, 0x303, 0)])) ∧
        ((∀ f, ¬ here f) → RanAtOnce s t m 4 ∧ ctxAt t a.ctx = some d ∧ t.folds = s.folds))) ∧
  ∀ (m : Msg) (s : State),
    (∀ addr, Refuses s m (.launchMessage m addr) (headBad m 1 8 = false ∧ m.ep ≠ 0)) ∧
    (∀ a, Refuses s m (.copyMessage m a) (headBad m 2 224 = false ∧ m.ep ≠ 0 ∧ copyBad a = false)) ∧
    (∀ h r, Refuses s m (.mapInvalidate m h r) (headBad m 3 24 = false ∧ h.op = 1 ∧ h.rsv = 0 ∧ m.ep ≠ 0)) ∧
    (∀ a, Refuses s m (.mapUnresolvable m a) (headBad m 3 24 = false ∧ a.op = 2 ∧ a.rsv = 0 ∧ m.ep ≠ 0 ∧
      a.lo.toNat < 2 ^ 32 ∧ a.hi = 0)) ∧
    (∀ a, Refuses s m (.contextCreate m a) (headBad m 4 (ctxLen a) = false ∧ ctxBad m a 1 = false ∧ createBad s a = false)) ∧
    (∀ a, Refuses s m (.contextDestroy m a)
      (headBad m 4 (ctxLen a) = false ∧ ctxBad m a 2 = false ∧ schedBad a.sched false = false)) ∧
    (∀ a, Refuses s m (.contextModify m a)
      (headBad m 4 (ctxLen a) = false ∧ modifyBad m a = false ∧ a.sched.getLsbD 24 = false)) ∧
    ∀ a, Refuses s m (.contextPreempt m a)
      (headBad m 4 (ctxLen a) = false ∧ modifyBad m a = false ∧ a.sched.getLsbD 24 = true)

/-- R358, R359, R365, R366, R369, R378, R379: each QUERY selector and JOURNAL answer one DATA with the values asked
for, and a clear takes the cumulative ones to 0. The model's choices: log entries 15, 17, 37, 47 and 55. -/
def Obligations.QuerySteps : Prop :=
  (∀ (m : Msg) (q : QueryArgs) (clear : Bool) (s : State), Takes s m → headBad m 5 16 = false → m.ep = 0 →
    s.dies.length = 4 → q.ctx = 0 → q.count = 0 → (q.unit.toNat < 4 ∨ q.unit.toNat = 2 ^ 32 - 1) →
    let ds := if q.unit.toNat = 2 ^ 32 - 1 then [0, 1, 2, 3] else [q.unit.toNat]
    (q.sel = selWord 1 clear false → ∃ t, exec (.queryL2Counters m q) s = .next t ∧
      Answered s t m 5 0 (ds.flatMap (fun d => (l2Counters (l2At s d)).flatMap (leBytes 8))) ∧
      ∀ d, l2At t d = if clear = true ∧ d ∈ ds then { l2At s d with satref := 0, unshr := 0 } else l2At s d) ∧
    (q.sel = selWord 5 clear false → ∃ t, exec (.querySoftErrors m q) s = .next t ∧
      Answered s t m 5 0 (ds.flatMap (fun d =>
        ((List.range 14).map (fun i => cget 0 (dieAt s d).soft (i + 2))).flatMap (leBytes 8))) ∧
      ∀ d, (dieAt t d).soft = if clear = true ∧ d ∈ ds then [] else (dieAt s d).soft)) ∧
  (∀ (m : Msg) (q : QueryArgs) (clear : Bool) (s : State) (c : Context), Takes s m → headBad m 5 16 = false →
    q.sel = selWord 2 clear false → q.unit.toNat < 160 → s.cores.length = 160 → queryCtxBad m q = false → q.count = 0 →
    ctxAt s (queryCtx m q) = some c →
    let x := coreAt s q.unit.toNat
    ∃ t, exec (.queryCoreCounters m q) s = .next t ∧
      Answered s t m 5 0 ((((List.range 12).map (fun k => cget 0 x.stallClk (queryCtx m q * 16 + k)))
        ++ [x.meBusy, x.ceBusy, x.narrowClk, x.tfuPins, x.tfuCopies]).flatMap (leBytes 8)) ∧
      (clear = false → t.cores = s.cores) ∧
      (clear = true → coreCounters (coreAt t q.unit.toNat) (queryCtx m q) = List.replicate 17 0)) ∧
  (∀ (m : Msg) (q : QueryArgs) (clear : Bool) (s : State) (c : Context), Takes s m → headBad m 5 16 = false →
    q.sel = selWord 3 clear false → q.unit = 0 → queryCtxBad m q = false → q.count = 0 →
    ctxAt s (queryCtx m q) = some c →
    ∃ t, exec (.queryTrace m q) s = .next t ∧
      Answered s t m 5 0 (leBytes 8 (c.sampling.wp % max 1 c.sampling.size) ++ leBytes 8 c.sampling.drops) ∧
      ctxAt t (queryCtx m q)
        = some (if clear then { c with sampling := { c.sampling with drops := 0 } } else c)) ∧
  (∀ (m : Msg) (q : QueryArgs) (nonce : List Byte) (s : State), Takes s m → m.ep = 0 →
    q.unit = 0 → q.ctx = 0 → q.count = 0 →
    (headBad m 5 16 = false → q.sel = 4 → ∃ t, exec (.queryPower m q) s = .next t ∧
      Answered s t m 5 0 ([0, 1, 2, 3].flatMap (fun d => leBytes 4 (dieAt s d).mV ++ leBytes 4 (dieAt s d).deciA
            ++ leBytes 8 (dieAt s d).mJ)
          ++ [(dieAt s 0).temp, (dieAt s 1).temp, (dieAt s 2).temp, (dieAt s 3).temp] ++ leBytes 4 s.otherPower)) ∧
    (headBad m 5 48 = false → q.sel = 6 → nonce.length = 32 →
      let body := leBytes 4 Config.reportVersion ++ leBytes 4 s.version ++ s.serial ++ nonce ++ s.meas.flatten ++ s.idKey
      ∃ t, exec (.queryAttestation m q nonce) s = .next t ∧
        Answered s t m 5 0 (body ++ Config.mldsaSign (sha3 body)))) ∧
  (∀ (m : Msg) (q : QueryArgs) (s : State), Takes s m → headBad m 5 16 = false → q.sel = 7 → q.ctx = 0 →
    q.count = 0 → q.unit.toNat ≤ 256 → ringThere s q.unit.toNat = true → (m.ep = 0 ∨ q.unit.toNat + 1 = m.ep) →
    let r := ringEp q.unit.toNat
    ∃ t, exec (.queryJournalHead m q) s = .next t ∧
      Answered s t m 5 0 (leBytes 8 ((endpointAt s r).nextIndex + (if r = m.ep then 1 else 0)))) ∧
  (∀ (m : Msg) (q : QueryArgs) (masks : List DWord) (s : State), Takes s m → m.ep = 0 → routingBad q = false →
    (headBad m 5 16 = false → q.sel = selWord 8 false false →
      ∃ t, exec (.queryRoutingRead m q) s = .next t ∧ t.routing = s.routing ∧
      Answered s t m 5 0 (((List.range q.count.toNat).map (fun i => cget 0 s.routing (q.unit.toNat + i))).flatMap
        (fun d => leBytes 8 d.toNat))) ∧
    (headBad m 5 (16 + 8 * masks.length) = false → q.sel = selWord 8 false true → masks.length = q.count.toNat →
      ∃ t, exec (.queryRoutingWrite m q masks) s = .next t ∧ Answered s t m 5 0 [] ∧
        (∀ i d, masks[i]? = some d → cget 0 t.routing (q.unit.toNat + i) = d) ∧
        ∀ k, (k < q.unit.toNat ∨ q.unit.toNat + q.count.toNat ≤ k) → cget 0 t.routing k = cget 0 s.routing k)) ∧
  (∀ (m : Msg) (first : Nat) (count ring : BitVec 32) (s : State), Takes s m → headBad m 6 16 = false →
    1 ≤ count.toNat → count.toNat ≤ 15 → (m.ep = 0 → ring.toNat ≤ 256) → (m.ep ≠ 0 → ring = 0) →
    let r := if m.ep = 0 then ring.toNat else m.ep - 1
    let e := endpointAt s (ringEp r)
    ringThere s r = true →
    (ringEp r ≠ m.ep ∨ (first + count.toNat ≤ e.nextIndex ∧ e.nextIndex < first + 65536)) →
    ((recordAt s (ringEp r) first).isSome = true ∨ e.nextIndex ≤ first →
      ∃ t, exec (.journal m first count ring) s = .next t ∧
        Answered s t m 6 0 (if e.copies.any (fun d => !dieOffline s d) then
          ((List.range count.toNat).filterMap (fun i => recordAt s (ringEp r) (first + i))).flatMap journalBytes
          else [])) ∧
    (recordAt s (ringEp r) first = none → first < e.nextIndex →
      ∃ t, exec (.journal m first count ring) s = .next t ∧ Answered s t m 6 0x15 [])) ∧
  ∀ (m : Msg) (q : QueryArgs) (s : State), Takes s m → headBad m 5 16 = false →
    (m.ep ≠ 0 → q.sel.toNat < 256 → q.sel ≠ 2 → q.sel ≠ 3 → q.sel ≠ 7 → q.unit = 0 → q.ctx = 0 → q.count = 0 →
      (∃ t, exec (.queryPower m q) s = .next t ∧ Answered s t m 5 0x14 []) ∧
      ∃ t, exec (.queryL2Counters m q) s = .next t ∧ Answered s t m 5 0x14 []) ∧
    (m.ep = 0 → (q.sel.toNat % 256 < 1 ∨ 8 < q.sel.toNat % 256 ∨ q.sel.toNat / 2 ^ 8 % 2 ^ 22 ≠ 0) →
      exec (.queryPower m q) s = .next { s with sent := s.sent ++ [dataOf m 0x13 []] })

/-- R341 to R343, R345 to R347, R349, R350: the DEBUG operations. The model's choices: log entries 36, 43 and 45. -/
def Obligations.DebugSteps : Prop :=
  (∀ (m : Msg) (a : DbgArgs) (s : State) (c : Context), Takes s m → msgCtx s m = some c →
    (DbgOp m a 1 64 → a.flags = 0 → ∃ t, exec (.attach m a) s = .next t ∧ RanAtOnce s t m 8 ∧
      ctxAt t c.id = some { c with attached := true }) ∧
    (DbgOp m a 1 64 → a.flags = 1 → c.attached = true →
      ∃ t, exec (.detach m a) s = .next t ∧ Recorded s t m 8 3 0 ∧
        ctxAt t c.id = some { c with attached := false, breaks := [], faults := ((ctxAt t c.id).map (fun d => d.faults)).getD [],
                                     nextFault := ((ctxAt t c.id).map (fun d => d.nextFault)).getD 0 } ∧
        ∀ x ∈ flocksOf s c.id, ∀ f, foldAt t x.1 = some f → f.fail = none → ∀ fl, flockAt f x.2 = some fl →
          (∀ sp ∈ fl.splits, sp.brk = none) ∧
          (f.place = .core → Going fl) ∧ (f.place ≠ .core → fl.later = some .resume)) ∧
    (DbgOp m a 5 64 → a.flags = 0 → a.ord.toNat < 2 ^ 20 → c.attached = true →
      ((a.kernid, a.ord.setWidth 20) ∈ c.breaks ∨ c.breaks.length < 64) →
      ∃ t d, exec (.break m a) s = .next t ∧ RanAtOnce s t m 8 ∧ ctxAt t c.id = some d ∧
        (∀ b, b ∈ d.breaks ↔ b = (a.kernid, a.ord.setWidth 20) ∨ b ∈ c.breaks) ∧ d = { c with breaks := d.breaks }) ∧
    (DbgOp m a 5 64 → a.flags = 0 → a.ord.toNat < 2 ^ 20 → c.attached = true →
      (a.kernid, a.ord.setWidth 20) ∉ c.breaks → 64 ≤ c.breaks.length →
      ∃ t, exec (.break m a) s = .next t ∧ Rejected s t m 8 0x14 ∧ t.ctxs = s.ctxs) ∧
    (DbgOp m a 5 64 → a.flags = 1 → a.ord.toNat < 2 ^ 20 → c.attached = true →
      ∃ t, exec (.unbreak m a) s = .next t ∧ RanAtOnce s t m 8 ∧
        ctxAt t c.id = some { c with breaks := c.breaks.filter (· != (a.kernid, a.ord.setWidth 20)) }) ∧
    (DbgOp m a 7 64 → (a.flags = 0 ∨ a.flags = 8) → ∃ t, exec (.pendchk m a) s = .next t ∧ RanAtOnce s t m 8 ∧
      ctxAt t c.id = some { c with pendChk := a.flags == 8 }) ∧
    (DbgOp m a 8 64 → (a.flags = 0 ∨ a.flags = 16) →
      (a.index = 0 → ∃ t, exec (.sample m a) s = .next t ∧ RanAtOnce s t m 8 ∧
        ctxAt t c.id = some { c with sampling := { c.sampling with k := 0 } }) ∧
      (10 ≤ a.index.toNat → a.index.toNat ≤ 24 → a.buf.toNat % 65536 = 0 → a.bufsize.toNat % 65536 = 0 → a.bufsize ≠ 0 →
        ∃ t, exec (.sample m a) s = .next t ∧ RanAtOnce s t m 8 ∧
          ctxAt t c.id = some { c with sampling := { k := a.index.toNat, buf := a.buf.toNat, size := a.bufsize.toNat,
                                                     stop := a.flags == 16, wp := 0, drops := 0 } }))) ∧
  (∀ (m : Msg) (a : DbgArgs) (s : State) (c : Context) (f : Fold) (i : Nat) (fl : Flock), Takes s m →
    msgCtx s m = some c → c.attached = true → dbgFlock s m a = some (f, i, fl) → foldAt s f.uid = some f →
    (DbgOp m a 2 64 → a.flags = 0 → finished fl = false →
      ∃ t, exec (.halt m a) s = .next t ∧ RanAtOnce s t m 8 ∧ flockOf t f.uid i = some { fl with haltReq := true }) ∧
    (DbgOp m a 2 64 → a.flags = 2 → ∃ t, exec (.halt m a) s = .next t ∧ RanAtOnce s t m 8 ∧
      ∀ j x, flockAt f j = some x → flockOf t f.uid j = some (if finished x then x else { x with haltReq := true })) ∧
    (DbgOp m a 3 64 → a.flags = 0 → haltedFlock fl = false →
      ∃ t, exec (.resume m a) s = .next t ∧ Rejected s t m 8 0x14 ∧ t.folds = s.folds) ∧
    (haltedFlock fl = true → f.place ≠ .core →
      (DbgOp m a 3 64 → a.flags = 0 → ∃ t, exec (.resume m a) s = .next t ∧ RanAtOnce s t m 8 ∧
        flockOf t f.uid i = some { fl with later := some .resume }) ∧
      (DbgOp m a 4 64 → a.flags = 0 → ∃ t, exec (.step m a) s = .next t ∧ RanAtOnce s t m 8 ∧
        flockOf t f.uid i = some { fl with later := some (.step none) })) ∧
    (haltedFlock fl = true → f.place = .core →
      let kept : Prop := ∃ l, launchAt s f.launch = some l ∧ l.ctx = c.id
      (DbgOp m a 3 64 → a.flags = 0 → ∃ t, exec (.resume m a) s = .next t ∧ Recorded s t m 8 3 0 ∧
        ∀ g, foldAt t f.uid = some g → g.fail = none → ∃ x, flockAt g i = some x ∧ GoneOn fl x false kept) ∧
      (DbgOp m a 3 64 → a.flags = 0 → fl.stack.length ≤ fl.hw →
        ∃ t x, exec (.resume m a) s = .next t ∧ RanAtOnce s t m 8 ∧ flockOf t f.uid i = some x ∧ GoneOn fl x false kept) ∧
      (DbgOp m a 4 64 → a.flags = 0 → ∃ t, exec (.step m a) s = .next t ∧ Recorded s t m 8 3 0 ∧
        ∀ g, foldAt t f.uid = some g → g.fail = none → ∃ x, flockAt g i = some x ∧ GoneOn fl x true kept) ∧
      (DbgOp m a 4 64 → a.flags = 0 → fl.stack.length ≤ fl.hw →
        ∃ t x, exec (.step m a) s = .next t ∧ RanAtOnce s t m 8 ∧ flockOf t f.uid i = some x ∧ GoneOn fl x true kept) ∧
      (DbgOp m a 4 64 → a.flags = 4 → splitWith fl a.lane.toNat = none →
        ∃ t, exec (.step m a) s = .next t ∧ Rejected s t m 8 0x14 ∧ t.folds = s.folds) ∧
      (DbgOp m a 4 64 → a.flags = 4 → ∀ k sp l, splitWith fl a.lane.toNat = some k → fl.splits[k]? = some sp →
        launchAt s f.launch = some l → ctxAt s l.ctx = some c →
        let one : LaneMask := BitVec.twoPow 64 a.lane.toNat
        (sp.mask ≠ one → 256 ≤ fl.stack.length →
          ∃ t, exec (.step m a) s = .next t ∧ Rejected s t m 8 0x14 ∧ t.folds = s.folds) ∧
        (sp.mask = one ∨ fl.hw < 32 ∧ fl.stack.length < 256 →
          ∃ t x, exec (.step m a) s = .next t ∧ RanAtOnce s t m 8 ∧ flockOf t f.uid i = some x ∧ x.focus = true ∧
            x.splits = fl.splits.set k { sp with mask := one, halted := false, stepping := true } ∧
            x.stack = if sp.mask = one then fl.stack
              else { pc := sp.pc, mask := sp.mask &&& ~~~one, path := sp.path, pass := sp.pass } :: fl.stack))) ∧
    (haltedFlock fl = true → DbgOp m a 6 64 → a.flags = 0 → itemsBad a = false → itemsOut s (f, i, fl) a = false →
      a.count.toNat * itemBytes a ≤ 4056 → fl.loads = [] → ∀ l, launchAt s f.launch = some l → l.ctx = c.id →
      ∃ t, exec (.read m a) s = .next t ∧ Recorded s t m 8 3 0 ∧ t.folds = s.folds ∧
        t.sent = s.sent ++ [acceptOf s m 0, completeOf s m ((List.range a.count.toNat).flatMap (fun j =>
          itemOf f fl a.space.toNat a.lane.toNat (a.index.toNat + j)))]) ∧
    (haltedFlock fl = true → a.flags = 1 → itemsBad a = false → itemsOut s (f, i, fl) a = false →
      ∀ data, DbgOp m a 6 (64 + data.length) → data.length = a.count.toNat * itemBytes a → slotsBad a data = false →
      let here (k : Nat) : Prop := a.index.toNat ≤ k ∧ k < a.index.toNat + a.count.toNat
      let w (n k : Nat) : Word := wordAt data (n * (k - a.index.toNat))
      let lane := a.lane.toNat
      (a.space = 7 ∨ a.space = 13 →
        ∃ t, exec (.write m a data) s = .next t ∧ Rejected s t m 8 0x14 ∧ t.folds = s.folds) ∧
      (a.space ≠ 7 → a.space ≠ 13 → ∃ t g x, exec (.write m a data) s = .next t ∧ RanAtOnce s t m 8 ∧
        foldAt t f.uid = some g ∧ flockAt g i = some x ∧
        (∀ r j, j < 64 → (cget 0 x.v (r * 64 + j) = w 4 r ∧ a.space = 1 ∧ here r ∧ j = lane) ∨
          (cget 0 x.v (r * 64 + j) = wordAt data (256 * (r - a.index.toNat) + 4 * j) ∧ a.space = 1 ∧ here r ∧ lane = 255) ∨
          (cget 0 x.v (r * 64 + j) = cget 0 fl.v (r * 64 + j) ∧ ¬ (a.space = 1 ∧ here r ∧ (j = lane ∨ lane = 255)))) ∧
        (∀ k, (cget 0 x.s k = w 4 k ∧ a.space = 2 ∧ here k) ∨ (cget 0 x.s k = cget 0 fl.s k ∧ ¬ (a.space = 2 ∧ here k))) ∧
        (∀ k, (cget 0 x.sh k = w 4 k ∧ a.space = 3 ∧ here k) ∨
          (cget 0 x.sh k = cget 0 fl.sh k ∧ ¬ (a.space = 3 ∧ here k))) ∧
        (∀ r j, r < 24 → j < 64 → inMask (cget 0 x.p r) j
          = if a.space = 4 ∧ a.count = 1 ∧ j = lane then (wordAt data 0).getLsbD r else inMask (cget 0 fl.p r) j) ∧
        (∀ r j, r < 4 → j < 64 → cget 0 x.x (r * 64 + j)
          = if a.space = 5 ∧ a.count = 1 ∧ j = lane then (wordAt data 0).extractLsb' (8 * r) 8
            else cget 0 fl.x (r * 64 + j)) ∧
        x.q = (if a.space = 6 then (wordAt data 0).setWidth 8 else fl.q) ∧
        x.fflags = (if a.space = 8 then wordAt data 0 &&& 31 else fl.fflags) ∧
        (∀ k, (slotOf x k = BitVec.ofNat 64 (leNat ((data.drop (8 * (k - a.index.toNat))).take 8) % 2 ^ 47) ∧
            a.space = 9 ∧ here k) ∨ (slotOf x k = slotOf fl k ∧ ¬ (a.space = 9 ∧ here k))) ∧
        (∀ j, cget 0 x.srcount j = if a.space = 10 ∧ a.count = 1 ∧ j = lane then wordAt data 0 else cget 0 fl.srcount j) ∧
        (∀ k, (some (cget 0 g.ls k) = data[k - a.index.toNat]? ∧ a.space = 11 ∧ here k) ∨
          (cget 0 g.ls k = cget 0 f.ls k ∧ ¬ (a.space = 11 ∧ here k))) ∧
        (∀ k, (cget 0 g.tiles k = w 4 k ∧ a.space = 12 ∧ here k) ∨
          (cget 0 g.tiles k = cget 0 f.tiles k ∧ ¬ (a.space = 12 ∧ here k))) ∧
        x.c = fl.c ∧ x.trap = fl.trap ∧ x.splits = fl.splits ∧ x.stack = fl.stack)))

/-- R365, R370, R373, R374: die control. An operation is taken and its stages end one after another, each with its
effect. The model's choices: log entries 38 and 47. -/
def Obligations.DieControlSteps : Prop :=
  (∀ (m : Msg) (a : DieArgs) (s : State), Takes s m → headBad m 7 12 = false → m.ep = 0 → a.die.toNat < 4 →
    s.dies.length = 4 →
    let d := a.die.toNat
    (withdrawDeny s d = false →
      (a.op = 1 → ∃ t, exec (.dieWithdraw m a) s = .next t ∧ Recorded s t m 7 2 0 ∧ t.sent = s.sent ++ [acceptOf s m 0] ∧
        t.dieCtl = some { op := 1, die := d, stage := 1, index := indexOf s m, seq := m.seq, tag := m.tag } ∧
        dieAt t d = { dieAt s d with record := some (indexOf s m) }) ∧
      (a.op = 3 → ∃ t, exec (.dieReset m a) s = .next t ∧ Recorded s t m 7 2 0 ∧ t.sent = s.sent ++ [acceptOf s m 0] ∧
        t.dieCtl = some { op := 3, die := d, stage := 1, index := indexOf s m, seq := m.seq, tag := m.tag } ∧
        dieAt t d = { dieAt s d with record := some (indexOf s m) })) ∧
    (a.op = 1 → withdrawDeny s d = true →
      ∃ t, exec (.dieWithdraw m a) s = .next t ∧ Rejected s t m 7 0x14 ∧ t.dieCtl = s.dieCtl ∧ t.dies = s.dies) ∧
    (a.op = 2 → s.dieCtl = none → (dieAt s d).state = .refresh →
      ∃ t, exec (.dieReadmit m a) s = .next t ∧ Recorded s t m 7 2 0 ∧ t.sent = s.sent ++ [acceptOf s m 0] ∧
        t.dieCtl = some { op := 2, die := d, stage := 5, index := indexOf s m, seq := m.seq, tag := m.tag } ∧
        dieAt t d = { dieAt s d with record := some (indexOf s m) })) ∧
  (∀ (m : Msg) (h : DieHead) (carve : BitVec 32) (s : State), Takes s m → headBad m 7 12 = false → m.ep = 0 → h.op = 4 →
    h.die.toNat < 4 → s.dies.length = 4 → carve.toNat ≤ 8 → s.dieCtl = none →
    let d := h.die.toNat
    let lo := nearBase d + min (dieAt s d).carve carve.toNat * 0x4000000
    (nearHeld s d = false → ∃ t, exec (.dieCarve m h carve) s = .next t ∧ RanAtOnce s t m 7 ∧
      (dieAt t d).carve = carve.toNat ∧
      (∀ a, lo ≤ a → a < nearBase (d + 1) → homeByte t a = 0 ∧ ∀ k, l1Find t k (a / 128) = none) ∧
      ∀ a, (a < lo ∨ nearBase (d + 1) ≤ a) → homeByte t a = homeByte s a) ∧
    (nearHeld s d = true → ∃ t, exec (.dieCarve m h carve) s = .next t ∧ Rejected s t m 7 0x14 ∧ t.dies = s.dies)) ∧
  (∀ (s : State) (c : DieCtl), s.dieCtl = some c → stageReady s c = true → c.die < 4 → s.dies.length = 4 →
    1 ≤ c.stage → c.stage ≤ 7 → (c.stage = 6 → Config.linksUp s.free c.die = true) →
    ∃ t, exec .diectlStageEnd s = .next t ∧ (dieAt t c.die).state = stageState c.stage ∧
      t.dieCtl = (if c.stage = (if c.op = 1 then 4 else 7) then none else some { c with stage := c.stage + 1 }) ∧
      (c.stage ∈ [1, 4, 5, 6] → c.stage ≠ (if c.op = 1 then 4 else 7) → Reports s t 3 c.die) ∧
      (c.stage = 3 → (∀ k x, x ∈ (coreAt t k).l1 → homedOn c.die (128 * x.line) = false) ∧
        (∀ d x, x ∈ (l2At t d).tags → d ≠ c.die ∧ homedOn c.die (128 * x.line) = false) ∧
        (dieAt t c.die).mantle = []) ∧
      (c.stage = 5 → l2At t c.die = L2.empty ∧ (dieAt t c.die).tlb = [] ∧ (dieAt t c.die).walks = [] ∧
        (dieAt t c.die).staging = [] ∧ (s.cores.length = 160 → ∀ k ∈ dieCores c.die, coreAt t k = Core.reset)) ∧
      (c.stage = 7 → (∀ h, nearBase c.die ≤ h → h < nearBase (c.die + 1) → homeByte t h = 0) ∧
        (c.op ≠ 1 → ∀ ep, (endpointAt s ep).journal ≠ [] →
          (endpointAt t ep).copies = (ringDies ep).filter (fun d => !dieOffline t d)))) ∧
  ∀ (s : State) (c : DieCtl), s.dieCtl = some c → c.stage = 6 → c.die < 4 → s.dies.length = 4 →
    Config.linksUp s.free c.die = false →
    ∃ t, exec .diectlStageEnd s = .next t ∧ t.dieCtl = none ∧ (dieAt t c.die).state = (dieAt s c.die).state ∧
      (dieAt t c.die).record = none

end

namespace Sys2Proof.Slice0

open Machine

/-- A set-flag in the state word of a split record: its valid bit, and its number above it. -/
def FlagBits (w : Nat) (at' : Nat) (o : Option (BitVec 4)) : Prop :=
  match o with
  | none => w / 2 ^ at' % 32 = 0
  | some c => w / 2 ^ at' % 2 = 1 ∧ w / 2 ^ (at' + 1) % 16 = c.toNat

end Sys2Proof.Slice0

section

open Sys2Proof Sys2Proof.Machine Sys2Proof.Slice0

/-- R335, R336: the bytes of a fleece: its header, the block of each flock, the image of each command, and the
sections of tiles, local store and registers. The model's choices: log entry 43. -/
def Obligations.FleeceLayout : Prop :=
  (∀ fl : Flock, let b := flockBlock fl
    b.length = 4096 ∧
    (∀ r, r < 128 → field b (4 * r) 4 = (cget 0 fl.s r).toNat ∧ field b (0x200 + 4 * r) 4 = (cget 0 fl.sh r).toNat) ∧
    (fl.splits.length ≤ 4 → ∀ i, i < 4 →
      (fl.splits[i]? = none → field b (0x400 + 32 * i) 32 = 0) ∧
      ∀ sp, fl.splits[i]? = some sp → field b (0x400 + 32 * i) 8 = sp.pc.toNat ∧
        field b (0x408 + 32 * i) 8 = sp.mask.toNat ∧ field b (0x410 + 32 * i) 4 % 2 = 1 ∧
        (field b (0x410 + 32 * i) 4 / 2 % 2 = 1 ↔ sp.inside = true) ∧ FlagBits (field b (0x410 + 32 * i) 4) 2 sp.setA ∧
        FlagBits (field b (0x410 + 32 * i) 4) 7 sp.setB ∧ field b (0x410 + 32 * i) 16 < 2 ^ 12) ∧
    (∀ k, k < 16 → field b (0x480 + 8 * k) 8 = (slotOf fl k).toNat) ∧ field b 0x500 4 = fl.q.toNat ∧
    (∀ k, k < 12 → field b (0x504 + k) 1 = cget 0 fl.c k % 256) ∧ field b 0x510 4 = fl.fflags.toNat ∧
    field b 0x514 2 = fl.batchNext.toNat ∧ field b 0x516 2 = fl.batchDone.toNat ∧
    field b 0x518 4 = fl.dflush % 2 ^ 32 ∧ field b 0x51C 4 = fl.stack.length % 2 ^ 32 ∧
    (field b 0x520 4 % 2 = 1 ↔ fl.handler.isSome = true) ∧ (field b 0x520 4 / 2 % 2 = 1 ↔ finished fl = true) ∧
    field b 0x524 4 = fl.shq.toNat ∧ (∀ h, fl.handler = some h → field b 0x528 8 = h.sp.pc.toNat) ∧
    field b 0x530 4 = fl.trap.cause.toNat ∧ field b 0x534 4 = fl.trap.detail.toNat ∧
    field b 0x538 8 = fl.trap.pc.toNat ∧ field b 0x540 8 = fl.trap.split.toNat ∧
    (∀ k r, k ∈ [1, 2, 3] → fl.records.find? (fun x => x.cause == k) = some r →
      field b (0x548 + 24 * (k - 1)) 4 = k ∧ field b (0x54C + 24 * (k - 1)) 4 = recordDetail r % 2 ^ 32 ∧
      field b (0x550 + 24 * (k - 1)) 8 = r.addr.toNat ∧ field b (0x558 + 24 * (k - 1)) 8 = r.age % 2 ^ 64) ∧
    (∀ i, 0x590 ≤ i → i < 0x800 → b[i]? = some 0) ∧
    (∀ j, j < 64 → (∀ r, r < 24 → (field b (0x800 + 4 * j) 4).testBit r = inMask (cget 0 fl.p r) j) ∧
      field b (0x800 + 4 * j) 4 < 2 ^ 24 ∧ (∀ r, r < 4 → b[0x900 + 4 * j + r]? = some (cget 0 fl.x (r * 64 + j))) ∧
      field b (0xA00 + 4 * j) 4 = (cget 0 fl.srcount j).toNat ∧ field b (0xB00 + 4 * j) 4 = (cget 0 fl.dseq j).toNat) ∧
    (∀ i x, i < 32 → fl.stack[i]? = some x →
      field b (0xC00 + 16 * i) 8 = x.pc.toNat ∧ field b (0xC08 + 16 * i) 8 = x.mask.toNat) ∧
    ∀ i, 0xE00 ≤ i → i < 0x1000 → b[i]? = some 0) ∧
  (∀ c : Cmd, let b := commandImage c
    b.length = 1024 ∧ (∀ w, encode c.instr = some w → field b 0 16 = w.toNat) ∧ field b 0x10 8 = c.rows.toNat ∧
    (∀ i w, i < 16 → c.regs[i]? = some w → field b (0x40 + 4 * i) 4 = w.toNat) ∧
    (∀ j, j < 64 → field b (0x100 + 4 * j) 4 = (cget 0 c.vR j).toNat ∧
      field b (0x200 + 4 * j) 4 = (cget 0 c.srcount j).toNat) ∧
    (∀ i, 0x318 ≤ i → i < 0x400 → b[i]? = some 0) ∧
    ∀ o n, c.instr = .copy o → n ∉ c.ended → (∀ i, i < n → i ∈ c.ended) →
      field b 0x18 4 = n % 2 ^ 32 ∧ field b 0x20 4 = c.fl.toNat ∧ field b 0x24 4 = c.failed.length % 2 ^ 32 ∧
      (c.failed = [] → field b 0x28 4 = 2 ^ 32 - 1) ∧
      (∀ x ∈ c.failed, (∀ y ∈ c.failed, x ≤ y) → field b 0x28 4 = x % 2 ^ 32) ∧
      (∀ i, i < 3 → ((field b 0x34 4).testBit i = true ↔ n + 1 + i ∈ c.ended)) ∧ field b 0x34 4 < 8) ∧
  (∀ (l : Launch) (f : Fold) (cs : List Cmd), f.flocks.length = l.flocks → l.flocks ≤ 16 →
    let b := fleeceImage l f cs
    let x := sections l cs.length
    b.length = x.size ∧ x.cmd = 0x1000 + 0x1000 * l.flocks ∧ (x.am % 4096, x.ls % 4096, x.v % 4096, x.size % 4096) = (0, 0, 0, 0) ∧
    x.cmd + 1024 * cs.length ≤ x.am ∧ x.am + 16384 * l.amtiles ≤ x.ls ∧ x.ls + l.lsBytes ≤ x.v ∧
    field b 0 4 = f.foldId % 2 ^ 32 ∧ field b 4 4 = l.pastid.toNat ∧ field b 8 4 = f.step % 2 ^ 32 ∧
    field b 0x0C 4 = l.flocks ∧ field b 0x10 4 = gRegs l % 2 ^ 32 ∧ field b 0x14 4 = l.lsBytes % 2 ^ 32 ∧
    field b 0x18 4 = l.amtiles % 2 ^ 32 ∧ field b 0x1C 4 = cs.length % 2 ^ 32 ∧
    (∀ i, i < 16 → ((field b 0x20 4).testBit (16 + i) = true ↔ (f.flocks[i]?).any haltedFlock = true)) ∧
    field b 0x20 2 = (if f.swapped then 2 else 1) ∧ field b 0x24 4 = 0 ∧ field b 0x28 8 = f.wd % 2 ^ 64 ∧
    field b 0x30 8 = l.kernel.toNat ∧ field b 0x38 8 = x.cmd % 2 ^ 64 ∧ field b 0x40 8 = x.am % 2 ^ 64 ∧
    field b 0x48 8 = x.ls % 2 ^ 64 ∧ field b 0x50 8 = x.v % 2 ^ 64 ∧
    (∀ a, a < 32 → field b (0x58 + 8 * a) 8 = (cget 0 f.ntag a).toNat) ∧
    (∀ i, 0x158 ≤ i → i < 0x1000 → b[i]? = some 0) ∧
    (∀ i fl, f.flocks[i]? = some fl → (b.drop (0x1000 + 0x1000 * i)).take 4096 = flockBlock fl) ∧
    (∀ i c, cs[i]? = some c → (b.drop (x.cmd + 1024 * i)).take 1024 = commandImage c) ∧
    (∀ k, k < 4096 * l.amtiles → field b (x.am + 4 * k) 4 = (cget 0 f.tiles k).toNat) ∧
    (∀ k, k < l.lsBytes → b[x.ls + k]? = some (cget 0 f.ls k)) ∧
    ∀ i fl r j, f.flocks[i]? = some fl → r < gRegs l → j < 64 →
      field b (x.v + 256 * (gRegs l * i + r) + 4 * j) 4 = (cget 0 fl.v (r * 64 + j)).toNat) ∧
  ∀ (s : State) (u : Nat) (f : Fold) (l : Launch) (save : Bool), foldAt s u = some f → launchAt s f.launch = some l →
    f.place = .fleece save → fleeceAt s u = some (fleeceImage l f f.images)

end
end

