-- ==== Sys2Proof/Laws/Cells.lean ====
section
/-! SUPPORT. The laws of sparse contents: a read after a write, and the canonical form. -/

namespace Sys2Proof.Machine

theorem cget_cdel_same {α : Type} (d : α) (m : Cells α) (n : Nat) : cget d (cdel m n) n = d := by
  induction m with
  | nil => rfl
  | cons x r ih =>
    obtain ⟨k, v⟩ := x
    by_cases h : k = n
    · simpa [cdel, h] using ih
    · simpa [cdel, h, cget] using ih

theorem cget_cdel_other {α : Type} (d : α) (m : Cells α) {n j : Nat} (h : j ≠ n) :
    cget d (cdel m n) j = cget d m j := by
  induction m with
  | nil => rfl
  | cons x r ih =>
    obtain ⟨k, v⟩ := x
    by_cases hk : k = n
    · subst hk
      simpa [cdel, cget, Ne.symm h] using ih
    · by_cases hj : k = j
      · subst hj; simp [cdel, hk, cget]
      · simpa [cdel, hk, cget, hj] using ih

theorem cget_cput_same {α : Type} (d : α) (m : Cells α) (n : Nat) (x : α) : cget d (cput m n x) n = x := by
  induction m with
  | nil => simp [cput, cget]
  | cons y r ih =>
    obtain ⟨k, v⟩ := y
    by_cases h : k = n
    · simp [cput, cget, h]
    · by_cases hl : n < k
      · simp [cput, cget, h, hl]
      · simpa [cput, cget, h, hl] using ih

theorem cget_cput_other {α : Type} (d : α) (m : Cells α) {n j : Nat} (x : α) (h : j ≠ n) :
    cget d (cput m n x) j = cget d m j := by
  induction m with
  | nil => simp [cput, cget, Ne.symm h]
  | cons y r ih =>
    obtain ⟨k, v⟩ := y
    by_cases hk : k = n
    · subst hk
      simp [cput, cget, Ne.symm h]
    · by_cases hl : n < k
      · simp [cput, cget, hk, hl, Ne.symm h]
      · by_cases hj : k = j
        · subst hj; simp [cput, hk, hl, cget]
        · simpa [cput, hk, hl, cget, hj] using ih

/-- A read after a write to the same key gives what was written. -/
@[simp] theorem cget_cset_same {α : Type} [DecidableEq α] (d : α) (m : Cells α) (n : Nat) (x : α) :
    cget d (cset d m n x) n = x := by
  unfold cset
  split
  · next h => rw [cget_cdel_same, h]
  · exact cget_cput_same d m n x

/-- A write leaves every other key alone. -/
theorem cget_cset_other {α : Type} [DecidableEq α] (d : α) (m : Cells α) {n j : Nat} (x : α) (h : j ≠ n) :
    cget d (cset d m n x) j = cget d m j := by
  unfold cset
  split
  · exact cget_cdel_other d m h
  · exact cget_cput_other d m x h

theorem cget_cset {α : Type} [DecidableEq α] (d : α) (m : Cells α) (n j : Nat) (x : α) :
    cget d (cset d m n x) j = if j = n then x else cget d m j := by
  by_cases h : j = n
  · subst h; simp
  · simp [h, cget_cset_other d m x h]

/-! ### The canonical form -/

theorem cwfFrom_mono {α : Type} [DecidableEq α] (d : α) {a b : Nat} (h : a ≤ b) (m : Cells α)
    (hm : cwfFrom d b m = true) : cwfFrom d a m = true := by
  cases m with
  | nil => rfl
  | cons x r =>
    simp only [cwfFrom, Bool.and_eq_true, decide_eq_true_eq] at hm ⊢
    exact ⟨⟨by omega, hm.1.2⟩, hm.2⟩

theorem cwfFrom_cdel {α : Type} [DecidableEq α] (d : α) (m : Cells α) (n : Nat) :
    ∀ lo, cwfFrom d lo m = true → cwfFrom d lo (cdel m n) = true := by
  induction m with
  | nil => intro lo _; rfl
  | cons x r ih =>
    intro lo h
    obtain ⟨k, v⟩ := x
    simp only [cwfFrom, Bool.and_eq_true, decide_eq_true_eq] at h
    by_cases hk : k = n
    · simp only [cdel, hk, if_true]
      exact ih lo (cwfFrom_mono d (by omega) r h.2)
    · simp only [cdel, hk, if_false, cwfFrom, Bool.and_eq_true, decide_eq_true_eq]
      exact ⟨h.1, ih (k + 1) h.2⟩

theorem cwfFrom_cput {α : Type} [DecidableEq α] (d : α) (m : Cells α) (n : Nat) (x : α) (hx : x ≠ d) :
    ∀ lo, lo ≤ n → cwfFrom d lo m = true → cwfFrom d lo (cput m n x) = true := by
  induction m with
  | nil => intro lo hn _; simp [cput, cwfFrom, hn, hx]
  | cons y r ih =>
    intro lo hn h
    obtain ⟨k, v⟩ := y
    simp only [cwfFrom, Bool.and_eq_true, decide_eq_true_eq] at h
    by_cases hk : k = n
    · subst hk
      simp [cput, cwfFrom, h.1.1, hx, h.2]
    · by_cases hl : n < k
      · simp only [cput, hk, hl, if_false, if_true, cwfFrom, Bool.and_eq_true, decide_eq_true_eq]
        exact ⟨⟨hn, hx⟩, ⟨⟨by omega, h.1.2⟩, h.2⟩⟩
      · simp only [cput, hk, hl, if_false, cwfFrom, Bool.and_eq_true, decide_eq_true_eq]
        exact ⟨h.1, ih (k + 1) (by omega) h.2⟩

/-- A write keeps the canonical form. -/
theorem cwf_cset {α : Type} [DecidableEq α] (d : α) (m : Cells α) (n : Nat) (x : α) (h : cwf d m = true) :
    cwf d (cset d m n x) = true := by
  unfold cwf cset at *
  split
  · exact cwfFrom_cdel d m n 0 h
  · next hx => exact cwfFrom_cput d m n x hx 0 (Nat.zero_le n) h

theorem cwf_csetList {α : Type} [DecidableEq α] (d : α) (l : List α) :
    ∀ (m : Cells α) (n : Nat), cwf d m = true → cwf d (csetList d m n l) = true := by
  induction l with
  | nil => intro m n h; exact h
  | cons x r ih => intro m n h; exact ih _ _ (cwf_cset d m n x h)

/-- Reading back a list of consecutive keys. -/
theorem cget_csetList {α : Type} [DecidableEq α] (d : α) (l : List α) :
    ∀ (m : Cells α) (n j : Nat),
      cget d (csetList d m n l) j = if h : n ≤ j ∧ j < n + l.length then l[j - n]'(by omega) else cget d m j := by
  induction l with
  | nil =>
    intro m n j
    have h : ¬(n ≤ j ∧ j < n + ([] : List α).length) := by simp
    rw [dif_neg h]; rfl
  | cons x r ih =>
    intro m n j
    rw [csetList, ih, cget_cset]
    by_cases hj : j = n
    · subst hj; simp
    · by_cases hr : n + 1 ≤ j ∧ j < n + 1 + r.length
      · have h2 : n ≤ j ∧ j < n + (r.length + 1) := by omega
        have h3 : j - n = (j - (n + 1)) + 1 := by omega
        simp [hr, h2, h3]
      · have h2 : ¬(n ≤ j ∧ j < n + (x :: r).length) := by simp only [List.length_cons]; omega
        rw [dif_neg hr, if_neg hj]
        rw [dif_neg h2]

/-! ### Sorting -/

theorem insertBy_perm {α : Type} (le : α → α → Bool) (x : α) (l : List α) : (insertBy le x l).Perm (x :: l) := by
  induction l with
  | nil => exact List.Perm.refl _
  | cons y r ih =>
    unfold insertBy
    split
    · exact List.Perm.refl _
    · exact (ih.cons y).trans (List.Perm.swap x y r)

/-- Sorting changes the order alone. -/
theorem sortBy_perm {α : Type} (le : α → α → Bool) (l : List α) : (sortBy le l).Perm l := by
  induction l with
  | nil => exact List.Perm.refl _
  | cons x r ih => exact (insertBy_perm le x _).trans (ih.cons x)

theorem insertBy_pairwise {α : Type} {le : α → α → Bool} (total : ∀ a b, le a b = false → le b a = true)
    (trans : ∀ a b c, le a b = true → le b c = true → le a c = true) (x : α) {l : List α}
    (h : l.Pairwise (fun a b => le a b = true)) : (insertBy le x l).Pairwise (fun a b => le a b = true) := by
  induction l with
  | nil => exact List.pairwise_singleton _ _
  | cons y r ih =>
    obtain ⟨hy, hr⟩ := List.pairwise_cons.1 h
    unfold insertBy
    split
    · next hx =>
      refine List.pairwise_cons.2 ⟨fun z hz => ?_, h⟩
      rcases List.mem_cons.1 hz with rfl | hz
      · exact hx
      · exact trans _ _ _ hx (hy z hz)
    · next hx =>
      refine List.pairwise_cons.2 ⟨fun z hz => ?_, ih hr⟩
      rcases List.mem_cons.1 ((insertBy_perm le x r).mem_iff.1 hz) with rfl | hz
      · exact total _ _ (by simpa using hx)
      · exact hy z hz

/-- What is sorted stands in order. -/
theorem sortBy_pairwise {α : Type} {le : α → α → Bool} (total : ∀ a b, le a b = false → le b a = true)
    (trans : ∀ a b c, le a b = true → le b c = true → le a c = true) (l : List α) :
    (sortBy le l).Pairwise (fun a b => le a b = true) := by
  induction l with
  | nil => exact List.Pairwise.nil
  | cons x r ih => exact insertBy_pairwise total trans x ih

end Sys2Proof.Machine
end

