-- ==== Sys2Proof/Laws/Encoding.lean ====
section
/-! SUPPORT. The bit layouts and their parts: unpacking what was packed gives the fields back, and the decoder of a
bundle applied to packed fields is the decoder of the fields. -/

namespace Sys2Proof

/-! ### Bits of an appended word -/

theorem extract_append_low {n m : Nat} (a : BitVec n) (b : BitVec m) (s k : Nat) (h : s + k ≤ m) :
    (a ++ b).extractLsb' s k = b.extractLsb' s k := by
  apply BitVec.eq_of_getLsbD_eq
  intro i hi
  simp only [BitVec.getLsbD_extractLsb', BitVec.getLsbD_append, hi, decide_true, Bool.true_and]
  rw [if_pos (by omega)]

theorem extract_append_high {n m : Nat} (a : BitVec n) (b : BitVec m) (s k : Nat) (h : m ≤ s) :
    (a ++ b).extractLsb' s k = a.extractLsb' (s - m) k := by
  apply BitVec.eq_of_getLsbD_eq
  intro i hi
  simp only [BitVec.getLsbD_extractLsb', BitVec.getLsbD_append, hi, decide_true, Bool.true_and]
  rw [if_neg (by omega)]
  congr 1; omega

theorem extract_append_top {n m : Nat} (a : BitVec n) (b : BitVec m) : (a ++ b).extractLsb' m n = a := by
  rw [extract_append_high a b m n (Nat.le_refl m), Nat.sub_self]; simp

theorem extract_append_bottom {n m : Nat} (a : BitVec n) (b : BitVec m) : (a ++ b).extractLsb' 0 m = b := by
  rw [extract_append_low a b 0 m (by omega)]; simp

/-! ### Layouts -/

@[simp] theorem unpackSrc_packSrc (r : SrcRaw) : unpackSrc (packSrc r) = r := by
  simp only [unpackSrc, packSrc]
  simp (disch := omega) only [extract_append_high, extract_append_low]
  simp

@[simp] theorem unpackF_packF (r : FRaw) : unpackF (packF r) = r := by
  simp only [unpackF, packF]
  simp (disch := omega) only [extract_append_high, extract_append_low]
  simp

@[simp] theorem unpackH_packH (r : HRaw) : unpackH (packH r) = r := by
  simp only [unpackH, packH]
  simp (disch := omega) only [extract_append_high, extract_append_low]
  simp

@[simp] theorem unpackHdr_packHdr (r : HdrRaw) : unpackHdr (packHdr r) = r := by
  simp only [unpackHdr, packHdr]
  simp (disch := omega) only [extract_append_high, extract_append_low]
  simp

@[simp] theorem packF_type (r : FRaw) : (packF r).extractLsb' 0 2 = 0#2 := by
  simp only [packF]
  exact extract_append_bottom _ 0#2

/-! ### The decoder of a bundle on packed fields -/

theorem decodeInBody_packF (p : Place) (r : FRaw) :
    decodeInBody p (packF r) = match decodeF p r with
      | .ok i => .ok (.full i)
      | .error c => .error (.illegal 0 c) := by
  unfold decodeInBody
  rw [packF_type, unpackF_packF]
  rfl

/-- Half 0 of a bundle whose half 1 is empty. -/
theorem decodeInBody_packH (p : Place) (r : HRaw) (h : r.hv = 1) :
    decodeInBody p (0#64 ++ packH r) = match decodeHalfValid r with
      | .ok i => .ok (.pair i none)
      | .error c => .error (.illegal 2 c) := by
  have low : ((0#64 : BitVec 64) ++ packH r).extractLsb' 0 64 = packH r := extract_append_bottom _ _
  have high : ((0#64 : BitVec 64) ++ packH r).extractLsb' 64 64 = 0#64 := extract_append_top _ _
  have type : ((0#64 : BitVec 64) ++ packH r).extractLsb' 0 2 = 1#2 := by
    rw [extract_append_low _ _ 0 2 (by omega)]
    have e : (packH r).extractLsb' 0 2 = (unpackH (packH r)).hv := rfl
    rw [e, unpackH_packH, h]; rfl
  unfold decodeInBody
  rw [type]
  show decodePair _ = _
  unfold decodePair
  dsimp only
  rw [low, high, unpackH_packH]
  cases decodeHalfValid r with
  | error c => rfl
  | ok i =>
    have e : decodeHalf 0#64 = .ok none := by decide
    simp only [e]

/-! ### Guards, flags and sources -/

theorem guardOf_pgOf {g : Guard} (h : g.ok = true) : guardOf (pgOf g) (pgnOf g) = g := by
  cases g with
  | always => rfl
  | pred p neg =>
    have hp : p.toNat < 24 := by simpa [Guard.ok, Reg.okP] using h
    have h1 : (p.setWidth 5).toNat = p.toNat := by
      rw [BitVec.toNat_setWidth]; exact Nat.mod_eq_of_lt (by omega)
    have h2 : ((p.setWidth 5).setWidth 8 : BitVec 8) = p := by
      apply BitVec.eq_of_toNat_eq
      rw [BitVec.toNat_setWidth, h1]; exact Nat.mod_eq_of_lt (by omega)
    have h3 : (p.setWidth 5 == (31 : BitVec 5)) = false := by
      rw [beq_eq_false_iff_ne]; intro hc
      have := congrArg BitVec.toNat hc
      rw [h1] at this
      have h31 : (31 : BitVec 5).toNat = 31 := rfl
      omega
    unfold guardOf pgOf pgnOf
    rw [h3, if_neg (by decide), h2]
    cases neg <;> rfl

@[simp] theorem flgOf_flgCode (f : FlagSel) : flgOf (flgCode f) = f := by cases f <;> decide

@[simp] theorem regOf_encK (r : Reg) : regOf (encK r) = r := by simp [regOf, encK]
@[simp] theorem regOf_encS (r : Reg) : regOf (encS r) = r := by simp [regOf, encS]
@[simp] theorem regOf_encV (r : Reg) (rt : Route) : regOf (encV r rt) = r := by simp [regOf, encV]
@[simp] theorem srcOf_encV (r : Reg) (rt : Route) : srcOf (encV r rt) = .v r rt := by simp [srcOf, encV]
@[simp] theorem srcOf_encS (r : Reg) : srcOf (encS r) = .s r := by simp [srcOf, encS]

/-- A register source comes back from its 24 bits. -/
theorem srcOf_encSrc {s : Src} (hi : ∀ w, s ≠ .imm w) (hj : ∀ w, s ≠ .imm16 w) : srcOf (encSrc s) = s := by
  cases s with
  | v r rt => exact srcOf_encV r rt
  | s r => exact srcOf_encS r
  | imm w => exact absurd rfl (hi w)
  | imm16 w => exact absurd rfl (hj w)

/-- So does one with NEG and ABS. -/
theorem fsrcOf_encFSrc {f : FSrc} (hi : ∀ w, f.src ≠ .imm w) (hj : ∀ w, f.src ≠ .imm16 w) :
    fsrcOf (encFSrc f) = f := by
  obtain ⟨s, n, a⟩ := f
  cases s with
  | v r rt => cases n <;> cases a <;> simp [fsrcOf, encFSrc, srcOf]
  | s r => cases n <;> cases a <;> simp [fsrcOf, encFSrc, srcOf]
  | imm w => exact absurd rfl (hi w)
  | imm16 w => exact absurd rfl (hj w)

@[simp] theorem icondOf_icondCode (c : ICond) : icondOf (icondCode c) = c := by cases c <;> decide
@[simp] theorem fcondOf_fcondCode (c : FCond) : fcondOf (fcondCode c) = c := by cases c <;> decide

end Sys2Proof
end

