-- ==== Sys2Proof/Laws/State.lean ====
section
/-! SUPPORT. What each named update of State leaves alone, field by field, and what a look-up finds after it. -/

namespace Sys2Proof.Machine

/-! ### putFold -/

@[simp] theorem putFold_clock (s : State) (f : Fold) : (putFold s f).clock = s.clock := rfl
@[simp] theorem putFold_free (s : State) (f : Fold) : (putFold s f).free = s.free := rfl
@[simp] theorem putFold_cur (s : State) (f : Fold) : (putFold s f).cur = s.cur := rfl
@[simp] theorem putFold_agenda (s : State) (f : Fold) : (putFold s f).agenda = s.agenda := rfl
@[simp] theorem putFold_rrQuad (s : State) (f : Fold) : (putFold s f).rrQuad = s.rrQuad := rfl
@[simp] theorem putFold_nextUid (s : State) (f : Fold) : (putFold s f).nextUid = s.nextUid := rfl
@[simp] theorem putFold_boot (s : State) (f : Fold) : (putFold s f).boot = s.boot := rfl
@[simp] theorem putFold_flash (s : State) (f : Fold) : (putFold s f).flash = s.flash := rfl
@[simp] theorem putFold_fuseHash (s : State) (f : Fold) : (putFold s f).fuseHash = s.fuseHash := rfl
@[simp] theorem putFold_fuseVersion (s : State) (f : Fold) : (putFold s f).fuseVersion = s.fuseVersion := rfl
@[simp] theorem putFold_meas (s : State) (f : Fold) : (putFold s f).meas = s.meas := rfl
@[simp] theorem putFold_version (s : State) (f : Fold) : (putFold s f).version = s.version := rfl
@[simp] theorem putFold_serial (s : State) (f : Fold) : (putFold s f).serial = s.serial := rfl
@[simp] theorem putFold_idKey (s : State) (f : Fold) : (putFold s f).idKey = s.idKey := rfl
@[simp] theorem putFold_routing (s : State) (f : Fold) : (putFold s f).routing = s.routing := rfl
@[simp] theorem putFold_portDown (s : State) (f : Fold) : (putFold s f).portDown = s.portDown := rfl
@[simp] theorem putFold_mgmt (s : State) (f : Fold) : (putFold s f).mgmt = s.mgmt := rfl
@[simp] theorem putFold_eps (s : State) (f : Fold) : (putFold s f).eps = s.eps := rfl
@[simp] theorem putFold_ctxs (s : State) (f : Fold) : (putFold s f).ctxs = s.ctxs := rfl
@[simp] theorem putFold_peer (s : State) (f : Fold) : (putFold s f).peer = s.peer := rfl
@[simp] theorem putFold_launches (s : State) (f : Fold) : (putFold s f).launches = s.launches := rfl
@[simp] theorem putFold_dies (s : State) (f : Fold) : (putFold s f).dies = s.dies := rfl
@[simp] theorem putFold_cores (s : State) (f : Fold) : (putFold s f).cores = s.cores := rfl
@[simp] theorem putFold_mem (s : State) (f : Fold) : (putFold s f).mem = s.mem := rfl
@[simp] theorem putFold_cmeta (s : State) (f : Fold) : (putFold s f).cmeta = s.cmeta := rfl
@[simp] theorem putFold_lost (s : State) (f : Fold) : (putFold s f).lost = s.lost := rfl
@[simp] theorem putFold_badFill (s : State) (f : Fold) : (putFold s f).badFill = s.badFill := rfl
@[simp] theorem putFold_peerMem (s : State) (f : Fold) : (putFold s f).peerMem = s.peerMem := rfl
@[simp] theorem putFold_hostMem (s : State) (f : Fold) : (putFold s f).hostMem = s.hostMem := rfl
@[simp] theorem putFold_hostDeny (s : State) (f : Fold) : (putFold s f).hostDeny = s.hostDeny := rfl
@[simp] theorem putFold_sent (s : State) (f : Fold) : (putFold s f).sent = s.sent := rfl
@[simp] theorem putFold_replies (s : State) (f : Fold) : (putFold s f).replies = s.replies := rfl
@[simp] theorem putFold_dieCtl (s : State) (f : Fold) : (putFold s f).dieCtl = s.dieCtl := rfl
@[simp] theorem putFold_packPower (s : State) (f : Fold) : (putFold s f).packPower = s.packPower := rfl
@[simp] theorem putFold_otherPower (s : State) (f : Fold) : (putFold s f).otherPower = s.otherPower := rfl
@[simp] theorem putFold_boardAlarm (s : State) (f : Fold) : (putFold s f).boardAlarm = s.boardAlarm := rfl

/-! ### putLaunch -/

@[simp] theorem putLaunch_clock (s : State) (l : Launch) : (putLaunch s l).clock = s.clock := rfl
@[simp] theorem putLaunch_free (s : State) (l : Launch) : (putLaunch s l).free = s.free := rfl
@[simp] theorem putLaunch_cur (s : State) (l : Launch) : (putLaunch s l).cur = s.cur := rfl
@[simp] theorem putLaunch_agenda (s : State) (l : Launch) : (putLaunch s l).agenda = s.agenda := rfl
@[simp] theorem putLaunch_rrQuad (s : State) (l : Launch) : (putLaunch s l).rrQuad = s.rrQuad := rfl
@[simp] theorem putLaunch_nextUid (s : State) (l : Launch) : (putLaunch s l).nextUid = s.nextUid := rfl
@[simp] theorem putLaunch_boot (s : State) (l : Launch) : (putLaunch s l).boot = s.boot := rfl
@[simp] theorem putLaunch_flash (s : State) (l : Launch) : (putLaunch s l).flash = s.flash := rfl
@[simp] theorem putLaunch_fuseHash (s : State) (l : Launch) : (putLaunch s l).fuseHash = s.fuseHash := rfl
@[simp] theorem putLaunch_fuseVersion (s : State) (l : Launch) : (putLaunch s l).fuseVersion = s.fuseVersion := rfl
@[simp] theorem putLaunch_meas (s : State) (l : Launch) : (putLaunch s l).meas = s.meas := rfl
@[simp] theorem putLaunch_version (s : State) (l : Launch) : (putLaunch s l).version = s.version := rfl
@[simp] theorem putLaunch_serial (s : State) (l : Launch) : (putLaunch s l).serial = s.serial := rfl
@[simp] theorem putLaunch_idKey (s : State) (l : Launch) : (putLaunch s l).idKey = s.idKey := rfl
@[simp] theorem putLaunch_routing (s : State) (l : Launch) : (putLaunch s l).routing = s.routing := rfl
@[simp] theorem putLaunch_portDown (s : State) (l : Launch) : (putLaunch s l).portDown = s.portDown := rfl
@[simp] theorem putLaunch_mgmt (s : State) (l : Launch) : (putLaunch s l).mgmt = s.mgmt := rfl
@[simp] theorem putLaunch_eps (s : State) (l : Launch) : (putLaunch s l).eps = s.eps := rfl
@[simp] theorem putLaunch_ctxs (s : State) (l : Launch) : (putLaunch s l).ctxs = s.ctxs := rfl
@[simp] theorem putLaunch_peer (s : State) (l : Launch) : (putLaunch s l).peer = s.peer := rfl
@[simp] theorem putLaunch_folds (s : State) (l : Launch) : (putLaunch s l).folds = s.folds := rfl
@[simp] theorem putLaunch_dies (s : State) (l : Launch) : (putLaunch s l).dies = s.dies := rfl
@[simp] theorem putLaunch_cores (s : State) (l : Launch) : (putLaunch s l).cores = s.cores := rfl
@[simp] theorem putLaunch_mem (s : State) (l : Launch) : (putLaunch s l).mem = s.mem := rfl
@[simp] theorem putLaunch_cmeta (s : State) (l : Launch) : (putLaunch s l).cmeta = s.cmeta := rfl
@[simp] theorem putLaunch_lost (s : State) (l : Launch) : (putLaunch s l).lost = s.lost := rfl
@[simp] theorem putLaunch_badFill (s : State) (l : Launch) : (putLaunch s l).badFill = s.badFill := rfl
@[simp] theorem putLaunch_peerMem (s : State) (l : Launch) : (putLaunch s l).peerMem = s.peerMem := rfl
@[simp] theorem putLaunch_hostMem (s : State) (l : Launch) : (putLaunch s l).hostMem = s.hostMem := rfl
@[simp] theorem putLaunch_hostDeny (s : State) (l : Launch) : (putLaunch s l).hostDeny = s.hostDeny := rfl
@[simp] theorem putLaunch_sent (s : State) (l : Launch) : (putLaunch s l).sent = s.sent := rfl
@[simp] theorem putLaunch_replies (s : State) (l : Launch) : (putLaunch s l).replies = s.replies := rfl
@[simp] theorem putLaunch_dieCtl (s : State) (l : Launch) : (putLaunch s l).dieCtl = s.dieCtl := rfl
@[simp] theorem putLaunch_packPower (s : State) (l : Launch) : (putLaunch s l).packPower = s.packPower := rfl
@[simp] theorem putLaunch_otherPower (s : State) (l : Launch) : (putLaunch s l).otherPower = s.otherPower := rfl
@[simp] theorem putLaunch_boardAlarm (s : State) (l : Launch) : (putLaunch s l).boardAlarm = s.boardAlarm := rfl

/-! ### putCtx -/

@[simp] theorem putCtx_clock (s : State) (c : Context) : (putCtx s c).clock = s.clock := rfl
@[simp] theorem putCtx_free (s : State) (c : Context) : (putCtx s c).free = s.free := rfl
@[simp] theorem putCtx_cur (s : State) (c : Context) : (putCtx s c).cur = s.cur := rfl
@[simp] theorem putCtx_agenda (s : State) (c : Context) : (putCtx s c).agenda = s.agenda := rfl
@[simp] theorem putCtx_rrQuad (s : State) (c : Context) : (putCtx s c).rrQuad = s.rrQuad := rfl
@[simp] theorem putCtx_nextUid (s : State) (c : Context) : (putCtx s c).nextUid = s.nextUid := rfl
@[simp] theorem putCtx_boot (s : State) (c : Context) : (putCtx s c).boot = s.boot := rfl
@[simp] theorem putCtx_flash (s : State) (c : Context) : (putCtx s c).flash = s.flash := rfl
@[simp] theorem putCtx_fuseHash (s : State) (c : Context) : (putCtx s c).fuseHash = s.fuseHash := rfl
@[simp] theorem putCtx_fuseVersion (s : State) (c : Context) : (putCtx s c).fuseVersion = s.fuseVersion := rfl
@[simp] theorem putCtx_meas (s : State) (c : Context) : (putCtx s c).meas = s.meas := rfl
@[simp] theorem putCtx_version (s : State) (c : Context) : (putCtx s c).version = s.version := rfl
@[simp] theorem putCtx_serial (s : State) (c : Context) : (putCtx s c).serial = s.serial := rfl
@[simp] theorem putCtx_idKey (s : State) (c : Context) : (putCtx s c).idKey = s.idKey := rfl
@[simp] theorem putCtx_routing (s : State) (c : Context) : (putCtx s c).routing = s.routing := rfl
@[simp] theorem putCtx_portDown (s : State) (c : Context) : (putCtx s c).portDown = s.portDown := rfl
@[simp] theorem putCtx_mgmt (s : State) (c : Context) : (putCtx s c).mgmt = s.mgmt := rfl
@[simp] theorem putCtx_eps (s : State) (c : Context) : (putCtx s c).eps = s.eps := rfl
@[simp] theorem putCtx_peer (s : State) (c : Context) : (putCtx s c).peer = s.peer := rfl
@[simp] theorem putCtx_launches (s : State) (c : Context) : (putCtx s c).launches = s.launches := rfl
@[simp] theorem putCtx_folds (s : State) (c : Context) : (putCtx s c).folds = s.folds := rfl
@[simp] theorem putCtx_dies (s : State) (c : Context) : (putCtx s c).dies = s.dies := rfl
@[simp] theorem putCtx_cores (s : State) (c : Context) : (putCtx s c).cores = s.cores := rfl
@[simp] theorem putCtx_mem (s : State) (c : Context) : (putCtx s c).mem = s.mem := rfl
@[simp] theorem putCtx_cmeta (s : State) (c : Context) : (putCtx s c).cmeta = s.cmeta := rfl
@[simp] theorem putCtx_lost (s : State) (c : Context) : (putCtx s c).lost = s.lost := rfl
@[simp] theorem putCtx_badFill (s : State) (c : Context) : (putCtx s c).badFill = s.badFill := rfl
@[simp] theorem putCtx_peerMem (s : State) (c : Context) : (putCtx s c).peerMem = s.peerMem := rfl
@[simp] theorem putCtx_hostMem (s : State) (c : Context) : (putCtx s c).hostMem = s.hostMem := rfl
@[simp] theorem putCtx_hostDeny (s : State) (c : Context) : (putCtx s c).hostDeny = s.hostDeny := rfl
@[simp] theorem putCtx_sent (s : State) (c : Context) : (putCtx s c).sent = s.sent := rfl
@[simp] theorem putCtx_replies (s : State) (c : Context) : (putCtx s c).replies = s.replies := rfl
@[simp] theorem putCtx_dieCtl (s : State) (c : Context) : (putCtx s c).dieCtl = s.dieCtl := rfl
@[simp] theorem putCtx_packPower (s : State) (c : Context) : (putCtx s c).packPower = s.packPower := rfl
@[simp] theorem putCtx_otherPower (s : State) (c : Context) : (putCtx s c).otherPower = s.otherPower := rfl
@[simp] theorem putCtx_boardAlarm (s : State) (c : Context) : (putCtx s c).boardAlarm = s.boardAlarm := rfl

/-! ### putCore -/

@[simp] theorem putCore_clock (s : State) (n : Nat) (c : Core) : (putCore s n c).clock = s.clock := rfl
@[simp] theorem putCore_free (s : State) (n : Nat) (c : Core) : (putCore s n c).free = s.free := rfl
@[simp] theorem putCore_cur (s : State) (n : Nat) (c : Core) : (putCore s n c).cur = s.cur := rfl
@[simp] theorem putCore_agenda (s : State) (n : Nat) (c : Core) : (putCore s n c).agenda = s.agenda := rfl
@[simp] theorem putCore_rrQuad (s : State) (n : Nat) (c : Core) : (putCore s n c).rrQuad = s.rrQuad := rfl
@[simp] theorem putCore_nextUid (s : State) (n : Nat) (c : Core) : (putCore s n c).nextUid = s.nextUid := rfl
@[simp] theorem putCore_boot (s : State) (n : Nat) (c : Core) : (putCore s n c).boot = s.boot := rfl
@[simp] theorem putCore_flash (s : State) (n : Nat) (c : Core) : (putCore s n c).flash = s.flash := rfl
@[simp] theorem putCore_fuseHash (s : State) (n : Nat) (c : Core) : (putCore s n c).fuseHash = s.fuseHash := rfl
@[simp] theorem putCore_fuseVersion (s : State) (n : Nat) (c : Core) : (putCore s n c).fuseVersion = s.fuseVersion := rfl
@[simp] theorem putCore_meas (s : State) (n : Nat) (c : Core) : (putCore s n c).meas = s.meas := rfl
@[simp] theorem putCore_version (s : State) (n : Nat) (c : Core) : (putCore s n c).version = s.version := rfl
@[simp] theorem putCore_serial (s : State) (n : Nat) (c : Core) : (putCore s n c).serial = s.serial := rfl
@[simp] theorem putCore_idKey (s : State) (n : Nat) (c : Core) : (putCore s n c).idKey = s.idKey := rfl
@[simp] theorem putCore_routing (s : State) (n : Nat) (c : Core) : (putCore s n c).routing = s.routing := rfl
@[simp] theorem putCore_portDown (s : State) (n : Nat) (c : Core) : (putCore s n c).portDown = s.portDown := rfl
@[simp] theorem putCore_mgmt (s : State) (n : Nat) (c : Core) : (putCore s n c).mgmt = s.mgmt := rfl
@[simp] theorem putCore_eps (s : State) (n : Nat) (c : Core) : (putCore s n c).eps = s.eps := rfl
@[simp] theorem putCore_ctxs (s : State) (n : Nat) (c : Core) : (putCore s n c).ctxs = s.ctxs := rfl
@[simp] theorem putCore_peer (s : State) (n : Nat) (c : Core) : (putCore s n c).peer = s.peer := rfl
@[simp] theorem putCore_launches (s : State) (n : Nat) (c : Core) : (putCore s n c).launches = s.launches := rfl
@[simp] theorem putCore_folds (s : State) (n : Nat) (c : Core) : (putCore s n c).folds = s.folds := rfl
@[simp] theorem putCore_dies (s : State) (n : Nat) (c : Core) : (putCore s n c).dies = s.dies := rfl
@[simp] theorem putCore_mem (s : State) (n : Nat) (c : Core) : (putCore s n c).mem = s.mem := rfl
@[simp] theorem putCore_cmeta (s : State) (n : Nat) (c : Core) : (putCore s n c).cmeta = s.cmeta := rfl
@[simp] theorem putCore_lost (s : State) (n : Nat) (c : Core) : (putCore s n c).lost = s.lost := rfl
@[simp] theorem putCore_badFill (s : State) (n : Nat) (c : Core) : (putCore s n c).badFill = s.badFill := rfl
@[simp] theorem putCore_peerMem (s : State) (n : Nat) (c : Core) : (putCore s n c).peerMem = s.peerMem := rfl
@[simp] theorem putCore_hostMem (s : State) (n : Nat) (c : Core) : (putCore s n c).hostMem = s.hostMem := rfl
@[simp] theorem putCore_hostDeny (s : State) (n : Nat) (c : Core) : (putCore s n c).hostDeny = s.hostDeny := rfl
@[simp] theorem putCore_sent (s : State) (n : Nat) (c : Core) : (putCore s n c).sent = s.sent := rfl
@[simp] theorem putCore_replies (s : State) (n : Nat) (c : Core) : (putCore s n c).replies = s.replies := rfl
@[simp] theorem putCore_dieCtl (s : State) (n : Nat) (c : Core) : (putCore s n c).dieCtl = s.dieCtl := rfl
@[simp] theorem putCore_packPower (s : State) (n : Nat) (c : Core) : (putCore s n c).packPower = s.packPower := rfl
@[simp] theorem putCore_otherPower (s : State) (n : Nat) (c : Core) : (putCore s n c).otherPower = s.otherPower := rfl
@[simp] theorem putCore_boardAlarm (s : State) (n : Nat) (c : Core) : (putCore s n c).boardAlarm = s.boardAlarm := rfl

/-! ### putDie -/

@[simp] theorem putDie_clock (s : State) (n : Nat) (d : Die) : (putDie s n d).clock = s.clock := rfl
@[simp] theorem putDie_free (s : State) (n : Nat) (d : Die) : (putDie s n d).free = s.free := rfl
@[simp] theorem putDie_cur (s : State) (n : Nat) (d : Die) : (putDie s n d).cur = s.cur := rfl
@[simp] theorem putDie_agenda (s : State) (n : Nat) (d : Die) : (putDie s n d).agenda = s.agenda := rfl
@[simp] theorem putDie_rrQuad (s : State) (n : Nat) (d : Die) : (putDie s n d).rrQuad = s.rrQuad := rfl
@[simp] theorem putDie_nextUid (s : State) (n : Nat) (d : Die) : (putDie s n d).nextUid = s.nextUid := rfl
@[simp] theorem putDie_boot (s : State) (n : Nat) (d : Die) : (putDie s n d).boot = s.boot := rfl
@[simp] theorem putDie_flash (s : State) (n : Nat) (d : Die) : (putDie s n d).flash = s.flash := rfl
@[simp] theorem putDie_fuseHash (s : State) (n : Nat) (d : Die) : (putDie s n d).fuseHash = s.fuseHash := rfl
@[simp] theorem putDie_fuseVersion (s : State) (n : Nat) (d : Die) : (putDie s n d).fuseVersion = s.fuseVersion := rfl
@[simp] theorem putDie_meas (s : State) (n : Nat) (d : Die) : (putDie s n d).meas = s.meas := rfl
@[simp] theorem putDie_version (s : State) (n : Nat) (d : Die) : (putDie s n d).version = s.version := rfl
@[simp] theorem putDie_serial (s : State) (n : Nat) (d : Die) : (putDie s n d).serial = s.serial := rfl
@[simp] theorem putDie_idKey (s : State) (n : Nat) (d : Die) : (putDie s n d).idKey = s.idKey := rfl
@[simp] theorem putDie_routing (s : State) (n : Nat) (d : Die) : (putDie s n d).routing = s.routing := rfl
@[simp] theorem putDie_portDown (s : State) (n : Nat) (d : Die) : (putDie s n d).portDown = s.portDown := rfl
@[simp] theorem putDie_mgmt (s : State) (n : Nat) (d : Die) : (putDie s n d).mgmt = s.mgmt := rfl
@[simp] theorem putDie_eps (s : State) (n : Nat) (d : Die) : (putDie s n d).eps = s.eps := rfl
@[simp] theorem putDie_ctxs (s : State) (n : Nat) (d : Die) : (putDie s n d).ctxs = s.ctxs := rfl
@[simp] theorem putDie_peer (s : State) (n : Nat) (d : Die) : (putDie s n d).peer = s.peer := rfl
@[simp] theorem putDie_launches (s : State) (n : Nat) (d : Die) : (putDie s n d).launches = s.launches := rfl
@[simp] theorem putDie_folds (s : State) (n : Nat) (d : Die) : (putDie s n d).folds = s.folds := rfl
@[simp] theorem putDie_cores (s : State) (n : Nat) (d : Die) : (putDie s n d).cores = s.cores := rfl
@[simp] theorem putDie_mem (s : State) (n : Nat) (d : Die) : (putDie s n d).mem = s.mem := rfl
@[simp] theorem putDie_cmeta (s : State) (n : Nat) (d : Die) : (putDie s n d).cmeta = s.cmeta := rfl
@[simp] theorem putDie_lost (s : State) (n : Nat) (d : Die) : (putDie s n d).lost = s.lost := rfl
@[simp] theorem putDie_badFill (s : State) (n : Nat) (d : Die) : (putDie s n d).badFill = s.badFill := rfl
@[simp] theorem putDie_peerMem (s : State) (n : Nat) (d : Die) : (putDie s n d).peerMem = s.peerMem := rfl
@[simp] theorem putDie_hostMem (s : State) (n : Nat) (d : Die) : (putDie s n d).hostMem = s.hostMem := rfl
@[simp] theorem putDie_hostDeny (s : State) (n : Nat) (d : Die) : (putDie s n d).hostDeny = s.hostDeny := rfl
@[simp] theorem putDie_sent (s : State) (n : Nat) (d : Die) : (putDie s n d).sent = s.sent := rfl
@[simp] theorem putDie_replies (s : State) (n : Nat) (d : Die) : (putDie s n d).replies = s.replies := rfl
@[simp] theorem putDie_dieCtl (s : State) (n : Nat) (d : Die) : (putDie s n d).dieCtl = s.dieCtl := rfl
@[simp] theorem putDie_packPower (s : State) (n : Nat) (d : Die) : (putDie s n d).packPower = s.packPower := rfl
@[simp] theorem putDie_otherPower (s : State) (n : Nat) (d : Die) : (putDie s n d).otherPower = s.otherPower := rfl
@[simp] theorem putDie_boardAlarm (s : State) (n : Nat) (d : Die) : (putDie s n d).boardAlarm = s.boardAlarm := rfl

/-! ### Look-ups -/

theorem find?_map_key {α : Type} (key : α → Nat) (x : α) (l : List α) (h : l.find? (fun y => key y == key x) ≠ none) :
    (l.map (fun y => if key y == key x then x else y)).find? (fun y => key y == key x) = some x := by
  induction l with
  | nil => simp at h
  | cons y r ih =>
    by_cases hy : key y = key x
    · simp [hy]
    · simp only [List.find?_cons, beq_eq_false_iff_ne.mpr hy] at h
      simp only [List.map_cons, beq_eq_false_iff_ne.mpr hy, List.find?_cons, Bool.false_eq_true, if_false]
      exact ih h

theorem find?_map_other {α : Type} (key : α → Nat) (x : α) (l : List α) {n : Nat} (h : n ≠ key x) :
    (l.map (fun y => if key y == key x then x else y)).find? (fun y => key y == n) = l.find? (fun y => key y == n) := by
  induction l with
  | nil => rfl
  | cons y r ih =>
    by_cases hy : key y = key x
    · have h1 : ¬ key x = n := fun e => h e.symm
      simp only [List.map_cons, List.find?_cons, hy, beq_self_eq_true, if_true, beq_eq_false_iff_ne.mpr h1]
      exact ih
    · simp only [List.map_cons, beq_eq_false_iff_ne.mpr hy, Bool.false_eq_true, if_false, List.find?_cons]
      split
      · rfl
      · exact ih

theorem foldAt_uid {s : State} {u : Nat} {f : Fold} (h : foldAt s u = some f) : f.uid = u := by
  have := List.find?_some h
  simpa using this

/-- The fold that is put is the one found under its number. -/
theorem foldAt_putFold {s : State} {u : Nat} {f g : Fold} (h : foldAt s u = some g) (hf : f.uid = u) :
    foldAt (putFold s f) u = some f := by
  subst hf
  exact find?_map_key (fun x : Fold => x.uid) f s.folds (by unfold foldAt at h; rw [h]; simp)

theorem foldAt_putFold_other {s : State} {u : Nat} {f : Fold} (h : u ≠ f.uid) :
    foldAt (putFold s f) u = foldAt s u :=
  find?_map_other (fun x : Fold => x.uid) f s.folds h

theorem flockAt_putFlock {f : Fold} {i : Nat} {fl fl' : Flock} (h : flockAt f i = some fl) :
    flockAt (putFlock f i fl') i = some fl' := by
  unfold flockAt putFlock at *
  have : i < f.flocks.length := by
    by_contra hc
    rw [List.getElem?_eq_none (by omega)] at h
    cases h
  simp [this]

theorem flockAt_putFlock_other {f : Fold} {i j : Nat} (fl : Flock) (h : i ≠ j) :
    flockAt (putFlock f i fl) j = flockAt f j := by
  unfold flockAt putFlock
  simp [List.getElem?_set_ne h]

@[simp] theorem putFlock_uid (f : Fold) (i : Nat) (fl : Flock) : (putFlock f i fl).uid = f.uid := rfl

/-- A change of one flock changes the list of folds alone. -/
theorem onFlock_folds_only (s : State) (u i : Nat) (g : Flock → Flock) :
    onFlock s u i g = { s with folds := (onFlock s u i g).folds } := by
  unfold onFlock
  split
  · rfl
  · split <;> rfl

/-- Where the fold and the flock are, `onFlock` puts the changed flock there. -/
theorem onFlock_eq {s : State} {u i : Nat} {f : Fold} {fl : Flock} (g : Flock → Flock) (hf : foldAt s u = some f)
    (hfl : flockAt f i = some fl) : onFlock s u i g = putFold s (putFlock f i (g fl)) := by
  simp [onFlock, hf, hfl]

/-- Failing a fold changes the list of folds alone. -/
theorem failFold_folds_only (s : State) (u c : Nat) : failFold s u c = { s with folds := (failFold s u c).folds } := by
  unfold failFold
  split <;> rfl

/-- Taking a trap changes the list of folds alone (R325, R328). -/
theorem takeTrap_folds_only (s : State) (u i k : Nat) (a : Bool) (p : Pos) (t : TrapInfo) :
    takeTrap s u i k a p t = { s with folds := (takeTrap s u i k a p t).folds } := by
  unfold takeTrap
  split
  · rfl
  · split
    · split
      · exact failFold_folds_only _ _ _
      · split
        · rfl
        · dsimp only
          split
          · rw [failFold_folds_only]
            rfl
          · rfl
    · rfl

/-- Retiring a bundle changes the list of folds alone. -/
theorem retire_folds_only (s : State) (e : Env) : retire s e = { s with folds := (retire s e).folds } := by
  unfold retire
  split
  · exact onFlock_folds_only _ _ _ _
  · rfl

theorem markWait_folds_only (s : State) (e : Env) (w : Wait) :
    markWait s e w = { s with folds := (markWait s e w).folds } := onFlock_folds_only _ _ _ _

end Sys2Proof.Machine
end

