-- ==== Sys2Proof/Laws/Run.lean ====
section
/-! SUPPORT. What `run`, `runFlock` and `runControl` answer: an instruction that is ready ends with its own effect. -/

namespace Sys2Proof.Machine

theorem regRange_none {e : Env} {n : Names} (h : ∀ r ∈ n.regs, r < gRegs e.launch) : regRange e n = none := by
  unfold regRange
  have : n.regs.find? (fun r => decide (gRegs e.launch ≤ r)) = none := by
    rw [List.find?_eq_none]
    intro x hx
    have := h x hx
    simp; omega
  rw [this]; rfl

theorem Ready.precheck {s : State} {g : Guard} {ih : Bool} {n : Names} {e : Env} (h : Ready s g ih n e) :
    Machine.precheck e n = none := by
  unfold Machine.precheck
  rw [regRange_none h.range]
  exact h.pend

theorem Ready.noBreach {s : State} {g : Guard} {ih : Bool} {n : Names} {e : Env} (h : Ready s g ih n e) :
    (e.hand && (!ih || g != .always)) = false := by
  cases hh : e.hand
  · rfl
  · obtain ⟨rfl, rfl⟩ := h.hand hh
    simp

/-- Where no word read holds an error, the result of a body stands. -/
theorem withSram_none {e : Env} {g : Guard} {n : Names} (h : sramErr e g n = none) (r : Res State) :
    withSram e g n r = r := by
  simp [withSram, h]

/-- An instruction that is ready ends with what its body answers. -/
theorem run_of_ready {s : State} {g : Guard} {ih : Bool} {n : Names} {e : Env} (h : Ready s g ih n e)
    (body : Env → Res State) : run s g ih n body = .next (finish s e (body e)) := by
  unfold run
  simp only [h.env, h.noBreach, h.precheck, Bool.false_eq_true, if_false, withSram_none h.err]

theorem runControl_of_ready {s : State} {g : Guard} {ih : Bool} {n : Names} {e : Env} (h : Ready s g ih n e)
    (body : Env → Res State) : runControl s g ih n body = .next (finishControl s e (body e)) := by
  unfold runControl
  simp only [h.env, h.noBreach, h.precheck, Bool.false_eq_true, if_false, withSram_none h.err]

/-- One whose body changes the flock alone: the changed flock is put back and the bundle retires. -/
theorem runFlock_of_ready {s : State} {g : Guard} {ih : Bool} {n : Names} {e : Env} (h : Ready s g ih n e)
    {body : Env → Res Flock} {fl : Flock} (hb : body e = .ok fl) :
    runFlock s g ih n body = .next (retire (storeFlock s e fl) e) := by
  unfold runFlock
  rw [run_of_ready h]
  simp [hb, Res.bind, finish]

theorem runFlock_trap_of_ready {s : State} {g : Guard} {ih : Bool} {n : Names} {e : Env} (h : Ready s g ih n e)
    {body : Env → Res Flock} {t : TrapInfo} (hb : body e = .trap t) :
    runFlock s g ih n body = .next (takeTrap s e.fold.uid e.fi e.idx false e.pos t) := by
  unfold runFlock
  rw [run_of_ready h]
  simp [hb, Res.bind, finish]

theorem runFlock_stall_of_ready {s : State} {g : Guard} {ih : Bool} {n : Names} {e : Env} (h : Ready s g ih n e)
    {body : Env → Res Flock} {w : Wait} (hb : body e = .stall w) :
    runFlock s g ih n body = .next (markWait s e w) := by
  unfold runFlock
  rw [run_of_ready h]
  simp [hb, Res.bind, finish]

/-- Where the split of `cur` is, `run` always answers a next state. -/
theorem run_answers {s : State} {g : Guard} (ih : Bool) (n : Names) (body : Env → Res State) {e : Env}
    (h : envOf s g = some e) : ∃ t, run s g ih n body = .next t := by
  unfold run
  simp only [h]
  split
  · exact ⟨_, rfl⟩
  · split <;> exact ⟨_, rfl⟩

/-! ### The issuing split -/

theorem envOf_fold {s : State} {g : Guard} {e : Env} (h : envOf s g = some e) :
    foldAt s s.cur.fold = some e.fold ∧ flockAt e.fold e.fi = some e.fl ∧ e.fi = s.cur.flock ∧ e.last = s.cur.last
      ∧ e.hand = e.fl.handler.isSome := by
  unfold envOf at h
  simp only [Option.bind_eq_bind, Option.bind_eq_some_iff] at h
  obtain ⟨f, hf, fl, hfl, l, hl, c, hc, h⟩ := h
  split at h
  · next hd heq => cases h; exact ⟨hf, hfl, rfl, rfl, by simp [heq]⟩
  · next heq =>
    obtain ⟨sp, hsp, h⟩ := Option.bind_eq_some_iff.mp h
    cases h; exact ⟨hf, hfl, rfl, rfl, by simp [heq]⟩

/-- The flock found after an effect that puts it back. -/
theorem flockOf_storeFlock {s : State} {g : Guard} {e : Env} (h : envOf s g = some e) (fl : Flock) :
    foldAt (storeFlock s e fl) e.fold.uid = some (putFlock e.fold e.fi fl) := by
  obtain ⟨hf, hfl, -⟩ := envOf_fold h
  have hu : e.fold.uid = s.cur.fold := foldAt_uid hf
  exact foldAt_putFold (by rw [hu]; exact hf) rfl

end Sys2Proof.Machine
end

