-- ==== Sys2Proof/Laws/Memory.lean ====
section
/-! SUPPORT. What `runMem` answers: a memory instruction that is ready ends with its own effect, trap or stall. -/

namespace Sys2Proof.Machine

/-- The breach and the checks that come first are not met. -/
theorem Ready.goes {s : State} {g : Guard} {ih : Bool} {n : Names} {e : Env} (h : Ready s g ih n e) :
    ((e.hand && (!ih || g != .always)) || (Machine.precheck e n).isSome) = false := by
  rw [h.noBreach, h.precheck]; rfl

theorem runMem_of_ready {s : State} {g : Guard} {ih : Bool} {n : Names} {e : Env} (h : Ready s g ih n e)
    {body : State → Env → Res State} {t : State} (hb : body s e = .ok t) : runMem s g ih n body = .next (retire t e) := by
  unfold runMem
  simp only [h.env, h.goes, Bool.false_eq_true, if_false, hb]
  rw [run_of_ready h, hb]
  rfl

theorem runMem_stall_of_ready {s : State} {g : Guard} {ih : Bool} {n : Names} {e : Env} (h : Ready s g ih n e)
    {body : State → Env → Res State} {w : Wait} (hb : body s e = .stall w) :
    runMem s g ih n body = .next (markWait s e w) := by
  unfold runMem
  simp only [h.env, h.goes, Bool.false_eq_true, if_false, hb]
  rw [run_of_ready h, hb]
  rfl

/-- A trap other than MEMFAULT leaves nothing else. -/
theorem runMem_trap_of_ready {s : State} {g : Guard} {ih : Bool} {n : Names} {e : Env} (h : Ready s g ih n e)
    {body : State → Env → Res State} {t : TrapInfo} (hb : body s e = .trap t) (ht : t.cause ≠ 0x1E) :
    runMem s g ih n body = .next (takeTrap s e.fold.uid e.fi e.idx false e.pos t) := by
  have hn : noteOffline s e.ctx e.fold.core t = s := by
    unfold noteOffline
    rw [if_neg]
    simp [ht]
  unfold runMem
  simp only [h.env, h.goes, Bool.false_eq_true, if_false, hb, hn]
  rw [run_of_ready h, hb]
  rfl

/-- Where the split of `cur` is, a memory instruction always answers a next state, whatever its body. -/
theorem runMem_answers {s : State} {g : Guard} (ih : Bool) (n : Names) (body : State → Env → Res State) {e : Env}
    (h : envOf s g = some e) (hu : ∀ t, ∃ e', envOf (noteOffline s e.ctx e.fold.core t) g = some e') :
    ∃ t, runMem s g ih n body = .next t := by
  unfold runMem
  simp only [h]
  split
  · next t _ =>
    obtain ⟨e', he⟩ := hu t
    exact run_answers ih n _ he
  · exact run_answers ih n _ h

end Sys2Proof.Machine
end

