-- ==== Sys2Proof/Laws/MemoryForm.lean ====
section
/-! SUPPORT. Every memory operation keeps the canonical form of the device's, the peers' and the host's memory. An
operation that writes none of them is shown to leave them as they are. -/

namespace Sys2Proof.Machine

/-- The three memories of two states are equal. -/
def SameMem (s t : State) : Prop := t.mem = s.mem ∧ t.peerMem = s.peerMem ∧ t.hostMem = s.hostMem

theorem SameMem.rfl' (s : State) : SameMem s s := ⟨rfl, rfl, rfl⟩

theorem SameMem.trans {s t u : State} (h : SameMem s t) (k : SameMem t u) : SameMem s u :=
  ⟨k.1.trans h.1, k.2.1.trans h.2.1, k.2.2.trans h.2.2⟩

theorem SameMem.wf {s t : State} (h : SameMem s t) (w : s.memWf = true) : t.memWf = true := by
  unfold State.memWf at *
  rw [h.1, h.2.1, h.2.2]; exact w

theorem sameMem_foldl {α : Type} {g : State → α → State} (h : ∀ u x, SameMem u (g u x)) (l : List α) (s : State) :
    SameMem s (l.foldl g s) := by
  induction l generalizing s with
  | nil => exact SameMem.rfl' s
  | cons x r ih => exact (h s x).trans (ih (g s x))

theorem memWf_foldl {α : Type} {g : State → α → State} (h : ∀ u x, u.memWf = true → (g u x).memWf = true) (l : List α)
    {s : State} (w : s.memWf = true) : (l.foldl g s).memWf = true := by
  induction l generalizing s with
  | nil => exact w
  | cons x r ih => exact ih (h s x w)

theorem memWf_parts {s : State} :
    s.memWf = true ↔ Memory.wf s.mem = true ∧ Memory.wf s.peerMem = true ∧ Memory.wf s.hostMem = true := by
  simp [State.memWf, and_assoc]

/-! ### Operations that write no memory -/

@[simp] theorem sameMem_putL2 (s : State) (d : Nat) (c : L2) : SameMem s (putL2 s d c) := ⟨rfl, rfl, rfl⟩
@[simp] theorem sameMem_putDie (s : State) (d : Nat) (c : Die) : SameMem s (putDie s d c) := ⟨rfl, rfl, rfl⟩
@[simp] theorem sameMem_putCore (s : State) (d : Nat) (c : Core) : SameMem s (putCore s d c) := ⟨rfl, rfl, rfl⟩
@[simp] theorem sameMem_putFold (s : State) (f : Fold) : SameMem s (putFold s f) := ⟨rfl, rfl, rfl⟩

theorem sameMem_recordStore (s : State) (u i lane va : Nat) (r : Reason) (ids : List Nat) :
    SameMem s (recordStore s u i lane va r ids) := by
  unfold recordStore onFlock; split
  · exact SameMem.rfl' s
  · split
    · exact SameMem.rfl' s
    · exact sameMem_putFold _ _

theorem sameMem_putEndpoint (s : State) (n : Nat) (e : Endpoint) : SameMem s (putEndpoint s n e) := by
  unfold putEndpoint; split
  · exact ⟨rfl, rfl, rfl⟩
  · split <;> exact ⟨rfl, rfl, rfl⟩

theorem sameMem_onFlock (s : State) (u i : Nat) (g : Flock → Flock) : SameMem s (onFlock s u i g) := by
  unfold onFlock; split
  · exact SameMem.rfl' s
  · split
    · exact SameMem.rfl' s
    · exact sameMem_putFold _ _

theorem sameMem_countOffline (s : State) (h item : Nat) : SameMem s (countOffline s h item) := by
  unfold countOffline; split
  · exact SameMem.rfl' s
  · split
    · exact sameMem_putEndpoint _ _ _
    · exact SameMem.rfl' s

theorem sameMem_clearLost (s : State) (l : Nat) (m : BitVec 128) : SameMem s (clearLost s l m) := by
  unfold clearLost; split <;> exact ⟨rfl, rfl, rfl⟩

theorem sameMem_mantleTrim (s : State) (d : Nat) : SameMem s (mantleTrim s d) := sameMem_putDie _ _ _

theorem sameMem_mantleTouch (s : State) (l : Nat) (x : Bool) : SameMem s (mantleTouch s l x) := by
  unfold mantleTouch; split
  · exact SameMem.rfl' s
  · exact (sameMem_putDie _ _ _).trans (sameMem_mantleTrim _ _)

theorem sameMem_noteForm (s : State) (l : Nat) (c : BitVec 2) : SameMem s (noteForm s l c) := by
  unfold noteForm; dsimp only; split
  · exact SameMem.rfl' s
  · exact SameMem.trans (t := { s with cmeta := _ }) ⟨rfl, rfl, rfl⟩ (sameMem_mantleTouch _ _ _)

theorem sameMem_evictTag (s : State) (d l : Nat) : SameMem s (evictTag s d l) := by
  unfold evictTag; split
  · exact SameMem.rfl' s
  · dsimp only; split
    · exact (sameMem_noteForm _ _ _).trans (sameMem_putL2 _ _ _)
    · exact sameMem_putL2 _ _ _

theorem sameMem_l2Claim (s : State) (d l : Nat) : SameMem s (l2Claim s d l) := by
  refine sameMem_foldl (fun u x => ?_) _ s
  split
  · exact SameMem.rfl' u
  · exact sameMem_putL2 _ _ _

theorem sameMem_allocWay {s t : State} {d sl st w : Nat} (h : allocWay s d sl st = some (w, t)) : SameMem s t := by
  unfold allocWay at h; dsimp only at h; split at h
  · cases h; exact SameMem.rfl' s
  · split at h
    · cases h
    · cases h; exact sameMem_foldl (fun u l => sameMem_evictTag u d l) _ s

theorem sameMem_placeContent (s : State) (d l : Nat) (x : Line) (dom : BitVec 8) :
    SameMem s (placeContent s d l x dom).1 := by
  unfold placeContent; dsimp only; split
  · exact sameMem_putL2 _ _ _
  · split
    · exact ⟨rfl, rfl, rfl⟩
    · split
      · exact sameMem_putL2 _ _ _
      · next h => exact (sameMem_allocWay h).trans ⟨rfl, rfl, rfl⟩

theorem sameMem_tagRoom (s : State) (d l : Nat) : SameMem s (tagRoom s d l) := by
  unfold tagRoom; dsimp only; split
  · exact SameMem.rfl' s
  · split
    · exact SameMem.rfl' s
    · split
      · exact SameMem.rfl' s
      · exact sameMem_evictTag _ _ _

theorem sameMem_l2Install (s : State) (d l : Nat) (x : Line) (dom : BitVec 8) (c : BitVec 2) :
    SameMem s (l2Install s d l x dom c).1 := by
  unfold l2Install; dsimp only
  exact ((sameMem_tagRoom s d l).trans (sameMem_putL2 _ _ _)).trans (sameMem_placeContent _ _ _ _ _)

theorem sameMem_l2Clean (s : State) (d l : Nat) : SameMem s (l2Clean s d l) := by
  unfold l2Clean; split
  · exact SameMem.rfl' s
  · split
    · exact (sameMem_putL2 _ _ _).trans (sameMem_noteForm _ _ _)
    · exact SameMem.rfl' s

theorem sameMem_l2Share (s : State) (d l : Nat) : SameMem s (l2Share s d l) := by
  refine sameMem_foldl (fun u x => ?_) _ s
  split
  · exact SameMem.rfl' u
  · exact sameMem_l2Clean _ _ _

theorem sameMem_fetchLine (s : State) (d l : Nat) : SameMem s (fetchLine s d l) := by
  unfold fetchLine; split
  · exact sameMem_l2Share _ _ _
  · exact sameMem_mantleTouch _ _ _

/-- A use of the L2 leaves every memory as it is. -/
theorem sameMem_l2Touch (s : State) (d l : Nat) (dom : BitVec 8) (c : BitVec 2) : SameMem s (l2Touch s d l dom c) := by
  have h0 : SameMem s { s with nextUid := s.nextUid + 1 } := ⟨rfl, rfl, rfl⟩
  unfold l2Touch; dsimp only; split
  · exact h0.trans (sameMem_putL2 _ _ _)
  · exact (h0.trans (sameMem_fetchLine _ _ _)).trans (sameMem_l2Install _ _ _ _ _ _)

theorem sameMem_placeOrSend (s : State) (d l : Nat) (x : Line) (t : L2Tag) : SameMem s (placeOrSend s d l x t) := by
  unfold placeOrSend; dsimp only; split
  · exact sameMem_placeContent _ _ _ _ _
  · exact (sameMem_placeContent _ _ _ _ _).trans (sameMem_noteForm _ _ _)

theorem sameMem_l2Change (s : State) (d l : Nat) (x old : Line) : SameMem s (l2Change s d l x old) := by
  unfold l2Change; split
  · exact SameMem.rfl' s
  · next t _ =>
    dsimp only
    generalize useEntry _ _ _ = c
    have h0 := sameMem_putL2 s d c
    generalize putL2 s d c = u at h0 ⊢
    refine h0.trans ?_
    split
    · split
      · exact SameMem.rfl' _
      · exact sameMem_placeOrSend _ _ _ _ _
    · split
      · exact SameMem.rfl' _
      · split
        · exact SameMem.rfl' _
        · split
          · exact (sameMem_putL2 _ _ _).trans (sameMem_placeOrSend _ _ _ _ _)
          · split
            · exact (sameMem_putL2 _ _ _).trans (sameMem_placeOrSend _ _ _ _ _)
            · exact sameMem_putL2 _ _ _

@[simp] theorem sameMem_l1Put (s : State) (k : Nat) (x : L1Line) : SameMem s (l1Put s k x) := ⟨rfl, rfl, rfl⟩
@[simp] theorem sameMem_l1Del (s : State) (k l : Nat) : SameMem s (l1Del s k l) := ⟨rfl, rfl, rfl⟩

theorem sameMem_dropPeer (s : State) (d : Nat) : SameMem s (dropPeer s d) := sameMem_putL2 _ _ _

theorem sameMem_lsWriteList (s : State) (u off : Nat) (bs : List Byte) : SameMem s (lsWriteList s u off bs) := by
  unfold lsWriteList; split
  · exact SameMem.rfl' s
  · exact sameMem_putFold _ _

/-! ### Operations that write memory -/

theorem memWf_putLineBytes {s : State} (l : Nat) (m : BitVec 128) (d : Line) (w : s.memWf = true) :
    (putLineBytes s l m d).memWf = true := by
  have key : ∀ (is : List Nat) (base : Nat) (c : Cells Byte), Memory.wf c = true → Memory.wf (is.foldl
      (fun c i => if m.getLsbD i then cset 0 c (128 * l + i - base) (lineByte d i) else c) c) = true := by
    intro is base
    induction is with
    | nil => exact fun c hc => hc
    | cons i r ih =>
      intro c hc
      refine ih _ ?_
      dsimp only
      split
      · exact cwf_cset 0 c _ _ hc
      · exact hc
  rw [memWf_parts] at w ⊢
  unfold putLineBytes
  generalize List.range 128 = is
  dsimp only
  split
  · exact ⟨w.1, key is _ _ w.2.1, w.2.2⟩
  · exact ⟨key is _ _ w.1, w.2.1, w.2.2⟩

/-- The end of a write, once the bytes stand in the memory. -/
theorem memWf_written {s : State} (d l : Nat) (x old : Line) (dom : BitVec 8) (c : BitVec 2) (full : Bool)
    (w : s.memWf = true) :
    (match tagOf (l2At s d) l with
      | some _ => l2Change s d l (homeLine s l) old
      | none =>
        if full then
          if (l2Install s d l x dom c).2 then l2Change (l2Install s d l x dom c).1 d l x old
          else noteForm (l2Install s d l x dom c).1 l c
        else noteForm s l c).memWf = true := by
  split
  · exact (sameMem_l2Change _ _ _ _ _).wf w
  · split
    · split
      · exact (sameMem_l2Change _ _ _ _ _).wf ((sameMem_l2Install _ _ _ _ _ _).wf w)
      · exact (sameMem_noteForm _ _ _).wf ((sameMem_l2Install _ _ _ _ _ _).wf w)
    · exact (sameMem_noteForm _ _ _).wf w

/-- A write through the L2 of a die. -/
theorem memWf_l2Write {s : State} (d l : Nat) (m : BitVec 128) (x : Line) (dom : BitVec 8) (c : BitVec 2)
    (w : s.memWf = true) : (l2Write s d l m x dom c).memWf = true := by
  unfold l2Write; split
  · exact w
  · have w0 : ({ s with nextUid := s.nextUid + 1 } : State).memWf = true := SameMem.wf (s := s) ⟨rfl, rfl, rfl⟩ w
    generalize ({ s with nextUid := s.nextUid + 1 } : State) = s0 at w0 ⊢
    refine memWf_written d l x _ dom c _ ((sameMem_clearLost _ _ _).wf (memWf_putLineBytes l m x ?_))
    generalize (tagOf (l2At s0 d) l).isSome = held
    have w1 : ∀ b : Bool, (l2Claim (if b then s0 else mantleTouch s0 l false) d l).memWf = true := by
      intro b
      refine (sameMem_l2Claim _ _ _).wf ?_
      cases b
      · exact (sameMem_mantleTouch _ _ _).wf w0
      · exact w0
    split
    · exact w1 _
    · exact (sameMem_l2Install _ _ _ _ _ _).wf (w1 _)

/-- A write at the home. -/
theorem memWf_homeWrite {s : State} (l : Nat) (m : BitVec 128) (x : Line) (c : BitVec 2) (w : s.memWf = true) :
    (homeWrite s l m x c).memWf = true := by
  unfold homeWrite; split
  · exact w
  · dsimp only
    exact (sameMem_noteForm _ _ _).wf ((sameMem_clearLost _ _ _).wf
      (memWf_putLineBytes _ _ _ ((sameMem_foldl (fun u k => sameMem_putL2 u k _) _ s).wf w)))

theorem memWf_homeWriteByte {s : State} (h : Nat) (b : Byte) (c : BitVec 2) (w : s.memWf = true) :
    (homeWriteByte s h b c).memWf = true := memWf_homeWrite _ _ _ _ w

theorem memWf_homeWriteBytes {s : State} (h : Nat) (bs : List Byte) (c : BitVec 2) (w : s.memWf = true) :
    (homeWriteBytes s h bs c).memWf = true := memWf_homeWrite _ _ _ _ w

/-- A write to a peer. -/
theorem memWf_peerWrite {s : State} (d h : Nat) (b : Byte) (w : s.memWf = true) : (peerWrite s d h b).memWf = true := by
  have w1 := memWf_parts.1 ((sameMem_putL2 s d (dropTag (l2At s d) (h / 128))).wf w)
  exact memWf_parts.2 ⟨w1.1, cwf_cset 0 _ _ _ w1.2.1, w1.2.2⟩

/-- The home of a line refuses it. -/
theorem sameMem_l1Refused (s : State) (k : Nat) (x : L1Line) : SameMem s (l1Refused s k x) :=
  ((sameMem_countOffline _ _ _).trans (sameMem_l1Del _ _ _)).trans
    (sameMem_foldl (fun u _ => sameMem_recordStore u _ _ _ _ _ _) _ _)

/-- A dirty line goes to the L2. -/
theorem memWf_l1Clean {s : State} (k l : Nat) (w : s.memWf = true) : (l1Clean s k l).memWf = true := by
  unfold l1Clean; split
  · exact w
  · split
    · exact w
    · split
      · exact (sameMem_l1Refused _ _ _).wf w
      · exact memWf_l2Write _ _ _ _ _ _ ((sameMem_l1Put _ _ _).wf w)

theorem memWf_l1Evict {s : State} (k l : Nat) (w : s.memWf = true) : (l1Evict s k l).memWf = true :=
  (sameMem_l1Del _ _ _).wf (memWf_l1Clean k l w)

theorem memWf_l1CleanAll {s : State} (k : Nat) (w : s.memWf = true) : (l1CleanAll s k).memWf = true :=
  memWf_foldl (fun _ l h => memWf_l1Clean k l h) _ w

theorem memWf_l1Drop {s : State} (k : Nat) (w : s.memWf = true) : (l1Drop s k).memWf = true :=
  memWf_foldl (fun _ l h => memWf_l1Evict k l h) _ w

theorem memWf_l1Room {s : State} (k : Nat) (w : s.memWf = true) : (l1Room s k).memWf = true := by
  unfold l1Room; split
  · exact w
  · split
    · exact w
    · exact memWf_l1Evict _ _ w

theorem memWf_l1New {s : State} (k : Nat) (early : Bool) (x : L1Line) (w : s.memWf = true) :
    (l1New s k early x).memWf = true := (sameMem_putCore _ _ _).wf (memWf_l1Room k w)

theorem memWf_l1Fill {s : State} (k l : Nat) (early : Bool) (dom : BitVec 8) (c : BitVec 2) (w : s.memWf = true) :
    (l1Fill s k l early dom c).memWf = true := by
  unfold l1Fill; split
  · split
    · exact w
    · exact (sameMem_l1Put _ _ _).wf ((sameMem_l2Touch _ _ _ _ _).wf w)
  · exact memWf_l1New _ _ _ ((sameMem_l2Touch _ _ _ _ _).wf w)

theorem memWf_l1WriteByte {s : State} (k h : Nat) (early : Bool) (b : Byte) (dom : BitVec 8) (c : BitVec 2)
    (o : ByteOwner) (w : s.memWf = true) : (l1WriteByte s k h early b dom c o).memWf = true := by
  unfold l1WriteByte; dsimp only; split
  · exact (sameMem_l1Put _ _ _).wf w
  · exact memWf_l1New _ _ _ w

/-- What a release and an acquire do to the caches. -/
theorem memWf_releaseAt {s : State} (k : Nat) (sc : BitVec 4) (w : s.memWf = true) : (releaseAt s k sc).memWf = true := by
  unfold releaseAt; split
  · exact memWf_l1CleanAll k w
  · exact w

theorem memWf_acquireAt {s : State} (k : Nat) (sc : BitVec 4) (w : s.memWf = true) : (acquireAt s k sc).memWf = true := by
  unfold acquireAt; dsimp only
  have w1 : (if wider sc = true then l1Drop s k else s).memWf = true := by
    split
    · exact memWf_l1Drop k w
    · exact w
  split
  · exact (sameMem_dropPeer _ _).wf w1
  · exact w1

theorem memWf_performLine {s : State} (k u i l : Nat) (bs : List PendByte) (w : s.memWf = true) :
    (performLine s k u i l bs).memWf = true := by
  unfold performLine
  split
  · exact w
  · split
    · split
      · exact memWf_foldl (fun _ _ h => memWf_peerWrite _ _ _ h) _ w
      · exact (sameMem_recordStore _ _ _ _ _ _ _).wf w
    · exact memWf_l2Write _ _ _ _ _ _ (memWf_l1Evict _ _ w)

/-- The bytes of a store become readable. -/
theorem memWf_performBytes {s : State} (k u i : Nat) (bs : List PendByte) (w : s.memWf = true) :
    (performBytes s k u i bs).memWf = true :=
  memWf_foldl (fun _ _ h => memWf_performLine k u i _ _ h) _ w

/-- Loads in flight settle. -/
theorem memWf_settleReads {s : State} (u i : Nat) (b : Bool) (sel : PendLoad → PendWord → SrcByte → Bool)
    (w : s.memWf = true) : (settleReads s u i b sel).memWf = true := by
  unfold settleReads; split
  · refine (sameMem_onFlock _ _ _ _).wf (memWf_foldl (fun v l h => ?_) _ w)
    unfold dropOlder; split
    · exact h
    · split
      · exact (sameMem_putL2 _ _ _).wf h
      · exact memWf_l1Evict _ _ h
  · exact w

/-- A store is performed. -/
theorem memWf_performWhole {s : State} (k u i : Nat) (p : PendStore) (w : s.memWf = true) :
    (performWhole s k u i p).memWf = true := by
  refine memWf_performBytes _ _ _ _ ?_
  split
  · exact memWf_releaseAt _ _ (memWf_settleReads _ _ _ _ w)
  · exact w

/-- Stores of a flock are performed. -/
theorem memWf_performThose {s : State} (k u i : Nat) (ps : List PendStore) (w : s.memWf = true) :
    (performThose s k u i ps).memWf = true :=
  (sameMem_onFlock _ _ _ _).wf (memWf_foldl (fun _ p h => memWf_performWhole k u i p h) _ w)

/-- A flock's earlier stores are performed. -/
theorem memWf_drainStores {s : State} (u i : Nat) (w : s.memWf = true) : (drainStores s u i).memWf = true := by
  unfold drainStores; split
  · exact w
  · split
    · exact w
    · exact memWf_performThose _ _ _ _ w

/-- A read-modify-write. -/
theorem memWf_rmwAt {s : State} (e : Env) (lane : Nat) (sp : Spot) (n : Nat) (g : Nat → Nat × BitVec 5) (w : s.memWf = true) :
    (rmwAt s e lane sp n g).2.2.memWf = true := by
  unfold rmwAt; split
  · exact (sameMem_lsWriteList _ _ _ _).wf w
  · split
    · have w1 := memWf_parts.1 w
      exact memWf_parts.2 ⟨w1.1, cwf_csetList 0 _ _ _ w1.2.1, w1.2.2⟩
    · exact memWf_homeWriteBytes _ _ _ (memWf_l1Evict _ _ w)

/-- A filter on keys keeps the form. -/
theorem cwfFrom_filter {α : Type} [DecidableEq α] (d : α) (p : Nat × α → Bool) (m : Cells α) :
    ∀ lo, cwfFrom d lo m = true → cwfFrom d lo (m.filter p) = true := by
  induction m with
  | nil => intro lo h; exact h
  | cons x r ih =>
    intro lo h
    obtain ⟨k, v⟩ := x
    simp only [cwfFrom, Bool.and_eq_true, decide_eq_true_eq] at h
    rw [List.filter_cons]
    split
    · simp only [cwfFrom, Bool.and_eq_true, decide_eq_true_eq]
      exact ⟨h.1, ih _ h.2⟩
    · exact cwfFrom_mono d (by omega) _ (ih _ h.2)

/-- A range of the device memory is made to read zero. -/
theorem memWf_zeroRange {s : State} (lo hi : Nat) (w : s.memWf = true) : (zeroRange s lo hi).memWf = true := by
  unfold zeroRange
  have w1 := memWf_parts.1 w
  refine (sameMem_foldl (fun u d => sameMem_putL2 u d _) _ _).wf (memWf_parts.2 ⟨?_, w1.2.1, w1.2.2⟩)
  exact cwfFrom_filter 0 _ _ 0 w1.1

/-- A byte written from outside in the host's memory. -/
theorem memWf_hostByte {s : State} (a : Nat) (b : Byte) (w : s.memWf = true) :
    State.memWf { s with hostMem := cset 0 s.hostMem a b } = true := by
  have w1 := memWf_parts.1 w
  exact memWf_parts.2 ⟨w1.1, w1.2.1, cwf_cset 0 _ _ _ w1.2.2⟩

/-- What an engine writes. -/
theorem memWf_engWrite {s : State} (k : Nat) (c : Cmd) (xs : List (Spot × Byte)) (w : s.memWf = true) :
    (engWrite s k c xs).memWf = true := by
  unfold engWrite
  refine memWf_performBytes _ _ _ _ (SameMem.wf (s := xs.foldl (fun u x => match x.1 with
    | .ls f off => lsWriteList u f off [x.2]
    | .mem _ _ => u) s) ⟨rfl, rfl, rfl⟩ ((sameMem_foldl (fun u x => ?_) _ s).wf w))
  split
  · exact sameMem_lsWriteList _ _ _ _
  · exact SameMem.rfl' u

/-- Reset has the canonical form. -/
theorem memWf_reset : State.reset.memWf = true := by decide +kernel

end Sys2Proof.Machine
end

