-- ==== Sys2Proof/Laws/PerInstr.lean ====
section
/-! SUPPORT. One lemma for each constructor of Instr. The family Encodes: an instruction that only a restricted half
encodes has a half encoding, so that `encode` never lacks one for it. -/

open Sys2Proof

/-- An instruction that needs a restricted half has one. -/
def Sys2Proof.Laws.Encodes.Statement (i : Instr) : Prop := needsHalf i = true → (encHalf i).isSome = true

theorem Sys2Proof.Laws.Encodes.nop (o : GOp) : Laws.Encodes.Statement (.nop o) := fun h => nomatch h
theorem Sys2Proof.Laws.Encodes.bra (o : BraOp) : Laws.Encodes.Statement (.bra o) := fun h => nomatch h
theorem Sys2Proof.Laws.Encodes.brx (o : BrxOp) : Laws.Encodes.Statement (.brx o) := fun h => nomatch h
theorem Sys2Proof.Laws.Encodes.bri (o : AOp) : Laws.Encodes.Statement (.bri o) := fun h => nomatch h
theorem Sys2Proof.Laws.Encodes.call (o : DDispOp) : Laws.Encodes.Statement (.call o) := fun h => nomatch h
theorem Sys2Proof.Laws.Encodes.ret (o : AOp) : Laws.Encodes.Statement (.ret o) := fun h => nomatch h
theorem Sys2Proof.Laws.Encodes.loop (o : DDispOp) : Laws.Encodes.Statement (.loop o) := fun h => nomatch h
theorem Sys2Proof.Laws.Encodes.exit (o : GOp) : Laws.Encodes.Statement (.exit o) := fun h => nomatch h
theorem Sys2Proof.Laws.Encodes.yield (o : YieldOp) : Laws.Encodes.Statement (.yield o) := fun h => nomatch h
theorem Sys2Proof.Laws.Encodes.waitf (o : WaitfOp) : Laws.Encodes.Statement (.waitf o) := fun h => nomatch h
theorem Sys2Proof.Laws.Encodes.pltab (o : Tab3Op) : Laws.Encodes.Statement (.pltab o) := fun h => nomatch h
theorem Sys2Proof.Laws.Encodes.pmovTov (o : DOp) : Laws.Encodes.Statement (.pmovTov o) := fun h => nomatch h
theorem Sys2Proof.Laws.Encodes.pmovFromv (o : VOp) : Laws.Encodes.Statement (.pmovFromv o) := fun h => nomatch h
theorem Sys2Proof.Laws.Encodes.poll (o : PollOp) : Laws.Encodes.Statement (.poll o) := fun h => nomatch h
theorem Sys2Proof.Laws.Encodes.qltab (o : Tab3Op) : Laws.Encodes.Statement (.qltab o) := fun h => nomatch h
theorem Sys2Proof.Laws.Encodes.qset (o : D1Op) : Laws.Encodes.Statement (.qset o) := fun h => nomatch h
theorem Sys2Proof.Laws.Encodes.sadd (o : S2Op) : Laws.Encodes.Statement (.sadd o) := fun h => nomatch h
theorem Sys2Proof.Laws.Encodes.ssub (o : S2Op) : Laws.Encodes.Statement (.ssub o) := fun h => nomatch h
theorem Sys2Proof.Laws.Encodes.smul (o : S2Op) : Laws.Encodes.Statement (.smul o) := fun h => nomatch h
theorem Sys2Proof.Laws.Encodes.smulh (o : S2UOp) : Laws.Encodes.Statement (.smulh o) := fun h => nomatch h
theorem Sys2Proof.Laws.Encodes.smad (o : S3Op) : Laws.Encodes.Statement (.smad o) := fun h => nomatch h
theorem Sys2Proof.Laws.Encodes.sadd64 (o : S2Op) : Laws.Encodes.Statement (.sadd64 o) := fun h => nomatch h
theorem Sys2Proof.Laws.Encodes.sltab (o : S3LOp) : Laws.Encodes.Statement (.sltab o) := fun h => nomatch h
theorem Sys2Proof.Laws.Encodes.sshl (o : S2Op) : Laws.Encodes.Statement (.sshl o) := fun h => nomatch h
theorem Sys2Proof.Laws.Encodes.sshr (o : S2Op) : Laws.Encodes.Statement (.sshr o) := fun h => nomatch h
theorem Sys2Proof.Laws.Encodes.ssra (o : S2Op) : Laws.Encodes.Statement (.ssra o) := fun h => nomatch h
theorem Sys2Proof.Laws.Encodes.smin (o : S2UOp) : Laws.Encodes.Statement (.smin o) := fun h => nomatch h
theorem Sys2Proof.Laws.Encodes.smax (o : S2UOp) : Laws.Encodes.Statement (.smax o) := fun h => nomatch h
theorem Sys2Proof.Laws.Encodes.sbfe (o : S2UOp) : Laws.Encodes.Statement (.sbfe o) := fun h => nomatch h
theorem Sys2Proof.Laws.Encodes.sbfi (o : S3Op) : Laws.Encodes.Statement (.sbfi o) := fun h => nomatch h
theorem Sys2Proof.Laws.Encodes.spopc (o : D1Op) : Laws.Encodes.Statement (.spopc o) := fun h => nomatch h
theorem Sys2Proof.Laws.Encodes.sclz (o : D1Op) : Laws.Encodes.Statement (.sclz o) := fun h => nomatch h
theorem Sys2Proof.Laws.Encodes.smov (o : D1Op) : Laws.Encodes.Statement (.smov o) := fun h => nomatch h
theorem Sys2Proof.Laws.Encodes.smovi (o : DImmOp) : Laws.Encodes.Statement (.smovi o) := fun h => nomatch h
theorem Sys2Proof.Laws.Encodes.scmp (o : ScmpOp) : Laws.Encodes.Statement (.scmp o) := fun h => nomatch h
theorem Sys2Proof.Laws.Encodes.ssel (o : SselOp) : Laws.Encodes.Statement (.ssel o) := fun h => nomatch h
theorem Sys2Proof.Laws.Encodes.iadd (o : V2Op) : Laws.Encodes.Statement (.iadd o) := fun _ => rfl
theorem Sys2Proof.Laws.Encodes.isub (o : V2Op) : Laws.Encodes.Statement (.isub o) := fun _ => rfl
theorem Sys2Proof.Laws.Encodes.iaddc (o : VCarryOp) : Laws.Encodes.Statement (.iaddc o) := fun h => nomatch h
theorem Sys2Proof.Laws.Encodes.isubb (o : VCarryOp) : Laws.Encodes.Statement (.isubb o) := fun h => nomatch h
theorem Sys2Proof.Laws.Encodes.imul (o : V2Op) : Laws.Encodes.Statement (.imul o) := fun _ => rfl
theorem Sys2Proof.Laws.Encodes.imulh (o : V2UOp) : Laws.Encodes.Statement (.imulh o) := fun h => nomatch h
theorem Sys2Proof.Laws.Encodes.imad (o : V3Op) : Laws.Encodes.Statement (.imad o) := fun h => nomatch h
theorem Sys2Proof.Laws.Encodes.imadw (o : V3UOp) : Laws.Encodes.Statement (.imadw o) := fun h => nomatch h
theorem Sys2Proof.Laws.Encodes.iadd64 (o : V2Op) : Laws.Encodes.Statement (.iadd64 o) := fun h => nomatch h
theorem Sys2Proof.Laws.Encodes.iabs (o : V1Op) : Laws.Encodes.Statement (.iabs o) := fun h => nomatch h
theorem Sys2Proof.Laws.Encodes.imin (o : V2UOp) : Laws.Encodes.Statement (.imin o) := fun _ => rfl
theorem Sys2Proof.Laws.Encodes.imax (o : V2UOp) : Laws.Encodes.Statement (.imax o) := fun _ => rfl
theorem Sys2Proof.Laws.Encodes.ltab (o : V3LOp) : Laws.Encodes.Statement (.ltab o) := fun _ => rfl
theorem Sys2Proof.Laws.Encodes.shl (o : V2Op) : Laws.Encodes.Statement (.shl o) := fun _ => rfl
theorem Sys2Proof.Laws.Encodes.shr (o : V2Op) : Laws.Encodes.Statement (.shr o) := fun _ => rfl
theorem Sys2Proof.Laws.Encodes.sra (o : V2Op) : Laws.Encodes.Statement (.sra o) := fun _ => rfl
theorem Sys2Proof.Laws.Encodes.fshl (o : V3Op) : Laws.Encodes.Statement (.fshl o) := fun h => nomatch h
theorem Sys2Proof.Laws.Encodes.fshr (o : V3Op) : Laws.Encodes.Statement (.fshr o) := fun h => nomatch h
theorem Sys2Proof.Laws.Encodes.bfe (o : V2UOp) : Laws.Encodes.Statement (.bfe o) := fun h => nomatch h
theorem Sys2Proof.Laws.Encodes.bfi (o : V3Op) : Laws.Encodes.Statement (.bfi o) := fun h => nomatch h
theorem Sys2Proof.Laws.Encodes.brev (o : V1Op) : Laws.Encodes.Statement (.brev o) := fun h => nomatch h
theorem Sys2Proof.Laws.Encodes.popc (o : V1Op) : Laws.Encodes.Statement (.popc o) := fun h => nomatch h
theorem Sys2Proof.Laws.Encodes.clz (o : V1Op) : Laws.Encodes.Statement (.clz o) := fun h => nomatch h
theorem Sys2Proof.Laws.Encodes.bmix (o : V3Op) : Laws.Encodes.Statement (.bmix o) := fun h => nomatch h
theorem Sys2Proof.Laws.Encodes.icmp (o : IcmpOp) : Laws.Encodes.Statement (.icmp o) := fun h => nomatch h
theorem Sys2Proof.Laws.Encodes.sel (o : SelOp) : Laws.Encodes.Statement (.sel o) := fun h => nomatch h
theorem Sys2Proof.Laws.Encodes.mov (o : DVOp) : Laws.Encodes.Statement (.mov o) := fun h => nomatch h
theorem Sys2Proof.Laws.Encodes.movi (o : V1Op) : Laws.Encodes.Statement (.movi o) := fun _ => rfl
theorem Sys2Proof.Laws.Encodes.movs (o : MovsOp) : Laws.Encodes.Statement (.movs o) := fun h => nomatch h
theorem Sys2Proof.Laws.Encodes.movxTox (o : DVOp) : Laws.Encodes.Statement (.movxTox o) := fun h => nomatch h
theorem Sys2Proof.Laws.Encodes.movxFromx (o : DAOp) : Laws.Encodes.Statement (.movxFromx o) := fun h => nomatch h
theorem Sys2Proof.Laws.Encodes.fadd (o : F2Op) : Laws.Encodes.Statement (.fadd o) := fun _ => rfl
theorem Sys2Proof.Laws.Encodes.fsub (o : F2Op) : Laws.Encodes.Statement (.fsub o) := fun _ => rfl
theorem Sys2Proof.Laws.Encodes.fmul (o : F2Op) : Laws.Encodes.Statement (.fmul o) := fun _ => rfl
theorem Sys2Proof.Laws.Encodes.fma (o : F3Op) : Laws.Encodes.Statement (.fma o) := fun h => nomatch h
theorem Sys2Proof.Laws.Encodes.fmin (o : F2Op) : Laws.Encodes.Statement (.fmin o) := fun _ => rfl
theorem Sys2Proof.Laws.Encodes.fmax (o : F2Op) : Laws.Encodes.Statement (.fmax o) := fun _ => rfl
theorem Sys2Proof.Laws.Encodes.fcmp (o : FcmpOp) : Laws.Encodes.Statement (.fcmp o) := fun h => nomatch h
theorem Sys2Proof.Laws.Encodes.fclass (o : FclassOp) : Laws.Encodes.Statement (.fclass o) := fun h => nomatch h
theorem Sys2Proof.Laws.Encodes.frint (o : FrintOp) : Laws.Encodes.Statement (.frint o) := fun h => nomatch h
theorem Sys2Proof.Laws.Encodes.fscale (o : FscaleOp) : Laws.Encodes.Statement (.fscale o) := fun _ => rfl
theorem Sys2Proof.Laws.Encodes.cvt (o : CvtOp) : Laws.Encodes.Statement (.cvt o) := fun _ => rfl
theorem Sys2Proof.Laws.Encodes.cvtef (o : CvtefOp) : Laws.Encodes.Statement (.cvtef o) := fun h => nomatch h
theorem Sys2Proof.Laws.Encodes.pack (o : PackOp) : Laws.Encodes.Statement (.pack o) := fun h => nomatch h
theorem Sys2Proof.Laws.Encodes.unpack (o : UnpackOp) : Laws.Encodes.Statement (.unpack o) := fun h => nomatch h
theorem Sys2Proof.Laws.Encodes.fdrw (o : FdrwOp) : Laws.Encodes.Statement (.fdrw o) := fun h => nomatch h
theorem Sys2Proof.Laws.Encodes.fdrr (o : FdrrOp) : Laws.Encodes.Statement (.fdrr o) := fun h => nomatch h
theorem Sys2Proof.Laws.Encodes.rcp (o : F1Op) : Laws.Encodes.Statement (.rcp o) := fun _ => rfl
theorem Sys2Proof.Laws.Encodes.rsq (o : F1Op) : Laws.Encodes.Statement (.rsq o) := fun _ => rfl
theorem Sys2Proof.Laws.Encodes.sqrt (o : F1Op) : Laws.Encodes.Statement (.sqrt o) := fun _ => rfl
theorem Sys2Proof.Laws.Encodes.exp2 (o : F1Op) : Laws.Encodes.Statement (.exp2 o) := fun _ => rfl
theorem Sys2Proof.Laws.Encodes.log2 (o : F1Op) : Laws.Encodes.Statement (.log2 o) := fun _ => rfl
theorem Sys2Proof.Laws.Encodes.sin (o : F1Op) : Laws.Encodes.Statement (.sin o) := fun _ => rfl
theorem Sys2Proof.Laws.Encodes.cos (o : F1Op) : Laws.Encodes.Statement (.cos o) := fun _ => rfl
theorem Sys2Proof.Laws.Encodes.tanh (o : F1Op) : Laws.Encodes.Statement (.tanh o) := fun _ => rfl
theorem Sys2Proof.Laws.Encodes.div (o : F2Op) : Laws.Encodes.Statement (.div o) := fun _ => rfl
theorem Sys2Proof.Laws.Encodes.redl (o : RedlOp) : Laws.Encodes.Statement (.redl o) := fun h => nomatch h
theorem Sys2Proof.Laws.Encodes.scanl (o : ScanlOp) : Laws.Encodes.Statement (.scanl o) := fun h => nomatch h
theorem Sys2Proof.Laws.Encodes.matchv (o : MatchOp) : Laws.Encodes.Statement (.matchv o) := fun h => nomatch h
theorem Sys2Proof.Laws.Encodes.bdec (o : BdecOp) : Laws.Encodes.Statement (.bdec o) := fun h => nomatch h
theorem Sys2Proof.Laws.Encodes.ld (o : MemOp) : Laws.Encodes.Statement (.ld o) := fun h => nomatch h
theorem Sys2Proof.Laws.Encodes.st (o : MemOp) : Laws.Encodes.Statement (.st o) := fun h => nomatch h
theorem Sys2Proof.Laws.Encodes.ldp (o : PMemOp) : Laws.Encodes.Statement (.ldp o) := fun h => nomatch h
theorem Sys2Proof.Laws.Encodes.stp (o : PMemOp) : Laws.Encodes.Statement (.stp o) := fun h => nomatch h
theorem Sys2Proof.Laws.Encodes.stm (o : StmOp) : Laws.Encodes.Statement (.stm o) := fun h => nomatch h
theorem Sys2Proof.Laws.Encodes.ldl (o : LMemOp) : Laws.Encodes.Statement (.ldl o) := fun h => nomatch h
theorem Sys2Proof.Laws.Encodes.stl (o : LMemOp) : Laws.Encodes.Statement (.stl o) := fun h => nomatch h
theorem Sys2Proof.Laws.Encodes.ldx (o : XMemOp) : Laws.Encodes.Statement (.ldx o) := fun h => nomatch h
theorem Sys2Proof.Laws.Encodes.stx (o : XMemOp) : Laws.Encodes.Statement (.stx o) := fun h => nomatch h
theorem Sys2Proof.Laws.Encodes.sld (o : SMemOp) : Laws.Encodes.Statement (.sld o) := fun h => nomatch h
theorem Sys2Proof.Laws.Encodes.sst (o : SMemOp) : Laws.Encodes.Statement (.sst o) := fun h => nomatch h
theorem Sys2Proof.Laws.Encodes.atom (o : AtomOp) : Laws.Encodes.Statement (.atom o) := fun h => nomatch h
theorem Sys2Proof.Laws.Encodes.red (o : RedMemOp) : Laws.Encodes.Statement (.red o) := fun h => nomatch h
theorem Sys2Proof.Laws.Encodes.redD (o : RedDOp) : Laws.Encodes.Statement (.redD o) := fun h => nomatch h
theorem Sys2Proof.Laws.Encodes.dflush (o : DflushOp) : Laws.Encodes.Statement (.dflush o) := fun h => nomatch h
theorem Sys2Proof.Laws.Encodes.fence (o : FenceOp) : Laws.Encodes.Statement (.fence o) := fun h => nomatch h
theorem Sys2Proof.Laws.Encodes.mwait (o : MwaitOp) : Laws.Encodes.Statement (.mwait o) := fun h => nomatch h
theorem Sys2Proof.Laws.Encodes.pref (o : PrefOp) : Laws.Encodes.Statement (.pref o) := fun h => nomatch h
theorem Sys2Proof.Laws.Encodes.cctl (o : CctlOp) : Laws.Encodes.Statement (.cctl o) := fun h => nomatch h
theorem Sys2Proof.Laws.Encodes.mma (o : MmaOp) : Laws.Encodes.Statement (.mma o) := fun h => nomatch h
theorem Sys2Proof.Laws.Encodes.mtree (o : MtreeOp) : Laws.Encodes.Statement (.mtree o) := fun h => nomatch h
theorem Sys2Proof.Laws.Encodes.amld (o : AmldOp) : Laws.Encodes.Statement (.amld o) := fun h => nomatch h
theorem Sys2Proof.Laws.Encodes.amst (o : AmstOp) : Laws.Encodes.Statement (.amst o) := fun h => nomatch h
theorem Sys2Proof.Laws.Encodes.amz (o : AmzOp) : Laws.Encodes.Statement (.amz o) := fun h => nomatch h
theorem Sys2Proof.Laws.Encodes.amcvt (o : AmcvtOp) : Laws.Encodes.Statement (.amcvt o) := fun h => nomatch h
theorem Sys2Proof.Laws.Encodes.copy (o : CopyOp) : Laws.Encodes.Statement (.copy o) := fun h => nomatch h
theorem Sys2Proof.Laws.Encodes.cpyb (o : CpybOp) : Laws.Encodes.Statement (.cpyb o) := fun h => nomatch h
theorem Sys2Proof.Laws.Encodes.waitb (o : WaitbOp) : Laws.Encodes.Statement (.waitb o) := fun h => nomatch h
theorem Sys2Proof.Laws.Encodes.bari (o : BariOp) : Laws.Encodes.Statement (.bari o) := fun h => nomatch h
theorem Sys2Proof.Laws.Encodes.bara (o : BaraOp) : Laws.Encodes.Statement (.bara o) := fun h => nomatch h
theorem Sys2Proof.Laws.Encodes.barw (o : BarwOp) : Laws.Encodes.Statement (.barw o) := fun h => nomatch h
theorem Sys2Proof.Laws.Encodes.bart (o : BarwOp) : Laws.Encodes.Statement (.bart o) := fun h => nomatch h
theorem Sys2Proof.Laws.Encodes.launch (o : LaunchOp) : Laws.Encodes.Statement (.launch o) := fun h => nomatch h
theorem Sys2Proof.Laws.Encodes.lwait (o : LwaitOp) : Laws.Encodes.Statement (.lwait o) := fun h => nomatch h
theorem Sys2Proof.Laws.Encodes.trap (o : NOp) : Laws.Encodes.Statement (.trap o) := fun h => nomatch h
theorem Sys2Proof.Laws.Encodes.tret (o : TretOp) : Laws.Encodes.Statement (.tret o) := fun h => nomatch h
theorem Sys2Proof.Laws.Encodes.tkill (o : NOp) : Laws.Encodes.Statement (.tkill o) := fun h => nomatch h
theorem Sys2Proof.Laws.Encodes.brk (o : NOp) : Laws.Encodes.Statement (.brk o) := fun h => nomatch h
theorem Sys2Proof.Laws.Encodes.srd (o : SrdOp) : Laws.Encodes.Statement (.srd o) := fun h => nomatch h
theorem Sys2Proof.Laws.Encodes.swr (o : SwrOp) : Laws.Encodes.Statement (.swr o) := fun h => nomatch h
theorem Sys2Proof.Laws.Encodes.sgetl (o : SgetlOp) : Laws.Encodes.Statement (.sgetl o) := fun h => nomatch h
theorem Sys2Proof.Laws.Encodes.sputl (o : SputlOp) : Laws.Encodes.Statement (.sputl o) := fun h => nomatch h
theorem Sys2Proof.Laws.Encodes.sgetp (o : SgetpOp) : Laws.Encodes.Statement (.sgetp o) := fun h => nomatch h
theorem Sys2Proof.Laws.Encodes.sputp (o : SputpOp) : Laws.Encodes.Statement (.sputp o) := fun h => nomatch h
theorem Sys2Proof.Laws.Encodes.clauseStart (r : SplitRef) : Laws.Encodes.Statement (.clauseStart r) := fun h => nomatch h
theorem Sys2Proof.Laws.Encodes.activeSetSwap (r : FlockRef) : Laws.Encodes.Statement (.activeSetSwap r) := fun h => nomatch h
theorem Sys2Proof.Laws.Encodes.pendingReadyTimeout (core quad : Nat) : Laws.Encodes.Statement (.pendingReadyTimeout core quad) := fun h => nomatch h
theorem Sys2Proof.Laws.Encodes.loadLand (r : FlockRef) (op lane : Nat) : Laws.Encodes.Statement (.loadLand r op lane) := fun h => nomatch h
theorem Sys2Proof.Laws.Encodes.storePerformed (r : FlockRef) (op : Nat) : Laws.Encodes.Statement (.storePerformed r op) := fun h => nomatch h
theorem Sys2Proof.Laws.Encodes.pageWalkComplete (r : WalkRef) (acc : Access) (va : Nat) : Laws.Encodes.Statement (.pageWalkComplete r acc va) := fun h => nomatch h
theorem Sys2Proof.Laws.Encodes.faultTimeout (ctx fid : Nat) : Laws.Encodes.Statement (.faultTimeout ctx fid) := fun h => nomatch h
theorem Sys2Proof.Laws.Encodes.l1Eviction (core line : Nat) : Laws.Encodes.Statement (.l1Eviction core line) := fun h => nomatch h
theorem Sys2Proof.Laws.Encodes.engineCommandStart (core cmd : Nat) : Laws.Encodes.Statement (.engineCommandStart core cmd) := fun h => nomatch h
theorem Sys2Proof.Laws.Encodes.mmaStepEnd (core cmd : Nat) : Laws.Encodes.Statement (.mmaStepEnd core cmd) := fun h => nomatch h
theorem Sys2Proof.Laws.Encodes.mmaComplete (core cmd : Nat) : Laws.Encodes.Statement (.mmaComplete core cmd) := fun h => nomatch h
theorem Sys2Proof.Laws.Encodes.mtreeExecute (core cmd : Nat) : Laws.Encodes.Statement (.mtreeExecute core cmd) := fun h => nomatch h
theorem Sys2Proof.Laws.Encodes.amMoveComplete (core cmd : Nat) : Laws.Encodes.Statement (.amMoveComplete core cmd) := fun h => nomatch h
theorem Sys2Proof.Laws.Encodes.copyItemEnd (core cmd item : Nat) : Laws.Encodes.Statement (.copyItemEnd core cmd item) := fun h => nomatch h
theorem Sys2Proof.Laws.Encodes.copyFinish (core cmd : Nat) : Laws.Encodes.Statement (.copyFinish core cmd) := fun h => nomatch h
theorem Sys2Proof.Laws.Encodes.drbDrain (fold : Nat) : Laws.Encodes.Statement (.drbDrain fold) := fun h => nomatch h
theorem Sys2Proof.Laws.Encodes.redDApply (r : FlockRef) (scope : BitVec 4) (gen : Nat) : Laws.Encodes.Statement (.redDApply r scope gen) := fun h => nomatch h
theorem Sys2Proof.Laws.Encodes.launchStart (ctx item : Nat) : Laws.Encodes.Statement (.launchStart ctx item) := fun h => nomatch h
theorem Sys2Proof.Laws.Encodes.stepStart (launch : Nat) : Laws.Encodes.Statement (.stepStart launch) := fun h => nomatch h
theorem Sys2Proof.Laws.Encodes.foldDispatch (die : Nat) : Laws.Encodes.Statement (.foldDispatch die) := fun h => nomatch h
theorem Sys2Proof.Laws.Encodes.dispatchStarvationTimeout (die : Nat) : Laws.Encodes.Statement (.dispatchStarvationTimeout die) := fun h => nomatch h
theorem Sys2Proof.Laws.Encodes.foldRetire (fold : Nat) : Laws.Encodes.Statement (.foldRetire fold) := fun h => nomatch h
theorem Sys2Proof.Laws.Encodes.foldSwapOut (fold : Nat) : Laws.Encodes.Statement (.foldSwapOut fold) := fun h => nomatch h
theorem Sys2Proof.Laws.Encodes.preemptRequest (die : Nat) : Laws.Encodes.Statement (.preemptRequest die) := fun h => nomatch h
theorem Sys2Proof.Laws.Encodes.sliceTimerExpiry (ctx die : Nat) : Laws.Encodes.Statement (.sliceTimerExpiry ctx die) := fun h => nomatch h
theorem Sys2Proof.Laws.Encodes.flockPreemptStop (r : FlockRef) : Laws.Encodes.Statement (.flockPreemptStop r) := fun h => nomatch h
theorem Sys2Proof.Laws.Encodes.fleeceWrite (fold : Nat) : Laws.Encodes.Statement (.fleeceWrite fold) := fun h => nomatch h
theorem Sys2Proof.Laws.Encodes.foldRestore (die : Nat) : Laws.Encodes.Statement (.foldRestore die) := fun h => nomatch h
theorem Sys2Proof.Laws.Encodes.watchdog (fold : Nat) : Laws.Encodes.Statement (.watchdog fold) := fun h => nomatch h
theorem Sys2Proof.Laws.Encodes.sampleTag (core quad : Nat) : Laws.Encodes.Statement (.sampleTag core quad) := fun h => nomatch h
theorem Sys2Proof.Laws.Encodes.sampleRecord (core quad : Nat) : Laws.Encodes.Statement (.sampleRecord core quad) := fun h => nomatch h
theorem Sys2Proof.Laws.Encodes.powerAlarmRaise (die : Nat) : Laws.Encodes.Statement (.powerAlarmRaise die) := fun h => nomatch h
theorem Sys2Proof.Laws.Encodes.powerAlarmClear (die : Nat) : Laws.Encodes.Statement (.powerAlarmClear die) := fun h => nomatch h
theorem Sys2Proof.Laws.Encodes.engineWiden (core : Nat) : Laws.Encodes.Statement (.engineWiden core) := fun h => nomatch h
theorem Sys2Proof.Laws.Encodes.thermtrip (die : Nat) : Laws.Encodes.Statement (.thermtrip die) := fun h => nomatch h
theorem Sys2Proof.Laws.Encodes.powerOnBoot : Laws.Encodes.Statement .powerOnBoot := fun h => nomatch h
theorem Sys2Proof.Laws.Encodes.connectionSetup (ep : Nat) : Laws.Encodes.Statement (.connectionSetup ep) := fun h => nomatch h
theorem Sys2Proof.Laws.Encodes.rdmaWrite (ep va : Nat) (rkey : BitVec 32) (bytes : List Byte) : Laws.Encodes.Statement (.rdmaWrite ep va rkey bytes) := fun h => nomatch h
theorem Sys2Proof.Laws.Encodes.rdmaRead (ep va len : Nat) (rkey : BitVec 32) : Laws.Encodes.Statement (.rdmaRead ep va len rkey) := fun h => nomatch h
theorem Sys2Proof.Laws.Encodes.rdmaInvalidRequest (ep : Nat) : Laws.Encodes.Statement (.rdmaInvalidRequest ep) := fun h => nomatch h
theorem Sys2Proof.Laws.Encodes.peerAccess (req : PeerReq) : Laws.Encodes.Statement (.peerAccess req) := fun h => nomatch h
theorem Sys2Proof.Laws.Encodes.ualinkLinkDrop (port : Nat) : Laws.Encodes.Statement (.ualinkLinkDrop port) := fun h => nomatch h
theorem Sys2Proof.Laws.Encodes.launchMessage (m : Msg) (addr : DWord) : Laws.Encodes.Statement (.launchMessage m addr) := fun h => nomatch h
theorem Sys2Proof.Laws.Encodes.copyMessage (m : Msg) (a : CopyArgs) : Laws.Encodes.Statement (.copyMessage m a) := fun h => nomatch h
theorem Sys2Proof.Laws.Encodes.mapInvalidate (m : Msg) (h : MapHead) (r : MapRange) : Laws.Encodes.Statement (.mapInvalidate m h r) := fun h => nomatch h
theorem Sys2Proof.Laws.Encodes.mapUnresolvable (m : Msg) (a : MapArgs) : Laws.Encodes.Statement (.mapUnresolvable m a) := fun h => nomatch h
theorem Sys2Proof.Laws.Encodes.contextCreate (m : Msg) (a : CtxArgs) : Laws.Encodes.Statement (.contextCreate m a) := fun h => nomatch h
theorem Sys2Proof.Laws.Encodes.contextDestroy (m : Msg) (a : CtxArgs) : Laws.Encodes.Statement (.contextDestroy m a) := fun h => nomatch h
theorem Sys2Proof.Laws.Encodes.contextModify (m : Msg) (a : CtxArgs) : Laws.Encodes.Statement (.contextModify m a) := fun h => nomatch h
theorem Sys2Proof.Laws.Encodes.contextPreempt (m : Msg) (a : CtxArgs) : Laws.Encodes.Statement (.contextPreempt m a) := fun h => nomatch h
theorem Sys2Proof.Laws.Encodes.queryL2Counters (m : Msg) (q : QueryArgs) : Laws.Encodes.Statement (.queryL2Counters m q) := fun h => nomatch h
theorem Sys2Proof.Laws.Encodes.queryCoreCounters (m : Msg) (q : QueryArgs) : Laws.Encodes.Statement (.queryCoreCounters m q) := fun h => nomatch h
theorem Sys2Proof.Laws.Encodes.queryTrace (m : Msg) (q : QueryArgs) : Laws.Encodes.Statement (.queryTrace m q) := fun h => nomatch h
theorem Sys2Proof.Laws.Encodes.queryPower (m : Msg) (q : QueryArgs) : Laws.Encodes.Statement (.queryPower m q) := fun h => nomatch h
theorem Sys2Proof.Laws.Encodes.querySoftErrors (m : Msg) (q : QueryArgs) : Laws.Encodes.Statement (.querySoftErrors m q) := fun h => nomatch h
theorem Sys2Proof.Laws.Encodes.queryAttestation (m : Msg) (q : QueryArgs) (nonce : List Byte) : Laws.Encodes.Statement (.queryAttestation m q nonce) := fun h => nomatch h
theorem Sys2Proof.Laws.Encodes.queryJournalHead (m : Msg) (q : QueryArgs) : Laws.Encodes.Statement (.queryJournalHead m q) := fun h => nomatch h
theorem Sys2Proof.Laws.Encodes.queryRoutingRead (m : Msg) (q : QueryArgs) : Laws.Encodes.Statement (.queryRoutingRead m q) := fun h => nomatch h
theorem Sys2Proof.Laws.Encodes.queryRoutingWrite (m : Msg) (q : QueryArgs) (masks : List DWord) : Laws.Encodes.Statement (.queryRoutingWrite m q masks) := fun h => nomatch h
theorem Sys2Proof.Laws.Encodes.journal (m : Msg) (first : Nat) (count ring : BitVec 32) : Laws.Encodes.Statement (.journal m first count ring) := fun h => nomatch h
theorem Sys2Proof.Laws.Encodes.dieWithdraw (m : Msg) (a : DieArgs) : Laws.Encodes.Statement (.dieWithdraw m a) := fun h => nomatch h
theorem Sys2Proof.Laws.Encodes.dieReadmit (m : Msg) (a : DieArgs) : Laws.Encodes.Statement (.dieReadmit m a) := fun h => nomatch h
theorem Sys2Proof.Laws.Encodes.dieReset (m : Msg) (a : DieArgs) : Laws.Encodes.Statement (.dieReset m a) := fun h => nomatch h
theorem Sys2Proof.Laws.Encodes.dieCarve (m : Msg) (h : DieHead) (carve : BitVec 32) : Laws.Encodes.Statement (.dieCarve m h carve) := fun h => nomatch h
theorem Sys2Proof.Laws.Encodes.diectlStageEnd : Laws.Encodes.Statement .diectlStageEnd := fun h => nomatch h
theorem Sys2Proof.Laws.Encodes.attach (m : Msg) (a : DbgArgs) : Laws.Encodes.Statement (.attach m a) := fun h => nomatch h
theorem Sys2Proof.Laws.Encodes.detach (m : Msg) (a : DbgArgs) : Laws.Encodes.Statement (.detach m a) := fun h => nomatch h
theorem Sys2Proof.Laws.Encodes.halt (m : Msg) (a : DbgArgs) : Laws.Encodes.Statement (.halt m a) := fun h => nomatch h
theorem Sys2Proof.Laws.Encodes.resume (m : Msg) (a : DbgArgs) : Laws.Encodes.Statement (.resume m a) := fun h => nomatch h
theorem Sys2Proof.Laws.Encodes.step (m : Msg) (a : DbgArgs) : Laws.Encodes.Statement (.step m a) := fun h => nomatch h
theorem Sys2Proof.Laws.Encodes.break (m : Msg) (a : DbgArgs) : Laws.Encodes.Statement (.break m a) := fun h => nomatch h
theorem Sys2Proof.Laws.Encodes.unbreak (m : Msg) (a : DbgArgs) : Laws.Encodes.Statement (.unbreak m a) := fun h => nomatch h
theorem Sys2Proof.Laws.Encodes.read (m : Msg) (a : DbgArgs) : Laws.Encodes.Statement (.read m a) := fun h => nomatch h
theorem Sys2Proof.Laws.Encodes.write (m : Msg) (a : DbgArgs) (data : List Byte) : Laws.Encodes.Statement (.write m a data) := fun h => nomatch h
theorem Sys2Proof.Laws.Encodes.pendchk (m : Msg) (a : DbgArgs) : Laws.Encodes.Statement (.pendchk m a) := fun h => nomatch h
theorem Sys2Proof.Laws.Encodes.sample (m : Msg) (a : DbgArgs) : Laws.Encodes.Statement (.sample m a) := fun h => nomatch h
theorem Sys2Proof.Laws.Encodes.connectionClose (ep : Nat) : Laws.Encodes.Statement (.connectionClose ep) := fun h => nomatch h
theorem Sys2Proof.Laws.Encodes.softError (site : ErrSite) : Laws.Encodes.Statement (.softError site) := fun h => nomatch h
theorem Sys2Proof.Laws.Encodes.sidebandNewImage (img : BootImage) : Laws.Encodes.Statement (.sidebandNewImage img) := fun h => nomatch h
end

