-- ==== Sys2Proof/Laws/Registers.lean ====
section
/-! SUPPORT. What the register operations write and what they leave alone. -/

namespace Sys2Proof.Machine

theorem unhit_hitLoads (sc : Bool) (k : Nat) (ls : List PendLoad) :
    (hitLoads sc k ls).map PendLoad.unhit = ls.map PendLoad.unhit := by
  unfold hitLoads
  rw [List.map_map]
  apply List.map_congr_left
  intro p _
  simp only [Function.comp, PendLoad.unhit]
  split
  · simp only [List.map_map]
    congr 1
    apply List.map_congr_left
    intro w _
    simp only [Function.comp]
    split <;> rfl
  · rfl

theorem VecOnly.refl (a : Flock) : VecOnly a a := ⟨rfl, rfl, fun _ h => h⟩

theorem VecOnly.trans {a b c : Flock} (h : VecOnly a b) (k : VecOnly b c) : VecOnly a c :=
  ⟨by rw [k.rest, h.rest], k.loads.trans h.loads, fun m hm => h.marks m (k.marks m hm)⟩

theorem ScalOnly.refl (x : Bool) (a : Flock) : ScalOnly x a a := ⟨rfl, by split <;> rfl, rfl, fun _ h => h⟩

theorem ScalOnly.trans {x : Bool} {a b c : Flock} (h : ScalOnly x a b) (k : ScalOnly x b c) : ScalOnly x a c :=
  ⟨by rw [k.rest, h.rest],
   by have h1 := h.bank; have k1 := k.bank
      cases x
      · exact k1.trans h1
      · exact k1.trans h1,
   k.loads.trans h.loads, fun m hm => h.marks m (k.marks m hm)⟩

/-! ### Vector registers -/

theorem vecOnly_setV (fl : Flock) (r l : Nat) (w : Word) : VecOnly fl (setV fl r l w) :=
  ⟨rfl, unhit_hitLoads _ _ _, fun _ h => List.mem_of_mem_filter h⟩

theorem setV_v (fl : Flock) (r l k : Nat) (w : Word) :
    cget 0 (setV fl r l w).v k = if k = r * 64 + l then w else cget 0 fl.v k := cget_cset 0 fl.v _ _ w

/-- A change of some lanes, one after another. -/
theorem foldl_setV_v (r : Nat) (m : LaneMask) (f : Nat → Word) (k : Nat) :
    ∀ (L : List Nat) (fl : Flock),
      cget 0 (L.foldl (fun u l => if inMask m l then setV u r l (f l) else u) fl).v k
        = if (∃ l ∈ L, inMask m l = true ∧ k = r * 64 + l) then f (k - r * 64) else cget 0 fl.v k := by
  intro L
  induction L with
  | nil => intro fl; simp
  | cons a t ih =>
    intro fl
    rw [List.foldl_cons, ih]
    by_cases ht : ∃ l ∈ t, inMask m l = true ∧ k = r * 64 + l
    · have h2 : ∃ l ∈ a :: t, inMask m l = true ∧ k = r * 64 + l := by
        obtain ⟨l, h, h'⟩ := ht; exact ⟨l, List.mem_cons_of_mem _ h, h'⟩
      rw [if_pos ht, if_pos h2]
    · rw [if_neg ht]
      by_cases ha : inMask m a = true
      · rw [if_pos ha, setV_v]
        by_cases hk : k = r * 64 + a
        · have h2 : ∃ l ∈ a :: t, inMask m l = true ∧ k = r * 64 + l := ⟨a, List.mem_cons_self, ha, hk⟩
          rw [if_pos hk, if_pos h2, hk, Nat.add_sub_cancel_left]
        · have h2 : ¬∃ l ∈ a :: t, inMask m l = true ∧ k = r * 64 + l := by
            rintro ⟨l, h, h1, h3⟩
            rcases List.mem_cons.mp h with rfl | h
            · exact hk h3
            · exact ht ⟨l, h, h1, h3⟩
          rw [if_neg hk, if_neg h2]
      · have h2 : ¬∃ l ∈ a :: t, inMask m l = true ∧ k = r * 64 + l := by
          rintro ⟨l, h, h1, h3⟩
          rcases List.mem_cons.mp h with rfl | h
          · exact ha h1
          · exact ht ⟨l, h, h1, h3⟩
        rw [if_neg ha, if_neg h2]

theorem setLanes_v (fl : Flock) (r : Nat) (m : LaneMask) (f : Nat → Word) (k : Nat) :
    cget 0 (setLanes fl r m f).v k
      = if (∃ l, l < 64 ∧ inMask m l = true ∧ k = r * 64 + l) then f (k - r * 64) else cget 0 fl.v k := by
  unfold setLanes
  rw [foldl_setV_v]
  simp [lanes, List.mem_range]

/-- Every lane of the mask holds its new word, every other lane its old one. -/
theorem setLanes_vec (fl : Flock) (r : Nat) (m : LaneMask) (f : Nat → Word) {l : Nat} (hl : l < 64) :
    vecOf (setLanes fl r m f) r l = if inMask m l then f l else vecOf fl r l := by
  unfold vecOf
  rw [setLanes_v]
  by_cases h : inMask m l = true
  · have : ∃ l', l' < 64 ∧ inMask m l' = true ∧ r * 64 + l = r * 64 + l' := ⟨l, hl, h, rfl⟩
    rw [if_pos this, if_pos h, Nat.add_sub_cancel_left]
  · have : ¬∃ l', l' < 64 ∧ inMask m l' = true ∧ r * 64 + l = r * 64 + l' := by
      rintro ⟨l', -, h1, h2⟩
      have : l = l' := by omega
      exact h (this ▸ h1)
    rw [if_neg this, if_neg h]

/-- No other register changes. -/
theorem setLanes_vec_other (fl : Flock) (r : Nat) (m : LaneMask) (f : Nat → Word) {j l : Nat} (hl : l < 64)
    (hj : j ≠ r) : vecOf (setLanes fl r m f) j l = vecOf fl j l := by
  unfold vecOf
  rw [setLanes_v, if_neg]
  rintro ⟨l', h1, -, h2⟩
  exact hj (by omega)

theorem vecOnly_setLanes (fl : Flock) (r : Nat) (m : LaneMask) (f : Nat → Word) : VecOnly fl (setLanes fl r m f) := by
  unfold setLanes
  generalize lanes = L
  induction L generalizing fl with
  | nil => exact VecOnly.refl fl
  | cons a t ih =>
    rw [List.foldl_cons]
    refine VecOnly.trans ?_ (ih _)
    split
    · exact vecOnly_setV _ _ _ _
    · exact VecOnly.refl _

theorem vecOnly_setLanes2 (fl : Flock) (r : Nat) (m : LaneMask) (f : Nat → DWord) : VecOnly fl (setLanes2 fl r m f) :=
  (vecOnly_setLanes _ _ _ _).trans (vecOnly_setLanes _ _ _ _)

/-- A pair: the low word in the named register and the high word in the next (R87). -/
theorem setLanes2_lo (fl : Flock) (r : Nat) (m : LaneMask) (f : Nat → DWord) {l : Nat} (hl : l < 64) :
    vecOf (setLanes2 fl r m f) r l = if inMask m l then loWord (f l) else vecOf fl r l := by
  unfold setLanes2
  rw [setLanes_vec_other _ _ _ _ hl (by omega), setLanes_vec _ _ _ _ hl]

theorem setLanes2_hi (fl : Flock) (r : Nat) (m : LaneMask) (f : Nat → DWord) {l : Nat} (hl : l < 64) :
    vecOf (setLanes2 fl r m f) (r + 1) l = if inMask m l then hiWord (f l) else vecOf fl (r + 1) l := by
  unfold setLanes2
  rw [setLanes_vec _ _ _ _ hl, setLanes_vec_other _ _ _ _ hl (by omega)]

theorem setLanes2_other (fl : Flock) (r : Nat) (m : LaneMask) (f : Nat → DWord) {j l : Nat} (hl : l < 64)
    (h0 : j ≠ r) (h1 : j ≠ r + 1) : vecOf (setLanes2 fl r m f) j l = vecOf fl j l := by
  unfold setLanes2
  rw [setLanes_vec_other _ _ _ _ hl h1, setLanes_vec_other _ _ _ _ hl h0]

/-! ### Scalar registers -/

theorem setS_scal (e : Env) (fl : Flock) (r j : Nat) (w : Word) :
    scalOf e.hand (setS e fl r w) j = if j = r then w else scalOf e.hand fl j := by
  unfold scalOf setS
  cases h : e.hand
  · simp [cget_cset]
  · simp [cget_cset]

theorem scalOnly_setS (e : Env) (fl : Flock) (r : Nat) (w : Word) : ScalOnly e.hand fl (setS e fl r w) := by
  unfold setS
  cases h : e.hand
  · exact ⟨rfl, rfl, unhit_hitLoads _ _ _, fun _ hm => List.mem_of_mem_filter hm⟩
  · exact ⟨rfl, rfl, rfl, fun _ hm => List.mem_of_mem_filter hm⟩

theorem scalOnly_setS2 (e : Env) (fl : Flock) (r : Nat) (d : DWord) : ScalOnly e.hand fl (setS2 e fl r d) :=
  (scalOnly_setS e fl r _).trans (scalOnly_setS e _ _ _)

theorem setS2_scal (e : Env) (fl : Flock) (r j : Nat) (d : DWord) :
    scalOf e.hand (setS2 e fl r d) j
      = if j = r then loWord d else if j = r + 1 then hiWord d else scalOf e.hand fl j := by
  unfold setS2
  rw [setS_scal, setS_scal]
  by_cases h0 : j = r
  · subst h0; simp
  · simp [h0]

/-! ### Predicates -/

theorem setBit8_get (w : BitVec 8) {i : Nat} (hi : i < 8) (b : Bool) (j : Nat) :
    (setBit8 w i b).getLsbD j = if j = i then b else w.getLsbD j := by
  unfold setBit8
  by_cases hj : j = i
  · subst hj
    cases b
    · simp [hi]
    · simp [hi]
  · have : ¬ i = j := fun h => hj h.symm
    cases b
    · by_cases h8 : j < 8
      · simp [hj, h8]
      · simp [hj, BitVec.getLsbD_of_ge w j (by omega)]
    · simp [hj, this]

theorem setQ_uni (e : Env) (fl : Flock) {r : Nat} (hr : r < 8) (j : Nat) (b : Bool) :
    uniOf e.hand (setQ e fl r b) j = if j = r then b else uniOf e.hand fl j := by
  unfold uniOf setQ
  cases h : e.hand
  · simpa using setBit8_get fl.q hr b j
  · simpa using setBit8_get fl.shq hr b j

theorem uniOnly_setQ (e : Env) (fl : Flock) (r : Nat) (b : Bool) : UniOnly e.hand fl (setQ e fl r b) := by
  unfold setQ
  cases h : e.hand
  · exact ⟨rfl, rfl, unhit_hitLoads _ _ _, fun _ hm => List.mem_of_mem_filter hm⟩
  · exact ⟨rfl, rfl, rfl, fun _ hm => List.mem_of_mem_filter hm⟩

theorem setP_p (fl : Flock) (r j : Nat) (m f : LaneMask) :
    cget 0 (setP fl r m f).p j = if j = r then (cget 0 fl.p r &&& ~~~m) ||| (f &&& m) else cget 0 fl.p j :=
  cget_cset 0 fl.p _ _ _

/-- Lane by lane: the mask's lanes take the new bit. -/
theorem setP_lane (fl : Flock) (r : Nat) (m f : LaneMask) (l : Nat) :
    rdP (setP fl r m f) r l = if inMask m l then inMask f l else rdP fl r l := by
  unfold rdP inMask
  rw [setP_p]
  simp only [if_true, BitVec.getLsbD_or, BitVec.getLsbD_and, BitVec.getLsbD_not]
  by_cases hm : m.getLsbD l = true
  · simp [hm]
  · simp only [Bool.not_eq_true] at hm
    rw [hm]
    by_cases hl : l < 64
    · simp only [hl, decide_true, Bool.not_false, Bool.and_true, Bool.and_false, Bool.or_false, Bool.false_eq_true,
        if_false]
    · rw [BitVec.getLsbD_of_ge (cget 0 fl.p r) l (by omega)]
      simp

end Sys2Proof.Machine
end

