-- ==== Sys2Proof/Tests/Slice0.lean ====
section
/-! SUPPORT. Witnesses of the statements' hypotheses, decoding of words written out from the encodings, terms that
well-formedness refuses, and single steps. -/

set_option Elab.async false

namespace Sys2Proof.Tests

open Machine Slice0

/-! ### Witnesses: states and operands that meet the hypotheses of each statement -/

/-- One flock of one fold, about to issue a bundle (Place.lean). -/
def base : State := State.reset.withFetchWord 128 0

/-- The same after a change of its flock. -/
def withFlock (g : Flock → Flock) : State := onFlock base 0 0 g

/-- What `Ready` asks of an environment, as a Bool. -/
def isReady (g : Guard) (ih : Bool) (n : Names) (e : Env) : Bool :=
  (!e.hand || (ih && g == .always)) && n.regs.all (fun r => r < gRegs e.launch) && (pendReg e n).isNone
    && (sramErr e g n).isNone

theorem ready_of {s : State} {g : Guard} {ih : Bool} {n : Names} {e : Env} (h : envOf s g = some e)
    (k : isReady g ih n e = true) : Ready s g ih n e := by
  simp only [isReady, Bool.and_eq_true, Bool.or_eq_true, Bool.not_eq_true', List.all_eq_true, decide_eq_true_eq,
    Option.isNone_iff_eq_none] at k
  obtain ⟨⟨⟨k1, k2⟩, k3⟩, k4⟩ := k
  exact ⟨h, fun hh => by rcases k1 with k1 | ⟨a, b⟩
                         · rw [hh] at k1; cases k1
                         · exact ⟨a, by simpa using b⟩, k2, k3, k4⟩

/-- The environment of an instruction without a guard in `base`; with the guard `p0`, which is false in every lane. -/
def env : Env := (envOf base .always).get (by decide +kernel)
def env0 : Env := (envOf base (.pred 0 false)).get (by decide +kernel)

theorem env_eq : envOf base .always = some env := (Option.some_get _).symm
theorem env0_eq : envOf base (.pred 0 false) = some env0 := (Option.some_get _).symm

/-- The flock in a handler. -/
def handState : State := withFlock (fun fl => { fl with
  trap := { fl.trap with split := BitVec.allOnes 64 }, handler := some { sp := placedSplit false, index := 0 } })
def handEnv : Env := (envOf handState .always).get (by decide +kernel)
theorem handEnv_eq : envOf handState .always = some handEnv := (Option.some_get _).symm

/-- A debugger is attached. -/
def dbgState : State := { base with ctxs := base.ctxs.map (fun c => { c with attached := true }) }
def dbgEnv' : Env := (envOf dbgState .always).get (by decide +kernel)
theorem dbgEnv_eq : envOf dbgState .always = some dbgEnv' := (Option.some_get _).symm

/-- The split stands behind the head of a safe point: a map at 0x1200 names it. -/
def safeState : State :=
  { dbgState with
    launches := dbgState.launches.map (fun l => { l with kernel := 0xF00, safemap := 0x1200 }),
    mem := csetList 0 (csetList 0 base.mem 0x1204 [1]) 0x1214 [0xF0],
    folds := (withFlock (fun fl => { fl with
      splits := [{ placedSplit false with stop := some 0, first := true }] })).folds }
def safeEnv : Env := (envOf safeState .always).get (by decide +kernel)
theorem safeEnv_eq : envOf safeState .always = some safeEnv := (Option.some_get _).symm

theorem witness_ScalarWordResults : ∃ i row, scalRow base env i = some row ∧ Ready base row.g row.ih row.names env :=
  ⟨.sadd ⟨.always, 127, 0, .imm 1⟩, _, rfl, ready_of env_eq (by decide +kernel)⟩

theorem witness_ScalarWordResults_pair : ∃ i row, pairRow base env i = some row ∧ Ready base row.g row.ih row.names env :=
  ⟨.sadd64 ⟨.always, 126, 0, .s 2⟩, _, rfl, ready_of env_eq (by decide +kernel)⟩

theorem witness_PredicateResults :
    (∃ i row, uniRow env i = some row ∧ row.d < 8 ∧ Ready base row.g row.ih row.names env) ∧
    ∃ i row, predRow env i = some row ∧ Ready base row.g row.ih row.names env :=
  ⟨⟨.scmp ⟨.always, .ltu, 7, 0, .s 127⟩, _, rfl, by decide, ready_of env_eq (by decide +kernel)⟩,
   ⟨.icmp ⟨.always, .lt, 23, .v 255 0, .imm 0⟩, _, rfl, ready_of env_eq (by decide +kernel)⟩⟩

theorem witness_VectorWordResults : ∃ i row, vecRow base env i = some row ∧ Ready base row.g row.ih row.names env :=
  ⟨.iadd ⟨.always, 255, .v 254 0, .s 0⟩, _, rfl, ready_of env_eq (by decide +kernel)⟩

theorem witness_VectorWordResults_pair :
    ∃ i row, vecPairRow base env i = some row ∧ Ready base row.g row.ih row.names env :=
  ⟨.imadw ⟨.always, true, 254, .v 0 0, .v 1 0, .v 2 0⟩, _, rfl, ready_of env_eq (by decide +kernel)⟩

theorem witness_CarryResults : ∃ i o f, carryRow i = some (o, f) ∧
    Ready base o.g false { srcNames 1 [o.a, o.b] with vw := [o.d.toNat], pr := (o.pi.map (fun p => p.toNat)).toList } env :=
  ⟨.iaddc ⟨.always, 0, some 23, .v 0 0, .v 1 0, some 0⟩, _, _, rfl, ready_of env_eq (by decide +kernel)⟩

theorem witness_ElementResults : ∃ i row, elemRow base env i = some row ∧ Ready base row.g false row.names env :=
  ⟨.fadd ⟨.always, 0, false, none, 0, ⟨.v 1 0, true, false⟩, ⟨.v 2 0, false, true⟩⟩, _, rfl,
   ready_of env_eq (by decide +kernel)⟩

theorem witness_ElementsWritten : ∃ w : Nat, w ≤ 32 ∧ (slotFdr env 0).w = w := ⟨_, by decide +kernel, rfl⟩

theorem witness_ConversionResults : ∃ i o, cvtArgs i = some o ∧ Ready base o.g false (cvtNames base o) env ∧
    cvtFormat env o (cvtIdx env o.row o.part (slotFdr env o.cs).w (slotFdr env o.fs).w) = none :=
  ⟨.cvt ⟨.always, 0, false, 1, 0, 0, .v 1 0, 0, 0, none, false⟩, _, rfl, ready_of env_eq (by decide +kernel),
   by decide +kernel⟩

/-- Slot 3 names itself as its scale slot. -/
def slotState : State := withFlock (fun fl => { fl with f := cset 0 fl.f 3 (0xA1FEF1 + 0x1300_0000_0000) })
def slotEnv : Env := (envOf slotState .always).get (by decide +kernel)
theorem slotEnv_eq : envOf slotState .always = some slotEnv := (Option.some_get _).symm

theorem witness_ConversionResults_format : ∃ o z,
    cvtArgs (.cvt ⟨.always, 3, false, 0, 0, 0, .v 1 0, 0, 0, none, false⟩) = some o ∧
      Ready slotState o.g false (cvtNames slotState o) slotEnv ∧ slotEnv.act ≠ 0 ∧
      cvtFormat slotEnv o (cvtIdx slotEnv o.row o.part (slotFdr slotEnv o.cs).w (slotFdr slotEnv o.fs).w) = some z :=
  ⟨_, 3, rfl, ready_of slotEnv_eq (by decide +kernel), by decide +kernel, by decide +kernel⟩

theorem witness_ConversionResults_pack : ∃ o : PackOp,
    let w := (slotFdr env o.fs).w
    let ls := packLanes env w (o.k.toNat * 64)
    Ready base o.g false
      ((rowWrites w o.d.toNat (ls.map (fun l => o.k.toNat * 64 + l))).also
        (routedReads env o.a o.rt (ls.map (fun l => (l, l))))) env ∧ w ≤ 32 :=
  ⟨⟨.always, 0, 0, 0, 1, 0⟩, ready_of env_eq (by decide +kernel), by decide +kernel⟩

theorem witness_CrossLaneResults :
    (∃ o : RedlOp, o.seg ≠ 7 ∧ Ready base o.g false { srcNames 1 [o.a] with vw := [o.d.toNat] } env) ∧
    ∃ o : ScanlOp, o.seg ≠ 7 ∧ Ready base o.g false { srcNames 1 [o.a] with vw := [o.d.toNat] } env :=
  ⟨⟨⟨.always, 0, .iadd, 6, 0, .v 1 0⟩, by decide, ready_of env_eq (by decide +kernel)⟩,
   ⟨⟨.always, 0, .fadd, 0, true, 0, .v 1 0⟩, by decide, ready_of env_eq (by decide +kernel)⟩⟩

theorem witness_ReductionOperations : ∃ (o : RedlOp) (l : Nat), l < 64 ∧ inMask env.act l = true ∧
    o.op ∈ [RedOp.iadd, .and, .or, .xor] := ⟨⟨.always, 0, .and, 0, 0, .v 1 0⟩, 63, by decide +kernel⟩

theorem witness_CrossLaneResults_match : ∃ o : MatchOp, Ready base o.g false
    { srcNames (if o.pair then 2 else 1) [.v o.a o.rt] with vw := [o.d.toNat, o.d.toNat + 1] } env :=
  ⟨⟨.always, true, some 23, 254, 2, 0⟩, ready_of env_eq (by decide +kernel)⟩

theorem witness_SmallFileMoves :
    (∃ o : VOp, Ready base o.g false (srcNames 1 [.v o.a o.rt]) env) ∧
    ∃ o : DVOp, Ready base o.g false (srcNames 1 [.v o.a o.rt]) env :=
  ⟨⟨⟨.always, 255, 0⟩, ready_of env_eq (by decide +kernel)⟩,
   ⟨⟨.always, 3, 255, 0⟩, ready_of env_eq (by decide +kernel)⟩⟩

theorem witness_SystemWrites :
    (∃ o : SwrOp, o.n = 0x11 ∧ Ready base o.g true (srcNames 1 [o.a]) env) ∧
    (∃ o : SputlOp, o.own = false ∧ Ready base o.g true
      { wx := if o.own then [] else [(laneOf env 1 o.l, o.d.toNat, laneOf env 1 o.l)],
        vn := if o.own then [] else [o.d.toNat], s := o.a.toNat :: sOf 1 o.l,
        osw := if o.own then [o.d.toNat] else [] } env) ∧
    (∃ o : SputlOp, o.own = true ∧ Ready handState o.g true
      { wx := if o.own then [] else [(laneOf handEnv 1 o.l, o.d.toNat, laneOf handEnv 1 o.l)],
        vn := if o.own then [] else [o.d.toNat], s := o.a.toNat :: sOf 1 o.l,
        osw := if o.own then [o.d.toNat] else [] } handEnv) ∧
    (∃ o : SputpOp, Ready base o.g true
      { s := o.a.toNat :: (optSrc o.l).flatMap (sOf 1), osw := qKeys o.which } env) ∧
    ∃ o : FdrwOp, Ready base o.g false (srcNames 2 [o.a]) env ∧ env.act ≠ 0 :=
  ⟨⟨⟨.always, 0x11, .v 1 0⟩, rfl, ready_of env_eq (by decide +kernel)⟩,
   ⟨⟨.always, false, 255, 0, .imm 63⟩, rfl, ready_of env_eq (by decide +kernel)⟩,
   ⟨⟨.always, true, 127, 0, .imm 0⟩, rfl, ready_of handEnv_eq (by decide +kernel)⟩,
   ⟨⟨.always, .preds, 0, some (.imm 64)⟩, ready_of env_eq (by decide +kernel)⟩,
   ⟨⟨.always, 15, .s 0⟩, ready_of env_eq (by decide +kernel), by decide +kernel⟩⟩

theorem witness_RegisterOnlyFrame : ∃ i t, registerOnly i = true ∧ exec i base = .next t :=
  ⟨.nop ⟨.always⟩, _, rfl, rfl⟩

theorem witness_BranchResults :
    (∃ o : BraOp, Ready base o.g true { s := (o.cond.map (fun c => [qKey c.1.toNat])).getD [] } env) ∧
    ∃ o : AOp, Ready base o.g true { s := [o.a.toNat, o.a.toNat + 1] } env :=
  ⟨⟨⟨.always, some (7, true), 0x40⟩, ready_of env_eq (by decide +kernel)⟩,
   ⟨⟨.always, 126⟩, ready_of env_eq (by decide +kernel)⟩⟩

theorem witness_LoopResults :
    (∃ o : DDispOp, Ready base o.g true { s := [o.d.toNat], sw := [o.d.toNat] } env ∧ env.act ≠ 0) ∧
    ∃ o : DDispOp, Ready base o.g true { s := [o.d.toNat], sw := [o.d.toNat] } env0 ∧ env0.act = 0 :=
  ⟨⟨⟨.always, 127, 0⟩, ready_of env_eq (by decide +kernel), by decide +kernel⟩,
   ⟨⟨.pred 0 false, 127, 0⟩, ready_of env0_eq (by decide +kernel), by decide +kernel⟩⟩

/-- Four live splits of 16 lanes, and a full stack; p0 holds in lane 0. -/
def fullState : State := withFlock (fun fl => { fl with
  p := [(0, 1)],
  splits := (List.range 4).map (fun i => { placedSplit false with mask := (0xFFFF#64) <<< (16 * i) }),
  stack := List.replicate 256 { pc := 0x2000, mask := 0, path := [], pass := false }, hw := 32 })
def fullEnv : Env := (envOf fullState .always).get (by decide +kernel)
theorem fullEnv_eq : envOf fullState .always = some fullEnv := (Option.some_get _).symm

theorem witness_DivideResults :
    (∃ i g n fl taken dest, divideRow env i = some (g, n, fl, taken, dest) ∧ Ready base g false n env ∧
      env.fold.fail = none ∧ fl.splits.length < 4) ∧
    ∃ i g n fl taken dest, divideRow fullEnv i = some (g, n, fl, taken, dest) ∧ Ready fullState g false n fullEnv ∧
      fullEnv.fold.fail = none ∧ 4 ≤ fl.splits.length ∧ 256 ≤ fl.stack.length ∧ taken ≠ 0 ∧
      fullEnv.mask &&& ~~~taken ≠ 0 :=
  ⟨⟨.call ⟨.always, 2, 0x100⟩, _, _, _, _, _, rfl, ready_of env_eq (by decide +kernel), by decide +kernel⟩,
   ⟨.brx ⟨.always, 0, false, 0x100⟩, _, _, _, _, _, rfl, ready_of fullEnv_eq (by decide +kernel), by decide +kernel⟩⟩

/-- As `fullState`, with a return address in v0:v1 of lane 1. -/
def retState : State := onFlock fullState 0 0 (fun fl => { fl with v := [(1, 0x3000)] })
def retEnv : Env := (envOf retState .always).get (by decide +kernel)
theorem retEnv_eq : envOf retState .always = some retEnv := (Option.some_get _).symm

theorem retState_deep : 256 < retEnv.fl.stack.length + (retPush retEnv 0).length := by decide +kernel

/-- The names of `ret v0`. -/
def ret0 : Names := { vr := [(0, 0), (1, 0)] }

theorem retState_none : retPush env 0 = [] := by decide +kernel

theorem witness_ReturnResults : ∃ (o : AOp) (r : State × Flock),
    Ready base o.g false { vr := [(o.a.toNat, 0), (o.a.toNat + 1, 0)] } env ∧
      env.fl.stack.length + (retPush env o.a).length ≤ 256 ∧
      pushPaths base env (retFlock env o.a) (retPush env o.a) = .ok r :=
  ⟨⟨.always, 0⟩, (base, retFlock env 0), ready_of (n := ret0) env_eq (by decide +kernel),
     by show env.fl.stack.length + (retPush env 0).length ≤ 256; decide +kernel,
     by show pushPaths base env (retFlock env 0) (retPush env 0) = _; rw [retState_none]; rfl⟩

theorem witness_ReturnResults_deep : Ready retState .always false { vr := [(0, 0), (1, 0)] } retEnv ∧
    256 < retEnv.fl.stack.length + (retPush retEnv 0).length :=
  ⟨ready_of (n := ret0) retEnv_eq (by decide +kernel), retState_deep⟩

/-- A flock with 32 entries in hardware. -/
def deepFlock : Flock :=
  { env.fl with stack := List.replicate 32 { pc := 0x2000, mask := 1, path := [], pass := false }, hw := 32 }

theorem witness_ReturnResults_push : ∃ (x : PathEntry) (t : State) (u : Flock),
    pushPaths base env { env.fl with hw := 31 } [x] = .ok (t, u) :=
  ⟨{ pc := 0x2000, mask := 1, path := [], pass := false }, _, _, rfl⟩

theorem witness_ReturnResults_spill : deepFlock.hw = 32 ∧
    (∃ sp, spillAccess base env.fold env.launch env.ctx .write
      (spillAddr env.ctx env.fold deepFlock (deepFlock.stack.length - 32)) = .ok sp) ∧
    (∃ old, deepFlock.stack[31]? = some old) ∧
    foldAt base env.fold.uid = some env.fold ∧ flockAt env.fold env.fi ≠ none ∧ env.fold.fail = none := by
  refine ⟨rfl, ?_, ⟨_, rfl⟩, by decide +kernel, by decide +kernel, by decide +kernel⟩
  cases h : spillAccess base env.fold env.launch env.ctx .write
      (spillAddr env.ctx env.fold deepFlock (deepFlock.stack.length - 32)) with
  | ok sp => exact ⟨sp, rfl⟩
  | error q =>
    exact absurd (show (spillAccess base env.fold env.launch env.ctx .write
      (spillAddr env.ctx env.fold deepFlock (deepFlock.stack.length - 32))).isOk = true by decide +kernel)
      (by rw [h]; intro hh; cases hh)

theorem witness_PassingControl :
    Ready base .always false {} env ∧ Ready base .always true {} env ∧ env.hand = false ∧
    (∃ s e, Ready s .always true {} e ∧ e.act ≠ 0 ∧ (2 : BitVec 12).getLsbD 1 = true ∧
      (0 : BitVec 6).toNat < cget 0 e.fl.c 1) :=
  ⟨ready_of env_eq (by decide +kernel), ready_of env_eq (by decide +kernel), by decide +kernel,
   withFlock (fun fl => { fl with c := [(1, 1)] }), _, ready_of (Option.some_get (by decide +kernel)).symm
     (by decide +kernel), by decide +kernel⟩

theorem witness_TrapGroupResults :
    (Ready base .always false {} env ∧ env.act ≠ 0) ∧ (Ready base (.pred 0 false) false {} env0 ∧ env0.act = 0) ∧
    (Ready base .always true {} env ∧ env.hand = false) ∧
    ∃ sp, Ready handState .always true {} handEnv ∧ handEnv.hand = true ∧ handEnv.fl.splits[handEnv.idx]? = some sp ∧
      sp.inside = true :=
  ⟨⟨ready_of env_eq (by decide +kernel), by decide +kernel⟩, ⟨ready_of env0_eq (by decide +kernel), by decide +kernel⟩,
   ⟨ready_of env_eq (by decide +kernel), by decide +kernel⟩,
   ⟨placedSplit false, ready_of handEnv_eq (by decide +kernel), by decide +kernel⟩⟩

theorem witness_KillAndBreakResults :
    (Ready base .always true {} env ∧ env.act ≠ 0) ∧
    (Ready base (.pred 0 false) true {} env0 ∧ env0.hand = false ∧ env0.act = 0) ∧
    (Ready base .always false {} env ∧ env.ctx.attached = false) ∧
    (Ready dbgState .always false {} dbgEnv' ∧ dbgEnv'.act ≠ 0 ∧ dbgEnv'.ctx.attached = true ∧
      dbgEnv'.sp.stop = none) ∧
    (Ready safeState .always false {} safeEnv ∧ safeEnv.act ≠ 0 ∧ safeEnv.ctx.attached = true ∧
      safeEnv.sp.stop = some 0 ∧ safeEnv.sp.first = true ∧
      isSafePoint safeState safeEnv.ctx safeEnv.launch (safeEnv.sp.pc - 16) 0 = true) :=
  ⟨⟨ready_of env_eq (by decide +kernel), by decide +kernel⟩, ⟨ready_of env0_eq (by decide +kernel), by decide +kernel⟩,
   ⟨ready_of env_eq (by decide +kernel), by decide +kernel⟩,
   ⟨ready_of dbgEnv_eq (by decide +kernel), by decide +kernel⟩,
   ⟨ready_of safeEnv_eq (by decide +kernel), by decide +kernel⟩⟩

/-- The context has a handler at 0x4000. -/
def trapState : State := { base with ctxs := [{ placedCtx with trapbase := 0x4000 }] }

theorem witness_TrapEntry :
    (∃ f fl l c sp, ∃ t : TrapInfo, foldAt trapState f.uid = some f ∧ flockAt f 0 = some fl ∧
      launchAt trapState f.launch = some l ∧ ctxAt trapState l.ctx = some c ∧ fl.handler = none ∧
      fl.splits[0]? = some sp ∧ c.trapbase ≠ 0 ∧ t.cause < 256) ∧
    (∃ f fl l c, foldAt handState f.uid = some f ∧ flockAt f 0 = some fl ∧ launchAt handState f.launch = some l ∧
      ctxAt handState l.ctx = some c ∧ f.fail = none ∧ fl.handler.isSome = true) ∧
    ∃ f fl l c, foldAt base f.uid = some f ∧ flockAt f 0 = some fl ∧ launchAt base f.launch = some l ∧
      ctxAt base l.ctx = some c ∧ f.fail = none ∧ fl.handler = none ∧ 0 < fl.splits.length ∧ c.trapbase = 0 :=
  ⟨⟨env.fold, env.fl, placedLaunch, { placedCtx with trapbase := 0x4000 }, placedSplit false, plainTrap 255 0,
     by decide +kernel⟩,
   ⟨handEnv.fold, handEnv.fl, placedLaunch, placedCtx, by decide +kernel⟩,
   ⟨env.fold, env.fl, placedLaunch, placedCtx, by decide +kernel⟩⟩

/-- A launch whose lanes have eight registers. -/
def smallState : State := { base with launches := base.launches.map (fun l => { l with vregs := 8 }) }
def smallEnv : Env := (envOf smallState .always).get (by decide +kernel)
theorem smallEnv_eq : envOf smallState .always = some smallEnv := (Option.some_get _).symm

theorem witness_VectorNamesChecked :
    (∃ row, vecRow handState handEnv (.iadd ⟨.always, 0, .v 1 0, .v 2 0⟩) = some row ∧
      envOf handState row.g = some handEnv ∧ handEnv.hand = true) ∧
    ∃ row, vecRow smallState smallEnv (.iadd ⟨.always, 7, .v 8 0, .v 2 0⟩) = some row ∧
      envOf smallState row.g = some smallEnv ∧ smallEnv.hand = false ∧
      row.names.regs.find? (fun r => gRegs smallEnv.launch ≤ r) = some 8 :=
  ⟨⟨_, rfl, handEnv_eq, by decide +kernel⟩, ⟨_, rfl, smallEnv_eq, by decide +kernel, by decide +kernel⟩⟩

/-! ### Witnesses for the memory instructions -/

def isOk {α : Type} : Res α → Bool
  | .ok _ => true
  | _ => false

theorem ok_of {α : Type} {x : Res α} (h : isOk x = true) : ∃ r, x = .ok r := by
  cases x with
  | ok r => exact ⟨r, rfl⟩
  | _ => cases h

theorem witness_NoLaneNoEffect : ∃ i g ih n, memNames base env0 i = some (g, ih, n) ∧ Ready base g ih n env0 ∧ env0.act = 0 :=
  ⟨.lwait ⟨.pred 0 false, none⟩, _, _, _, rfl, ready_of env0_eq (by decide +kernel), by decide +kernel⟩

/-- A load by every lane of the 16 bytes at address 0. -/
def ld0 : MemOp := ⟨.always, .b, 6, 2, 7, 0, 252, 126, .imm 0, none⟩
def ldRow : LoadRow := (loadRow base env (.ld ld0)).get rfl

theorem witness_LoadResults : ∃ o r, loadRow base env (.ld ld0) = some o ∧ Ready base o.g false o.names env ∧ env.act ≠ 0 ∧
    holdUp env (flagOf env o.flg) false false = none ∧ Aligned ((actLanes env).map o.piece) ∧
    readPieces base env (howOf o.ord o.scope o.hint) ((actLanes env).map o.piece) = .ok r :=
  ⟨ldRow, _, rfl, ready_of env_eq (by decide +kernel), by decide +kernel, by decide +kernel,
   by unfold Aligned; decide +kernel, (ok_of (by decide +kernel)).choose_spec⟩

theorem witness_LoadResults_sld : ∃ o : SMemOp, ∃ r,
    let p := scalarPiece base env .read o.a o.off (sizeBytes o.size)
    Ready base o.g (o.flg == .none)
      { s := [o.a.toNat, o.a.toNat + 1] ++ (optSrc o.off).flatMap (sOf 1), sw := regsFrom o.d.toNat (Machine.sizeRegs o.size) } env ∧
    env.act ≠ 0 ∧ holdUp env (flagOf env o.flg) false false = none ∧ Aligned [p] ∧
    readPieces base env (howOf o.ord o.scope o.hint) [p] = .ok r :=
  ⟨⟨.always, .none, 5, 0, 0, 0, 126, 0, some (.s 2)⟩, _, ready_of env_eq (by decide +kernel), by decide +kernel,
   by decide +kernel, by unfold Aligned; decide +kernel, (ok_of (by decide +kernel)).choose_spec⟩

/-- A packed load of one element. -/
def ldp0 : PMemOp := ⟨.always, .none, 0, 0, 0, 0, 255, 0, 2, some (.imm 1)⟩

theorem witness_LoadResults_ldp : ∃ r,
    Ready base ldp0.g false ((rowWritten env ldp0).also (packedNames ldp0)) env ∧ env.act ≠ 0 ∧
    holdUp env (flagOf env ldp0.flg) false false = none ∧
    readPieces base env (howOf ldp0.ord ldp0.scope ldp0.hint)
      ((packedBytes (packedBase env ldp0.a ldp0.b) (slotFdr env ldp0.fs).w
        (packedElems env (slotFdr env ldp0.fs) ldp0.count)).map
          (fun x => pieceMem base env .read x.2 (x.1 % 2 ^ 64) 1)) = .ok r :=
  ⟨_, ready_of env_eq (by decide +kernel), by decide +kernel, by decide +kernel, (ok_of (by decide +kernel)).choose_spec⟩

/-- Fields of 32 bits, the widest, from the start of the local store. -/
def bdec0 : BdecOp := ⟨.always, .none, true, 255, 0, .imm 63⟩
def bdecBits (l : Nat) : Nat := min ((srcV env 1 bdec0.width l).toNat % 64) 32

theorem witness_LoadResults_bdec :
    Ready base bdec0.g false { srcNames 1 [bdec0.width] with vw := [bdec0.d.toNat], s := [bdec0.a.toNat] ++ sOf 1 bdec0.width }
      env ∧ env.act ≠ 0 ∧ holdUp env (flagOf env bdec0.flg) false false = none ∧ env.fold.lsMarks = [] ∧
    ∀ x ∈ bdecFields bdecBits (actLanes env) (readS env 0 bdec0.a.toNat).toNat,
      x.2.2 ≠ 0 → x.2.1 + x.2.2 ≤ 8 * env.launch.lsBytes :=
  ⟨ready_of env_eq (by decide +kernel), by decide +kernel⟩

theorem witness_LoadedBytes : ∃ r, env.fl.stores = [] ∧
    readPieces base env { strong := true, wide := true, hint := 0 } ((actLanes env).map (fun l => pieceMem base env .read l 0 4)) = .ok r :=
  ⟨_, by decide +kernel, (ok_of (by decide +kernel)).choose_spec⟩

/-- A store by every lane to the last word of the local store. -/
def stl0 : LMemOp := ⟨.always, .none, 4, 0, 0, 0, .v 1 0, some (.imm 0xBFFFC)⟩
def stlRow : StoreRow := (storeRow base env (.stl stl0)).get rfl
/-- A release store by every lane to address 0. -/
def st0 : MemOp := ⟨.always, .b, 4, 2, 11, 0, 252, 126, .imm 0, none⟩
def stRow : StoreRow := (storeRow base env (.st st0)).get rfl

theorem witness_StoreResults : ∃ t t', (Ready base stlRow.g stlRow.ih stlRow.names env ∧ env.act ≠ 0 ∧
      holdUp env (flagOf env stlRow.flg) true (stlRow.ord == 2) = none ∧ Aligned stlRow.checked ∧
      writePieces base env (flagOf env stlRow.flg) (howOf stlRow.ord stlRow.scope stlRow.hint) (stlRow.ord == 2)
        stlRow.scope stlRow.puts = .ok t) ∧
    Ready base stRow.g stRow.ih stRow.names env ∧ holdUp env (flagOf env stRow.flg) true (stRow.ord == 2) = none ∧
      Aligned stRow.checked ∧
      writePieces base env (flagOf env stRow.flg) (howOf stRow.ord stRow.scope stRow.hint) (stRow.ord == 2)
        stRow.scope stRow.puts = .ok t' :=
  ⟨_, _, ⟨ready_of env_eq (by decide +kernel), by decide +kernel, by decide +kernel, by unfold Aligned; decide +kernel,
     (ok_of (by decide +kernel)).choose_spec⟩,
   ready_of env_eq (by decide +kernel), by decide +kernel, by unfold Aligned; decide +kernel,
     (ok_of (by decide +kernel)).choose_spec⟩

/-- One whole byte at home 0. -/
def put0 : Put := { p := pieceMem base env .write 0 0 1, v := 0xFF, m := 0xFF }
theorem put0_spot : ∃ lf, put0.p.spot = .ok (.mem 0 lf) :=
  ⟨(leafAt base (some 0) 0 0x10000 0).toOption.get (by decide +kernel), by decide +kernel⟩

theorem witness_StoredBytes : ∃ t t' lf, envOf base .always = some env ∧ env.fl.stores = [] ∧ env.hand = false ∧
    env.fold.core < base.cores.length ∧
    writePieces base env none { strong := false, wide := false, hint := 0 } false 0 [put0] = .ok t ∧ put0.p.spot = .ok (.mem 0 lf) ∧ (0 : Nat) < peerKey ∧
    put0.m = 0xFF ∧ 0 ∉ homesOf [] ∧ homeOffline base 0 = false ∧
    writePieces base env none { strong := true, wide := true, hint := 0 } true 11 [put0] = .ok t' ∧ ∀ x ∈ [put0], ∃ sp, x.p.spot = .ok sp := by
  obtain ⟨lf, h⟩ := put0_spot
  exact ⟨_, _, lf, env_eq, by decide +kernel, by decide +kernel, by decide +kernel,
    (ok_of (by decide +kernel)).choose_spec, h, by decide, rfl, by decide, by decide +kernel, (ok_of (by decide +kernel)).choose_spec,
    fun x hx => by obtain rfl := List.mem_singleton.1 hx; exact ⟨_, h⟩⟩

def isNext {σ φ ρ : Type} : Host.Outcome σ φ ρ → Bool
  | .next _ => true
  | _ => false

theorem next_of {σ φ ρ : Type} {x : Host.Outcome σ φ ρ} (h : isNext x = true) : ∃ t, x = .next t := by
  cases x with
  | next t => exact ⟨t, rfl⟩
  | _ => cases h

theorem witness_StoreFrame : ∃ t, envOf base stlRow.g = some env ∧ env.fl.stores = [] ∧ exec (.stl stl0) base = .next t :=
  ⟨_, env_eq, by decide +kernel, (next_of (by decide +kernel)).choose_spec⟩

/-- The accesses that R184 and R186 stop: a word at address 2, and one beyond the local store. -/
def ldBad : LoadRow := (loadRow base env (.ldl ⟨.always, .none, 4, 0, 0, 0, .imm 2, none⟩)).get rfl
def stBad : StoreRow := (storeRow base env (.stl ⟨.always, .none, 4, 0, 0, 0, .imm 2, none⟩)).get rfl
def ldFar : LoadRow := (loadRow base env (.ldl ⟨.always, .none, 4, 0, 0, 0, .imm 0xC0000, none⟩)).get rfl
def stFar : StoreRow := (storeRow base env (.stl ⟨.always, .none, 4, 0, 0, 0, .imm 0xC0000, none⟩)).get rfl

theorem some_of {α : Type} {x : Option α} (h : x.isSome = true) : ∃ r, x = some r := Option.isSome_iff_exists.1 h

theorem witness_AccessTraps :
    (∃ p, Ready base ldBad.g false ldBad.names env ∧ env.act ≠ 0 ∧ holdUp env (flagOf env ldBad.flg) false false = none ∧
      ((actLanes env).map ldBad.piece).find? (fun p => p.va % p.n != 0) = some p) ∧
    (∃ p, Ready base stBad.g stBad.ih stBad.names env ∧ holdUp env (flagOf env stBad.flg) true (stBad.ord == 2) = none ∧
      stBad.checked.find? (fun p => p.va % p.n != 0) = some p) ∧
    (∃ p, Ready base ldFar.g false ldFar.names env ∧ holdUp env (flagOf env ldFar.flg) false false = none ∧
      Aligned ((actLanes env).map ldFar.piece) ∧
      ((actLanes env).map ldFar.piece).find? (fun p => p.spot = .error .range) = some p) ∧
    ∃ x, Ready base stFar.g stFar.ih stFar.names env ∧ holdUp env (flagOf env stFar.flg) true (stFar.ord == 2) = none ∧
      Aligned stFar.checked ∧ stFar.puts.find? (fun x => x.p.spot = .error .range) = some x :=
  ⟨⟨_, ready_of env_eq (by decide +kernel), by decide +kernel, by decide +kernel,
     (some_of (by decide +kernel)).choose_spec⟩,
   ⟨_, ready_of env_eq (by decide +kernel), by decide +kernel, (some_of (by decide +kernel)).choose_spec⟩,
   ⟨_, ready_of env_eq (by decide +kernel), by decide +kernel, by unfold Aligned; decide +kernel,
     (some_of (by decide +kernel)).choose_spec⟩,
   ⟨_, ready_of env_eq (by decide +kernel), by decide +kernel, by unfold Aligned; decide +kernel,
     (some_of (by decide +kernel)).choose_spec⟩⟩

/-- Every lane adds to the word at address 0. -/
def atom0 : AtomOp := ⟨.always, .none, 0, .add, true, 3, 11, 0, 254, 126, .imm 0, .v 2 0⟩
def red0 : RedMemOp := ⟨.always, .none, 0, .maxU, false, 0, 0, 0, 126, .imm 0, .imm 5⟩

theorem witness_AtomicResults : ∃ r r',
    (Ready base atom0.g false
      { atomNames atom0.a atom0.idx atom0.c atom0.fn atom0.wide with
        vw := regsFrom atom0.d.toNat (if atom0.wide then 2 else 1) } env ∧ env.act ≠ 0 ∧
      rmwLanes base env (atomArgs atom0) = .ok r) ∧
    Ready base red0.g false (atomNames red0.a red0.idx red0.c red0.fn red0.wide) env ∧
      rmwLanes base env (redArgs red0) = .ok r' :=
  ⟨_, _, ⟨ready_of env_eq (by decide +kernel), by decide +kernel, (ok_of (by decide +kernel)).choose_spec⟩,
   ready_of env_eq (by decide +kernel), (ok_of (by decide +kernel)).choose_spec⟩

theorem witness_AtomicAtHome : ∃ h n : Nat, h + n ≤ peerKey ∧ n ≠ 0 ∧ h % 128 + n ≤ 128 ∧
    homeOffline base (128 * (h / 128)) = false :=
  ⟨120, 8, by decide +kernel⟩

def redD0 : RedDOp := ⟨.always, .none, 0, .add, false, 0, 126, .imm 0, .imm 5⟩

theorem witness_ContributionResults :
    (Ready base redD0.g false (atomNames redD0.a redD0.idx redD0.c redD0.fn redD0.wide) env ∧ env.act ≠ 0 ∧
      holdUp env (flagOf env redD0.flg) true false = none ∧ atomBadSlot redD0.fn (slotFdr env redD0.fs) = false ∧
      (∀ l ∈ actLanes env,
        let va := addrOf (readS2 env 0 redD0.a.toNat) (srcV env 1 redD0.idx l) 0
        va % (atomBits redD0.fn redD0.wide (slotFdr env redD0.fs) / 8) = 0 ∧ apertureOff env.ctx va = none ∧
          ∃ h lf, translate base (some env.fold.core) env.ctx.id env.ctx.ptroot.toNat .rmw va = .ok (h, lf) ∧ h < peerKey) ∧
      drbUse base env.fold.core + laneCount env.act ≤ Config.drbSize) ∧
    Ready base .always false {} env ∧ holdUp env (flagOf env .a) true true = none := by
  refine ⟨⟨ready_of env_eq (by decide +kernel), by decide +kernel, by decide +kernel, by decide +kernel, ?_,
    by decide +kernel⟩, ready_of env_eq (by decide +kernel), by decide +kernel⟩
  have key : ∀ l ∈ actLanes env,
      let va := addrOf (readS2 env 0 redD0.a.toNat) (srcV env 1 redD0.idx l) 0
      va % (atomBits redD0.fn redD0.wide (slotFdr env redD0.fs) / 8) = 0 ∧ apertureOff env.ctx va = none ∧
        (translate base (some env.fold.core) env.ctx.id env.ctx.ptroot.toNat .rmw va).toOption.any (fun x => decide (x.1 < peerKey)) = true := by
    decide +kernel
  intro l hl
  obtain ⟨a, b, c⟩ := key l hl
  refine ⟨a, b, ?_⟩
  revert c
  generalize translate base (some env.fold.core) env.ctx.id env.ctx.ptroot.toNat Access.rmw _ = x
  intro c
  rcases x with x | ⟨h, lf⟩
  · cases c
  · exact ⟨h, lf, rfl, of_decide_eq_true c⟩

theorem witness_CacheControlResults :
    (Ready base .always true {} env ∧ env.act ≠ 0 ∧ env.hand = false ∧ flagFull env.fl (flagOf env .none) = false) ∧
    (∃ (o : MwaitOp) (r : _), Ready base o.g false
        { s := [o.a.toNat, o.a.toNat + 1] ++ sOf 2 o.e, sw := (o.d.map (fun d => [d.toNat, d.toNat + 1])).getD [] } env ∧
      holdUp env none false false = none ∧ Aligned [pieceMem base env .read 255 (readS2 env 0 o.a.toNat).toNat 8] ∧
      readPieces base env { strong := true, wide := wider o.scope, hint := 0 } [pieceMem base env .read 255 (readS2 env 0 o.a.toNat).toNat 8] = .ok r) ∧
    (∃ o : PrefOp, Ready base o.g false (addrNames o.a o.idx o.off) env) ∧
    (∃ n, memNames base env (.cctl ⟨.always, .none, 0, none⟩) = some (.always, false, n) ∧ Ready base .always false n env) ∧
    ∃ n, memNames base env (.cctl ⟨.always, .none, 1, some (126, .imm 0, none)⟩) = some (.always, false, n) ∧
      Ready base .always false n env ∧
      ((actLanes env).map (fun l => pieceMem base env .read l (addrOf (readS2 env 0 126) (srcV env 1 (.imm 0) l) 0) 1)).all
        (fun p => match p.spot with
                  | .ok _ => true
                  | .error _ => false) = true :=
  ⟨⟨ready_of env_eq (by decide +kernel), by decide +kernel⟩,
   ⟨⟨.always, 11, some 126, 0, .s 2⟩, _, ready_of env_eq (by decide +kernel), by decide +kernel,
     by unfold Aligned; decide +kernel, (ok_of (by decide +kernel)).choose_spec⟩,
   ⟨⟨.always, 0, 126, .imm 0, none⟩, ready_of env_eq (by decide +kernel)⟩,
   ⟨_, rfl, ready_of env_eq (by decide +kernel)⟩, ⟨_, rfl, ready_of env_eq (by decide +kernel), by decide +kernel⟩⟩

/-- A clear of tile 31, and of a tile that the launch lacks; and a full queue. -/
def amzRow (d : Reg) : EngineRow := (engineRow env (.amz ⟨.always, .a, d⟩)).get rfl
def busyState : State := { base with cores := base.cores.set 0 { coreAt base 0 with
  cmds := List.replicate 64 { newCmd (.host 0 0) (.amz ⟨.always, .none, 0⟩) 0 [] [] none 1 0 with id := 9 } } }
def busyEnv : Env := (envOf busyState .always).get (by decide +kernel)
theorem busyEnv_eq : envOf busyState .always = some busyEnv := (Option.some_get _).symm

theorem witness_EngineAcceptance :
    (∃ t, Ready base (amzRow 32).g false (amzRow 32).names env ∧ env.act ≠ 0 ∧
      holdUp env (amzRow 32).cmd.flag true true = none ∧
      (amzRow 32).traps.findSome? id = some t) ∧
    (Ready busyState .always false {} busyEnv ∧ busyEnv.act ≠ 0 ∧
      holdUp busyEnv (amzRow 31).cmd.flag true true = none ∧
      (busyEnv.fold.preempt || !(hasRoom busyState busyEnv.fold.core false && engineTurn busyState busyEnv.fold.core busyEnv.fl.quad)) = true) ∧
    Ready base (amzRow 31).g false (amzRow 31).names env ∧ env.act ≠ 0 ∧
      holdUp env (amzRow 31).cmd.flag true true = none ∧ (amzRow 31).traps.findSome? id = none ∧
      env.fold.preempt = false ∧
      (hasRoom base env.fold.core (isCopy (amzRow 31).cmd) && engineTurn base env.fold.core env.fl.quad) = true ∧
      env.fold.core < base.cores.length :=
  ⟨⟨_, ready_of env_eq (by decide +kernel), by decide +kernel, by decide +kernel,
     (some_of (by decide +kernel)).choose_spec⟩,
   ⟨ready_of busyEnv_eq (by decide +kernel), by decide +kernel⟩,
   ready_of env_eq (by decide +kernel), by decide +kernel⟩

/-- Two batches are outstanding, of numbers 65,535 and 0. -/
def batchState : State := withFlock (fun fl => { fl with batchNext := 1, batchDone := 0xFFFF, batches :=
  [{ num := 0xFFFF, cmds := [9], flag := none }, { num := 0, cmds := [9], flag := none }] })
def batchEnv : Env := (envOf batchState .always).get (by decide +kernel)
theorem batchEnv_eq : envOf batchState .always = some batchEnv := (Option.some_get _).symm

theorem witness_BatchResults :
    (Ready batchState .always false { sw := [127] } batchEnv ∧ batchEnv.act ≠ 0 ∧
      flagFull batchEnv.fl (flagOf batchEnv .none) = false ∧ batchesOut batchEnv.fl < 256) ∧
    (Ready batchState .always false { s := sOf 1 (.imm 1) } batchEnv ∧ 1 < batchesOut batchEnv.fl) ∧
    ((0xFFFF#16 - batchEnv.fl.batchDone).toNat < batchesOut batchEnv.fl) ∧
    Ready base .always false { s := sOf 1 (.imm 0) } env ∧ ¬ 0 < batchesOut env.fl :=
  ⟨⟨ready_of batchEnv_eq (by decide +kernel), by decide +kernel⟩,
   ⟨ready_of batchEnv_eq (by decide +kernel), by decide +kernel⟩, by decide +kernel,
   ready_of env_eq (by decide +kernel), by decide +kernel⟩

/-- A barrier object at offset 0: `b` in the local store. -/
def barState (b : Barrier) : State := { base with folds := base.folds.map (fun f =>
  { f with ls := csetList 0 [] 0 (leBytes 16 (packBar b).toNat) }) }
def barNew : Barrier :=
  { trapen := true, ovr := false, phase := 0, pending := 2, expected := 2, bytes := 0xFFFFFFFF }
def barOvr : Barrier := { barNew with ovr := true, phase := 1, bytes := 0 }
def newEnv : Env := (envOf (barState barNew) .always).get (by decide +kernel)
def ovrEnv : Env := (envOf (barState barOvr) .always).get (by decide +kernel)
theorem newEnv_eq : envOf (barState barNew) .always = some newEnv := (Option.some_get _).symm
theorem ovrEnv_eq : envOf (barState barOvr) .always = some ovrEnv := (Option.some_get _).symm

theorem barObject_base : barObject base env false 0 = .ok 0 := by rfl

theorem witness_BarrierResults_init : Ready base .always false { s := 0 :: sOf 1 (.imm 65535) } env ∧ env.act ≠ 0 ∧
    holdUp env (flagOf env .none) true false = none ∧ barObject base env false (readS env 0 0).toNat = .ok 0 ∧
    Ready base .always false { s := 0 :: sOf 1 (.imm 65536) } env ∧ 65535 < (srcS env 1 (.imm 65536)).toNat ∧
    (srcS env 1 (.imm 65535)).toNat = 65535 :=
  ⟨ready_of env_eq (by decide +kernel), by decide +kernel, by decide +kernel, by rfl, ready_of env_eq (by decide +kernel),
   by decide +kernel, by decide +kernel⟩

theorem witness_BarrierResults_arrive : ∃ u,
    Ready (barState barNew) .always false { s := 0 :: (optSrc (some (.imm 1))).flatMap (sOf 1), sw := [127] } newEnv ∧
    newEnv.act ≠ 0 ∧ holdUp newEnv (flagOf newEnv .none) true true = none ∧
    barObject (barState barNew) newEnv false (readS newEnv 0 0).toNat = .ok u ∧
    2 ^ 32 ≤ (barAt (barState barNew) 0 0).bytes.toNat + 1 ∧
    Ready (barState barOvr) .always false { s := 0 :: (optSrc (some (.imm 1))).flatMap (sOf 1), sw := [127] } ovrEnv ∧
    barObject (barState barOvr) ovrEnv false (readS ovrEnv 0 0).toNat = .ok u ∧
    (barAt (barState barOvr) 0 0).pending ≠ 0 ∧ (barAt (barState barOvr) 0 0).bytes.toNat + 1 < 2 ^ 32 :=
  ⟨0, ready_of newEnv_eq (by decide +kernel), by decide +kernel, by decide +kernel, by rfl, by decide +kernel,
   ready_of ovrEnv_eq (by decide +kernel), by rfl, by decide +kernel, by decide +kernel⟩

theorem witness_BarrierResults_wait :
    (Ready (barState barNew) .always false { s := [0, 4], sw := [qKey 7] } newEnv ∧ newEnv.act ≠ 0 ∧
      holdUp newEnv (flagOf newEnv .none) false false = none ∧
      barObject (barState barNew) newEnv false (readS newEnv 0 0).toNat = .ok 0 ∧
      barDone (barAt (barState barNew) 0 0) (readS newEnv 1 4) = false) ∧
    (Ready (barState barOvr) .always false { s := [0, 4], sw := [qKey 7] } ovrEnv ∧
      barObject (barState barOvr) ovrEnv false (readS ovrEnv 0 0).toNat = .ok 0 ∧
      barDone (barAt (barState barOvr) 0 0) (readS ovrEnv 1 4) = true ∧ (barAt (barState barOvr) 0 0).ovr = true ∧
      (barAt (barState barOvr) 0 0).trapen = true) ∧
    ∃ e, Ready (barState { barOvr with trapen := false }) .always false { s := [0, 4], sw := [qKey 7] } e ∧
      (barAt (barState { barOvr with trapen := false }) 0 0).ovr = true ∧
      (barAt (barState { barOvr with trapen := false }) 0 0).trapen = false :=
  ⟨⟨ready_of newEnv_eq (by decide +kernel), by decide +kernel, by decide +kernel, by rfl, by decide +kernel⟩,
   ⟨ready_of ovrEnv_eq (by decide +kernel), by rfl, by decide +kernel, by decide +kernel, by decide +kernel⟩,
   ⟨_, ready_of (Option.some_get (by decide +kernel)).symm (by decide +kernel), by decide +kernel, by decide +kernel⟩⟩

/-- A child of fold 0 is live. -/
def childState : State :=
  { base with launches := base.launches ++ [{ placedLaunch with uid := 1, pastid := 2, parent := some 0 }] }
def childEnv : Env := (envOf childState .always).get (by decide +kernel)
theorem childEnv_eq : envOf childState .always = some childEnv := (Option.some_get _).symm

/-- A launch record at 0x2000, and its kernel's header at 0x3000. -/
def recBytes : List Byte := [0, 0x30, 0, 0, 0, 0, 0, 0, 1, 0, 0, 0, 1, 0, 1, 0, 0, 0x11, 0, 0, 1] ++ List.replicate 43 0
def hdrBytes : List Byte := List.replicate 128 0 ++ (List.replicate 16 [0xF1, 0xFE, 0xA1, 0, 0, 0, 0, 0]).flatten
def recordMem : Cells Byte :=
  [(0x2001, 0x30), (0x2008, 1), (0x200C, 1), (0x200E, 1), (0x2011, 0x11), (0x2014, 1)]
    ++ (List.range 16).flatMap (fun k => [(0x3080 + 8 * k, 0xF1), (0x3081 + 8 * k, 0xFE), (0x3082 + 8 * k, 0xA1)])
    ++ base.mem
/-- The management endpoint and that of context 0 are connected. -/
def upEnd : Endpoint := { Endpoint.empty with up := true }
def recordState : State := { base with mem := recordMem, mgmt := upEnd, eps := [(1, upEnd)] }
def recordEnv : Env := (envOf recordState .always).get (by decide +kernel)
theorem recordEnv_ctx : recordEnv.ctx = placedCtx := by decide +kernel

/-- The translation of addresses below 1 GiB, as the page table of Place.lean gives it. -/
def lowLeaf : Leaf := { dom := 0, win := 0, comp := 0, frame := 0, size := 0x40000000, mt := 0, x := true, w := true }

theorem walk_step {s : State} {va left n table next : Nat} {e : DWord} {r : Except Reason Leaf}
    (he : readEntry s (table + 8 * levelIndex n va) = .ok e) (h0 : bitsOf e 0 1 = 1) (h1 : bitsOf e 1 1 = 0)
    (hn : bitsOf e 8 44 * 256 = next)
    (hb : (n = 3 || bitsOf e 52 12 != 0 || bitsOf e 2 6 != 0 || next % nextAlign n != 0) = false)
    (hr : walkFrom s va left (n + 1) next = r) : walkFrom s va (left + 1) n table = r := by
  rw [walkFrom, he]
  subst hn
  simp [h0, h1, hb, hr]

theorem walk_leaf {s : State} {va left n table : Nat} {e : DWord} {lf : Leaf}
    (he : readEntry s (table + 8 * levelIndex n va) = .ok e) (h0 : bitsOf e 0 1 = 1) (h1 : bitsOf e 1 1 = 1)
    (hl : leafOf n e = .ok lf) : walkFrom s va (left + 1) n table = .ok lf := by
  rw [walkFrom, he]
  simp [h0, h1, hl]

theorem walk_low (va : Nat) (h : va < 0x40000000) : walk recordState 0x10000 va = .ok lowLeaf := by
  have i0 : levelIndex 0 va = 0 := by rw [levelIndex, if_pos rfl]; omega
  have i1 : levelIndex 1 va = 0 := by rw [levelIndex, if_neg (by decide), if_pos rfl]; omega
  have r0 : readEntry recordState (0x10000 + 8 * levelIndex 0 va) = .ok 0x20001 := by rw [i0]; decide +kernel
  have r1 : readEntry recordState (0x20000 + 8 * levelIndex 1 va) = .ok 0x33 := by rw [i1]; decide +kernel
  exact walk_step r0 (by decide) (by decide) (by decide) (by decide) (walk_leaf r1 (by decide) (by decide) (by decide))

/-- A byte that the device reads below 1 GiB. -/
def lowByte (va : Nat) : Option Byte :=
  match homeOf recordState lowLeaf va with
  | none => none
  | some h =>
    if homeOffline recordState h || recordState.lost.contains (h / 128) || recordState.badFill.contains (h / 128) then none
    else some (homeByte recordState h)

theorem aperture_low (va : Nat) (h : va < 0x40000000) : apertureOff placedCtx va = none := by
  have hd : (va + 2 ^ 64 - placedCtx.lsap.toNat) % 2 ^ 64 = va + 2 ^ 64 - 0x8_0000_0000 := by
    have : placedCtx.lsap.toNat = 0x8_0000_0000 := by decide
    rw [this]; omega
  rw [apertureOff, hd]
  exact if_neg (by omega)

theorem translate_low (va : Nat) (h : va < 0x40000000) :
    Machine.translate recordState none placedCtx.id placedCtx.ptroot.toNat .read va
      = match homeOf recordState lowLeaf va with
        | none => .error rBadFrame
        | some x => .ok (x, lowLeaf) := by
  have ha : leafAt recordState none placedCtx.id placedCtx.ptroot.toNat va = .ok lowLeaf := walk_low va h
  have hm : lowLeaf.frame + va % lowLeaf.size = va := by
    have : lowLeaf.frame = 0 ∧ lowLeaf.size = 0x40000000 := ⟨rfl, rfl⟩
    rw [this.1, this.2]; omega
  rw [Machine.translate, if_neg (by omega), ha]
  simp only [hm]
  rfl

theorem devByte_low (va : Nat) (h : va < 0x40000000) : devByte recordState placedCtx va = lowByte va := by
  rw [devByte, aperture_low va h, translate_low va h, lowByte]
  generalize homeOf recordState lowLeaf va = x
  cases x <;> rfl

theorem mapM_congr' {f g : Nat → Option Byte} : ∀ l : List Nat, (∀ i ∈ l, f i = g i) → l.mapM f = l.mapM g
  | [], _ => rfl
  | x :: r, h => by
    simp only [List.mapM_cons]
    rw [h x (by simp), mapM_congr' r (fun i hi => h i (by simp [hi]))]

theorem devBytes_low (va n : Nat) (h : va + n ≤ 0x40000000) :
    devBytes recordState placedCtx va n = (List.range n).mapM (fun i => lowByte (va + i)) :=
  mapM_congr' _ (fun i hi => devByte_low (va + i) (by have := List.mem_range.1 hi; omega))

theorem recBytes_read : acceptBytes recordState placedCtx 0x2000 64 = some recBytes := by
  rw [acceptBytes, devBytes_low _ _ (by decide)]; decide +kernel
theorem hdrBytes_read : acceptBytes recordState placedCtx 0x3000 256 = some hdrBytes := by
  rw [acceptBytes, devBytes_low _ _ (by decide)]; decide +kernel

theorem checkLaunch_record (mk : List Byte → List Byte → Launch) (h : launchStatus (mk recBytes hdrBytes) = 0) :
    checkLaunch recordState placedCtx 0x2000 mk = .ok (mk recBytes hdrBytes) := by
  have r1 : recordBad recBytes = false := by decide +kernel
  have r2 : headerBad hdrBytes = false := by decide +kernel
  have r3 : field recBytes 0 8 = 0x3000 := by decide +kernel
  simp [checkLaunch, recBytes_read, r1, r3, hdrBytes_read, r2, h]

theorem launchChild_ok {s : State} {e : Env} {a : Nat} (h : ∀ mk, mk = (fun r h =>
      { launchOf r h e.ctx.id e.launch.index e.launch.queue e.launch.prio (e.launch.depth + 1) (some e.fold.uid) e.launch.det
        with overlap := false, started := true }) → ∃ l, checkLaunch s e.ctx a mk = .ok l)
    (n : childCount s e.ctx.id < Config.childLimit) : (launchChild s e a).1 = 0 := by
  obtain ⟨l, hl⟩ := h _ rfl
  rw [launchChild]
  simp only []
  rw [hl]
  simp only []
  rw [if_neg (by omega)]

theorem launchChild_record : (launchChild recordState recordEnv 0x2000).1 = 0 := by
  refine launchChild_ok (fun mk hm => ⟨mk recBytes hdrBytes, ?_⟩) (by decide +kernel)
  rw [recordEnv_ctx]
  refine checkLaunch_record mk ?_
  subst hm
  decide +kernel

theorem witness_LaunchResults :
    (Ready base .always false { s := [0, 1], sw := [126, 127] } env ∧ env.act ≠ 0 ∧
      holdUp env (flagOf env .none) true true = none) ∧
    (launchChild base env 0).1 ≠ 0 ∧ (launchChild recordState recordEnv 0x2000).1 = 0 ∧
    (Ready childState .always false {} childEnv ∧ childEnv.act ≠ 0 ∧
      ∃ l ∈ childState.launches, l.parent = some childEnv.fold.uid) ∧
    Ready base .always false {} env ∧ ¬ ∃ l ∈ base.launches, l.parent = some env.fold.uid :=
  ⟨⟨ready_of env_eq (by decide +kernel), by decide +kernel⟩, by decide +kernel, launchChild_record,
   ⟨ready_of childEnv_eq (by decide +kernel), by decide +kernel⟩, ready_of env_eq (by decide +kernel), by decide +kernel⟩

/-! ### Witnesses for the machine as a whole -/

theorem base_places : PlacesForm base where
  cores := by decide +kernel
  dies := by decide +kernel
  folds := by decide +kernel
  uids := by decide +kernel
  below := by decide +kernel
  shares := by decide +kernel

theorem base_form : MemoryForm base := by unfold MemoryForm; decide +kernel

theorem witness_StepKeepsMemoryForm : ∃ t, MemoryForm base ∧ step base = .next t :=
  ⟨_, base_form, (next_of (by decide +kernel)).choose_spec⟩

theorem witness_StepKeepsPlaces : ∃ t, PlacesForm base ∧ step base = .next t :=
  ⟨_, base_places, (next_of (by decide +kernel)).choose_spec⟩

theorem witness_EncodingRoundTrip : ∃ i : Instr, isEvent i = false ∧ i.wf = true :=
  ⟨.stm ⟨.pred 7 true, .b, 2, 11, 2, 255, 126, .v 254 0, .imm 0xFFFFFFFF⟩, by decide, by decide⟩

/-- A bundle of bits `w` is placed; the state after its fetch, and the environment. -/
def isFetched {σ : Type} (x : Res (BitVec 128 × σ)) (w : BitVec 128) : Bool :=
  match x with
  | .ok (v, _) => v == w
  | _ => false

theorem fetched_of {σ : Type} {x : Res (BitVec 128 × σ)} {w : BitVec 128} (h : isFetched x w = true) :
    ∃ t, x = .ok (w, t) := by
  match x, h with
  | .ok (v, t), h => exact ⟨t, by rw [show v = w by simpa [isFetched] using h]⟩

/-- The state in which a bundle goes on once its flock's paths are ready. -/
def readied : Prep → State
  | .go s => s
  | .stop s => s
  | .trap s _ => s

def ready? : Prep → Bool
  | .go _ => true
  | _ => false

theorem ready_go {p : Prep} (h : ready? p = true) : p = .go (readied p) := by
  cases p <;> first | rfl | cases h

/-- What `Fetched` asks beside the environments; the split's flock has nothing on its stack to refill. -/
def fetches (s0 : State) (r : SplitRef) (rest : List Move) (e0 e : Env) (w : BitVec 128) : Bool :=
  let s1 := readied (pathsReady (issuing { s0 with agenda := rest } r) r.fold r.flock)
  s0.agenda == .issue r :: rest && mayIssue { s0 with agenda := rest } r && e0.sp.inside
    && ready? (pathsReady (issuing { s0 with agenda := rest } r) r.fold r.flock)
    && (asyncTrap s1 e.fold.uid e.fi e.idx).isNone && isFetched (fetchBundle s1 e e.sp.pc) w

theorem fetched_mk {s0 : State} {r : SplitRef} {rest : List Move} {e0 e : Env} {w : BitVec 128}
    (h0 : envOf (issuing { s0 with agenda := rest } r) .always = some e0)
    (h : envOf (readied (pathsReady (issuing { s0 with agenda := rest } r) r.fold r.flock)) .always = some e)
    (k : fetches s0 r rest e0 e w = true) : ∃ s1 s2, Fetched s0 s1 s2 r rest e0 e w := by
  simp only [fetches, Bool.and_eq_true, beq_iff_eq, Option.isNone_iff_eq_none] at k
  obtain ⟨⟨⟨⟨⟨k1, k2⟩, k3⟩, k4⟩, k5⟩, k6⟩ := k
  obtain ⟨t, ht⟩ := fetched_of k6
  exact ⟨_, t, k1, k2, h0, k3, ready_go k4, h, k5, ht⟩

/-- The placed state of a word; its split stands in its clause, at its head half or at its last bundle. -/
def wordState (w : Nat) : State := State.reset.withFetchWord 128 w
def ref0 : SplitRef := { fold := 0, flock := 0, split := 0 }
def placedOk (w : Nat) (hd : Bool) : Bool :=
  let a := issuing { wordState w with agenda := [] } ref0
  match envOf a .always, envOf (readied (pathsReady a 0 0)) .always with
  | some e0, some e =>
    e.sp.headDue == hd && placeOf e.sp == ⟨true, true, true⟩ && fetches (wordState w) ref0 [] e0 e (BitVec.ofNat 128 w)
  | _, _ => false

theorem placed_of {w : Nat} {hd : Bool} (h : placedOk w hd = true) :
    ∃ s1 s2 e0 e, Fetched (wordState w) s1 s2 ref0 [] e0 e (BitVec.ofNat 128 w) ∧ e.sp.headDue = hd ∧
      placeOf e.sp = ⟨true, true, true⟩ := by
  unfold placedOk at h
  simp only [] at h
  split at h
  · next e0 e h0 he =>
    simp only [Bool.and_eq_true, beq_iff_eq] at h
    obtain ⟨s1, s2, hf⟩ := fetched_mk h0 he h.2
    exact ⟨s1, s2, e0, e, hf, h.1.1, h.1.2⟩
  · cases h

/-- Bundles of R78 to R90: full, a pair, a half alone, and a head with a half. -/
def fullWord : Nat := 0x00000007000006240105_0000047C1B0C
def pairWord : Nat := 0x0002C1030013E3610000000A004BE00D
def oneWord : Nat := 0x0000000A004BE00D
def headWord : Nat := 0x0000000A004BE00D * 2 ^ 64 + 0x2

theorem witness_StepRunsInstruction :
    (∃ s1 s2 e0 e i, Fetched (wordState fullWord) s1 s2 ref0 [] e0 e (BitVec.ofNat 128 fullWord) ∧ e.sp.headDue = false ∧
      decodeInBody (placeOf e.sp) (BitVec.ofNat 128 fullWord) = .ok (.full i)) ∧
    (∃ s1 s2 e0 e i, Fetched (wordState oneWord) s1 s2 ref0 [] e0 e (BitVec.ofNat 128 oneWord) ∧ e.sp.headDue = false ∧
      decodeInBody (placeOf e.sp) (BitVec.ofNat 128 oneWord) = .ok (.pair i none)) ∧
    (∃ s1 s2 e0 e i j, Fetched (wordState pairWord) s1 s2 ref0 [] e0 e (BitVec.ofNat 128 pairWord) ∧ e.sp.headDue = false ∧
      decodeInBody (placeOf e.sp) (BitVec.ofNat 128 pairWord) = .ok (.pair i (some j))) ∧
    (∃ s1 s2 e0 e h i, Fetched (wordState headWord) s1 s2 ref0 [] e0 e (BitVec.ofNat 128 headWord) ∧ e.sp.headDue = true ∧
      decodeAtHead (BitVec.ofNat 128 headWord) = .ok (.head h (some i))) ∧
    ∃ (s : State) (i : Instr) (rest : List Move), s.agenda = .event i :: rest := by
  refine ⟨?_, ?_, ?_, ?_, { State.reset with agenda := [.event .powerOnBoot] }, _, _, rfl⟩
  · obtain ⟨s1, s2, e0, e, hf, h1, h2⟩ := placed_of (w := fullWord) (hd := false) (by decide +kernel)
    exact ⟨s1, s2, e0, e, _, hf, h1, by rw [h2]; rfl⟩
  · obtain ⟨s1, s2, e0, e, hf, h1, h2⟩ := placed_of (w := oneWord) (hd := false) (by decide +kernel)
    exact ⟨s1, s2, e0, e, _, hf, h1, by rw [h2]; rfl⟩
  · obtain ⟨s1, s2, e0, e, hf, h1, h2⟩ := placed_of (w := pairWord) (hd := false) (by decide +kernel)
    exact ⟨s1, s2, e0, e, _, _, hf, h1, by rw [h2]; rfl⟩
  · obtain ⟨s1, s2, e0, e, hf, h1, -⟩ := placed_of (w := headWord) (hd := true) (by decide +kernel)
    exact ⟨s1, s2, e0, e, _, _, hf, h1, rfl⟩

/-- Two halves of one bundle: `iadd v1, v2, v3` and `iadd v2, v1, v3`. -/
def halfA : Instr := .iadd ⟨.always, 1, .v 2 0, .v 3 0⟩
def halfB : Instr := .iadd ⟨.always, 2, .v 1 0, .v 3 0⟩
def halfEnv (p : Pos) (last : Bool) : Env := (envOf (atPos base p last) .always).getD env

/-- What `PairResults` asks of two halves with a word a lane as their results. -/
theorem witness_PairResults_words : ∃ r0 r1,
    vecRow (atPos base .half0 false) (halfEnv .half0 false) halfA = some r0 ∧
    Ready (atPos base .half0 false) r0.g r0.ih r0.names (halfEnv .half0 false) ∧
    vecRow (atPos base .half1 true) (halfEnv .half1 true) halfB = some r1 ∧
    Ready (atPos base .half1 true) r1.g r1.ih r1.names (halfEnv .half1 true) ∧
    halfDst halfA = some r0.d ∧ halfDst halfB = some r1.d ∧ r0.d ≠ r1.d ∧ (halfEnv .half0 false).fold.fail = none ∧
    (halfEnv .half0 false).fl.stall = none :=
  have eq {x : Option Env} (h : x.isSome = true) : x = some (x.getD env) := by
    cases x with
    | none => cases h
    | some e => rfl
  have h0 : envOf (atPos base .half0 false) .always = some (halfEnv .half0 false) := eq (by decide +kernel)
  have h1 : envOf (atPos base .half1 true) .always = some (halfEnv .half1 true) := eq (by decide +kernel)
  ⟨_, _, rfl, ready_of h0 (by decide +kernel), rfl, ready_of h1 (by decide +kernel), by decide, by decide, by decide,
   by decide +kernel, by decide +kernel⟩

/-- Whether an instruction answers a state in which its bundle has not retired. -/
def retires (s : State) (i : Instr) : Option Bool :=
  match exec i s with
  | .next t => some (notRetired s t)
  | _ => none

theorem next_of_retires {s : State} {i : Instr} {b : Bool} (h : retires s i = some b) :
    ∃ t, exec i s = .next t ∧ notRetired s t = b := by
  unfold retires at h
  split at h
  · next t ht => exact ⟨t, ht, by simpa using h⟩
  · cases h

theorem witness_PairResults_traps :
    (∃ a, exec (.iadd ⟨.always, 8, .v 2 0, .v 3 0⟩) (atPos smallState .half0 false) = .next a ∧
      notRetired smallState a = true) ∧
    (∃ a, exec halfA (atPos smallState .half0 false) = .next a ∧ notRetired smallState a = false) ∧
    ∃ t, exec (.iadd ⟨.always, 8, .v 2 0, .v 3 0⟩) (atPos smallState .half1 false) = .next t ∧
      notRetired smallState t = true :=
  ⟨next_of_retires (by decide +kernel), next_of_retires (by decide +kernel), next_of_retires (by decide +kernel)⟩

/-! ### Witnesses for the steps of the memory pipeline -/

/-- A clause head of `wait` in bits 17 to 6 and nothing else; the split stands at it, and flag 0 is at 1. -/
def headAt (w : Nat) : State :=
  { State.reset.withFetchWord 128 w with
    folds := (withFlock (fun fl => { fl with c := [(0, 1)], splits := [{ placedSplit false with inside := false }] })).folds }

/-- The state in which the split of `headAt` has its clause checked. -/
def headReady (w : Nat) : State := mergeHere (readied (pathsReady (issuing (headAt w) ref0) 0 0))

def headOk (w : Nat) : Bool :=
  match envOf (headReady w) .always with
  | none => false
  | some e =>
    mayIssue (headAt w) ref0 && ready? (pathsReady (issuing (headAt w) ref0) 0 0) && !e.sp.inside && e.fl.stall.isNone
      && (asyncTrap (headReady w) e.fold.uid e.fi e.idx).isNone
      && isFetched (fetchBundle (headReady w) e e.sp.pc) (BitVec.ofNat 128 w) && !e.sp.first && e.fl.c == [(0, 1)]

theorem head_of {w : Nat} (h : headOk w = true) :
    ∃ e s1 s2, mayIssue (headAt w) ref0 = true ∧
      pathsReady (issuing (headAt w) ref0) ref0.fold ref0.flock = .go s1 ∧
      envOf (mergeHere s1) .always = some e ∧ e.sp.inside = false ∧ e.fl.stall = none ∧
      asyncTrap (mergeHere s1) e.fold.uid e.fi e.idx = none ∧
      fetchBundle (mergeHere s1) e e.sp.pc = .ok (BitVec.ofNat 128 w, s2) ∧ e.sp.first = false ∧ e.fl.c = [(0, 1)] := by
  unfold headOk at h
  split at h
  · cases h
  · next e he =>
    simp only [Bool.and_eq_true, beq_iff_eq, Option.isNone_iff_eq_none, Bool.not_eq_true'] at h
    obtain ⟨⟨⟨⟨⟨⟨⟨h0, hp⟩, h1⟩, h2⟩, h3⟩, h4⟩, h5⟩, h6⟩ := h
    obtain ⟨t, ht⟩ := fetched_of h4
    exact ⟨e, _, t, h0, ready_go hp, he, h1, h2, h3, ht, h5, h6⟩

/-- What PipelineSteps asks of a split at a clause head without a stop, whose wait is met or not. -/
def AtClause (w : Nat) (met : Bool) : Prop :=
  ∃ (s1 s2 : State) (e : Env) (h : Header),
    mayIssue (headAt w) ref0 = true ∧ pathsReady (issuing (headAt w) ref0) ref0.fold ref0.flock = .go s1 ∧
    envOf (mergeHere s1) .always = some e ∧ e.sp.inside = false ∧ e.fl.stall = none ∧
    asyncTrap (mergeHere s1) e.fold.uid e.fi e.idx = none ∧
    fetchBundle (mergeHere s1) e e.sp.pc = .ok (BitVec.ofNat 128 w, s2) ∧ e.sp.first = false ∧
    decodeAtHead (BitVec.ofNat 128 w) = .ok (.head h none) ∧ h.stop = none ∧ flagsAtMost e.fl h.wait 0 = met

theorem witness_PipelineSteps_clause : AtClause 0x2 true ∧ AtClause 0x42 false := by
  obtain ⟨e, s1, s2, a0, ap, a1, a2, a3, a4, a5, a6, a7⟩ := head_of (w := 0x2) (by decide +kernel)
  obtain ⟨e', s1', s2', b0, bp, b1, b2, b3, b4, b5, b6, b7⟩ := head_of (w := 0x42) (by decide +kernel)
  refine ⟨⟨s1, s2, e, _, a0, ap, a1, a2, a3, a4, a5, a6, rfl, rfl, ?_⟩,
    ⟨s1', s2', e', _, b0, bp, b1, b2, b3, b4, b5, b6, rfl, rfl, ?_⟩⟩
  · exact (show flagsAtMost e.fl 0#12 0 = true by simp [flagsAtMost])
  · unfold flagsAtMost; rw [b7]; decide

/-- Two splits of half the lanes each stand at one clause head. -/
def twinState : State :=
  { State.reset.withFetchWord 128 0x2 with
    folds := (withFlock (fun fl => { fl with splits :=
      [{ placedSplit false with inside := false, mask := 0xFFFFFFFF },
       { placedSplit false with inside := false, mask := 0xFFFFFFFF00000000 }] })).folds }

theorem witness_PipelineSteps_merge : ∃ e x, envOf twinState .always = some e ∧ e.hand = false ∧ e.sp.inside = false ∧
    e.fl.stack = [] ∧ atHead twinState e = true ∧ (∀ x ∈ e.fl.splits, x.mask ≠ 0) ∧ x ∈ e.fl.splits ∧
    mergeable e.sp x = true := by
  have h : ((envOf twinState .always).any (fun e => !e.hand && !e.sp.inside && e.fl.stack.isEmpty && atHead twinState e
      && e.fl.splits.all (fun x => x.mask != 0) && (e.fl.splits.any (fun x => mergeable e.sp x)))) = true := by decide +kernel
  cases he : envOf twinState .always with
  | none => rw [he] at h; cases h
  | some e =>
    rw [he] at h
    simp only [Option.any_some, Bool.and_eq_true, Bool.not_eq_true', List.all_eq_true, List.any_eq_true, bne_iff_ne,
      List.isEmpty_iff] at h
    obtain ⟨⟨⟨⟨⟨h1, h2⟩, h3⟩, h4⟩, h5⟩, x, h6, h7⟩ := h
    exact ⟨e, x, rfl, h1, h2, h3, h4, h5, h6, h7⟩

/-- A load in flight: the words of v1 in lanes 63 and 0. -/
def wordSrc : List SrcByte :=
  [{ fold := some 0, place := 0, unit := 0, val := 1, strong := true, wide := false, more := true }]
def word (l key : Nat) : PendWord :=
  { lane := l, key := key, value := 0xFFFFFFFF, src := wordSrc, shift := 0, take := 8, sext := false, bits := 0xFFFF,
    hit := false }
def vload : PendLoad := { id := 5, flag := some 0, scalar := false, words := [word 0 64, word 63 127], flags := 0x1F, strong := true }
def sload : PendLoad := { id := 5, flag := some 0, scalar := true, words := [word 0 1023, word 0 1031], flags := 0, strong := true }
def other : PendLoad := { id := 6, flag := none, scalar := false, words := [word 0 64], flags := 0, strong := false }
def loadState (p : PendLoad) : State := withFlock (fun fl => { fl with loads := [other] ++ p :: [], c := [(0, 1)] })

theorem loadState_flock (p : PendLoad) :
    ∃ fl, flockOf (loadState p) 0 0 = some fl ∧ fl.fences = [] ∧ fl.loads = [other] ++ p :: [] := ⟨_, rfl, rfl, rfl⟩

theorem witness_PipelineSteps_load : ∃ fl fl',
    (flockOf (loadState vload) 0 0 = some fl ∧ fl.fences = [] ∧ fl.loads = [other] ++ vload :: [] ∧
      (∀ q ∈ [other] ++ [], q.id ≠ vload.id ∧ q.words ≠ []) ∧ vload.scalar = false ∧ (∀ w ∈ vload.words, w.hit = false) ∧
      vload.words.Pairwise (fun x y => x.key ≠ y.key) ∧ ∃ w ∈ vload.words, w.lane = 63) ∧
    flockOf (loadState sload) 0 0 = some fl' ∧ fl'.fences = [] ∧ fl'.loads = [other] ++ sload :: [] ∧
      (∀ q ∈ [other] ++ [], q.id ≠ sload.id ∧ q.words ≠ []) ∧ sload.scalar = true ∧ sload.words ≠ [] ∧
      (∀ w ∈ sload.words, w.hit = false) ∧ sload.words.Pairwise (fun x y => x.key ≠ y.key) ∧
      ∀ w ∈ sload.words, w.key < 1032 := by
  obtain ⟨fl, a1, a2, a3⟩ := loadState_flock vload
  obtain ⟨fl', b1, b2, b3⟩ := loadState_flock sload
  exact ⟨fl, fl', ⟨a1, a2, a3, by decide, by decide⟩, b1, b2, b3, by decide, by decide⟩

/-- A store in flight to the last byte of the first line and the first of the second. -/
def pbyte (a : Nat) : PendByte := { addr := a, va := a, value := 0xFF, mask := 0xFF, lane := 0, dom := 0, comp := 0 }
def pstore : PendStore :=
  { id := 7, flag := some 0, scope := 11, weak := false, release := false, after := [], waitFault := none, bytes := [pbyte 127, pbyte 128] }
def storeState : State :=
  withFlock (fun fl => { fl with stores := [{ pstore with id := 6, bytes := [pbyte 0] }] ++ pstore :: [] })

theorem witness_PipelineSteps_store : ∃ f fl, foldAt storeState 0 = some f ∧ flockAt f 0 = some fl ∧ fl.fences = [] ∧
    fl.stores = [{ pstore with id := 6, bytes := [pbyte 0] }] ++ pstore :: [] ∧
    (∀ q ∈ [{ pstore with id := 6, bytes := [pbyte 0] }] ++ [], q.id ≠ pstore.id) ∧ pstore.waitFault = none ∧
    pstore.release = false ∧
    (∀ q ∈ [{ pstore with id := 6, bytes := [pbyte 0] }], ∀ x ∈ q.bytes, ∀ y ∈ pstore.bytes, x.addr ≠ y.addr) ∧
    pstore.bytes.Pairwise (fun x y => x.addr ≠ y.addr) ∧
    ∀ x ∈ pstore.bytes, x.addr < peerKey ∧ homeOffline storeState x.addr = false :=
  ⟨_, _, rfl, rfl, rfl, rfl, by decide, rfl, rfl, by decide, by decide, by decide +kernel⟩

theorem witness_PipelineSteps_eviction : ∃ k l, k < base.cores.length ∧ 128 * l < peerKey ∧
    homeOffline base (128 * l) = false := ⟨159, 0, by decide +kernel⟩

/-- A second flock pends since clk 0; the first waits on a batch. -/
def quad2 : Quadrant := { active := [(0, 0)], pending := [(0, 1, 0)], turn := 0, lastLeft := 0, tag := [], drawn := [] }
def swapState : State := { base with
  clock := 4096,
  cores := base.cores.set 0 { coreAt base 0 with quads := [quad2, Quadrant.empty, Quadrant.empty, Quadrant.empty] },
  folds := [freshFold 0 0 0 0 0 0 0
    [{ freshFlock 0 0 (List.replicate 16 0xA1FEF1) 0 0 { placedSplit false with wait := .batch true 0 } with batchNext := 1 },
     freshFlock 0 0 (List.replicate 16 0xA1FEF1) 0 1 (placedSplit false)]] }

theorem witness_PipelineSteps_swap : ∃ f fl y, foldAt swapState 0 = some f ∧ flockAt f 0 = some fl ∧ fl.handler = none ∧
    fl.splits ≠ [] ∧ (∀ sp ∈ fl.splits, longWait swapState 0 fl sp = true) ∧ f.core < swapState.cores.length ∧
    (coreAt swapState f.core).quads[fl.quad]? = some quad2 ∧ (0, 0) ∈ quad2.active ∧ longestReady swapState quad2 = some y ∧
    y.2.2 + 4096 ≤ swapState.clock ∧ quad2.lastLeft + 4096 ≤ swapState.clock :=
  ⟨_, _, (0, 1, 0), rfl, rfl, by decide +kernel⟩

def loadFold : Fold := (foldAt (loadState vload) 0).get (by decide +kernel)
def loadFlock : Flock := (flockAt loadFold 0).get (by decide +kernel)

theorem witness_PassingControl_exit : foldAt (loadState vload) 0 = some loadFold ∧ loadFold.uid = 0 ∧
    flockAt loadFold 0 = some loadFlock ∧ (loadFlock.loads[1]?).map (fun p => p.words.length) = some 2 ∧
    ((dropPending loadFlock 1).loads[1]?).map (fun p => p.words.length) = some 1 :=
  ⟨(Option.some_get _).symm, by decide +kernel, (Option.some_get _).symm, by decide +kernel, by decide +kernel⟩

theorem witness_PassingControl_swap : ∃ c y, swapState.cores[0]? = some c ∧ c.quads[0]? = some quad2 ∧
    quad2.active.contains (0, 0) = true ∧ longestReady swapState quad2 = some y ∧ quad2.active.contains (0, 1) = false :=
  ⟨_, (0, 1, 0), rfl, rfl, by decide, by decide +kernel, by decide⟩

/-! ### Witnesses for faults and reductions -/

/-- A walk of the last byte that the table maps is about to start in die 3, and is in progress; so is one of the first byte
that it does not map. -/
def walkState : State := { base with agenda := [.walkStart 3 0 .read 0x3FFFFFFF] }

theorem witness_FaultAndReductionSteps_walk : ∃ c, walkState.agenda = .walkStart 3 0 .read 0x3FFFFFFF :: [] ∧
    ctxAt walkState 0 = some c ∧ 3 < walkState.dies.length ∧ 0x3FFFFFFF < 2 ^ 52 ∧ (dieAt walkState 3).walks.length < 32 ∧
    (∀ w ∈ (dieAt walkState 3).walks, w.ctx = 0 → pageBase w.va ≠ pageBase 0x3FFFFFFF) ∧
    (∃ lf, walk walkState c.ptroot.toNat 0x3FFFFFFF = .ok lf) ∧ ∃ q, walk walkState c.ptroot.toNat 0x40000000 = .error q :=
  ⟨placedCtx, rfl, rfl, by decide, by decide, by decide +kernel, by decide +kernel,
   ⟨(walk walkState 0x10000 0x3FFFFFFF).toOption.get (by decide +kernel), by decide +kernel⟩, ⟨1, by decide +kernel⟩⟩

def foundLeaf : Leaf := { dom := 0, win := 0, comp := 0, frame := 0, size := 0x40000000, mt := 0, x := true, w := true }
def walking : State := putDie base 3 { dieAt base 3 with walks :=
  [{ ctx := 0, va := 0x3FFFFFFF, acc := .read, found := .inl foundLeaf },
   { ctx := 0, va := 0x40000000, acc := .read, found := .inr 1 }] }

theorem witness_FaultAndReductionSteps_walked : ∃ c w w', ctxAt walking 0 = some c ∧ 3 < walking.dies.length ∧
    (dieAt walking 3).walks.find? (fun x => x.ctx == 0 && x.va == 0x3FFFFFFF && x.acc == .read) = some w ∧
    w.found = .inl foundLeaf ∧
    (dieAt walking 3).walks.find? (fun x => x.ctx == 0 && x.va == 0x40000000 && x.acc == .read) = some w' ∧
    w'.found = .inr 1 ∧ resolvable 1 = true :=
  ⟨placedCtx, _, _, rfl, by decide, rfl, rfl, rfl, rfl, rfl⟩

/-- A fault on page 0x40000000 since clk 0, on which the flock stalls; its time is out. -/
def faultRec : FaultRec := { id := 1, page := 0x40000000, reason := 1, acc := .read, since := 0 }
def faultCtx : Context := { placedCtx with faults := [faultRec], nextFault := 2 }
def faultState : State :=
  { base with clock := 2000000, ctxs := [faultCtx], folds := (withFlock (fun fl => { fl with stall := some 1 })).folds }

theorem witness_FaultAndReductionSteps_timeout : ∃ f l fl, ctxAt faultState 0 = some faultCtx ∧
    faultCtx.faults.find? (fun x => x.id == 1) = some faultRec ∧
    faultRec.since + (if faultCtx.faultto = 0 then 2000000 else faultCtx.faultto * 20000) ≤ faultState.clock ∧
    (∀ f ∈ faultState.folds, ∀ fl ∈ f.flocks, ∀ p ∈ fl.stores, p.waitFault = none) ∧ foldAt faultState 0 = some f ∧
    launchAt faultState f.launch = some l ∧ l.ctx = 0 ∧ flockAt f 0 = some fl ∧ fl.stall = some 1 :=
  ⟨_, placedLaunch, _, rfl, by decide +kernel, by decide +kernel, by decide +kernel, rfl, by decide +kernel, rfl, rfl, rfl⟩

/-- A full buffer: one contribution to home 0 more often than the buffer has room for less a flock's. -/
def contrib : Contribution :=
  { home := 0, width := 4, comp := 0, fn := .add, slot := 0xA1FEF1, c := 1, launch := 0, step := 0, fold := 0, foldId := 0,
    flock := 0, lane := 0, dseq := 0, gen := 0 }
def drbState (n : Nat) (stage : Nat) : State :=
  { base with folds := base.folds.map (fun f => { f with drb := List.replicate n contrib }),
              ctxs := [{ placedCtx with stage := stage }] }

theorem drb_fold (n stage : Nat) : ∃ f, (drbState n stage).folds = [f] ∧ foldAt (drbState n stage) 0 = some f ∧ f.core = 0 ∧
    f.place = .core ∧ f.drb = List.replicate n contrib ∧
    ctxOf (drbState n stage) f = some { placedCtx with stage := stage } := ⟨_, rfl, rfl, rfl, rfl, rfl, rfl⟩

theorem drb_use (n stage : Nat) : drbUse (drbState n stage) 0 = n := by
  obtain ⟨f, h, -, h1, h2, h3, -⟩ := drb_fold n stage
  simp [drbUse, h, h1, h2, h3]

theorem drb_home (n stage : Nat) : homeOffline (drbState n stage) 0 = false ∧ (drbState n stage).dies.length = 4 := by
  constructor <;> rfl

theorem drb_room (n stage d : Nat) :
    stageRoom (drbState n stage) { placedCtx with stage := stage } d = stage * 32768 := by
  have h : ∀ d, (dieAt (drbState n stage) d).staging = [] := by
    intro d
    match d with
    | 0 => rfl
    | 1 => rfl
    | 2 => rfl
    | 3 => rfl
    | d + 4 => rfl
  simp [stageRoom, h]

theorem drb_mine (n stage : Nat) (f : Fold) (hf : foldAt (drbState n stage) 0 = some f) :
    (drbState n stage).folds.filter (fun g => g.core == f.core && g.place == .core) = [f] := by
  obtain ⟨g, h, h0, h1, h2, -, -⟩ := drb_fold n stage
  obtain rfl : g = f := by rw [h0] at hf; exact Option.some.inj hf
  simp [h, h2]

theorem witness_FaultAndReductionSteps_drain : ∃ f, foldAt (drbState 8129 1) 0 = some f ∧
    Config.drbSize < drbUse (drbState 8129 1) f.core + 64 ∧ ((drbState 8129 1).folds.map (fun g => g.uid)).Nodup ∧
    let mine := (drbState 8129 1).folds.filter (fun g => g.core == f.core && g.place == .core)
    let goes (d : Nat) (g : Fold) : List (Nat × Contribution) :=
      (g.drb.filter (fun x => dieOfHome x.home == d)).map (fun x => (((ctxOf (drbState 8129 1) g).map (fun c => c.id)).getD 0, x))
    (∀ g ∈ mine, (ctxOf (drbState 8129 1) g).isSome ∧ (∀ l, launchAt (drbState 8129 1) g.launch = some l → l.stopped = false) ∧
      ∀ x ∈ g.drb, homeOffline (drbState 8129 1) x.home = false ∧ dieOfHome x.home < (drbState 8129 1).dies.length) ∧
    ∀ g ∈ mine, ∀ c d, ctxOf (drbState 8129 1) g = some c →
      ((mine.flatMap (goes d)).filter (fun x => x.1 == c.id)).length ≤ stageRoom (drbState 8129 1) c d := by
  obtain ⟨f, hl, h0, h1, -, h3, h4⟩ := drb_fold 8129 1
  refine ⟨f, h0, by rw [h1, drb_use]; decide, by rw [hl]; simp, ?_⟩
  simp only [drb_mine 8129 1 f h0, List.mem_singleton, forall_eq, List.flatMap_cons, List.flatMap_nil, List.append_nil]
  refine ⟨⟨by rw [h4]; rfl, ?_, ?_⟩, ?_⟩
  · intro l hl'
    have : f.launch = 0 := by
      have h : (foldAt (drbState 8129 1) 0).map (fun g => g.launch) = some 0 := rfl
      rw [h0] at h; simpa using h
    rw [this] at hl'
    have h : (launchAt (drbState 8129 1) 0).map (fun l => l.stopped) = some false := rfl
    rw [hl'] at h; simpa using h
  · intro x hx
    rw [h3] at hx
    obtain rfl := List.eq_of_mem_replicate hx
    exact ⟨(drb_home 8129 1).1, by rw [(drb_home 8129 1).2]; decide⟩
  · intro c d hc
    rw [h4] at hc
    obtain rfl := Option.some.inj hc
    rw [drb_room, h3]
    refine Nat.le_trans (List.length_filter_le _ _) ?_
    rw [List.length_map]
    exact Nat.le_trans (List.length_filter_le _ _) (by rw [List.length_replicate]; decide)

theorem witness_FaultAndReductionSteps_full : ∃ f c l0 rest, foldAt (drbState 8129 0) 0 = some f ∧
    ctxOf (drbState 8129 0) f = some c ∧ launchAt (drbState 8129 0) f.launch = some l0 ∧ l0.stopped = false ∧
    f.place = .core ∧ Config.drbSize < drbUse (drbState 8129 0) f.core + 64 ∧ f.drb = contrib :: rest ∧
    (∀ g ∈ (drbState 8129 0).folds, g.core = f.core → g.place = .core → g.uid ≠ 0 → g.drb = []) ∧
    homeOffline (drbState 8129 0) contrib.home = false ∧ stageRoom (drbState 8129 0) c (dieOfHome contrib.home) = 0 := by
  obtain ⟨f, hl, h0, h1, hp, h3, h4⟩ := drb_fold 8129 0
  have hu : f.uid = 0 ∧ f.launch = 0 := by
    have h : (foldAt (drbState 8129 0) 0).map (fun g => (g.uid, g.launch)) = some (0, 0) := rfl
    rw [h0] at h
    simpa using h
  refine ⟨f, _, placedLaunch, List.replicate 8128 contrib, h0, h4, by rw [hu.2]; rfl, rfl, hp, by rw [h1, drb_use]; decide, h3,
    ?_, (drb_home 8129 0).1, by rw [drb_room]⟩
  intro g hg _ _ hn
  rw [hl] at hg
  exact absurd (by rw [List.mem_singleton.1 hg]; exact hu.1) hn

/-- The flock has arrived in generation 1 with one contribution of generation 0 staged. -/
def applyState : State :=
  { withFlock (fun fl => { fl with dflush := 1, dflags := [(1, 0, some 0)], c := [(0, 1)] }) with
    dies := (putDie base 0 { dieAt base 0 with staging := [(0, contrib), (0, { contrib with lane := 63 })] }).dies }

theorem witness_FaultAndReductionSteps_apply : ∃ f fl, foldAt applyState 0 = some f ∧ flockAt f 0 = some fl ∧
    (0, 0) ∈ dflushUnit applyState f 0 0 ∧
    fl.dflags.filter (fun d => d.1 == 1 && d.2.1 == 0) = [(1, 0, some 0)] ∧
    (∀ x ∈ dflushUnit applyState f 0 0, ∀ z, flockOf applyState x.1 x.2 = some z → 1 ≤ z.dflush ∨ finished z = true) ∧
    let s0 := (((dflushUnit applyState f 0 0).filterMap (fun x => (foldAt applyState x.1).map (fun g => g.core))).dedup).foldl
      drainCore applyState
    (launchAt s0 f.launch).any (fun l => l.stopped) = false ∧ ∀ k, ∀ y ∈ (coreAt applyState k).l1, y.dirty = 0 := by
  refine ⟨_, _, rfl, rfl, by decide +kernel, rfl, ?_, by decide +kernel, ?_⟩
  · intro x hx z hz
    obtain rfl : x = (0, 0) := List.mem_singleton.1 hx
    have h : flockOf applyState 0 0 = some z := hz
    have h' : (flockOf applyState 0 0).map (fun z => z.dflush) = some 1 := rfl
    rw [h] at h'
    simp at h'
    omega
  · intro k y hy
    have h : ∀ c ∈ applyState.cores, c.l1 = [] := by decide +kernel
    have hk : (coreAt applyState k).l1 = [] := by
      unfold coreAt
      cases hc : applyState.cores[k]? with
      | none => simp [List.getD, hc, Core.reset]
      | some c => simpa [List.getD, hc] using h c (List.mem_of_getElem? hc)
    rw [hk] at hy; cases hy

theorem witness_FaultAndReductionSteps_boxes :
    let p : Contribution → Bool := fun _ => true
    let cs := ((applyState.dies.flatMap (fun d => d.staging.map (fun x => x.2))).filter p)
    cs ≠ [] ∧ (∀ x ∈ cs, x.home = 0 ∧ x.width = 4) ∧ (4 : Nat) ≠ 0 ∧ 0 + 4 ≤ peerKey ∧ 0 % 128 + 4 ≤ 128 := by decide +kernel

/-! ### Witnesses for the steps of the engines -/

/-- Command 9 of core 0, of the flock, alone in its queue. -/
def cmd (i : Instr) (regs : List Word) (slots : List DWord) : Cmd :=
  { newCmd (.flock 0 0) i (BitVec.allOnes 64) regs slots (some 0) 1 0 with id := 9 }
def cmdState (c : Cmd) : State :=
  { base with cores := base.cores.set 0 { coreAt base 0 with cmds := [c] } }

theorem cmdState_cores (c : Cmd) : (cmdState c).cores.length = 160 := by
  show (List.set _ _ _).length = 160
  rw [List.length_set]; decide +kernel

def clearCmd : Cmd := cmd (.amz ⟨.always, .a, 31⟩) [] []
def mma0 (mode : TreeMode) : MmaOp :=
  { g := .always, flg := .a, fs := 0, mode := mode, msk := false, mv := false, tfua := false, tfub := false, bs := false,
    d := 31, c := 0, p := 0, fb := 0 }
/-- One step from offset 0 of the local store with pitch 256, of 32-bit elements. -/
def mmaCmd (mode : TreeMode) : Cmd :=
  cmd (.mma (mma0 mode)) [0, 0, 0, 0, 256, 256, 1, 0, 0, 0, 0, 0, 0, 0, 0, 0] (List.replicate 4 0xA1FEF1)
def copy0 : CopyOp :=
  { g := .always, flg := .a, scope := 1, mode := 3, cvt := false, tr := false, ef := false, sel := 0, stamp := false,
    crcd := false, crcs := false, p := 0, bar := none }
/-- A fill whose destination record is at address 0. -/
def fillCmd : Cmd := cmd (.copy copy0) (List.replicate 11 0) []

theorem witness_EngineSteps_start :
    (cmdAt (cmdState clearCmd) 0 9 = some clearCmd ∧ 0 < (cmdState clearCmd).cores.length ∧
      canStart (cmdState clearCmd) 0 clearCmd = true ∧ isCopy clearCmd = false ∧ ∀ o, clearCmd.instr ≠ .mma o) ∧
    (cmdAt (cmdState (mmaCmd .acc)) 0 9 = some (mmaCmd .acc) ∧ canStart (cmdState (mmaCmd .acc)) 0 (mmaCmd .acc) = true) ∧
    (∃ c o, cmdAt (cmdState c) 0 9 = some c ∧ canStart (cmdState c) 0 c = true ∧ c.instr = .copy o ∧ c.valid = true) ∧
    ∃ rb xs, cmdAt (cmdState fillCmd) 0 9 = some fillCmd ∧ canStart (cmdState fillCmd) 0 fillCmd = true ∧
      fillCmd.instr = .copy copy0 ∧ fillCmd.valid = false ∧ readRecord (cmdState fillCmd) 0 fillCmd 1 = .ok rb ∧
      hostDest (cmdState fillCmd) fillCmd (tensorOf rb) = false ∧
      hostStamp (cmdState fillCmd) fillCmd (tensorOf (List.replicate 64 0)) = false ∧
      hostTensor (cmdState fillCmd) fillCmd (tensorOf (List.replicate 64 0)) = false ∧
      hostSource (cmdState fillCmd) fillCmd copy0 (tensorOf (List.replicate 64 0)) (tensorOf rb) = false ∧
      readList (cmdState fillCmd) 0 fillCmd (opndAddr fillCmd) (listBytes copy0 (tensorOf (List.replicate 64 0)) (tensorOf rb))
        = .ok xs := by
  refine ⟨⟨by decide +kernel, by decide +kernel, by decide +kernel, rfl, by intro o h; cases h⟩,
    ⟨by decide +kernel, by decide +kernel⟩,
    ⟨{ fillCmd with valid := true }, copy0, by decide +kernel, by decide +kernel, rfl, rfl⟩, ?_⟩
  have hr : ∃ rb, readRecord (cmdState fillCmd) 0 fillCmd 1 = .ok rb := by
    have h : (match readRecord (cmdState fillCmd) 0 fillCmd 1 with
              | .ok _ => true
              | _ => false) = true := by decide +kernel
    revert h
    generalize readRecord (cmdState fillCmd) 0 fillCmd 1 = x
    intro h
    cases x with
    | ok rb => exact ⟨rb, rfl⟩
    | _ => cases h
  obtain ⟨rb, hr⟩ := hr
  have hh (lo n : Nat) : hostRange (cmdState fillCmd) fillCmd lo n = false := rfl
  exact ⟨rb, [], by decide +kernel, by decide +kernel, rfl, rfl, hr, by simp [hostDest, hostTensor, hostStamp, hh], rfl, rfl,
    rfl, rfl⟩

/-- The same once started, at a step. -/
def started (c : Cmd) (n : Nat) : Cmd := { c with started := true, step := n }

theorem witness_EngineSteps_mma :
    let c := started (mmaCmd .acc) 0
    (∃ f, cmdAt (cmdState c) 0 9 = some c ∧ c.instr = .mma (mma0 .acc) ∧ cmdFold (cmdState c) c = some f ∧
      0 < (cmdState c).cores.length ∧ c.started = true ∧ c.step < mmaSteps c.regs ∧ c.faults = [] ∧ f.place = .core ∧
      stepSram f c (mma0 .acc) c.step = false ∧
      stepFault (cmdState c) 0 c (mma0 .acc) c.step = none) ∧
    ∀ mode, mode ∈ [TreeMode.zero, .acc, .node] → let d := started (mmaCmd mode) 1
      ∃ f, cmdAt (cmdState d) 0 9 = some d ∧ d.instr = .mma (mma0 mode) ∧ cmdFold (cmdState d) d = some f ∧
        0 < (cmdState d).cores.length ∧ d.started = true ∧ d.step = mmaSteps d.regs ∧ f.place = .core ∧ f.lsMarks = [] ∧
        f.tileMarks = [] := by
  refine ⟨⟨_, by decide +kernel, rfl, rfl, by decide +kernel, rfl, by decide +kernel, rfl, rfl, by decide +kernel, rfl⟩, ?_⟩
  intro mode hm
  refine ⟨_, ?_, rfl, rfl, by rw [cmdState_cores]; decide, rfl, rfl, rfl, rfl, rfl⟩
  fin_cases hm <;> decide +kernel

/-- Tiles 30 and 31 hold the nodes of steps 0 and 1. -/
def treeOp (mode : TreeMode) : MtreeOp := ⟨.always, .a, mode, 1, 0, 30, 0⟩
def treeState (mode : TreeMode) : State :=
  { cmdState (started (cmd (.mtree (treeOp mode)) [] []) 0) with
    folds := base.folds.map (fun f => { f with ntag := [(30, nodeTag 0 0), (31, nodeTag 0 1)] }) }

theorem witness_EngineSteps_tree : ∀ mode, mode ∈ [TreeMode.zero, .acc, .node] →
    let c := started (cmd (.mtree (treeOp mode)) [] []) 0
    ∃ f, cmdAt (treeState mode) 0 9 = some c ∧ c.owner = .flock 0 0 ∧ cmdFold (treeState mode) c = some f ∧
      c.started = true ∧ f.place = .core ∧ f.tileMarks = [] ∧ badTree f 30 2 = none ∧
      ∀ q, q ≤ 1 → tagLevel (cget 0 f.ntag (30 + q)) ≤ 32 := by
  intro mode hm
  refine ⟨_, ?_, rfl, rfl, rfl, rfl, rfl, by decide +kernel, ?_⟩
  · fin_cases hm <;> decide +kernel
  · intro q hq
    match q, hq with
    | 0, _ => decide +kernel
    | 1, _ => decide +kernel

/-- The accumulator moves, at offset 0 of the local store. -/
def moves : List Instr :=
  [.amld ⟨.always, .a, 31, 0, none⟩, .amst ⟨.always, .a, 0, 31⟩, .amz ⟨.always, .a, 31⟩,
   .amcvt ⟨.always, .a, 0, none, 0, 31, none⟩]

theorem witness_EngineSteps_moves : ∀ i ∈ moves,
    let c := started (cmd i [0, 0, 0] [0xA1FEF1]) 0
    ∃ f, cmdAt (cmdState c) 0 9 = some c ∧ c.owner = .flock 0 0 ∧ cmdFold (cmdState c) c = some f ∧ c.started = true ∧
      f.place = .core ∧ f.lsMarks = [] ∧ f.tileMarks = [] := by
  intro i hi
  refine ⟨_, ?_, rfl, rfl, rfl, rfl, rfl, rfl⟩
  fin_cases hi <;> decide +kernel

/-- A record of one 32-bit element at address 0. -/
def oneRec : List Byte := List.replicate 8 0 ++ [0xF1, 0xFE, 0xA1, 0, 0, 0, 0, 0] ++
  [1, 0, 0, 0, 1, 0, 0, 0, 1, 0, 0, 0, 1, 0, 0, 0] ++ List.replicate 32 0
def itemCmd : Cmd := { started fillCmd 0 with valid := true, dst := oneRec, plan := [(0, 0, 0)] }
def itemFlying : Cmd := { itemCmd with flight := [0] }
def itemState : State := putCmd (cmdState itemCmd) 0 itemFlying
def itemOut : ItemAcc := itemAcc itemState 0 itemFlying copy0 false 0

theorem itemOut_targets : ∀ x ∈ itemOut.out, ∃ sp, targetByte itemState 0 itemFlying false x.1 = .ok (some sp) := by
  have h : ∀ x ∈ itemOut.out, (match targetByte itemState 0 itemFlying false x.1 with
      | .ok (some _) => true
      | _ => false) = true := by decide +kernel
  intro x hx
  have hx' := h x hx
  revert hx'
  generalize targetByte itemState 0 itemFlying false x.1 = y
  intro hy
  match y, hy with
  | .ok (some sp), _ => exact ⟨sp, rfl⟩

theorem witness_EngineSteps_item : cmdAt (cmdState itemCmd) 0 9 = some itemCmd ∧ 0 < (cmdState itemCmd).cores.length ∧
    itemCmd.instr = .copy copy0 ∧ itemCmd.owner = .flock 0 0 ∧ copyRuns (cmdState itemCmd) itemCmd = true ∧
    (copyItems itemCmd copy0)[0]? = some (false, 0) ∧ 0 ∉ itemCmd.ended ∧
    startItems (cmdState itemCmd) 0 itemCmd 0 = some itemFlying ∧ itemOut.wait = none ∧ itemOut.reason = 0 ∧
    (∀ x ∈ itemOut.out, ∃ sp, targetByte itemState 0 itemFlying false x.1 = .ok (some sp)) ∧ copy0.bar = none ∧
    ∃ x rest, itemOut.out = x :: rest :=
  ⟨by decide +kernel, by decide +kernel, rfl, rfl, by decide +kernel, by decide +kernel, by decide, by decide +kernel,
   by decide +kernel, by decide +kernel, itemOut_targets, rfl, List.exists_cons_of_ne_nil (by decide +kernel)⟩

/-- The last bit of the one element, and what the item reads: nothing. -/
theorem witness_EngineSteps_bits :
    itemElems itemFlying false 0 = [] ++ (0, 0, 0) :: [] ∧ 31 < (tensorOf itemFlying.dst).f.w ∧
    ((tensorOf itemFlying.dst).bitPos 0 + 31) / 8 / 4096 = 0 ∧
    (∀ r ∈ readKeys itemState 0 itemFlying copy0 (itemElems itemFlying false 0),
      r ∉ writeKeys itemState 0 itemFlying false 0 (itemElems itemFlying false 0) ∧ ∀ z ∈ itemFlying.was, z.1 ≠ r) := by
  decide +kernel

/-- A copy that validation stopped. -/
def badCmd : Cmd := { started fillCmd 0 with valid := true, bad := 3 }

theorem witness_EngineSteps_finish : ∃ r f,
    cmdAt (cmdState badCmd) 0 9 = some badCmd ∧ badCmd.instr = .copy copy0 ∧ badCmd.owner = .flock 0 0 ∧
    foldAt (cmdState badCmd) 0 = some f ∧ f.place = .core ∧ badCmd.started = true ∧ badCmd.valid = true ∧
    badCmd.faults = [] ∧ badCmd.step ≤ 4 ∧ (∀ n, n < (copyItems badCmd copy0).length → n ∈ badCmd.ended) ∧
    tailRun 0 copy0 (copyItems badCmd copy0).length (List.range' badCmd.step (4 - badCmd.step)) (cmdState badCmd) badCmd
      = some r :=
  ⟨_, _, by decide +kernel, rfl, rfl, rfl, rfl, rfl, rfl, rfl, by decide, (by intro n h; cases h),
   (some_of (by decide +kernel)).choose_spec⟩

def aByte : Spot := (match engWritable (cmdState badCmd) 0 badCmd 0x40 with
  | .ok sp => some sp
  | _ => none).getD (.ls 0 0)

theorem witness_EngineSteps_tail : fromHost badCmd = false ∧ copy0.ef = false ∧
    (∃ t, tailWrite (cmdState badCmd) 0 badCmd 0x40 [1] = .ok t) ∧
    engWritable (cmdState badCmd) 0 badCmd (0x40 + 0) = .ok aByte := by
  have h : (match tailWrite (cmdState badCmd) 0 badCmd 0x40 [1] with
            | .ok _ => true
            | _ => false) = true := by decide +kernel
  have e : (match engWritable (cmdState badCmd) 0 badCmd 0x40 with
            | .ok _ => true
            | _ => false) = true := by decide +kernel
  refine ⟨by decide, rfl, ?_, ?_⟩
  · revert h
    generalize tailWrite (cmdState badCmd) 0 badCmd 0x40 [1] = x
    intro h
    match x, h with
    | .ok t, _ => exact ⟨t, rfl⟩
  · unfold aByte
    revert e
    show _ → engWritable (cmdState badCmd) 0 badCmd 0x40 = _
    generalize engWritable (cmdState badCmd) 0 badCmd 0x40 = x
    intro e
    match x, e with
    | .ok sp, _ => rfl

/-- Core 159 is narrow; its die's alarm has been clear for 200,000 clks. -/
def narrowState : State := { base with clock := 200000, cores := base.cores.set 159 { coreAt base 159 with narrow := true } }

theorem witness_EngineSteps_widen : 159 < narrowState.cores.length ∧ (coreAt narrowState 159).narrow = true ∧
    (dieAt narrowState (dieOfCore 159)).alarm = false ∧
    (dieAt narrowState (dieOfCore 159)).clearedAt + 200000 ≤ narrowState.clock ∧
    ∀ c ∈ (coreAt narrowState 159).cmds, ∀ o, c.instr = .mma o → c.started = true → mmaSteps c.regs ≤ c.step := by
  have h : (coreAt narrowState 159).cmds = [] := by decide +kernel
  exact ⟨by decide +kernel, by decide +kernel, by decide +kernel, by decide +kernel, by rw [h]; intro c hc; cases hc⟩

/-! ### Witnesses for the steps of the Shepherd -/

/-- The launch with changes, and no fold. -/
def emptyState (g : Launch → Launch) : State := { base with folds := [], launches := [g placedLaunch] }

/-- A launch at the head of its queue, and a copy behind one that is done. -/
def item (n : Nat) : QueueItem :=
  { queue := 63, index := n, launch := some 0, copy := none, prio := 0, placed := none, started := false, done := false }
def copyArgs : CopyArgs :=
  { sub := 3, aux := 0, host := 0, rsv := 0, seed := 0, opnd := 0, rkey := 0, zero := 0, recs := List.replicate 192 0 }
def queueCtx : Context :=
  { placedCtx with queue := [{ item 4 with started := true, done := true },
                             { item 5 with launch := none, copy := some copyArgs }] }

theorem witness_DispatchSteps_start :
    (∃ s c l, ctxAt s 0 = some c ∧ c.queue.find? (fun x => x.index == 5) = some (item 5) ∧
      mayStart s c.queue (item 5) = true ∧ (item 5).launch = some 0 ∧ launchAt s 0 = some l) ∧
    ∃ s die, ctxAt s 0 = some queueCtx ∧
      queueCtx.queue.find? (fun x => x.index == 5) = some { item 5 with launch := none, copy := some copyArgs } ∧
      mayStart s queueCtx.queue { item 5 with launch := none, copy := some copyArgs } = true ∧
      copyDie s queueCtx copyArgs = some die ∧ hasRoom s (copyCore s die) true = true ∧ engineTurn s (copyCore s die) 4 = true ∧
      copyCore s die < s.cores.length := by
  refine ⟨⟨{ emptyState (fun l => { l with started := false }) with ctxs := [{ placedCtx with queue := [item 5] }] },
      { placedCtx with queue := [item 5] }, _, rfl, by decide +kernel, by decide +kernel, rfl, rfl⟩,
    ⟨{ base with ctxs := [queueCtx] }, 0, rfl, by decide +kernel, by decide +kernel, by decide +kernel, by decide +kernel,
      by decide +kernel, by decide +kernel⟩⟩

theorem witness_DispatchSteps_step : ∃ s l c, launchAt s 0 = some l ∧ ctxAt s l.ctx = some c ∧ l.started = true ∧
    l.stopped = false ∧ l.running = none ∧ l.step < l.steps ∧ l.dieMin ≤ ([0, 1, 2, 3].filter (available s c)).length :=
  ⟨emptyState (fun l => { l with running := none, dieMin := 4, dieMax := 4 }), _, placedCtx, rfl, rfl, rfl, rfl, rfl,
   by decide +kernel, by decide +kernel⟩

/-- A launch whose drove has not been placed. -/
def dueState : State := emptyState (fun l => { l with running := some [{ die := 0, next := 0, last := 1 }] })

theorem witness_DispatchSteps_dispatch : ∃ c ks x, (dieAt (noteStarve dueState 0) 0).nextPlace ≤ dueState.clock ∧
    chooseCand (noteStarve dueState 0) 0 = some (c, ks) ∧ c.restore = [] ∧ ctxAt dueState c.launch.ctx = some x ∧
    ∀ f ∈ dueState.folds, f.uid < dueState.nextUid := by
  have h : (match chooseCand (noteStarve dueState 0) 0 with
            | some (c, _) => c.restore.isEmpty && (ctxAt dueState c.launch.ctx).isSome
            | none => false) = true := by decide +kernel
  revert h
  generalize hc : chooseCand (noteStarve dueState 0) 0 = y
  intro h
  match y, h with
  | some (c, ks), h =>
    simp only [Bool.and_eq_true, List.isEmpty_iff] at h
    obtain ⟨x, hx⟩ := some_of h.2
    exact ⟨c, ks, x, by decide +kernel, rfl, h.1, hx, by intro f hf; cases hf⟩

/-- Every core of die 0 is full; a launch of a higher priority has a drove to place. -/
def fullDie : State := { base with
  nextUid := 40,
  folds := (List.range 40).map (fun k => freshFold k 0 0 0 0 k k [freshFlock 0 0 [] 0 0 (placedSplit false)]),
  launches := [placedLaunch, { placedLaunch with uid := 1, prio := 1, running := some [{ die := 0, next := 0, last := 1 }] }] }

def starving : State :=
  { fullDie with clock := 200000, dies := base.dies.set 0 { dieAt base 0 with starve := some (1, 0) } }

theorem witness_DispatchSteps_starve : 0 < starving.dies.length ∧ (dieAt (noteStarve starving 0) 0).starve = some (1, 0) ∧
    0 + 200000 ≤ starving.clock := by decide +kernel

/-- The fold has ended; its launch has it alone. -/
def endState : State := { withFlock (fun fl => { fl with splits := [] }) with
  launches := [{ placedLaunch with running := some [{ die := 0, next := 1, last := 1 }] }] }

theorem witness_DispatchSteps_retire : ∃ f l, foldAt endState 0 = some f ∧ launchAt endState f.launch = some l ∧
    (∀ g ∈ droveFolds endState f, endReady endState g = true) ∧ (endState.folds.map (fun g => g.uid)).Nodup ∧
    (∀ g ∈ endState.folds, g.drb = []) ∧ (∀ g ∈ endState.folds, g.launch = l.uid → g ∈ droveFolds endState f) ∧
    l.stopped = false ∧ ∃ r, l.running = some r ∧ ∀ x ∈ r, x.last ≤ x.next :=
  ⟨_, { placedLaunch with running := some [{ die := 0, next := 1, last := 1 }] }, rfl, by decide +kernel, by decide +kernel,
   by decide +kernel, by decide +kernel, by decide +kernel, rfl, _, rfl, by decide⟩

/-- The fold's flock has ended with a record that no bundle has delivered; a command of its is still in the queue. -/
def lateRecord : ImpRecord := { cause := 0x01, detail := 0, more := 0, addr := 0, age := 0, stores := [] }
def recordEnd : State := { withFlock (fun fl => { fl with splits := [], records := [lateRecord] }) with
  cores := base.cores.set 0 { coreAt base 0 with
    cmds := [{ newCmd (.flock 0 0) (.amz ⟨.always, .none, 0⟩) 0 [] [] none 1 0 with id := 9 }] } }

theorem witness_DispatchSteps_undelivered : ∃ f, foldAt recordEnd 0 = some f ∧ launchAt recordEnd f.launch = some placedLaunch ∧
    f.place = .core ∧ f.fail = none ∧ f.flocks.all finished = true ∧ oldestRecord f = some lateRecord ∧
    hasCmds recordEnd f = true ∧ (recordEnd.folds.map (fun g => g.uid)).Nodup ∧
    ∀ g ∈ droveFolds recordEnd f, g.uid ≠ 0 → g.flocks.all finished = false :=
  ⟨_, rfl, by decide +kernel, rfl, rfl, rfl, rfl, by decide +kernel, by decide +kernel, by decide +kernel⟩

/-! ### Witnesses for saving and restoring -/

/-- Every split waits for a child, which is live. -/
def lwaitState : State := { childState with
  folds := (withFlock (fun fl => { fl with splits := [{ placedSplit false with wait := .lwait none }] })).folds }

theorem witness_SaveSteps_swap : ∃ f t0, foldAt lwaitState 0 = some f ∧
    (∀ g ∈ droveFolds lwaitState f, g.place = .core ∧ g.fail = none ∧ g.preempt = false ∧ allLwait g = true ∧
      engineBusy lwaitState g = false) ∧ (∀ g ∈ lwaitState.folds, g.drb = []) ∧ stillWaits lwaitState (droveFolds lwaitState f) = true ∧
    reserveAll lwaitState ((droveFolds lwaitState f).map (fun g => g.uid)) = some t0 ∧
    (lwaitState.folds.map (fun g => g.uid)).Nodup :=
  ⟨_, _, rfl, by decide +kernel, by decide +kernel, by decide +kernel, (some_of (by decide +kernel)).choose_spec,
   by decide +kernel⟩

/-- A candidate for which a core can be freed of folds of launches that meet `p`, and which fits on none as it is. -/
def AtFull (s : State) (die k : Nat) (c : Cand) (p : Launch → Bool) : Prop :=
  candCores s die c (fun f => f.preempt) = none ∧ c.launch.drove = 1 ∧ (s.folds.map (fun g => g.uid)).Nodup ∧
    k ∈ dieCores die ∧
    ∃ n t, selectOn k c.launch (c.restore.map (fun f => f.images)) (victimsOn s k p) 0 s = some (n, t) ∧ n = 1

theorem witness_SaveSteps_preempt : ∃ c rest, ranked fullDie 0 = c :: rest ∧
    AtFull fullDie 0 39 c (fun l => l.prio < c.launch.prio) := by
  have h : (match ranked fullDie 0 with
            | c :: _ => (candCores fullDie 0 c (fun f => f.preempt)).isNone && c.launch.drove == 1
                && (match selectOn 39 c.launch (c.restore.map (fun f => f.images))
                      (victimsOn fullDie 39 (fun l => l.prio < c.launch.prio)) 0 fullDie with
                    | some (n, _) => n == 1
                    | none => false)
            | [] => false) = true := by decide +kernel
  revert h
  generalize ranked fullDie 0 = y
  intro h
  match y, h with
  | c :: rest, h =>
    simp only [Bool.and_eq_true, beq_iff_eq, Option.isNone_iff_eq_none] at h
    refine ⟨c, rest, rfl, h.1.1, h.1.2, by decide +kernel, by decide, ?_⟩
    have h2 := h.2
    split at h2
    · next n t e => exact ⟨n, t, e, by simpa using h2⟩
    · cases h2

/-- The slice of context 0 is over on die 0; a launch of context 1 has a drove to place there, at the same priority. -/
def sliceCtx : Context := { placedCtx with timers := [(0, 1, 1)] }
def sliceState : State := { fullDie with
  clock := 500001, ctxs := [sliceCtx, { placedCtx with id := 1 }],
  launches := [placedLaunch, { placedLaunch with uid := 1, ctx := 1, running := some [{ die := 0, next := 0, last := 1 }] }] }
def sliceAfter : State := putCtx sliceState
  { sliceCtx with timers := sliceCtx.timers.map (fun x => if x.1 == 0 then (0, sliceState.clock, x.2.2) else x) }

theorem witness_SaveSteps_slice : ctxAt sliceState 0 = some sliceCtx ∧
    sliceCtx.timers.find? (fun x => x.1 == 0) = some (0, 1, 1) ∧ 1 + 1 * 500000 ≤ sliceState.clock ∧
    (sliceState.folds.map (fun g => g.uid)).Nodup ∧
    ∃ x, (ranked sliceAfter 0).head? = some x ∧ x.launch.ctx ≠ 0 ∧
      AtFull sliceAfter 0 39 x (fun l => l.ctx == 0 && l.prio == x.launch.prio) := by
  refine ⟨by decide +kernel, by decide +kernel, by decide +kernel, by decide +kernel, ?_⟩
  have h : (match (ranked sliceAfter 0).head? with
            | some c => c.launch.ctx != 0 && (candCores sliceAfter 0 c (fun f => f.preempt)).isNone && c.launch.drove == 1
                && (match selectOn 39 c.launch (c.restore.map (fun f => f.images))
                      (victimsOn sliceAfter 39 (fun l => l.ctx == 0 && l.prio == c.launch.prio)) 0 sliceAfter with
                    | some (n, _) => n == 1
                    | none => false)
            | none => false) = true := by decide +kernel
  revert h
  generalize (ranked sliceAfter 0).head? = y
  intro h
  match y, h with
  | some c, h =>
    simp only [Bool.and_eq_true, beq_iff_eq, bne_iff_ne, Option.isNone_iff_eq_none] at h
    refine ⟨c, rfl, h.1.1.1, h.1.1.2, h.1.2, by decide +kernel, by decide, ?_⟩
    have h2 := h.2
    split at h2
    · next n t e => exact ⟨n, t, e, by simpa using h2⟩
    · cases h2

/-- The fold is selected; its flock has a load in flight, or has stopped. -/
def selState (g : Flock → Flock) : State :=
  { base with folds := (withFlock g).folds.map (fun f => { f with preempt := true }) }

theorem witness_SaveSteps_stop : ∃ f fl, foldAt (selState (fun fl => { fl with loads := [vload] })) 0 = some f ∧
    flockAt f 0 = some fl ∧ f.preempt = true ∧ f.place = .core ∧ ∀ p ∈ fl.loads, ∀ w ∈ p.words, w.lane < 64 :=
  ⟨_, _, rfl, rfl, rfl, rfl, by decide +kernel⟩

def doneState : State := selState (fun fl => { fl with stopped := true })

theorem witness_SaveSteps_write : ∃ f, foldAt doneState 0 = some f ∧ (doneState.folds.map (fun g => g.uid)).Nodup ∧
    (∀ g ∈ doneState.folds, g.drb = []) ∧ ∀ g ∈ droveFolds doneState f, g.preempt = true ∧ g.place = .core ∧
      g.fail = none ∧ engineBusy doneState g = false ∧ ∀ fl ∈ g.flocks, fl.stopped = true ∨ finished fl = true :=
  ⟨_, rfl, by decide +kernel, by decide +kernel, by decide +kernel⟩

/-- The fold lies in its fleece. -/
def fleeceState : State := { base with folds := base.folds.map (fun f => { f with place := .fleece false }) }

theorem witness_SaveSteps_restore : ∃ c ks, (dieAt (noteStarve fleeceState 0) 0).nextPlace ≤ fleeceState.clock ∧
    chooseCand (noteStarve fleeceState 0) 0 = some (c, ks) ∧ c.restore ≠ [] ∧ (c.restore.map (fun f => f.uid)).Nodup ∧
    (∀ f ∈ c.restore, f.fleeceMark = false) ∧ ∀ k ∈ ks, k < fleeceState.cores.length := by
  have h : (match chooseCand (noteStarve fleeceState 0) 0 with
            | some (c, ks) => c.restore.length == 1 && c.restore.all (fun f => !f.fleeceMark)
                && ks.all (fun k => decide (k < fleeceState.cores.length))
            | none => false) = true := by decide +kernel
  revert h
  generalize chooseCand (noteStarve fleeceState 0) 0 = y
  intro h
  match y, h with
  | some (c, ks), h =>
    simp only [Bool.and_eq_true, beq_iff_eq, List.all_eq_true, Bool.not_eq_true', decide_eq_true_eq] at h
    obtain ⟨f, hf⟩ := List.length_eq_one_iff.1 h.1.1
    exact ⟨c, ks, by decide +kernel, rfl, by rw [hf]; simp, by rw [hf]; simp, h.1.2, h.2⟩

/-- The watchdog of the fold has run out. -/
def wdState (g : Flock → Flock) : State :=
  { base with folds := (withFlock g).folds.map (fun f => { f with wdog := 1, wd := 2 ^ 24 }) }

theorem witness_SaveSteps_watchdog : ∃ f f' fl,
    (foldAt (wdState id) 0 = some f ∧ f.wdog ≠ 0 ∧ f.wdog * 2 ^ 24 ≤ f.wd ∧ f.place = .core ∧ f.fail = none ∧
      ∀ fl ∈ f.flocks, finished fl = true ∨ allWait fl = false) ∧
    foldAt (wdState (fun fl => { fl with splits := [{ placedSplit false with wait := .batch true 0 }] })) 0 = some f' ∧
      f'.wdog ≠ 0 ∧ f'.wdog * 2 ^ 24 ≤ f'.wd ∧ f'.place = .core ∧ f'.fail = none ∧ f'.flocks = [fl] ∧ allWait fl = true ∧
      fl.stall = none ∧ fl.records = [] ∧ fl.watchdog = false :=
  ⟨_, _, _, ⟨rfl, by decide +kernel, by decide +kernel, rfl, rfl, by decide +kernel⟩, rfl, by decide +kernel,
   by decide +kernel, rfl, rfl, rfl, by decide +kernel, rfl, rfl, rfl⟩

/-! ### Witnesses for sampling, power, boot and errors -/

def sampleCtx : Context := { placedCtx with sampling := { k := 10, buf := 0, size := 65536, stop := false, wp := 0, drops := 0 } }
def sampleRec0 : SampleRec := { ord := 0, pc := 0x1000, mask := 1, clock := 0, stall := 0, levels := [1], narrow := false, route := 0 }
def sampleState : State :=
  { base with ctxs := [sampleCtx], folds := (withFlock (fun fl => { fl with sample := some sampleRec0 })).folds }

theorem witness_PowerAndErrorSteps_tag : ∃ q, 0 < sampleState.cores.length ∧ (coreAt sampleState 0).quads[0]? = some q ∧
    sampleDue sampleState q = [sampleCtx] := by
  obtain ⟨q, hq⟩ := some_of (x := (coreAt sampleState 0).quads[0]?) (by decide +kernel)
  refine ⟨q, by decide +kernel, hq, ?_⟩
  have h : ((coreAt sampleState 0).quads[0]?).map (fun q => sampleDue sampleState q) = some [sampleCtx] := by decide +kernel
  rw [hq] at h
  exact Option.some.inj h

theorem witness_PowerAndErrorSteps_record : ∃ f fl h lf, sampledIn sampleState 0 0 = (f, 0, sampleRec0) :: [] ∧
    foldAt sampleState f.uid = some f ∧ flockAt f 0 = some fl ∧ fl.sample = some sampleRec0 ∧
    launchAt sampleState f.launch = some placedLaunch ∧ ctxOf sampleState f = some sampleCtx ∧
    sampleCtx.sampling.wp < sampleCtx.sampling.size ∧
    apertureOff sampleCtx (sampleCtx.sampling.buf + sampleCtx.sampling.wp) = none ∧
    Machine.translate sampleState none sampleCtx.id sampleCtx.ptroot.toNat .write (sampleCtx.sampling.buf + sampleCtx.sampling.wp)
      = .ok (h, lf) ∧ homeOffline sampleState h = false ∧ h + 64 ≤ peerKey ∧ h % 64 = 0 :=
  ⟨(sampleState.folds[0]?).get (by decide +kernel), _, 0,
   (leafAt sampleState none 0 0x10000 0).toOption.get (by decide +kernel), by decide +kernel, by decide +kernel, rfl, rfl,
   by decide +kernel, by decide +kernel, by decide +kernel, by decide +kernel, by decide +kernel, by decide +kernel⟩

/-- Die 3 with changes. -/
def dieState (g : Die → Die) : State := { base with clock := 20000, dies := base.dies.set 3 (g (dieAt base 3)) }

theorem witness_PowerAndErrorSteps_alarm :
    (∃ s, s.dies.length = 4 ∧ (dieAt s 3).alarm = false ∧ 7500 < (dieAt s 3).deciA) ∧
    (∃ s, s.dies.length = 4 ∧ (dieAt s 3).alarm = false ∧ 105 ≤ (dieAt s 3).temp.toNat) ∧
    (∃ s, s.dies.length = 4 ∧ (dieAt s 3).alarm = false ∧ s.boardAlarm[3]? = some true) ∧
    (∃ s, s.dies.length = 4 ∧ (dieAt s 3).alarm = false ∧ 1800000 < s.packPower) ∧
    (∃ s, s.dies.length = 4 ∧ (dieAt s 3).alarm = true ∧ (dieAt s 3).deciA ≤ 7000 ∧ (dieAt s 3).temp.toNat < 105 ∧
      s.boardAlarm[3]? ≠ some true ∧ s.packPower ≤ 1800000 ∧ (dieAt s 3).lastHot + 20000 ≤ s.clock) ∧
    ∃ s, s.dies.length = 4 ∧ 115 ≤ (dieAt s 3).temp.toNat :=
  ⟨⟨dieState (fun d => { d with deciA := 7501 }), by decide +kernel⟩,
   ⟨dieState (fun d => { d with temp := 105 }), by decide +kernel⟩,
   ⟨{ base with boardAlarm := [false, false, false, true] }, by decide +kernel⟩,
   ⟨{ base with packPower := 1800001 }, by decide +kernel⟩,
   ⟨{ dieState (fun d => { d with alarm := true, deciA := 7000, temp := 104 }) with packPower := 1800000 }, by decide +kernel⟩,
   ⟨dieState (fun d => { d with temp := 115 }), by decide +kernel⟩⟩

/-- An image of empty key and body, and a package that is fused for it. -/
def image : BootImage := { key := [], version := 0, digest := sha3 [], body := [], sig := [] }
def fusedState : State := { State.reset with fuseHash := sha3 [], flash := [none, some image] }

theorem slotOk_of (s : State) (i : BootImage) (h1 : s.fuseHash = sha3 i.key) (h2 : s.fuseVersion ≤ i.version)
    (h3 : i.digest = sha3 i.body) : slotOk s i = Config.mldsaVerify i.key i.digest i.sig := by
  simp [slotOk, h1, h2, h3]

/-- Whether a signature verifies is a free value (Config.mldsaVerify): the image is one that boots exactly where it
does. -/
theorem witness_PowerAndErrorSteps_boot : slotOk fusedState image = Config.mldsaVerify image.key image.digest image.sig ∧
    fusedState.boot ≠ .running ∧ State.reset.flash = [none, none] ∧ State.reset.boot ≠ .running ∧
    ({ State.reset with boot := .recovery } : State).boot = .recovery := by
  exact ⟨slotOk_of _ _ (by simp only [fusedState, image]) (Nat.le_refl 0) (by simp only [image]), (by intro h; cases h), rfl, (by intro h; cases h), rfl⟩

theorem witness_PowerAndErrorSteps_errors : ∃ f g fl,
    (3 < base.dies.length ∧ 1 ≤ 7 ∧ 7 ≤ 7) ∧ (foldAt fleeceState 0 = some f ∧ f.place ≠ .core) ∧
    foldAt base 0 = some g ∧ flockAt g 0 = some fl ∧ g.place = .core ∧ 128 * 0 < peerKey :=
  ⟨_, _, _, by decide +kernel, ⟨rfl, by decide +kernel⟩, rfl, rfl, rfl, by decide⟩

/-! ### Witnesses for the host's and the peers' accesses -/

def isOkE {α β : Type} : Except α β → Bool
  | .ok _ => true
  | .error _ => false

theorem okE_of {α β : Type} {x : Except α β} (h : isOkE x = true) : ∃ r, x = .ok r := by
  cases x with
  | ok r => exact ⟨r, rfl⟩
  | error e => cases h

/-- The management endpoint and that of context 0 are connected; the context has a window of the first 16 bytes; a peer
has the same page table. -/
def winCtx : Context := { placedCtx with wins := [{ base := 0, len := 16, rkey := 7, access := 3 }] }
def hostState : State :=
  { base with mgmt := upEnd, eps := [(1, upEnd)], ctxs := [winCtx], peer := some { ptroot := 0x10000 } }

theorem witness_HostAccessSteps_connection :
    (base.boot = .running ∧ ctxAt base (256 - 256) ≠ none) ∧ (endpointAt hostState 1).up = true ∧
      (endpointAt hostState 0).up = true := by decide +kernel

theorem witness_HostAccessSteps_rdma : ∃ hs hs', hostState.boot = .running ∧ rdmaCtx hostState 1 = some winCtx ∧
    inWindow winCtx 14 2 7 1 = true ∧ apertureHit winCtx 14 2 = false ∧
    rangeHomes hostState winCtx.id winCtx.ptroot.toNat .write 14 2 = .ok hs ∧ (hs.map (fun x => x.1)).Nodup ∧
    inWindow winCtx 0 16 7 0 = true ∧ apertureHit winCtx 0 16 = false ∧
    rangeHomes hostState winCtx.id winCtx.ptroot.toNat .read 0 16 = .ok hs' := by
  have h : (rangeHomes hostState winCtx.id winCtx.ptroot.toNat .write 14 2).toOption.any
      (fun hs => decide (hs.map (fun x => x.1)).Nodup) = true := by decide +kernel
  obtain ⟨hs, e⟩ := okE_of (x := rangeHomes hostState winCtx.id winCtx.ptroot.toNat .write 14 2) (by decide +kernel)
  obtain ⟨hs', e'⟩ := okE_of (x := rangeHomes hostState winCtx.id winCtx.ptroot.toNat .read 0 16) (by decide +kernel)
  rw [e] at h
  exact ⟨hs, hs', rfl, by decide +kernel, by decide +kernel, by decide +kernel, e, of_decide_eq_true h, by decide +kernel,
    by decide +kernel, e'⟩

theorem witness_HostAccessSteps_peer : ∃ p hs rs, hostState.peer = some p ∧ atomFloat .add = false ∧
    rangeHomes hostState peerCtxId p.ptroot.toNat .rmw 0 (atomBits .add false (fdrOf 0) / 8) = .ok hs ∧
    rangeHomes hostState peerCtxId p.ptroot.toNat .read 0 (atomBits .add false (fdrOf 0) / 8) = .ok rs ∧
    (hs.map (fun x => x.1)).Nodup ∧ 63 ∉ hostState.portDown := by
  have h : (rangeHomes hostState peerCtxId 0x10000 .rmw 0 (atomBits .add false (fdrOf 0) / 8)).toOption.any
      (fun hs => decide (hs.map (fun x => x.1)).Nodup) = true := by decide +kernel
  obtain ⟨hs, e⟩ := okE_of (x := rangeHomes hostState peerCtxId 0x10000 .rmw 0 (atomBits .add false (fdrOf 0) / 8))
    (by decide +kernel)
  obtain ⟨rs, e'⟩ := okE_of (x := rangeHomes hostState peerCtxId 0x10000 .read 0 (atomBits .add false (fdrOf 0) / 8))
    (by decide +kernel)
  rw [e] at h
  exact ⟨{ ptroot := 0x10000 }, hs, rs, rfl, by decide, e, e', of_decide_eq_true h, by decide +kernel⟩

/-! ### Witnesses for the commands of the host -/

/-- The first command of an endpoint, of a type, with a payload of `n` bytes, in queue 63. -/
def msg (ep type n : Nat) : Msg :=
  { ep := ep, bytes := 32 + n, type := type, len := n, queue := 63, seq := 1, tag := 7, status := 0, zero := 0 }

theorem takes_of {s : State} {m : Msg} (h1 : s.boot = .running)
    (h2 : endpointAt s m.ep = upEnd) (h3 : m.seq = 1) : Takes s m := by
  refine ⟨h1, ?_, ?_, ?_, ?_, ?_⟩ <;> rw [h2]
  · rfl
  · rw [h3]; rfl
  · decide
  · intro r hr; cases hr
  · intro r hr; cases hr

theorem hostLaunch_record : ∃ l, hostLaunch recordState (msg 1 1 8) placedCtx 0x2000 = .ok l := by
  unfold hostLaunch
  exact ⟨_, checkLaunch_record _ (by decide +kernel)⟩

theorem witness_HostCommands_launch : ∃ l, Takes recordState (msg 1 1 8) ∧ headBad (msg 1 1 8) 1 8 = false ∧
    msgCtx recordState (msg 1 1 8) = some placedCtx ∧ hostLaunch recordState (msg 1 1 8) placedCtx 0x2000 = .ok l ∧
    (0x2000#64).toNat = 0x2000 ∧ (0x2001#64).toNat % 64 ≠ 0 := by
  obtain ⟨l, h⟩ := hostLaunch_record
  exact ⟨l, takes_of rfl rfl rfl, by decide, rfl, h, by decide, by decide⟩

theorem witness_HostCommands_copy : Takes hostState { msg 1 2 224 with queue := 0x73F } ∧
    headBad { msg 1 2 224 with queue := 0x73F } 2 224 = false ∧ copyBad copyArgs = false ∧
    msgCtx hostState { msg 1 2 224 with queue := 0x73F } = some winCtx :=
  ⟨takes_of rfl rfl rfl, by decide, by decide +kernel, rfl⟩

/-- A fault on page 0, which is mapped by now, and on which the flock stalls. -/
def goneRec : FaultRec := { id := 1, page := 0, reason := 1, acc := .read, since := 0 }
def goneCtx : Context := { placedCtx with faults := [goneRec], nextFault := 2 }
def goneState : State := { hostState with
  ctxs := [goneCtx], folds := (withFlock (fun fl => { fl with stall := some 1 })).folds }
def mapHead (op : BitVec 32) : MapHead := { op := op, rsv := 0 }

theorem witness_HostCommands_map :
    (Takes hostState (msg 1 3 24) ∧ headBad (msg 1 3 24) 3 24 = false ∧ msgCtx hostState (msg 1 3 24) = some winCtx ∧
      winCtx.faults = [] ∧ (mapHead 1).op = 1 ∧ (mapHead 1).rsv = 0) ∧
    (Takes goneState (msg 1 3 24) ∧ msgCtx goneState (msg 1 3 24) = some goneCtx ∧ goneCtx.faults = [goneRec] ∧
      meetsPage 0xFFFF 1 goneRec.page 0x10000 = true ∧
      faultGone (invalidateRange goneState goneCtx.id 0xFFFF 1) goneCtx goneRec = true ∧ NoWaitingStore goneState) ∧
    (2 ^ 32 - 1 < 2 ^ 32 ∧ goneCtx.faults.find? (fun x => x.id == 1) = some goneRec ∧
      goneCtx.faults.find? (fun x => x.id == 2) = none) ∧
    foldAt goneState 0 = goneState.folds[0]? ∧ (flockOf goneState 0 0).any (fun fl => fl.stall == some 1) = true :=
  ⟨⟨takes_of rfl rfl rfl, by decide, rfl, rfl, rfl, rfl⟩,
   ⟨takes_of rfl rfl rfl, rfl, rfl, by decide, by decide +kernel, by unfold NoWaitingStore; decide +kernel⟩,
   ⟨by decide, by decide, by decide⟩, by decide +kernel⟩

def ctxArgs (op : BitVec 32) (k : Nat) (sched : BitVec 32) : CtxArgs :=
  { op := op, ctx := k, ptroot := 0x10000, lsap := 0, trapbase := 16, sched := sched, stage := 1, spill := 0, saveBase := 0,
    saveSize := 0, faultto := 0, nwin := 0, wins := [] }
def ctxMsg : Msg := msg 0 4 0x48

theorem witness_HostCommands_create :
    (Takes hostState ctxMsg ∧ headBad ctxMsg 4 (ctxLen (ctxArgs 1 255 15)) = false) ∧
    (ctxBad ctxMsg (ctxArgs 1 255 15) 1 = false ∧ createBad hostState (ctxArgs 1 255 15) = false ∧
      ctxAt hostState 255 = none) ∧
    (ctxBad ctxMsg (ctxArgs 1 0 15) 1 = false ∧ createBad hostState (ctxArgs 1 0 15) = false ∧ ctxAt hostState 0 ≠ none) ∧
    Takes { hostState with peer := none } ctxMsg ∧ ctxBad ctxMsg (ctxArgs 1 (2 ^ 31) 15) 1 = false ∧
      createBad { hostState with peer := none } (ctxArgs 1 (2 ^ 31) 15) = false ∧
      ({ hostState with peer := none } : State).peer = none :=
  ⟨⟨takes_of rfl rfl rfl, by decide⟩, by decide +kernel, by decide +kernel, takes_of rfl rfl rfl, by decide +kernel,
   by decide +kernel, rfl⟩

/-- A command of context 0 is under way. -/
def busyEps : State := { hostState with eps := [(1, { upEnd with nextIndex := 1, journal :=
  [{ index := 0, seq := 1, tag := 0, type := 1, state := 1, status := 0, pastid := 1, times := (0, 0, 0), items := 0,
     fails := 0, first := [] }] })] }

theorem witness_HostCommands_destroy :
    (headBad ctxMsg 4 (ctxLen (ctxArgs 2 0 0)) = false ∧ ctxBad ctxMsg (ctxArgs 2 0 0) 2 = false ∧
      schedBad (ctxArgs 2 0 0).sched false = false) ∧
    (Takes hostState ctxMsg ∧ ctxAt hostState 0 ≠ none ∧ ctxBusy hostState 0 = false) ∧
    Takes busyEps ctxMsg ∧ ctxAt busyEps 0 ≠ none ∧ ctxBusy busyEps 0 = true :=
  ⟨by decide +kernel, ⟨takes_of rfl rfl rfl, by decide +kernel⟩, takes_of rfl rfl rfl, by decide +kernel⟩

theorem witness_HostCommands_modify : Takes hostState ctxMsg ∧ headBad ctxMsg 4 (ctxLen (ctxArgs 3 0 15)) = false ∧
    modifyBad ctxMsg (ctxArgs 3 0 15) = false ∧ ctxAt hostState 0 = some winCtx ∧
    (ctxArgs 3 0 15).sched.getLsbD 24 = false :=
  ⟨takes_of rfl rfl rfl, by decide +kernel⟩

/-! PREEMPT: the fold of context 0 has room; it has none; no fold of the context is resident. -/

def preArgs : CtxArgs := ctxArgs 3 0 0x100000F
/-- A second fold of the context holds the whole fleece region of die 0. -/
def noRoomState : State := { hostState with folds := hostState.folds ++ hostState.folds.map (fun f =>
  { f with uid := 1, foldId := 1, place := .fleece false, room := some (false, 100663296) }) }
def hostFold : Fold := (hostState.folds[0]?).get (by decide +kernel)

theorem hostFold_here (s : State) (h : s = hostState ∨ s = noRoomState) (v : Fold) (hv : v ∈ s.folds)
    (hp : v.place = .core) : v = hostFold := by
  have e : ∀ l : List Fold, l.all (fun f => !(f.place == .core) || f == hostFold) = true → v ∈ l → v = hostFold := by
    intro l hl hm
    simpa [hp] using List.all_eq_true.mp hl v hm
  rcases h with rfl | rfl
  · exact e _ (by decide +kernel) hv
  · exact e _ (by decide +kernel) hv

theorem witness_HostCommands_preempt :
    (headBad ctxMsg 4 (ctxLen preArgs) = false ∧ modifyBad ctxMsg preArgs = false ∧ preArgs.sched.getLsbD 24 = true ∧
      (hostState.folds.map (fun f => f.uid)).Nodup) ∧
    (∀ d, mantleUse hostState d + ((hostState.folds.filter (fun f => f.die == d)).map (fleeceBytes hostState)).sum
      ≤ Config.fleeceRegion) ∧
    (hostFold ∈ hostState.folds ∧ hostFold.place = .core ∧ hostFold.fail = none ∧ hostFold.preempt = false ∧
      launchAt hostState hostFold.launch = some placedLaunch ∧ placedLaunch.ctx = preArgs.ctx) ∧
    Takes noRoomState ctxMsg ∧ (noRoomState.folds.map (fun f => f.uid)).Nodup ∧ ctxAt noRoomState 0 = some winCtx ∧
    hostFold ∈ noRoomState.folds ∧ droveFolds noRoomState hostFold = [hostFold] ∧
    Config.fleeceRegion < mantleUse noRoomState hostFold.die + fleeceBytes noRoomState hostFold ∧
    winCtx.saveSize.toNat < saveUse noRoomState 0 hostFold.die + fleeceBytes noRoomState hostFold := by
  refine ⟨by decide +kernel, ?_, by decide +kernel, takes_of rfl rfl rfl, by decide +kernel, by decide +kernel,
    by decide +kernel, by decide +kernel, by decide +kernel, by decide +kernel⟩
  intro d
  rcases Nat.eq_zero_or_pos d with rfl | h
  · decide +kernel
  · have e : hostState.folds.filter (fun f => f.die == d) = [] := by
      rw [List.filter_eq_nil_iff]
      intro f hf
      have := List.all_eq_true.mp (show hostState.folds.all (fun f => f.die == 0) = true by decide +kernel) f hf
      simp at this ⊢; omega
    simp [mantleUse, e]

def noFolds : State := { hostState with folds := [] }

theorem witness_HostCommands_preempt_none : Takes noFolds ctxMsg ∧ noFolds.folds = [] ∧
    ctxAt noFolds 0 = some winCtx :=
  ⟨takes_of rfl rfl rfl, rfl, rfl⟩

/-- The refusals: an endpoint that is down; too many commands under way; SEQ outside the window; a SEQ taken before. -/
def fullEnd : Endpoint :=
  { upEnd with
    h := 3, nextIndex := 4096, accepted := [{ seq := 1, index := 4000, tag := 0, done := some [], status := 0 }],
    journal := List.replicate 4096
      { index := 4000, seq := 1, tag := 0, type := 1, state := 1, status := 0, pastid := 1, times := (0, 0, 0), items := 0,
        fails := 0, first := [] } }
def fullEps : State := { hostState with eps := [(1, fullEnd)] }

theorem witness_HostCommands_refused :
    (base.boot = .running ∧ (endpointAt base 1).up = false) ∧
    (hostState.boot = .running ∧ (endpointAt hostState 1).up = true ∧ headBad (msg 1 3 23) 3 24 = true) ∧
    fullEps.boot = .running ∧ (endpointAt fullEps 1).up = true ∧ headBad (msg 1 3 24) 3 24 = false ∧
    (msg 1 3 24).ep ≠ 0 ∧ (4 = (endpointAt fullEps 1).h + 1 ∧ 4096 ≤ outstanding (endpointAt fullEps 1)) ∧
    (endpointAt fullEps 1).h + 1 < 5 ∧ (msg 1 3 24).seq ≤ (endpointAt fullEps 1).h ∧
    (endpointAt fullEps 1).h ≤ (msg 1 3 24).seq + 8191 ∧
    ((endpointAt fullEps 1).accepted.find? (fun y => y.seq == 1)).isSome = true := by
  decide +kernel

/-! ### Witnesses for queries -/

def query (sel unit ctx count : BitVec 32) : QueryArgs := { sel := sel, unit := unit, ctx := ctx, count := count }

theorem witness_QuerySteps :
    (Takes hostState (msg 0 5 16) ∧ headBad (msg 0 5 16) 5 16 = false ∧ hostState.dies.length = 4 ∧
      (query (selWord 1 true false) 3 0 0).unit.toNat < 4 ∧ (query (selWord 5 true false) 0xFFFFFFFF 0 0).unit.toNat = 2 ^ 32 - 1) ∧
    ((query (selWord 2 true false) 159 0 0).unit.toNat < 160 ∧ hostState.cores.length = 160 ∧
      queryCtxBad (msg 0 5 16) (query (selWord 2 true false) 159 0 0) = false ∧
      ctxAt hostState (queryCtx (msg 0 5 16) (query (selWord 2 true false) 159 0 0)) = some winCtx) ∧
    (Takes hostState (msg 1 5 16) ∧ headBad (msg 1 5 16) 5 16 = false ∧
      queryCtxBad (msg 1 5 16) (query (selWord 3 true false) 0 0 0) = false ∧
      ctxAt hostState (queryCtx (msg 1 5 16) (query (selWord 3 true false) 0 0 0)) = some winCtx) ∧
    (Takes hostState (msg 0 5 48) ∧ headBad (msg 0 5 48) 5 48 = false ∧ (List.replicate 32 (0 : Byte)).length = 32) ∧
    ((query 7 256 0 0).unit.toNat ≤ 256 ∧ ringThere hostState 256 = true ∧ ringThere hostState 0 = true) ∧
    (Takes hostState (msg 0 5 528) ∧ routingBad (query (selWord 8 false true) 960 0 64) = false ∧
      headBad (msg 0 5 528) 5 (16 + 8 * 64) = false ∧
      (List.replicate 64 (0 : DWord)).length = (query (selWord 8 false true) 960 0 64).count.toNat) ∧
    ((msg 1 5 16).ep ≠ 0 ∧ (query 255 0 0 0).sel.toNat < 256 ∧ 8 < (query 9 0 0 0).sel.toNat % 256 ∧
      (query 0x100 0 0 0).sel.toNat / 2 ^ 8 % 2 ^ 22 ≠ 0) := by
  refine ⟨⟨takes_of rfl rfl rfl, by decide +kernel⟩, by decide +kernel, ⟨takes_of rfl rfl rfl, by decide +kernel⟩,
    ⟨takes_of rfl rfl rfl, by decide +kernel⟩, by decide +kernel, ⟨takes_of rfl rfl rfl, by decide +kernel⟩, by decide +kernel⟩

/-- The ring of context 0 has had 65,537 records, of which it holds the last; a copy of it stands on die 1. -/
def oldRing : State := { hostState with eps := [(1, { upEnd with nextIndex := 65537, copies := [1], journal :=
  [{ index := 65536, seq := 1, tag := 0, type := 1, state := 3, status := 0, pastid := 0, times := (0, 0, 0), items := 0,
     fails := 0, first := [] }] })] }

theorem witness_QuerySteps_journal :
    (Takes oldRing (msg 0 6 16) ∧ headBad (msg 0 6 16) 6 16 = false ∧ ringThere oldRing 0 = true ∧
      ringEp 0 ≠ (msg 0 6 16).ep) ∧
    (recordAt oldRing (ringEp 0) 65536).isSome = true ∧ (endpointAt oldRing (ringEp 0)).nextIndex ≤ 65537 ∧
    recordAt oldRing (ringEp 0) 0 = none ∧ 0 < (endpointAt oldRing (ringEp 0)).nextIndex ∧
    (endpointAt oldRing (ringEp 0)).copies.any (fun d => !dieOffline oldRing d) = true :=
  ⟨⟨takes_of rfl rfl rfl, by decide +kernel⟩, by decide +kernel⟩

/-! ### Witnesses for the debugger -/

def dbg (op flags : BitVec 32) (space lane : BitVec 8) (index count : BitVec 32) : DbgArgs :=
  { op := op, flags := flags, pastid := 1, foldid := 0, flockid := 0, lane := lane, space := space, kernid := 9,
    ord := 0xFFFFF, index := index, count := count, zero24 := 0, buf := 0, bufsize := 65536, zero38 := 0 }
def dbgMsg : Msg := msg 1 8 64
/-- A debugger is attached to context 0, with `n` breakpoints, and every split of its flock has halted or runs. -/
def dbgHost (n : Nat) (halted : Bool) : State := { hostState with
  ctxs := [{ winCtx with attached := true, breaks := (List.range n).map (fun i => (5, BitVec.ofNat 20 i)) }]
  folds := (withFlock (fun fl => { fl with splits := [{ placedSplit false with halted := halted }] })).folds }

theorem witness_DebugSteps_op : ∀ op ∈ [1, 2, 3, 4, 5, 6, 7, 8],
    DbgOp dbgMsg (dbg (BitVec.ofNat 32 op) 0 0 0 0 0) op 64 := by unfold DbgOp; decide +kernel

theorem witness_DebugSteps_context : ∃ c d,
    Takes (dbgHost 63 false) dbgMsg ∧ msgCtx (dbgHost 63 false) dbgMsg = some c ∧
    c.attached = true ∧ (dbg 5 0 0 0 0 0).ord.toNat < 2 ^ 20 ∧ c.breaks.length < 64 ∧
    Takes (dbgHost 64 false) dbgMsg ∧ msgCtx (dbgHost 64 false) dbgMsg = some d ∧ d.attached = true ∧
    ((dbg 5 0 0 0 0 0).kernid, (dbg 5 0 0 0 0 0).ord.setWidth 20) ∉ d.breaks ∧ 64 ≤ d.breaks.length ∧
    (flocksOf (dbgHost 64 false) d.id).length = 1 ∧
    10 ≤ (dbg 8 0 0 0 24 0).index.toNat ∧ (dbg 8 0 0 0 24 0).index.toNat ≤ 24 ∧ (dbg 8 0 0 0 24 0).buf.toNat % 65536 = 0 ∧
    (dbg 8 0 0 0 24 0).bufsize.toNat % 65536 = 0 ∧ (dbg 8 0 0 0 24 0).bufsize ≠ 0 :=
  ⟨_, _, takes_of rfl rfl rfl, rfl, rfl, by decide, by decide +kernel, takes_of rfl rfl rfl, rfl, rfl,
   by decide +kernel, by decide +kernel, by decide +kernel, by decide, by decide, by decide, by decide, by decide⟩

/-- The flock of the command, and its fold. -/
def dbgFoldOf (s : State) (h : (s.folds[0]?).isSome = true) : Fold := (s.folds[0]?).get h
def goFold : Fold := dbgFoldOf (dbgHost 0 false) (by decide +kernel)
def goFl : Flock := (flockAt goFold 0).get (by decide +kernel)
def haltFold : Fold := dbgFoldOf (dbgHost 0 true) (by decide +kernel)
def haltFl : Flock := (flockAt haltFold 0).get (by decide +kernel)

theorem witness_DebugSteps_flock :
    (Takes (dbgHost 0 false) dbgMsg ∧ (msgCtx (dbgHost 0 false) dbgMsg).any (fun c => c.attached) = true ∧
      dbgFlock (dbgHost 0 false) dbgMsg (dbg 2 0 0 0 0 0) = some (goFold, 0, goFl) ∧
      foldAt (dbgHost 0 false) goFold.uid = some goFold ∧ finished goFl = false ∧ haltedFlock goFl = false) ∧
    (Takes (dbgHost 0 true) dbgMsg ∧ dbgFlock (dbgHost 0 true) dbgMsg (dbg 4 0 0 63 0 0) = some (haltFold, 0, haltFl) ∧
      foldAt (dbgHost 0 true) haltFold.uid = some haltFold ∧ haltedFlock haltFl = true ∧ haltFold.place = .core ∧
      haltFl.stack = [] ∧ haltFl.loads = [] ∧ splitWith haltFl 63 = some 0 ∧
      (haltFl.splits[0]?).any (fun sp => sp.mask != BitVec.twoPow 64 63) = true ∧ haltFl.hw < 32 ∧
      launchAt (dbgHost 0 true) haltFold.launch = some placedLaunch ∧
      ctxAt (dbgHost 0 true) placedLaunch.ctx = msgCtx (dbgHost 0 true) dbgMsg) :=
  ⟨⟨takes_of rfl rfl rfl, by decide +kernel⟩, takes_of rfl rfl rfl, by decide +kernel⟩

/-- The halted flock with changes, or with its fold in a fleece. -/
def haltHost (place : Residence) (g : Flock → Flock) : State := 
  { dbgHost 0 true with
    folds := (dbgHost 0 true).folds.map (fun f => { f with place := place, flocks := f.flocks.map g }) }
def isHalted (s : State) (lane : BitVec 8) (p : Fold → Flock → Bool) : Bool :=
  match dbgFlock s dbgMsg (dbg 4 0 0 lane 0 0) with
  | some (f, i, fl) => i == 0 && foldAt s f.uid == some f && haltedFlock fl && p f fl
  | none => false

/-- In a fleece; with entries, in hardware and spilled; with a live split of the named lane alone; with a full stack; and
with a lane that no live split holds. -/
theorem witness_DebugSteps_stacks :
    isHalted (haltHost (.fleece false) id) 0 (fun f _ => f.place != .core) = true ∧
    isHalted (haltHost .core (fun fl => { fl with stack := deepFlock.stack, hw := 1 })) 0 (fun f fl =>
      f.place == .core && decide (fl.hw < fl.stack.length)) = true ∧
    isHalted (haltHost .core (fun fl => { fl with stack := deepFlock.stack, hw := 32 })) 0 (fun _ fl =>
      decide (fl.stack.length ≤ fl.hw) && fl.stack != []) = true ∧
    isHalted (haltHost .core (fun fl => { fl with splits := fl.splits.map (fun sp => { sp with mask := 1 }) })) 0 (fun _ fl =>
      splitWith fl 0 == some 0 && (splitWith fl 63).isNone) = true ∧
    isHalted (haltHost .core (fun fl => { fl with stack := List.replicate 256 { pc := 0, mask := 1, path := [], pass := false } })) 63
      (fun _ fl => decide (256 ≤ fl.stack.length) && (fl.splits[0]?).any (fun sp => sp.mask != BitVec.twoPow 64 63)) = true := by
  decide +kernel

/-- An item of a space that READ and WRITE take, or only READ. -/
def itemOk (space lane : BitVec 8) (index : BitVec 32) (data : List Byte) : Bool :=
  let a := dbg 6 1 space lane index 1
  !itemsBad a && !itemsOut (dbgHost 0 true) (haltFold, 0, haltFl) a && a.count.toNat * itemBytes a ≤ 4056
    && data.length == a.count.toNat * itemBytes a && !slotsBad a data && a.flags == 1
    && !headBad (msg 1 8 (64 + data.length)) 8 (64 + data.length)

/-- The last item of every space, and every lane of v255. -/
theorem witness_DebugSteps_items : itemOk 1 63 255 [0, 0, 0, 0] = true ∧ itemOk 1 255 255 (List.replicate 256 0xFF) = true ∧
    itemOk 2 0 127 [0, 0, 0, 0] = true ∧ itemOk 3 0 7 [0, 0, 0, 0] = true ∧ itemOk 4 63 0 [0, 0, 0, 0] = true ∧
    itemOk 5 63 0 [0, 0, 0, 0] = true ∧ itemOk 6 0 0 [0, 0, 0, 0] = true ∧ itemOk 7 0 11 [0] = true ∧
    itemOk 8 0 0 [0, 0, 0, 0] = true ∧ itemOk 9 0 7 [0xF1, 0xFE, 0xA1, 0, 0, 0, 0, 0] = true ∧
    itemOk 10 63 0 [0, 0, 0, 0] = true ∧ itemOk 11 0 0xBFFFF [0] = true ∧ itemOk 13 0 0 (List.replicate 24 0) = true := by
  decide +kernel

/-! ### Witnesses for die control -/

def ctl (op stage : Nat) : DieCtl := { op := op, die := 3, stage := stage, index := 0, seq := 1, tag := 7 }
def ctlState (c : DieCtl) : State := { hostState with dieCtl := some c }
def refreshState : State := { hostState with dies := base.dies.set 3 { dieAt base 3 with state := .refresh } }

theorem witness_DieControlSteps_take :
    (Takes hostState (msg 0 7 12) ∧ headBad (msg 0 7 12) 7 12 = false ∧ hostState.dies.length = 4 ∧
      withdrawDeny hostState 3 = false ∧ hostState.dieCtl = none ∧ nearHeld hostState 3 = false) ∧
    (Takes (ctlState (ctl 1 1)) (msg 0 7 12) ∧ withdrawDeny (ctlState (ctl 1 1)) 3 = true) ∧
    Takes refreshState (msg 0 7 12) ∧ refreshState.dieCtl = none ∧ (dieAt refreshState 3).state = .refresh :=
  ⟨⟨takes_of rfl rfl rfl, by decide +kernel⟩, ⟨takes_of rfl rfl rfl, by decide +kernel⟩, takes_of rfl rfl rfl,
   by decide +kernel⟩

/-- A TLB holds a page of the NEAR range of die 3. -/
def nearLeaf : Leaf := { dom := 0, win := 0, comp := 0, frame := nearBase 3, size := 0x10000, mt := 1, x := true, w := true }
def nearState : State :=
  { hostState with
    dies := hostState.dies.set 3 { dieAt hostState 3 with tlb := [{ ctx := 0, page := 0, leaf := nearLeaf }] } }

theorem witness_DieControlSteps_near : nearHeld nearState 3 = true := by decide +kernel

/-- Whether a link trains is a free value (Config.linksUp): at stage 6 one clause or the other applies. -/
theorem witness_DieControlSteps_stages :
    (∀ n ∈ [1, 2, 3, 4, 5, 6, 7], stageReady (ctlState (ctl 3 n)) (ctl 3 n) = true ∧ (ctl 3 n).die < 4 ∧
      (ctlState (ctl 3 n)).dies.length = 4 ∧ 1 ≤ (ctl 3 n).stage ∧ (ctl 3 n).stage ≤ 7) ∧
    (ctlState (ctl 3 6)).dieCtl = some (ctl 3 6) ∧
    (Config.linksUp (ctlState (ctl 3 6)).free 3 = true ∨ Config.linksUp (ctlState (ctl 3 6)).free 3 = false) :=
  ⟨by decide +kernel, rfl, by cases Config.linksUp (ctlState (ctl 3 6)).free 3 <;> simp⟩

/-! ### Decoding: words written out field by field from R80 to R90 and R106 -/

/-- A full bundle without a guard: OP, DST, SUB, SA, SB, the word above them, and what else is set. -/
def fword (op dst sub sa sb hi : Nat) (rest : Nat := 0) : Nat :=
  op * 2 ^ 2 + 31 * 2 ^ 18 + dst * 2 ^ 24 + sub * 2 ^ 32 + sa * 2 ^ 48 + sb * 2 ^ 72 + hi * 2 ^ 96 + rest

/-- A source field: KIND and REG (R81). -/
def sfield (kind reg : Nat) : Nat := kind * 2 ^ 22 + reg

/-- IMM (bit 46), FS (from bit 11) and FLG (from bit 16). -/
def immBit : Nat := 2 ^ 46
def fsBits (n : Nat) : Nat := n * 2 ^ 11
def flgBits (n : Nat) : Nat := n * 2 ^ 16

theorem test_decode_control :
    decodeTableWord 128 (fword 0x000 0 0 0 0 0) = some (.nop ⟨.always⟩) ∧
    decodeTableWord 128 (fword 0x001 0 0x03 (sfield 2 7) 0 0xFFFFFFF0 immBit)
      = some (.bra ⟨.always, some (7, true), 0xFFFFFFF0⟩) ∧
    decodeTableWord 128 (fword 0x003 0 0 (sfield 1 126) 0 0) = some (.bri ⟨.always, 126⟩) ∧
    decodeTableWord 128 (fword 0x004 254 0 0 0 0x100 immBit) = some (.call ⟨.always, 254, 0x100⟩) ∧
    decodeTableWord 128 (fword 0x006 127 0 0 0 0x10 immBit) = some (.loop ⟨.always, 127, 0x10⟩) := by decide

theorem test_decode_predicates :
    decodeTableWord 128 (fword 0x010 23 0x96 (sfield 2 0) (sfield 2 1) (sfield 2 2))
      = some (.pltab ⟨.always, 23, 0, 1, 2, 0x96⟩) ∧
    decodeTableWord 128 (fword 0x011 0 1 (0xE00 * 2 ^ 8 + 9) 0 0) = some (.pmovFromv ⟨.always, 9, 0xE00⟩) ∧
    decodeTableWord 128 (fword 0x014 7 0 0 0 0x80000000 immBit) = some (.qset ⟨.always, 7, .imm 0x80000000⟩) := by decide

theorem test_decode_scalar :
    decodeTableWord 128 (fword 0x020 127 0 (sfield 1 1) (sfield 1 2) 0) = some (.sadd ⟨.always, 127, 1, .s 2⟩) ∧
    decodeTableWord 128 (fword 0x024 3 0 (sfield 1 4) (sfield 1 5) 0xFFFFFFFF immBit)
      = some (.smad ⟨.always, 3, 4, 5, .imm 0xFFFFFFFF⟩) ∧
    decodeTableWord 128 (fword 0x031 9 0 0 0 0x12345678 immBit) = some (.smovi ⟨.always, 9, 0x12345678⟩) := by decide

theorem test_decode_vector :
    decodeTableWord 128 (fword 0x040 255 0 1 0 0xFFFFFFFF immBit) = some (.iadd ⟨.always, 255, .v 1 0, .imm 0xFFFFFFFF⟩) ∧
    decodeTableWord 128 (fword 0x046 4 0 5 (sfield 1 6) 7) = some (.imad ⟨.always, 4, .v 5 0, .s 6, .v 7 0⟩) ∧
    decodeTableWord 128 (fword 0x0C0 8 0 (2 ^ 21 + 9) (2 ^ 20 + 10) 0 (fsBits 3))
      = some (.fadd ⟨.always, 3, false, none, 8, ⟨.v 9 0, true, false⟩, ⟨.v 10 0, false, true⟩⟩) ∧
    decodeTableWord 128 (fword 0x100 0 0 (sfield 1 2) 0 0 (fsBits 15)) = some (.fdrw ⟨.always, 15, .s 2⟩) ∧
    decodeTableWord 128 (fword 0x120 1 0 2 0 0 (fsBits 1)) = some (.rcp ⟨.always, 1, false, none, 1, ⟨.v 2 0, false, false⟩⟩) ∧
    decodeTableWord 128 (fword 0x141 8 0xA8 9 0 0 (fsBits 1)) = some (.scanl ⟨.always, 1, .fadd, 2, true, 8, .v 9 0⟩) := by
  decide

/-- The first word is the load of the notes on the system's example, as printed. -/
theorem test_decode_memory :
    decodeTableWord 128 0x000000000000004000_0C0454287D05A4
      = some (.sld ⟨.always, .a, 4, 1, 5, 0, 40, 12, none⟩) ∧
    decodeTableWord 128 (fword 0x16F 0 0xB8 0 0 0) = some (.fence ⟨.always, .none, 2, 11⟩) ∧
    decodeTableWord 128 (fword 0x16E 0 0x20 0 0 0 (flgBits 2)) = some (.dflush ⟨.always, .b, 2⟩) := by decide

theorem test_decode_engines :
    decodeTableWord 128 (fword 0x1A4 31 0 0 0 0 (flgBits 1)) = some (.amz ⟨.always, .a, 31⟩) ∧
    decodeTableWord 128 (fword 0x1B0 0 0xB4 (sfield 1 112) (sfield 1 3) 0)
      = some (.copy ⟨.always, .none, 11, 0, true, false, false, 0, false, false, false, 112, some 3⟩) := by decide

theorem test_decode_system :
    decodeTableWord 128 (fword 0x1C2 7 1 (sfield 1 4) (sfield 1 5) 0) = some (.barw ⟨.always, .none, true, 7, 4, 5⟩) ∧
    decodeTableWord 128 (fword 0x1C4 126 0 (sfield 1 2) 0 0) = some (.launch ⟨.always, .none, 126, 2⟩) ∧
    decodeTableWord 128 (fword 0x1D0 0 0xFF 0 0 0) = some (.trap ⟨.always, 0xFF⟩) ∧
    decodeTableWord 128 (fword 0x1D1 0 1 0 0 0) = some (.tret ⟨.always, true⟩) ∧
    decodeTableWord 128 (fword 0x1D4 5 0x00 0 0 0 (2 ^ 40)) = some (.srd ⟨.always, 0, true, 5⟩) := by decide

/-- Encodings that are no instruction, with the detail of R108: a reserved OP, a reserved guard, KIND 11, a reserved
scope, a reserved routing code, TYPE 11, a head in a body, and no head at a head. -/
theorem test_decode_rejects :
    let at' (w : Nat) := decodeInBody ⟨true, true, true⟩ (BitVec.ofNat 128 w)
    at' (fword 0x00A 0 0 0 0 0) = .error (.illegal 0 0x04) ∧
    at' (fword 0x000 0 0 0 0 0 - 7 * 2 ^ 18) = .error (.illegal 0 0x09) ∧
    at' (fword 0x020 0 0 (sfield 3 1) (sfield 1 2) 0) = .error (.illegal 0 0x0B) ∧
    at' (fword 0x16F 0 0xC8 0 0 0) = .error (.illegal 0 0x0A) ∧
    at' (fword 0x040 0 0 (0x1C0 * 2 ^ 8) 0 0) = .error (.illegal 0 0x0D) ∧
    at' 3 = .error (.illegal 0 0x01) ∧ at' 2 = .error (.illegal 0 0x03) ∧
    decodeAtHead 0 = .error (.illegal 0 0x02) := by decide

/-! ### Well-formedness: for each check, a term that it refuses -/

theorem test_wf_registers :
    Instr.wf (.bri ⟨.always, 128⟩) = false ∧ Instr.wf (.bri ⟨.always, 3⟩) = false ∧
    Instr.wf (.call ⟨.always, 1, 0⟩) = false ∧ Instr.wf (.brx ⟨.always, 24, false, 0⟩) = false ∧
    Instr.wf (.qset ⟨.always, 8, .imm 0⟩) = false ∧ Instr.wf (.movxFromx ⟨.always, 0, 4⟩) = false ∧
    Instr.wf (.amz ⟨.always, .none, 32⟩) = false ∧
    Instr.wf (.mma { mma0 .acc with fb := 16 }) = false ∧ Instr.wf (.mma { mma0 .acc with p := 8 }) = false ∧
    Instr.wf (.copy { copy0 with p := 4 }) = false ∧ Instr.wf (.srd ⟨.always, 0x0C, false, 0⟩) = false ∧
    Instr.wf (.srd ⟨.always, 0x10, false, 1⟩) = false := by decide

theorem test_wf_operands :
    Instr.wf (.nop ⟨.pred 24 false⟩) = false ∧ Instr.wf (.bra ⟨.always, none, 8⟩) = false ∧
    Instr.wf (.pmovFromv ⟨.always, 0, 1⟩) = false ∧ Instr.wf (.mov ⟨.always, 0, 0, 0xFC0⟩) = false ∧
    Instr.wf (.sadd ⟨.always, 0, 0, .v 0 0⟩) = false ∧ Instr.wf (.smov ⟨.always, 0, .imm 0⟩) = false ∧
    Instr.wf (.isub ⟨.always, 1, .v 2 0, .imm16 0⟩) = false ∧
    Instr.wf (.fadd ⟨.always, 0, false, none, 0, ⟨.v 0 0, false, false⟩, ⟨.imm 0, true, false⟩⟩) = false ∧
    Instr.wf (.fadd ⟨.always, 0, false, some 0, 0, ⟨.v 0 0, false, false⟩, ⟨.imm16 0, false, false⟩⟩) = false ∧
    Instr.wf (.frint ⟨.always, 0, false, none, some 6, 0, ⟨.v 0 0, false, false⟩⟩) = false ∧
    Instr.wf (.cvt ⟨.always, 0, false, 0, 1, 0, .v 0 0, 0, 0, none, false⟩) = false ∧
    Instr.wf (.redl ⟨.always, 0, .iadd, 7, 0, .v 0 0⟩) = false ∧
    Instr.wf (.redl ⟨.always, 1, .iadd, 0, 0, .v 0 0⟩) = false ∧
    Instr.wf (.ltab ⟨.always, 0x12, 0, .v 0 0, .v 0 0, .imm16 0⟩) = false ∧
    Instr.wf (.swr ⟨.always, 0x12, .v 0 0⟩) = false ∧ Instr.wf (.sgetp ⟨.always, .index, 0, none⟩) = false := by decide

theorem test_wf_memory :
    Instr.wf (.ld { ld0 with size := 7 }) = false ∧ Instr.wf (.st { st0 with size := 1 }) = false ∧
    Instr.wf (.ld { ld0 with ord := 3 }) = false ∧ Instr.wf (.ld { ld0 with scope := 12 }) = false ∧
    Instr.wf (.ld { ld0 with ord := 0, scope := 1 }) = false ∧ Instr.wf (.ld { ld0 with hint := 3 }) = false ∧
    Instr.wf (.ld { ld0 with d := 2 }) = false ∧ Instr.wf (.atom { atom0 with fs := 1 }) = false ∧
    Instr.wf (.atom { atom0 with fn := .fadd }) = false ∧ Instr.wf (.atom { atom0 with c := .v 1 0 }) = false ∧
    Instr.wf (.red { red0 with fn := .swap }) = false ∧ Instr.wf (.red { red0 with ord := 1 }) = false ∧
    Instr.wf (.dflush ⟨.always, .none, 3⟩) = false ∧ Instr.wf (.fence ⟨.always, .none, 0, 0⟩) = false ∧
    Instr.wf (.pref ⟨.always, 3, 0, .v 0 0, none⟩) = false ∧ Instr.wf (.cctl ⟨.always, .none, 4, none⟩) = false ∧
    Instr.wf (.cctl ⟨.always, .none, 1, none⟩) = false := by decide

theorem test_wf_engines :
    Instr.wf (.mma { mma0 .node with msk := true }) = false ∧ Instr.wf (.mma { mma0 .acc with mv := true }) = false ∧
    Instr.wf (.mma { mma0 .zero with c := 1 }) = false ∧ Instr.wf (.copy { copy0 with mode := 0, ef := true }) = false ∧
    Instr.wf (.copy { copy0 with mode := 0, sel := 3 }) = false ∧ Instr.wf (.copy { copy0 with mode := 1, tr := true }) = false ∧
    Instr.wf (.barw ⟨.always, .a, false, 0, 0, 0⟩) = false := by decide

theorem test_wf_events :
    Instr.wf (.l1Eviction 160 0) = false ∧ Instr.wf (.sampleTag 0 4) = false ∧ Instr.wf (.loadLand ⟨0, 0⟩ 0 64) = false ∧
    Instr.wf (.foldDispatch 4) = false ∧ Instr.wf (.faultTimeout 256 0) = false ∧ Instr.wf (.ualinkLinkDrop 64) = false ∧
    Instr.wf (.connectionSetup 257) = false ∧ Instr.wf (.redDApply ⟨0, 0⟩ 3 0) = false ∧
    Instr.wf (.attach (msg 257 8 64) (dbg 1 0 0 0 0 0)) = false := by decide

/-! ### Single steps: values from the manual's worked examples, or worked by hand from the rule named -/

/-- A value of the flock after an instruction. -/
def after {α : Type} (i : Instr) (s : State) (g : Flock → α) : Option α :=
  match exec i s with
  | .next t => (flockOf t 0 0).map g
  | _ => none

/-- v9 of lanes 0 to 3 in the example of a fixed-order reduction; f1 is FP32. -/
def redState : State := withFlock (fun fl => { fl with
  v := [(9 * 64, 0x4B800000), (9 * 64 + 1, 0x3F800000), (9 * 64 + 2, 0x3F800000), (9 * 64 + 3, 0xCB800000)],
  splits := [{ placedSplit false with mask := 0xF }] })

theorem test_redl_tree : after (.redl ⟨.always, 1, .fadd, 2, 8, .v 9 0⟩) redState
    (fun fl => (List.range 4).map (fun l => cget 0 fl.v (8 * 64 + l))) = some (List.replicate 4 0x3F800000) := by
  decide +kernel

theorem test_scanl_sequence : after (.scanl ⟨.always, 1, .fadd, 2, false, 8, .v 9 0⟩) redState
    (fun fl => (List.range 4).map (fun l => cget 0 fl.v (8 * 64 + l)))
    = some [0x4B800000, 0x4B800000, 0x4B800000, 0] := by decide +kernel

/-- Leaves 2^23, 0.5, 0.5 and −2^23 give 0.5 (R77). -/
theorem test_canon_tree : canonTree 0 [0x4B000000, 0x3F000000, 0x3F000000, 0xCB000000] = 0x3F000000 := by decide +kernel

/-- DPA 0x5000 under WIN 00, 01 and 10 (R249); a die's homes follow each other at 192 GiB. -/
theorem test_windows : homeNormal 0 0x5000 = some 0x5000 ∧ homeNormal 1 0x5000 = some (Config.dieBytes + 0x2000) ∧
    homeNormal 2 0x5000 = some (Config.dieBytes + 0x1000) := by decide +kernel

/-- R133: a counter of 0 wraps to 0xFFFF_FFFF and branches. -/
theorem test_loop_wraps : after (.loop ⟨.always, 5, 0x40⟩) base
    (fun fl => (cget 0 fl.s 5, fl.splits.map (fun sp => sp.pc))) = some (0xFFFFFFFF, [0x1040]) := by decide +kernel

/-- R158: the sum wraps; a source that is the destination is read first. -/
theorem test_iadd_wraps : after (.iadd ⟨.always, 0, .v 0 0, .v 0 0⟩) (withFlock (fun fl => { fl with v := [(63, 0x80000001)] }))
    (fun fl => (cget 0 fl.v 63, cget 0 fl.v 62)) = some (2, 0) := by decide +kernel

/-- R196, R197: a lane adds −1 to a word that holds 0. -/
theorem test_atom_adds : (match exec (.atom ⟨.always, .none, 0, .add, false, 0, 0, 0, 2, 126, .imm 0, .imm 0xFFFFFFFF⟩)
      (withFlock (fun fl => { fl with splits := [{ placedSplit false with mask := 0x8 }] })) with
    | .next t => (List.range 5).map (homeByte t)
    | _ => []) = [0xFF, 0xFF, 0xFF, 0xFF, 0] := by decide +kernel

/-- R188: lanes 3 and 9 store to one byte of the local store; the later lane's value stays. -/
theorem test_store_lane_order : (match exec (.stl ⟨.always, .none, 0, 0, 0, 4, .v 3 0, none⟩)
      (withFlock (fun fl => { fl with v := [(4 * 64 + 3, 0x33), (4 * 64 + 9, 0x99)], splits := [{ placedSplit false with mask := 0x208 }] })) with
    | .next t => lsByte t 0 0
    | _ => 0) = 0x99 := by decide +kernel

/-- R148, R326: TRAP saves its bundle's address and cause, and the handler starts at TRAPBASE. -/
theorem test_trap_entry : after (.trap ⟨.always, 0x7F⟩) trapState
    (fun fl => (fl.trap.pc, fl.trap.cause, fl.handler.map (fun h => h.sp.pc))) = some (0x1000, 0x20, some 0x4000) := by
  decide +kernel

/-- The step fetches the placed word, decodes and runs it. -/
theorem test_step_runs : (match step (State.reset.withFetchWord 128 (fword 0x031 9 0 0 0 0x12345678 immBit)) with
    | .next t => (flockOf t 0 0).map (fun fl => cget 0 fl.s 9)
    | _ => none) = some 0x12345678 := by decide +kernel

/-! ### Witnesses for the number formats and for the fleece -/

/-- FP32, an e4m3 that saturates, one that flushes, one without a zero, an unsigned byte, and a signed byte that wraps. -/
def slots : List Fdr := [fdrOf 0xA1FEF1, fdrOf 0x21001C69, fdrOf 0x81C69, fdrOf 0x1101C69, fdrOf 0x40000100,
  fdrOf 0x800000E1]

theorem isSlot_of {f : Fdr} (w : DWord) (h : fdrOf w = f) (hl : f.legal = true) : IsSlot f := ⟨hl, w, h⟩

theorem witness_FormatDecoding :
    (IsSlot (fdrOf 0xA1FEF1) ∧ (fdrOf 0xA1FEF1).kind = 0 ∧ isNanCode (fdrOf 0xA1FEF1) 0x7FC00000 ∧
      isInfCode (fdrOf 0xA1FEF1) 0xFF800000 ∧ 0xFF800000 < 2 ^ (fdrOf 0xA1FEF1).w) ∧
    (IsSlot (fdrOf 0x800000E1) ∧ (fdrOf 0x800000E1).kind = 2 ∧ 2 ^ ((fdrOf 0x800000E1).w - 1) ≤ 255 ∧
      255 < 2 ^ (fdrOf 0x800000E1).w) ∧ slots.all Fdr.legal = true := by
  refine ⟨⟨isSlot_of _ rfl (by decide), ?_⟩, ⟨isSlot_of _ rfl (by decide), by decide⟩, by decide +kernel⟩
  refine ⟨by decide, Or.inl (by decide), by unfold isInfCode; decide, by decide⟩

theorem witness_FormatRounding : ∃ f g z : Fdr, f ∈ slots ∧ g ∈ slots ∧ z ∈ slots ∧ IsSlot f ∧ f.kind = 0 ∧ f.s = 1 ∧
    f.zc = 0 ∧ f.sat = true ∧ g.kind = 0 ∧ g.zc = 1 ∧ z.kind = 0 ∧ z.zc = 2 ∧
    (roundTo f 0 0 (.fin false 1 3)).2.getLsbD 2 = false ∧ (roundTo f 0 0 (.fin true 1000000 1)).2.getLsbD 2 = true ∧
    (roundTo g 0 0 (.fin false 1 1000000)).2.getLsbD 2 = false :=
  ⟨fdrOf 0x21001C69, fdrOf 0x81C69, fdrOf 0x1101C69, by decide, by decide, by decide,
   isSlot_of 0x21001C69 rfl (by decide), by decide +kernel⟩

theorem witness_RoundingSpecialCases : ∃ f g : Fdr, IsSlot f ∧ f.kind = 0 ∧ f.nc ≠ 0 ∧ f.ic = 1 ∧ IsSlot g ∧ g.kind = 1 ∧
    g.m = 8 ∧ (fdrOf 0x800000E1).sat = false :=
  ⟨fdrOf 0xA1FEF1, fdrOf 0x40000100, isSlot_of _ rfl (by decide), by decide, by decide, by decide,
   isSlot_of 0x40000100 rfl (by decide), by decide, by decide, by decide⟩

/-- A flock with a live split, path entries and a record. -/
def dbgFl0 : Flock := { haltFl with stack := deepFlock.stack, records := [lateRecord] }

theorem witness_FleeceLayout :
    ((dbgFl0.splits.length ≤ 4 ∧ (dbgFl0.splits[0]?).isSome = true) ∧ dbgFl0.stack = deepFlock.stack ∧
      dbgFl0.records.find? (fun x => x.cause == 1) = some lateRecord) ∧
    ((encode fillCmd.instr).isSome = true ∧ 0 ∉ fillCmd.ended ∧ fillCmd.failed = []) ∧
    (fleeceState.folds[0]?).any (fun f => f.flocks.length == placedLaunch.flocks && decide (placedLaunch.flocks ≤ 16)
      && foldAt fleeceState 0 == some f && launchAt fleeceState f.launch == some placedLaunch && f.place == .fleece false)
      = true := by decide +kernel

/-! ### Witnesses for the cases of their own of statements above -/

theorem witness_ScalarWordResults_fflags : (0x14 : BitVec 8) = 0x14 ∧ Ready base .always true { sw := [127] } env ∧
    Ready base .always false { vw := [255] } env ∧ env.act ≠ 0 ∧ Ready base (.pred 0 false) true { sw := [127] } env0 ∧
    env0.act = 0 :=
  ⟨rfl, ready_of env_eq (by decide +kernel), ready_of env_eq (by decide +kernel), by decide +kernel,
   ready_of env0_eq (by decide +kernel), by decide +kernel⟩

/-- Three and minus three, and zero. -/
theorem witness_ElementResults_exact : Proper (.fin false 3 1) ∧ Proper (.fin true 3 1) ∧ Proper (.fin false 0 1) ∧
    ratOf (.fin false 3 1) = some 3 ∧ ratOf (.fin true 3 1) = some (-3) ∧ ratOf (.fin false 0 1) = some 0 := by
  simp [Proper, ratOf, sgn]

/-- A fence of the own core waits on a load; the load has no word left. -/
def waitFence : FenceRec := { id := 8, flag := some 0, scope := 0, acq := true, rel := true, acqOn := [5], relOn := [5, 6] }
def fenceState (ws : List PendWord) : State := withFlock (fun fl =>
  { fl with loads := [{ vload with words := ws }], fences := [waitFence], c := [(0, 2)],
            splits := [{ placedSplit false with path := [5, 8] }] })

theorem witness_PassingControl_fence : ∃ f fl, foldAt (fenceState []) 0 = some f ∧ flockAt f 0 = some fl ∧
    fl.fences = [waitFence] ∧ wider waitFence.scope = false ∧ reachesPeers waitFence.scope = false ∧
    (fl.loads.filter landed).length = 1 :=
  ⟨_, _, rfl, rfl, rfl, by decide, by decide, by decide⟩

/-- 33 entries, of which 32 stand in hardware. -/
def popState : State := withFlock (fun fl => { fl with stack := List.replicate 33 { pc := 0x2000, mask := 1, path := [], pass := false }, hw := 32 })
def popped : State := onFlock popState 0 0 tidySplits

theorem witness_PathsPopped : ∃ f fl, foldAt popState 0 = some f ∧ flockAt f 0 = some fl ∧
    launchAt popState f.launch = some placedLaunch ∧ ctxOf popState f = some placedCtx ∧ fl.focus = false ∧ fl.hw ≤ 32 ∧
    fl.splits.length ≤ 4 ∧ fl.hw ≤ fl.stack.length ∧ (∀ x ∈ fl.stack, x.mask ≠ 0) ∧
    ∀ n, n < fl.stack.length → ∀ g u, foldAt popped 0 = some g → flockAt g 0 = some u →
      ∃ sp, spillAccess popped g placedLaunch placedCtx .read (spillAddr placedCtx g u n) = .ok sp := by
  refine ⟨_, _, rfl, rfl, by decide +kernel, by decide +kernel, rfl, by decide, by decide, by decide, by decide +kernel, ?_⟩
  intro n hn g u hg hu
  have h : (foldAt popped 0).all (fun g => (flockAt g 0).all (fun u => (List.range 33).all (fun n =>
      (spillAccess popped g placedLaunch placedCtx .read (spillAddr placedCtx g u n)).isOk))) = true := by decide +kernel
  rw [hg, Option.all_some, hu, Option.all_some, List.all_eq_true] at h
  have k := h n (List.mem_range.2 hn)
  revert k
  generalize spillAccess popped g placedLaunch placedCtx .read (spillAddr placedCtx g u n) = x
  intro k
  cases x with
  | ok sp => exact ⟨sp, rfl⟩
  | error q => cases k

/-- A handler may issue SWR, with no guard; it names a register that the launch lacks. -/
def handSmall : State := { handState with launches := handState.launches.map (fun l => { l with vregs := 8 }) }
def handSmallEnv : Env := (envOf handSmall .always).get (by decide +kernel)

theorem witness_VectorNamesChecked_handler : ∃ g ih n,
    namedBy handSmall handSmallEnv (.swr ⟨.always, 0x14, .v 8 0⟩) = some (g, ih, n) ∧
    envOf handSmall g = some handSmallEnv ∧ handSmallEnv.hand = true ∧ ih = true ∧ g = .always ∧
    n.regs.find? (fun r => gRegs handSmallEnv.launch ≤ r) = some 8 :=
  ⟨_, _, _, rfl, (Option.some_get _).symm, by decide +kernel, rfl, rfl, by decide +kernel⟩

/-- Half of the bits of a byte at home 0. -/
def put1 : Put := { put0 with m := 0x0F }

theorem witness_StoredBytes_masked : ∃ t t' lf, put1.p.spot = .ok (.mem 0 lf) ∧ put1.m ≠ 0xFF ∧
    writePieces base env (some 0) { strong := false, wide := false, hint := 0 } false 0 [put1] = .ok t ∧
    writePieces base env (some 0) { strong := true, wide := true, hint := 0 } true 11 [put1] = .ok t' := by
  obtain ⟨lf, h⟩ := put0_spot
  exact ⟨_, _, lf, h, by decide, (ok_of (by decide +kernel)).choose_spec, (ok_of (by decide +kernel)).choose_spec⟩

/-! The traps of accesses other than loads and stores: an address of 4 in s127:s126, 0x600000 in s125, and a launch with
DET. -/

def oddState : State := { withFlock (fun fl => { fl with s := [(125, 0x600000), (126, 4)] }) with
  launches := base.launches.map (fun l => { l with det := true }) }
def oddEnv : Env := (envOf oddState .always).get (by decide +kernel)
theorem oddEnv_eq : envOf oddState .always = some oddEnv := (Option.some_get _).symm
/-- RED of a word of 32 bits; `fn` on slot `fs`, at the address with `off`. -/
def oddRed (fn : AtomFn) (fs : BitVec 4) (off : BitVec 32) : RedMemOp :=
  ⟨.always, .none, fs, fn, false, 0, 0, 0, 126, .imm off, .imm 5⟩
def oddRow (fn : AtomFn) (fs : BitVec 4) (off : BitVec 32) : RmwRow := (rmwRow (.red (oddRed fn fs off))).get rfl

theorem witness_AccessTraps_atomics :
    (Ready oddState .always false (oddRow .add 0 2).names oddEnv ∧ oddEnv.act ≠ 0 ∧
      holdUp oddEnv (flagOf oddEnv .none) true false = none) ∧
    atomBadSlot .add (slotFdr oddEnv 0) = false ∧ (true && oddEnv.launch.det && atomFloat .add) = false ∧
    (actLanes oddEnv).find? (fun l => addrOf (readS2 oddEnv 0 126) (srcV oddEnv 1 (.imm 2) l) 0
      % (atomBits .add false (slotFdr oddEnv 0) / 8) != 0) = some 0 ∧
    Ready slotState .always false (oddRow .fadd 3 0).names slotEnv ∧
    Ready oddState .always false (oddRow .fadd 0 0).names oddEnv ∧ atomBadSlot .fadd (slotFdr oddEnv 0) = false ∧
    oddEnv.launch.det = true ∧ atomFloat .fadd = true :=
  ⟨⟨ready_of oddEnv_eq (by decide +kernel), by decide +kernel⟩, by decide +kernel, by decide +kernel, by decide +kernel,
   ready_of slotEnv_eq (by decide +kernel), ready_of oddEnv_eq (by decide +kernel), by decide +kernel⟩

/-- A slot of 13 bits, which a float atomic refuses. -/
def badSlotState : State := withFlock (fun fl => { fl with f := cset 0 fl.f 3 0x400000D0 })
def badSlotEnv : Env := (envOf badSlotState .always).get (by decide +kernel)

theorem witness_AccessTraps_slot : Ready badSlotState .always false (oddRow .fadd 3 0).names badSlotEnv ∧
    badSlotEnv.act ≠ 0 ∧ holdUp badSlotEnv (flagOf badSlotEnv .none) true false = none ∧
    atomBadSlot .fadd (slotFdr badSlotEnv 3) = true :=
  ⟨ready_of (Option.some_get (by decide +kernel)).symm (by decide +kernel), by decide +kernel⟩

theorem witness_AccessTraps_scalar :
    (∃ o : SMemOp, Ready oddState o.g (o.flg == .none)
      { s := [o.a.toNat, o.a.toNat + 1] ++ (optSrc o.off).flatMap (sOf 1), sw := regsFrom o.d.toNat (Machine.sizeRegs o.size) } oddEnv ∧
      holdUp oddEnv (flagOf oddEnv o.flg) false false = none ∧
      (scalarPiece oddState oddEnv .read o.a o.off (sizeBytes o.size)).va % sizeBytes o.size ≠ 0) ∧
    (∃ o : MwaitOp, Ready oddState o.g false
      { s := [o.a.toNat, o.a.toNat + 1] ++ sOf 2 o.e, sw := (o.d.map (fun d => [d.toNat, d.toNat + 1])).getD [] } oddEnv ∧
      holdUp oddEnv none false false = none ∧ (readS2 oddEnv 0 o.a.toNat).toNat % 8 ≠ 0) ∧
    ∃ (o : BdecOp) (x : Nat × Nat × Nat),
      Ready oddState o.g false { srcNames 1 [o.width] with vw := [o.d.toNat], s := [o.a.toNat] ++ sOf 1 o.width } oddEnv ∧
      holdUp oddEnv (flagOf oddEnv o.flg) false false = none ∧
      x ∈ bdecFields (fun l => min ((srcV oddEnv 1 o.width l).toNat % 64) 32) (actLanes oddEnv) (readS oddEnv 0 o.a.toNat).toNat ∧
      x.2.2 ≠ 0 ∧ 8 * oddEnv.launch.lsBytes < x.2.1 + x.2.2 := by
  refine ⟨⟨⟨.always, .none, 4, 0, 0, 0, 124, 126, some (.imm 2)⟩, ready_of oddEnv_eq (by decide +kernel), by decide +kernel⟩,
    ⟨⟨.always, 11, some 124, 126, .s 2⟩, ready_of oddEnv_eq (by decide +kernel), by decide +kernel⟩, ?_⟩
  have h : (bdecFields (fun l => min ((srcV oddEnv 1 (.imm 32) l).toNat % 64) 32) (actLanes oddEnv)
      (readS oddEnv 0 125).toNat).any (fun x => x.2.2 != 0 && decide (8 * oddEnv.launch.lsBytes < x.2.1 + x.2.2)) = true := by
    decide +kernel
  obtain ⟨x, hx, hp⟩ := List.any_eq_true.1 h
  simp only [Bool.and_eq_true, bne_iff_ne, decide_eq_true_eq] at hp
  exact ⟨⟨.always, .none, true, 255, 125, .imm 32⟩, x, ready_of oddEnv_eq (by decide +kernel), by decide +kernel, hx, hp.1, hp.2⟩

/-- A fence on the path of the split holds a load and a store. -/
def fencedEnv : Env := (envOf (fenceState [word 0 64]) .always).get (by decide +kernel)
theorem fencedEnv_eq : envOf (fenceState [word 0 64]) .always = some fencedEnv := (Option.some_get _).symm

theorem witness_CacheControlResults_held : ∃ o p,
    loadRow (fenceState [word 0 64]) fencedEnv (.ldl ⟨.always, .b, 4, 0, 0, 0, .imm 0, none⟩) = some o ∧
    Ready (fenceState [word 0 64]) o.g false o.names fencedEnv ∧ fencedEnv.act ≠ 0 ∧
    flagFull fencedEnv.fl (flagOf fencedEnv o.flg) = false ∧
    storeRow (fenceState [word 0 64]) fencedEnv (.stl ⟨.always, .b, 4, 0, 0, 0, .imm 0, none⟩) = some p ∧
    Ready (fenceState [word 0 64]) p.g p.ih p.names fencedEnv ∧ flagFull fencedEnv.fl (flagOf fencedEnv p.flg) = false ∧
    (∀ p ∈ fencedEnv.fl.stores, p.waitFault = none) ∧ (∀ r ∈ fencedEnv.fl.records, r.stores = []) ∧
    waitFence ∈ fencedEnv.fl.fences ∧ waitFence.id ∈ fencedEnv.sp.path ∧ waitFence.acq = true :=
  ⟨_, _, rfl, ready_of fencedEnv_eq (by decide +kernel), by decide +kernel, by decide +kernel, rfl,
   ready_of fencedEnv_eq (by decide +kernel), by decide +kernel⟩

theorem witness_FaultAndReductionSteps_aperture : apertureOff placedCtx 0x3FFFFFFF = none := by decide +kernel

/-- One; one and minus one; and nothing but minus zero. -/
theorem witness_EngineSteps_sum :
    let xs : List (Bool × Nat × Nat) := [(false, 1, 1), (true, 1, 1)]
    (∀ x ∈ xs, 0 < x.2.2) ∧ (∃ x ∈ xs, (2 : ℚ) ^ (0 : ℤ) ≤ (x.2.1 : ℚ) / x.2.2) ∧
    (∀ x ∈ xs, (x.2.1 : ℚ) / x.2.2 < (2 : ℚ) ^ ((0 : ℤ) + 1)) ∧
    (xs.map (fun x => (if x.1 then (-1 : ℤ) else 1) * ⌊((x.2.1 : ℚ) / x.2.2) * (2 : ℚ) ^ ((62 : ℤ) - 0)⌋)).sum = 0 ∧
    (([(false, 1, 1)] : List (Bool × Nat × Nat)).map (fun x => (if x.1 then (-1 : ℤ) else 1) *
      ⌊((x.2.1 : ℚ) / x.2.2) * (2 : ℚ) ^ ((62 : ℤ) - 0)⌋)).sum ≠ 0 ∧
    ∀ x ∈ ([(true, 0, 1)] : List (Bool × Nat × Nat)), x.2.1 = 0 := by
  norm_num

/-- The item of a copy with a barrier at offset 0 of the local store, whose destination lies in memory. -/
def barCopy : CopyOp := { copy0 with bar := some 0 }
def barItem : Cmd := { itemCmd with instr := .copy barCopy }
def barFlying : Cmd := { barItem with flight := [0] }
def barItems : State := putCmd (cmdState barItem) 0 barFlying

theorem witness_EngineSteps_barrier : cmdAt (cmdState barItem) 0 9 = some barItem ∧ 0 < (cmdState barItem).cores.length ∧
    barItem.owner = .flock 0 0 ∧ copyRuns (cmdState barItem) barItem = true ∧
    (copyItems barItem barCopy)[0]? = some (false, 0) ∧ 0 ∉ barItem.ended ∧
    startItems (cmdState barItem) 0 barItem 0 = some barFlying ∧ (itemAcc barItems 0 barFlying barCopy false 0).wait = none ∧
    (itemAcc barItems 0 barFlying barCopy false 0).reason = 0 ∧ barCopy.bar ≠ none ∧
    (itemAcc barItems 0 barFlying barCopy false 0).out.all (fun x => match targetByte barItems 0 barFlying false x.1 with
      | .ok (some sp) => !inObject 0 0 sp
      | _ => false) = true := by decide +kernel

/-- The first byte that the copy of one element writes: no later write meets it. -/
theorem witness_EngineSteps_stream : ∃ y after sp, streamWrites itemFlying copy0 = [] ++ y :: after ∧
    targetByte itemState 0 itemFlying y.1 y.2.1 = .ok (some sp) ∧ y.2.2.2.getLsbD 0 = true ∧
    (∀ z ∈ after, ∀ sp', targetByte itemState 0 itemFlying z.1 z.2.1 = .ok (some sp') → spotKey sp' = spotKey sp →
      z.2.2.2.getLsbD 0 = false) ∧
    spotKey sp ∈ writeKeys itemState 0 itemFlying false 0 (itemElems itemFlying false 0) := by
  have h : (match streamWrites itemFlying copy0 with
      | [] => false
      | y :: after => match targetByte itemState 0 itemFlying y.1 y.2.1 with
        | .ok (some sp) => y.2.2.2.getLsbD 0 && after.all (fun z => match targetByte itemState 0 itemFlying z.1 z.2.1 with
            | .ok (some sp') => spotKey sp' != spotKey sp
            | _ => true) && decide (spotKey sp ∈ writeKeys itemState 0 itemFlying false 0 (itemElems itemFlying false 0))
        | _ => false) = true := by decide +kernel
  revert h
  generalize streamWrites itemFlying copy0 = l
  intro h
  match l, h with
  | y :: after, h =>
    dsimp only at h
    revert h
    generalize he : targetByte itemState 0 itemFlying y.1 y.2.1 = x
    intro h
    match x, h with
    | .ok (some sp), h =>
      simp only [Bool.and_eq_true, List.all_eq_true, decide_eq_true_eq] at h
      refine ⟨y, after, sp, rfl, he, h.1.1, ?_, h.2⟩
      intro z hz sp' h1 h2
      have k := h.1.2 z hz
      rw [h1] at k
      exact absurd h2 (by simpa using k)

/-- Every core of the device has a full engine queue; the copy has been placed on core 0, or not yet. -/
def packedState (placed : Option Nat) : State := { base with
  ctxs := [{ placedCtx with queue := [{ item 5 with launch := none, copy := some copyArgs, placed := placed }] }]
  cores := base.cores.map (fun c => { c with cmds := List.replicate 48 { newCmd (.host 0 0) (.copy copy0) 0 [] [] none 1 0 with id := 9 } }) }

theorem witness_DispatchSteps_placed :
    copyDie (packedState none) placedCtx copyArgs = some 0 ∧ admitted (packedState (some 0)) (dieOfCore 0) = true ∧
    (hasRoom (packedState (some 0)) 0 true && engineTurn (packedState (some 0)) 0 4) = false ∧
    (hasRoom (packedState none) (copyCore (packedState none) 0) true
      && engineTurn (packedState none) (copyCore (packedState none) 0) 4) = false ∧
    mayStart (packedState (some 0)) ((ctxAt (packedState (some 0)) 0).map (fun c => c.queue)).get!
      { item 5 with launch := none, copy := some copyArgs, placed := some 0 } = true := by decide +kernel

/-- The die has placed a drove less than 32 clks ago. -/
def soonState : State := { dueState with dies := base.dies.set 0 { dieAt base 0 with nextPlace := 1 } }

theorem witness_DispatchSteps_soon : soonState.clock < (dieAt (noteStarve soonState 0) 0).nextPlace := by decide +kernel

theorem witness_SaveSteps_reserve : ∃ f, foldAt base 0 = some f ∧ launchAt base f.launch = some placedLaunch ∧
    ctxOf base f = some placedCtx ∧ reserve base 0 ≠ none :=
  ⟨_, rfl, by decide +kernel, by decide +kernel, by decide +kernel⟩

/-- The quadrant of the flock holds a tag of its context. -/
def tagState : State := { base with
  cores := base.cores.set 0 { coreAt base 0 with quads := (coreAt base 0).quads.set 0 { quad2 with tag := [0] } } }
def tagEnv : Env := (envOf tagState .always).get (by decide +kernel)

theorem witness_PowerAndErrorSteps_noted : ∃ q fl, (coreAt tagState tagEnv.fold.core).quads[tagEnv.fl.quad]? = some q ∧
    tagEnv.ctx.id ∈ q.tag ∧ flockOf tagState tagEnv.fold.uid tagEnv.fi = some fl ∧
    (tagEnv.fl.splits[tagEnv.idx]?).isSome = true ∧ ∀ v ∈ sampleRec0.levels, v < 8 := by
  obtain ⟨q, h⟩ := some_of (x := ((coreAt tagState tagEnv.fold.core).quads[tagEnv.fl.quad]?).filter
    (fun q => q.tag.contains tagEnv.ctx.id)) (by decide +kernel)
  rw [Option.filter_eq_some_iff] at h
  obtain ⟨fl, hf⟩ := some_of (x := flockOf tagState tagEnv.fold.uid tagEnv.fi) (by decide +kernel)
  exact ⟨q, fl, h.1, by simpa using h.2, hf, by decide +kernel, by decide⟩

/-- A line of core 120's cache, on die 3, and of the die's L2. -/
theorem witness_PowerAndErrorSteps_lines : 3 < base.dies.length ∧ 128 * 0 < peerKey ∧ 120 < 160 ∧ dieOfCore 120 = 3 := by
  decide +kernel

/-! Commands that are denied, and refused. -/

def noCtxs : State := { hostState with ctxs := [] }

theorem witness_HostCommands_denied :
    (Takes noCtxs (msg 1 1 8) ∧ (msg 1 1 8).ep ≠ 0 ∧ msgCtx noCtxs (msg 1 1 8) = none) ∧
    (msgCtx hostState (msg 1 1 8) = some winCtx ∧ hostLaunch hostState (msg 1 1 8) winCtx 0x2001 = .error 1) ∧
    (headBad ctxMsg 4 (ctxLen (ctxArgs 2 255 0)) = false ∧ ctxBad ctxMsg (ctxArgs 2 255 0) 2 = false ∧
      schedBad (ctxArgs 2 255 0).sched false = false ∧ ctxAt hostState 255 = none) ∧
    (modifyBad ctxMsg (ctxArgs 3 255 15) = false ∧ (ctxArgs 3 255 15).sched.getLsbD 24 = false) ∧
    modifyBad ctxMsg (ctxArgs 3 255 0x100000F) = false ∧ (ctxArgs 3 255 0x100000F).sched.getLsbD 24 = true :=
  ⟨⟨takes_of rfl rfl rfl, by decide, by decide +kernel⟩, ⟨rfl, rfl⟩, by decide +kernel⟩

/-- Each command, well formed and not, on an endpoint that has its share of commands. -/
def fullMgmt : State := { hostState with mgmt := fullEnd }

theorem witness_HostCommands_refused_each :
    (endpointAt fullMgmt 0 = fullEnd ∧ endpointAt fullEps 1 = fullEnd ∧ fullMgmt.boot = .running) ∧
    (headBad (msg 1 1 8) 1 8 = false ∧ (msg 0 1 8).ep = 0) ∧
    (headBad (msg 1 2 224) 2 224 = false ∧ copyBad copyArgs = false ∧ copyBad { copyArgs with host := 3 } = true) ∧
    (headBad (msg 1 3 24) 3 24 = false ∧ (mapHead 2).op = 2 ∧ (mapHead 2).rsv = 0 ∧ (mapHead 1).op ≠ 2) ∧
    (headBad ctxMsg 4 0x48 = false ∧ ctxBad ctxMsg (ctxArgs 1 255 15) 1 = false ∧
      createBad fullMgmt (ctxArgs 1 255 15) = false ∧ createBad fullMgmt (ctxArgs 1 255 0) = true) ∧
    (ctxBad ctxMsg (ctxArgs 2 0 0) 2 = false ∧ schedBad (ctxArgs 2 0 0).sched false = false ∧
      ctxBad ctxMsg (ctxArgs 2 256 0) 2 = true) ∧
    modifyBad ctxMsg (ctxArgs 3 0 15) = false ∧ modifyBad ctxMsg (ctxArgs 3 0 0) = true :=
  ⟨⟨rfl, rfl, rfl⟩, by decide +kernel, by decide +kernel, by decide +kernel, by decide +kernel, by decide +kernel,
   by decide +kernel⟩

end Sys2Proof.Tests
end

section
/-! SUPPORT. What a write through the shared-content L2 leaves alone: the resident folds. A push of a path that spills an
entry to memory therefore finds its own fold and flock as they were. -/

namespace Sys2Proof.Machine

/-! ### The L2 and the memory-side cache hold no fold -/

theorem foldl_folds {α : Type} {g : State → α → State} (h : ∀ u x, (g u x).folds = u.folds) (l : List α) (s : State) :
    (l.foldl g s).folds = s.folds := by
  induction l generalizing s with
  | nil => rfl
  | cons x r ih => exact (ih (g s x)).trans (h s x)

@[simp] theorem putL2_folds (s : State) (d : Nat) (c : L2) : (putL2 s d c).folds = s.folds := rfl
@[simp] theorem mantleTrim_folds (s : State) (d : Nat) : (mantleTrim s d).folds = s.folds := rfl

@[simp] theorem mantleTouch_folds (s : State) (l : Nat) (x : Bool) : (mantleTouch s l x).folds = s.folds := by
  unfold mantleTouch
  split <;> rfl

@[simp] theorem noteForm_folds (s : State) (l : Nat) (c : BitVec 2) : (noteForm s l c).folds = s.folds := by
  unfold noteForm
  dsimp only
  split
  · rfl
  · exact mantleTouch_folds _ _ _

@[simp] theorem evictTag_folds (s : State) (d l : Nat) : (evictTag s d l).folds = s.folds := by
  unfold evictTag
  split
  · rfl
  · dsimp only
    split <;> simp

theorem allocWay_folds {s t : State} {d sl st w : Nat} (h : allocWay s d sl st = some (w, t)) : t.folds = s.folds := by
  unfold allocWay at h
  dsimp only at h
  split at h
  · cases h; rfl
  · split at h
    · cases h
    · cases h; exact foldl_folds (fun u l => evictTag_folds u d l) _ s

@[simp] theorem placeContent_folds (s : State) (d l : Nat) (x : Line) (dom : BitVec 8) :
    (placeContent s d l x dom).1.folds = s.folds := by
  unfold placeContent
  dsimp only
  split
  · rfl
  · split
    · rfl
    · split
      · rfl
      · next h => simpa using allocWay_folds h

@[simp] theorem tagRoom_folds (s : State) (d l : Nat) : (tagRoom s d l).folds = s.folds := by
  unfold tagRoom
  dsimp only
  split
  · rfl
  · split
    · rfl
    · split
      · rfl
      · exact evictTag_folds _ _ _

@[simp] theorem l2Install_folds (s : State) (d l : Nat) (x : Line) (dom : BitVec 8) (c : BitVec 2) :
    (l2Install s d l x dom c).1.folds = s.folds := by
  simp [l2Install]

@[simp] theorem l2Claim_folds (s : State) (d l : Nat) : (l2Claim s d l).folds = s.folds := by
  refine foldl_folds (fun u k => ?_) _ s
  split <;> rfl

@[simp] theorem putLineBytes_folds (s : State) (l : Nat) (m : BitVec 128) (x : Line) :
    (putLineBytes s l m x).folds = s.folds := by
  unfold putLineBytes
  dsimp only
  split <;> rfl

@[simp] theorem clearLost_folds (s : State) (l : Nat) (m : BitVec 128) : (clearLost s l m).folds = s.folds := by
  unfold clearLost
  split <;> rfl

@[simp] theorem placeOrSend_folds (s : State) (d l : Nat) (x : Line) (t : L2Tag) :
    (placeOrSend s d l x t).folds = s.folds := by
  unfold placeOrSend
  dsimp only
  split <;> simp

@[simp] theorem l2Change_folds (s : State) (d l : Nat) (x old : Line) : (l2Change s d l x old).folds = s.folds := by
  unfold l2Change
  split
  · rfl
  · dsimp only
    split
    · split <;> simp
    · split
      · rfl
      · split
        · rfl
        · split
          · simp
          · split <;> simp

@[simp] theorem peerWrite_folds (s : State) (d h : Nat) (b : Byte) : (peerWrite s d h b).folds = s.folds := rfl

@[simp] theorem l2Write_folds (s : State) (d l : Nat) (m : BitVec 128) (x : Line) (dom : BitVec 8) (c : BitVec 2) :
    (l2Write s d l m x dom c).folds = s.folds := by
  unfold l2Write
  split
  · rfl
  · have h0 : ({ s with nextUid := s.nextUid + 1 } : State).folds = s.folds := rfl
    generalize ({ s with nextUid := s.nextUid + 1 } : State) = s0 at h0 ⊢
    dsimp only
    split
    · simp [apply_ite State.folds, h0]
    · simp [apply_ite State.folds, h0]

@[simp] theorem l2WriteBytes_folds (s : State) (d h : Nat) (bs : List Byte) (lf : Leaf) :
    (l2WriteBytes s d h bs lf).folds = s.folds := by
  unfold l2WriteBytes
  split
  · exact foldl_folds (g := fun u (x : Nat × Byte) => peerWrite u d (h + x.1) x.2) (fun _ _ => rfl) _ s
  · exact l2Write_folds _ _ _ _ _ _ _

end Sys2Proof.Machine
end

section
/-! SUPPORT. A push of one path, and the flock that it leaves (R40). -/

namespace Sys2Proof.Machine

/-! ### What a spill leaves of a fold -/

theorem lsWriteList_foldAt {s : State} {u : Nat} {f : Fold} (h : foldAt s u = some f) (v off : Nat) (bs : List Byte) :
    ∃ g, foldAt (lsWriteList s v off bs) u = some g ∧ g.flocks = f.flocks ∧ g.fail = f.fail := by
  unfold lsWriteList
  split
  · exact ⟨f, h, rfl, rfl⟩
  · next k hk =>
    by_cases hu : u = v
    · subst hu
      obtain rfl : f = k := by simpa [hk] using h.symm
      exact ⟨_, foldAt_putFold hk (foldAt_uid hk :), rfl, rfl⟩
    · refine ⟨f, ?_, rfl, rfl⟩
      rw [foldAt_putFold_other (by simpa [foldAt_uid hk] using hu)]
      exact h

/-- A spill writes memory or a local store: every fold keeps its flocks and its failure code. -/
theorem spillWrite_foldAt {s : State} {u : Nat} {f : Fold} (h : foldAt s u = some f) (d : Nat) (x : PathEntry)
    (sp : Spot) : ∃ g, foldAt (spillWrite s d x sp) u = some g ∧ g.flocks = f.flocks ∧ g.fail = f.fail := by
  cases sp with
  | ls v off => exact lsWriteList_foldAt h v off _
  | mem a lf => exact ⟨f, by simpa [spillWrite, foldAt] using h, rfl, rfl⟩

/-! ### One push -/

/-! The two equations below are proved without smart unfolding: the elaborator then leaves the branches of `pushPaths` as
the kernel meets them. Where they differ, the kernel compares the two unfoldings of the fault branch and recurses too
deep. -/

set_option smartUnfolding false in
/-- While fewer than 32 entries stand in hardware a push takes one more of them. -/
theorem pushPaths_hardware {fl : Flock} (s : State) (e : Env) (x : PathEntry) (hw : fl.hw < 32) :
    pushPaths s e fl [x] = .ok (s, { fl with stack := x :: fl.stack, hw := fl.hw + 1 }) := if_pos hw

set_option smartUnfolding false in
/-- Otherwise the oldest entry in hardware, where the stack is that deep, goes to its spill address. -/
theorem pushPaths_spill {s : State} {e : Env} {fl : Flock} {sp : Spot} (x : PathEntry) (hw : ¬ fl.hw < 32)
    (hsp : spillAccess s e.fold e.launch e.ctx .write (spillAddr e.ctx e.fold fl (fl.stack.length - 32)) = .ok sp) :
    pushPaths s e fl [x]
      = .ok (((x :: fl.stack)[32]?).elim s (fun old => spillWrite s e.fold.die old sp),
             { fl with stack := x :: fl.stack }) := by
  refine (if_neg hw).trans ?_
  rw [hsp]
  cases (x :: fl.stack)[32]? with
  | none => rfl
  | some old => rfl

/-- A push that has room, in the hardware entries or at the spill address of the oldest of them, puts its entry on top;
every fold keeps its flocks and its failure code. -/
theorem pushPaths_one {s : State} {e : Env} {fl : Flock} {f : Fold} {u : Nat} (x : PathEntry) (hf : foldAt s u = some f)
    (room : fl.hw < 32 ∨
      ∃ sp, spillAccess s e.fold e.launch e.ctx .write (spillAddr e.ctx e.fold fl (fl.stack.length - 32)) = .ok sp) :
    ∃ t g, pushPaths s e fl [x]
        = .ok (t, { fl with stack := x :: fl.stack, hw := if fl.hw < 32 then fl.hw + 1 else fl.hw }) ∧
      foldAt t u = some g ∧ g.flocks = f.flocks ∧ g.fail = f.fail := by
  by_cases hw : fl.hw < 32
  · exact ⟨s, f, by rw [pushPaths_hardware s e x hw, if_pos hw], hf, rfl, rfl⟩
  · obtain ⟨sp, hsp⟩ := room.resolve_left hw
    rw [pushPaths_spill x hw hsp, if_neg hw]
    cases (x :: fl.stack)[32]? with
    | none => exact ⟨s, f, rfl, hf, rfl, rfl⟩
    | some old =>
      obtain ⟨g, hg⟩ := spillWrite_foldAt hf e.fold.die old sp
      exact ⟨_, g, rfl, hg⟩

/-- Where the fold has not failed, the flock stands as the push leaves it. -/
theorem flockOf_afterPush {s : State} {e : Env} {f : Fold} {old : Flock} (fl : Flock)
    (hf : foldAt s e.fold.uid = some f) (hfl : flockAt f e.fi = some old) (hfail : f.fail = none) :
    flockOf (afterPush s e fl) e.fold.uid e.fi = some fl := by
  have live : (foldAt s e.fold.uid).any (fun f => f.fail.isSome) = false := by simp [hf, hfail]
  have put : foldAt (putFold s (putFlock f e.fi fl)) e.fold.uid = some (putFlock f e.fi fl) :=
    foldAt_putFold hf (foldAt_uid hf :)
  rw [afterPush, live, if_neg (by decide), onFlock_eq _ hf hfl, flockOf, put]
  exact flockAt_putFlock hfl

end Sys2Proof.Machine
end

section
/-! SUPPORT. BRX and CALL (R39, R130, R131): the division of a split, and the statement about it. -/

namespace Sys2Proof.Slice0

open Machine

/-- BRX and CALL end with the division of the split that their row names. -/
theorem exec_of_divideRow {i : Instr} {s : State} {e : Env} {g : Guard} {n : Names} {fl : Flock} {taken : LaneMask}
    {dest : DWord} (hrow : divideRow e i = some (g, n, fl, taken, dest)) (hr : Ready s g false n e) :
    exec i s = .next (finishControl s e (divide s e fl taken dest)) := by
  unfold divideRow at hrow
  split at hrow
  case h_1 o => cases hrow; exact runControl_of_ready hr _
  case h_2 o => cases hrow; exact runControl_of_ready hr _
  case h_3 => cases hrow

/-- A division that finds a free split or room for its push leaves the flock as R39 gives it. -/
theorem divide_ok {s : State} {e : Env} {fl : Flock} (taken : LaneMask) (dest : DWord)
    (hf : foldAt s e.fold.uid = some e.fold) (hfl : flockAt e.fold e.fi = some e.fl) (hfail : e.fold.fail = none)
    (room : fl.splits.length < 4 ∨ pushRoom s e fl) :
    ∃ t, divide s e fl taken dest = .ok t ∧ Divided s e fl taken dest t := by
  unfold divide Divided
  dsimp only
  split
  · exact ⟨_, rfl, rfl⟩
  · split
    · exact ⟨_, rfl, rfl⟩
    · split
      · exact ⟨_, rfl, rfl⟩
      · next full =>
        obtain ⟨deep, spill⟩ := room.resolve_left full
        rw [if_neg (by omega)]
        obtain ⟨t, g, hpush, hg, hflocks, hgfail⟩ := pushPaths_one
          (fl := { fl with splits := fl.splits.set e.idx { outside e.sp dest with mask := taken } })
          { pc := nextPc e, mask := e.mask &&& ~~~taken, path := e.sp.path, pass := false } hf spill
        have hgfl : flockAt g e.fi = some e.fl := by rw [flockAt, hflocks]; exact hfl
        rw [hpush]
        exact ⟨_, rfl, flockOf_afterPush _ hg hgfl (hgfail.trans hfail)⟩

/-- With four live splits and a full stack, a split that must divide takes PATHSTACK (R39). -/
theorem divide_full {s : State} {e : Env} {fl : Flock} {taken : LaneMask} (dest : DWord) (hlive : 4 ≤ fl.splits.length)
    (hstack : 256 ≤ fl.stack.length) (htaken : taken ≠ 0) (hrest : e.mask &&& ~~~taken ≠ 0) :
    divide s e fl taken dest = .trap (plainTrap 0x1B 0) := by
  have hsplits : ¬ fl.splits.length < 4 := by omega
  simp only [divide, if_neg hrest, if_neg htaken, if_neg hsplits, if_pos hstack]

/-- Settles O14: BRX and CALL end with `divide`, whose push keeps the flock of a fold that has not failed. -/
theorem divideResults : Obligations.DivideResults := by
  intro i s e g n fl taken dest hrow hr hfail
  rw [exec_of_divideRow hrow hr]
  obtain ⟨hcur, hfl, -⟩ := envOf_fold hr.env
  have hf : foldAt s e.fold.uid = some e.fold := by rwa [foldAt_uid hcur]
  constructor
  · intro room
    obtain ⟨t, ht, hdiv⟩ := divide_ok taken dest hf hfl hfail room
    exact ⟨t, by rw [ht]; rfl, hdiv⟩
  · intro hlive hstack htaken hrest
    rw [divide_full dest hlive hstack htaken hrest]
    rfl

end Sys2Proof.Slice0
end

section
/-! SUPPORT. BRA, BRI and LOOP (R129, R133): the issuing split moves as a whole, and the statements about it. -/

namespace Sys2Proof.Slice0

open Machine

/-- Where the body of a control instruction sends the whole split to one address, that is its only effect. -/
theorem runControl_goTo_of_ready {s : State} {g : Guard} {ih : Bool} {n : Names} {e : Env} (hr : Ready s g ih n e)
    {body : Env → Res State} {fl : Flock} {pc : DWord} (hb : body e = .ok (goTo s e fl pc)) :
    runControl s g ih n body = .next (moved s e fl pc) := by
  rw [runControl_of_ready hr, hb]
  rfl

/-! ### BRA and BRI -/

/-- BRA without a condition branches wherever a lane is active. -/
theorem exec_bra_unconditional {s : State} {e : Env} {g : Guard} {disp : BitVec 32} (hr : Ready s g true {} e) :
    exec (.bra ⟨g, none, disp⟩) s = .next (moved s e e.fl (if e.act ≠ 0 then target e disp else next e)) :=
  runControl_goTo_of_ready hr (by simp [target, targetOf, next, nextPc])

/-- BRA on a uniform predicate branches where a lane is active and the predicate, inverted or not, holds. -/
theorem exec_bra_conditional {s : State} {e : Env} {g : Guard} {q : Reg} {neg : Bool} {disp : BitVec 32}
    (hr : Ready s g true { s := [qKey q.toNat] } e) :
    exec (.bra ⟨g, some (q, neg), disp⟩) s
      = .next (moved s e e.fl (if e.act ≠ 0 ∧ (rdQ e q.toNat ^^ neg) = true then target e disp else next e)) :=
  runControl_goTo_of_ready hr (by simp [target, targetOf, next, nextPc])

theorem exec_bri {o : AOp} {s : State} {e : Env}
    (hr : Ready s o.g true { s := [o.a.toNat, o.a.toNat + 1] } e) :
    exec (.bri o) s
      = .next (moved s e e.fl (if e.act ≠ 0 then aligned (pair (readS e 0 o.a.toNat) (readS e 0 (o.a.toNat + 1)))
                               else next e)) :=
  runControl_goTo_of_ready hr (by simp [readS2, clear4, aligned, next, nextPc])

/-- Settles O12: BRA, case by case of its condition, and BRI send the whole split to one address. -/
theorem branchResults : Obligations.BranchResults := by
  constructor
  · rintro ⟨g, cond, disp⟩ s e hr
    cases cond with
    | none =>
      rw [exec_bra_unconditional hr]
      constructor
      · rintro ⟨hact, -⟩
        rw [if_pos hact]
      · intro hc
        rw [if_neg fun hact => hc ⟨hact, trivial⟩]
    | some c =>
      rw [exec_bra_conditional hr]
      exact ⟨fun hc => by rw [if_pos hc], fun hc => by rw [if_neg hc]⟩
  · intro o s e hr
    exact exec_bri hr

/-! ### LOOP -/

/-- With Active empty LOOP moves on and writes nothing. -/
theorem exec_loop_of_act_eq_zero {o : DDispOp} {s : State} {e : Env}
    (hr : Ready s o.g true { s := [o.d.toNat], sw := [o.d.toNat] } e) (hact : e.act = 0) :
    exec (.loop o) s = .next (moved s e e.fl (next e)) :=
  runControl_goTo_of_ready hr (if_pos hact)

/-- Otherwise LOOP writes the decremented counter and branches while it is nonzero. -/
theorem exec_loop_of_act_ne_zero {o : DDispOp} {s : State} {e : Env}
    (hr : Ready s o.g true { s := [o.d.toNat], sw := [o.d.toNat] } e) (hact : e.act ≠ 0) :
    exec (.loop o) s
      = .next (moved s e (setS e e.fl o.d.toNat (readS e 0 o.d.toNat - 1))
          (if readS e 0 o.d.toNat - 1 ≠ 0 then target e o.disp else next e)) := by
  rw [ite_not]
  exact runControl_goTo_of_ready hr (if_neg hact)

/-- A write of a scalar register where a lane is active leaves that register's word and no other change (R133). -/
theorem scalarIs_setS {e : Env} (hact : e.act ≠ 0) (r : Nat) (w : Word) : ScalarIs e (setS e e.fl r w) r w := by
  refine ⟨scalOnly_setS e e.fl r w, fun j => ?_⟩
  rw [setS_scal]
  exact if_congr (and_iff_right hact).symm rfl rfl

/-- Settles O13: with a lane active the flock that LOOP leaves is the old one with the decremented counter. -/
theorem loopResults : Obligations.LoopResults := fun _ _ _ hr =>
  ⟨exec_loop_of_act_eq_zero hr, fun hact => ⟨_, exec_loop_of_act_ne_zero hr hact, scalarIs_setS hact _ _⟩⟩

end Sys2Proof.Slice0
end
